-- ==== Sys2Proof/Word.lean ====
section
/-! DEFINITION. The word types of OWC (rule R8, 00_scope.md). The document's `u8`, `u16`, `u32`,
`u48`, `u64` are unsigned words; everything the spec calls `nat` or `int` is `Nat` or `Int`. -/

namespace Sys2Proof

/-- `u8` (rule R8): result codes, opcodes, family codes and CRC bytes. -/
abbrev Byte := BitVec 8

/-- `u32` (rule R8): every register of the downstream core and every command word. -/
abbrev Word := BitVec 32

/-- `u48` (rule R8): the serial number of a ROM code. -/
abbrev Serial := BitVec 48

/-- The raw 64-bit ROM code of a 1-Wire device (rule R190). -/
abbrev RomCode := BitVec 64

end Sys2Proof
end

