-- ==== Sys2Proof/Config.lean ====
section
/-! DEFINITION. The implementation parameters of OWC (rules R6 and R7, 00_scope.md) in one record,
and the free values: what the spec leaves to an oracle and no plain data of a state supplies.
The record is carried by `State` (field `cfg`) so that a statement about every state is a statement
about every parameter assignment; no step changes it (log entry 1). -/

namespace Sys2Proof

/-- Every parameter of rule R6, by the spec's own names. Offsets, sizes, bounds, times and
frequencies are natural numbers; masks are words. -/
structure Config where
  /-- `BASE_ADDR`: the window's physical base address, first argument of `get_instance`. -/
  baseAddr : Nat
  /-- `ADDR_RANGE`: the window's size in bytes, second argument of `get_instance`. -/
  addrRange : Nat
  offControl : Nat
  offCommand : Nat
  offStatus : Nat
  offRdSize : Nat
  offWrSize : Nat
  offRdData0 : Nat
  offRdData1 : Nat
  offRdData2 : Nat
  offRdData3 : Nat
  offWrData0 : Nat
  offWrData1 : Nat
  offFound : Nat
  offRomId0 : Nat
  offRomId1 : Nat
  /-- `ROM_ID_SHIFT`: entry `i` of the ROM-ID table lies `i << romIdShift` bytes above entry 0. -/
  romIdShift : Nat
  stSrd : Word
  stInt : Word
  stCmdd : Word
  stWrd : Word
  stRdd : Word
  stRstd : Word
  stPres : Word
  stCrce : Word
  stSer : Word
  stSme : Word
  stBusy : Word
  ctlSra : Word
  ctlCrc : Word
  ctlCme : Word
  ctlWre : Word
  ctlRde : Word
  /-- `REG_TRIGGER`: the offset the four trigger words are written to (90_conflicts.md C1). -/
  regTrigger : Nat
  resetPollMax : Nat
  searchPollMax : Nat
  matchPollMax : Nat
  scratchPollMax : Nat
  scratchRetryMax : Nat
  /-- `T_POLL_RESET` and the three like it: the delay between two polls, microseconds (OPEN). -/
  tPollReset : Nat
  tPollSearch : Nat
  tPollMatch : Nat
  tPollScratch : Nat
  /-- `T_CONV(9)` to `T_CONV(12)`, microseconds (rule R228). -/
  tConv9 : Nat
  tConv10 : Nat
  tConv11 : Nat
  tConv12 : Nat
  /-- `RES_DEFAULT` and `REFRESH_DEFAULT`: what the pseudo-operation `ts_create <rom>` supplies. -/
  resDefault : Nat
  refreshDefault : Nat
  rdSizeScratch : Word
  wrSizeRom : Word
  plClkTarget : Nat
  plClkTol : Nat
  /-- `PL_CLK_ID`: which PL clock the generator events act on (OPEN). -/
  plClkId : Nat
  tableCapInit : Nat
  nCtx : Nat
  /-- `N_SENSORS`: how many sensor records the sensor file holds; `none` is "unbounded". -/
  nSensors : Option Nat
  lockReleaseOnAbort : Bool
  deriving DecidableEq, Repr

namespace Config

/-- The defaults of rule R6. The OPEN parameters have no default in the spec; the values they have
here (`baseAddr`, `addrRange`, the four `tPoll…`, `plClkId`, `nSensors`) are the model's
(DESIGN CHOICE, log entry 2), and no statement rests on them. -/
def default : Config where
  baseAddr := 0
  addrRange := 0x10000
  offControl := 0x00
  offCommand := 0x04
  offStatus := 0x08
  offRdSize := 0x0C
  offWrSize := 0x10
  offRdData0 := 0x14
  offRdData1 := 0x18
  offRdData2 := 0x1C
  offRdData3 := 0x20
  offWrData0 := 0x24
  offWrData1 := 0x28
  offFound := 0x2C
  offRomId0 := 0x30
  offRomId1 := 0x34
  romIdShift := 3
  stSrd := 0x001
  stInt := 0x002
  stCmdd := 0x004
  stWrd := 0x008
  stRdd := 0x010
  stRstd := 0x020
  stPres := 0x040
  stCrce := 0x080
  stSer := 0x100
  stSme := 0x200
  stBusy := 0x400
  ctlSra := 0x01
  ctlCrc := 0x02
  ctlCme := 0x08
  ctlWre := 0x10
  ctlRde := 0x20
  regTrigger := 0x04
  resetPollMax := 20
  searchPollMax := 30
  matchPollMax := 20
  scratchPollMax := 20
  scratchRetryMax := 20
  tPollReset := 0
  tPollSearch := 0
  tPollMatch := 0
  tPollScratch := 0
  tConv9 := 93750
  tConv10 := 187500
  tConv11 := 375000
  tConv12 := 750000
  resDefault := 12
  refreshDefault := 5000000
  rdSizeScratch := 72
  wrSizeRom := 64
  plClkTarget := 33333000
  plClkTol := 1000000
  plClkId := 0
  tableCapInit := 8
  nCtx := 1
  nSensors := none
  lockReleaseOnAbort := true

/-- The twelve fixed offsets of rule R7 (b). -/
def fixedOffsets (k : Config) : List Nat :=
  [k.offControl, k.offCommand, k.offStatus, k.offRdSize, k.offWrSize, k.offRdData0, k.offRdData1,
    k.offRdData2, k.offRdData3, k.offWrData0, k.offWrData1, k.offFound]

/-- The eleven STATUS masks in the document's listing order (rules R32 and R110). -/
def statusMasks (k : Config) : List Word :=
  [k.stSrd, k.stInt, k.stCmdd, k.stWrd, k.stRdd, k.stRstd, k.stPres, k.stCrce, k.stSer, k.stSme,
    k.stBusy]

/-- The five CONTROL masks in the document's listing order (rules R30 and R111). -/
def controlMasks (k : Config) : List Word :=
  [k.ctlSra, k.ctlCrc, k.ctlCme, k.ctlWre, k.ctlRde]

/-- The fourteen `OFF_*` parameters of rule R6: the twelve fixed offsets and the table's two bases. -/
def allOffsets (k : Config) : List Nat := k.fixedOffsets ++ [k.offRomId0, k.offRomId1]

/-- The largest of the twelve fixed offsets of rule R7 (b). -/
def maxFixedOffset (k : Config) : Nat := k.fixedOffsets.foldl max 0

/-- A mask is a single set bit (rule R7 (d), (e)). -/
abbrev OneBit (m : Word) : Prop := ∃ i : Fin 32, m = BitVec.twoPow 32 i.val

/-- The constraints of rule R7 on a parameter assignment, (a) to (h), and that every poll bound is
at least 1 (rule R149: "a bound `N >= 1`") with at least one scratchpad attempt. -/
structure Valid (k : Config) : Prop where
  /-- (a) every `OFF_*` value is a multiple of 4. -/
  aligned : ∀ o ∈ k.allOffsets, o % 4 = 0
  /-- (b) the twelve fixed offsets are pairwise distinct. -/
  distinct : k.fixedOffsets.Nodup
  /-- (c) the two halves of an entry differ, and the table is clear of the fixed registers. -/
  halves : k.offRomId0 ≠ k.offRomId1
  tableClear : ∀ i : Nat, ∀ o ∈ k.fixedOffsets,
    k.offRomId0 + (i <<< k.romIdShift) ≠ o ∧ k.offRomId1 + (i <<< k.romIdShift) ≠ o
  /-- `ROM_ID_SHIFT` is the document's 3 (rule R6). -/
  shift : k.romIdShift = 3
  /-- (d) each STATUS mask is one bit, pairwise distinct. -/
  statusBits : (∀ m ∈ k.statusMasks, OneBit m) ∧ k.statusMasks.Nodup
  /-- (e) each CONTROL mask is one bit, pairwise distinct. -/
  controlBits : (∀ m ∈ k.controlMasks, OneBit m) ∧ k.controlMasks.Nodup
  /-- (f) `REG_TRIGGER` is `OFF_COMMAND` or `OFF_CONTROL`. -/
  trigger : k.regTrigger = k.offCommand ∨ k.regTrigger = k.offControl
  /-- (g) the table has room for one entry and there is a context. -/
  capPos : 1 ≤ k.tableCapInit
  ctxPos : 1 ≤ k.nCtx
  /-- (h) the platform's window is a multiple of 4 and holds every fixed register. -/
  window : k.addrRange % 4 = 0 ∧ k.maxFixedOffset + 4 ≤ k.addrRange
  /-- Rule R149: every poll bound is at least 1. -/
  pollsPos : 1 ≤ k.resetPollMax ∧ 1 ≤ k.searchPollMax ∧ 1 ≤ k.matchPollMax ∧
    1 ≤ k.scratchPollMax ∧ 1 ≤ k.scratchRetryMax

/-! The free values (rule R78 and rules R54, R280 to R284): constants without a body, applied to a
counter of draws that the state carries. Nothing can evaluate them or prove a value of them, so a
statement that reads one holds whatever it is. They answer only where a state's scripts of answers
(`Env`, Machine/State.lean) are used up. -/

/-- The answer of the `n`-th unscripted register read: any `u32` (rule R78). -/
opaque freeWord : Nat → Word

/-- The `n`-th unscripted natural number the environment supplies: a PL clock frequency (rule R284),
the time an event takes (rule R282), which agent moves next (rule R50), and the unspecified time stamp
of a new sensor record (rule R221). -/
opaque freeNat : Nat → Nat

/-- The unspecified cached value of a sensor record nothing has read yet (rule R221). -/
opaque freeInt : Nat → Int

end Config

end Sys2Proof
end

