-- ==== Sys2Proof/Syntax.lean ====
section
/-! DEFINITION. The operations of OWC as syntax: the 22 host operations of rule R101 and the sixteen
command words of rules R120 to R135, one constructor for each row of spec/opcode_table.json; the two
formats in which they arrive (HOSTOP, rule R100; CMDWORD, rule R108); the assembler form of rule R106
and the pseudo-operations of rule R107. -/

namespace Sys2Proof

/-- The 22 operations of rule R101, by their mnemonics: what `ctx[c].op` names (rule R46). -/
inductive Op where
  | busInit | busReset | busSearch | busMatch | busRd | busWr
  | addrRom | addrFamily | addrSerial | addrCrc | addrEq
  | devOpen | devClose | devWcmd | devWctl | devWr | devRd
  | tsCreate | tsTemp | tsTempF | tsGetRes | tsSetRes
  deriving DecidableEq, Repr

/-- One constructor for each row of the opcode table. A host operation carries the operands rule R101
says it uses: ROM codes are 64-bit words, register values 32-bit words, and addresses, sizes, offsets,
indexes, times and resolutions natural numbers (they are counted, never wrapped: rule R248). The
search selector is one bit (rule R105). A command word has no field (rule R108). -/
inductive Instr where
  | busInit (base range : Nat)
  | busReset
  | busSearch (alarm : Bool)
  | busMatch (rom : RomCode)
  | busRd (off : Nat)
  | busWr (off : Nat) (v : Word)
  | addrRom (rom : RomCode)
  | addrFamily (rom : RomCode)
  | addrSerial (rom : RomCode)
  | addrCrc (rom : RomCode)
  | addrEq (p q : RomCode)
  | devOpen (rom : RomCode)
  | devClose
  | devWcmd (v : Word)
  | devWctl (v : Word)
  | devWr (off : Nat) (v : Word)
  | devRd (off : Nat)
  | tsCreate (rom : RomCode) (refresh res : Nat)
  | tsTemp (idx : Nat)
  | tsTempF (idx : Nat)
  | tsGetRes (idx : Nat)
  | tsSetRes (idx res : Nat)
  | serialize
  | resetPulse
  | execPullup
  | execNopullup
  | readTimeSlots
  | searchRom
  | readRom
  | matchRom
  | skipRom
  | alarmSearch
  | convertT
  | writeScratchpad
  | readScratchpad
  | copyScratchpad
  | recallE2
  | readPowerSupply
  deriving DecidableEq, Repr

/-- A request as it arrives: a HOSTOP record of 168 bits (rule R100), or a CMDWORD word of 32 bits
(rule R108) that the host hands over to be written to the downstream core (log entry 8). -/
inductive Request where
  | hostOp (record : BitVec 168)
  | cmdWord (w : Word)
  deriving DecidableEq, Repr

/-- The four fields of a HOSTOP record (rule R100). -/
structure Fields where
  op : Byte
  a : BitVec 64
  b : BitVec 64
  c : BitVec 32
  deriving DecidableEq, Repr

/-! The assembler form of rule R106: a lower-case mnemonic and the operands in use, in the order
`a`, `b`, `c`, with the order the rule gives for `bus_wr`, `dev_wr` and `ts_set_res`. -/

/-- One operand of an assembler line: a number, or the selector of `bus_search`. -/
inductive AsmArg where
  | num (n : Nat)
  | rom
  | alarm
  deriving DecidableEq, Repr

/-- One assembler line (rule R106). -/
structure AsmLine where
  mnemonic : String
  args : List AsmArg
  deriving DecidableEq, Repr

/-- Rule R106. A command word is no host operation and has no assembler line of its own. -/
def Instr.asm? : Instr → Option AsmLine
  | .busInit base range => some ⟨"bus_init", [.num base, .num range]⟩
  | .busReset => some ⟨"bus_reset", []⟩
  | .busSearch alarm => some ⟨"bus_search", [if alarm then .alarm else .rom]⟩
  | .busMatch rom => some ⟨"bus_match", [.num rom.toNat]⟩
  | .busRd off => some ⟨"bus_rd", [.num off]⟩
  | .busWr off v => some ⟨"bus_wr", [.num off, .num v.toNat]⟩
  | .addrRom rom => some ⟨"addr_rom", [.num rom.toNat]⟩
  | .addrFamily rom => some ⟨"addr_family", [.num rom.toNat]⟩
  | .addrSerial rom => some ⟨"addr_serial", [.num rom.toNat]⟩
  | .addrCrc rom => some ⟨"addr_crc", [.num rom.toNat]⟩
  | .addrEq p q => some ⟨"addr_eq", [.num p.toNat, .num q.toNat]⟩
  | .devOpen rom => some ⟨"dev_open", [.num rom.toNat]⟩
  | .devClose => some ⟨"dev_close", []⟩
  | .devWcmd v => some ⟨"dev_wcmd", [.num v.toNat]⟩
  | .devWctl v => some ⟨"dev_wctl", [.num v.toNat]⟩
  | .devWr off v => some ⟨"dev_wr", [.num off, .num v.toNat]⟩
  | .devRd off => some ⟨"dev_rd", [.num off]⟩
  | .tsCreate rom refresh res => some ⟨"ts_create", [.num rom.toNat, .num refresh, .num res]⟩
  | .tsTemp idx => some ⟨"ts_temp", [.num idx]⟩
  | .tsTempF idx => some ⟨"ts_temp_f", [.num idx]⟩
  | .tsGetRes idx => some ⟨"ts_get_res", [.num idx]⟩
  | .tsSetRes idx res => some ⟨"ts_set_res", [.num idx, .num res]⟩
  | .serialize | .resetPulse | .execPullup | .execNopullup | .readTimeSlots | .searchRom | .readRom
  | .matchRom | .skipRom | .alarmSearch | .convertT | .writeScratchpad | .readScratchpad
  | .copyScratchpad | .recallE2 | .readPowerSupply => none

/-! The pseudo-operations of rule R107: what the host issues in their place. -/

/-- `search`: a search with the SEARCH_ROM command. -/
def Instr.search : Instr := .busSearch false

/-- `ts_create <rom>`: the defaults for refresh timeout and resolution (rule R107). -/
def Instr.tsCreateDefault (k : Config) (rom : RomCode) : Instr :=
  .tsCreate rom k.refreshDefault k.resDefault

/-- The first `get_instance` of a platform: BUS_INIT with the window of the configuration. -/
def Instr.getInstance (k : Config) : Instr := .busInit k.baseAddr k.addrRange

/-- `with <rom> { body }`: what the host issues after its `dev_open <rom>` has answered. If it
answered `ok = 1` the body and then `dev_close`; if not, nothing. -/
def Instr.withBody (openedOk : Bool) (body : List Instr) : List Instr :=
  if openedOk then body ++ [.devClose] else []

end Sys2Proof
end

