-- ==== Sys2Proof/WellFormed.lean ====
section
/-! DEFINITION. Well-formedness. An operation is well formed when its numbers fit the fields of the
168-bit record that carry them (rule R100); a request is well formed when its opcode is none of the
reserved ones (rule R103) or its word is one of the sixteen command words (rule R108). Operand values
an operation cannot accept do NOT make it ill formed: they end the operation at issue with a fault
result (rules R102 and R104). -/

namespace Sys2Proof

/-- The number fits the 32-bit field `c`, or the 32 bits of `b` that carry a value (rule R100). -/
def fits32 (n : Nat) : Bool := decide (n < 2 ^ 32)

/-- The number fits a 64-bit field, `a` or `b` (rule R100). -/
def fits64 (n : Nat) : Bool := decide (n < 2 ^ 64)

/-- The check of an operation: its numbers fit their fields (rule R100). ROM codes, register values,
the selector and the command words fit by their types. -/
def Instr.wf : Instr → Bool
  | .busInit base range => fits64 base && fits32 range
  | .busRd off => fits32 off
  | .busWr off _ => fits32 off
  | .devWr off _ => fits32 off
  | .devRd off => fits32 off
  | .tsCreate _ refresh res => fits64 refresh && fits32 res
  | .tsTemp idx => fits32 idx
  | .tsTempF idx => fits32 idx
  | .tsGetRes idx => fits32 idx
  | .tsSetRes idx res => fits32 idx && fits32 res
  | .busReset | .busSearch _ | .busMatch _ | .addrRom _ | .addrFamily _ | .addrSerial _ | .addrCrc _
  | .addrEq _ _ | .devOpen _ | .devClose | .devWcmd _ | .devWctl _ => true
  | .serialize | .resetPulse | .execPullup | .execNopullup | .readTimeSlots | .searchRom | .readRom
  | .matchRom | .skipRom | .alarmSearch | .convertT | .writeScratchpad | .readScratchpad
  | .copyScratchpad | .recallE2 | .readPowerSupply => true

/-- An operation whose numbers fit the record (rule R100). -/
abbrev Instr.WellFormed (i : Instr) : Prop := i.wf = true

/-- The reserved opcodes of rule R103: 0x06 to 0x0F, 0x15 to 0x1F, 0x26 to 0x2F, 0x35 to 0xFF. -/
def reservedOpcode (op : Byte) : Bool :=
  let n := op.toNat
  (decide (0x06 ≤ n) && decide (n ≤ 0x0F)) || (decide (0x15 ≤ n) && decide (n ≤ 0x1F)) ||
    (decide (0x26 ≤ n) && decide (n ≤ 0x2F)) || decide (0x35 ≤ n)

/-- The sixteen values of 95_test_vectors.md section 1 (X5, X6), in the order of that table. -/
def commandWords : List Word :=
  [0x00000001, 0x00000008, 0x00000018, 0x00000028, 0x00010000, 0x00000033, 0x00000044, 0x00000048,
    0x0000004E, 0x00000055, 0x000000B4, 0x000000B8, 0x000000BE, 0x000000CC, 0x000000EC, 0x000000F0]

/-- The check of a request (rules R103 and R108). -/
def Request.wf : Request → Bool
  | .hostOp r => !reservedOpcode (r.extractLsb' 160 8)
  | .cmdWord w => commandWords.contains w

/-- A request that names an operation. -/
abbrev Request.WellFormed (r : Request) : Prop := r.wf = true

end Sys2Proof
end

