-- ==== Sys2Proof/Decode.lean ====
section
/-! DEFINITION. Decoding and encoding (30_encoding.md). A HOSTOP record is decoded by its `op` field
alone (rule R102); a CMDWORD word by all its 32 bits (rule R108). Decoding is total and rejects by
name: a reserved opcode (rule R103), a word that is none of the sixteen (rule R119). The encoder is
written from the same tables. Last come the two forms in which the opcode table's own numbering of
bits reaches the decoder. -/

namespace Sys2Proof

/-! ## The opcode map -/

/-- The opcode of an operation, rule R101's table (the encoder's side). -/
def Op.code : Op → Byte
  | .busInit => 0x00#8
  | .busReset => 0x01#8
  | .busSearch => 0x02#8
  | .busMatch => 0x03#8
  | .busRd => 0x04#8
  | .busWr => 0x05#8
  | .addrRom => 0x10#8
  | .addrFamily => 0x11#8
  | .addrSerial => 0x12#8
  | .addrCrc => 0x13#8
  | .addrEq => 0x14#8
  | .devOpen => 0x20#8
  | .devClose => 0x21#8
  | .devWcmd => 0x22#8
  | .devWctl => 0x23#8
  | .devWr => 0x24#8
  | .devRd => 0x25#8
  | .tsCreate => 0x30#8
  | .tsTemp => 0x31#8
  | .tsTempF => 0x32#8
  | .tsGetRes => 0x33#8
  | .tsSetRes => 0x34#8

/-- The operation of an opcode, rule R101's table read the other way; the reserved opcodes of rule
R103 have none. -/
def Op.ofCode (c : Byte) : Option Op :=
  match c.toNat with
  | 0x00 => some .busInit
  | 0x01 => some .busReset
  | 0x02 => some .busSearch
  | 0x03 => some .busMatch
  | 0x04 => some .busRd
  | 0x05 => some .busWr
  | 0x10 => some .addrRom
  | 0x11 => some .addrFamily
  | 0x12 => some .addrSerial
  | 0x13 => some .addrCrc
  | 0x14 => some .addrEq
  | 0x20 => some .devOpen
  | 0x21 => some .devClose
  | 0x22 => some .devWcmd
  | 0x23 => some .devWctl
  | 0x24 => some .devWr
  | 0x25 => some .devRd
  | 0x30 => some .tsCreate
  | 0x31 => some .tsTemp
  | 0x32 => some .tsTempF
  | 0x33 => some .tsGetRes
  | 0x34 => some .tsSetRes
  | _ => none

/-! ## The command words (rules R120 to R135) -/

/-- Rule R120, "serialize". -/
def Cmd.serialize : Word := 0x00000001#32
/-- Rule R121, "reset-pulse": bit 16 alone. -/
def Cmd.resetPulse : Word := 0x00010000#32
/-- Rule R122, "execute-with-pullup". -/
def Cmd.execPullup : Word := 0x00000008#32
/-- Rule R123, "execute-without-pullup". -/
def Cmd.execNopullup : Word := 0x00000018#32
/-- Rule R124, "read-time-slots". -/
def Cmd.readTimeSlots : Word := 0x00000028#32
/-- Rule R125, "search-ROM". -/
def Cmd.searchRom : Word := 0x000000F0#32
/-- Rule R126, "read-ROM". -/
def Cmd.readRom : Word := 0x00000033#32
/-- Rule R127, "match-ROM". -/
def Cmd.matchRom : Word := 0x00000055#32
/-- Rule R128, "skip-ROM". -/
def Cmd.skipRom : Word := 0x000000CC#32
/-- Rule R129, "alarm-search". -/
def Cmd.alarmSearch : Word := 0x000000EC#32
/-- Rule R130, "convert-temperature". -/
def Cmd.convertT : Word := 0x00000044#32
/-- Rule R131, "write-scratchpad". -/
def Cmd.writeScratchpad : Word := 0x0000004E#32
/-- Rule R132, "read-scratchpad". -/
def Cmd.readScratchpad : Word := 0x000000BE#32
/-- Rule R133, "copy-scratchpad". -/
def Cmd.copyScratchpad : Word := 0x00000048#32
/-- Rule R134, "recall-alarm-triggers". -/
def Cmd.recallE2 : Word := 0x000000B8#32
/-- Rule R135, "read-power-supply". -/
def Cmd.readPowerSupply : Word := 0x000000B4#32

/-! ## Decoding -/

/-- Why a request decodes to no operation. -/
inductive Reject where
  /-- The opcode is reserved (rule R103). -/
  | reservedOpcode (op : Byte)
  /-- The word is none of the sixteen command words (rules R108 and R119). -/
  | unlistedWord (w : Word)
  deriving DecidableEq, Repr

/-- What decoding gives. -/
inductive Decoded where
  | instr (i : Instr)
  | reject (r : Reject)
  deriving DecidableEq, Repr

/-- The operation a decoding gives, if any. -/
def Decoded.instr? : Decoded → Option Instr
  | .instr i => some i
  | .reject _ => none

/-- An operation with the operands rule R101 says it uses, taken from the record's fields. A field an
operation does not use is not looked at (rule R100); of `c`, BUS_SEARCH looks at bit 0 only (rule
R105), and of `b` a 32-bit value is the low half. -/
def Op.withFields (o : Op) (a b : BitVec 64) (c : BitVec 32) : Instr :=
  match o with
  | .busInit => .busInit a.toNat c.toNat
  | .busReset => .busReset
  | .busSearch => .busSearch (c.getLsbD 0)
  | .busMatch => .busMatch a
  | .busRd => .busRd c.toNat
  | .busWr => .busWr c.toNat (b.extractLsb' 0 32)
  | .addrRom => .addrRom a
  | .addrFamily => .addrFamily a
  | .addrSerial => .addrSerial a
  | .addrCrc => .addrCrc a
  | .addrEq => .addrEq a b
  | .devOpen => .devOpen a
  | .devClose => .devClose
  | .devWcmd => .devWcmd (b.extractLsb' 0 32)
  | .devWctl => .devWctl (b.extractLsb' 0 32)
  | .devWr => .devWr c.toNat (b.extractLsb' 0 32)
  | .devRd => .devRd c.toNat
  | .tsCreate => .tsCreate a b.toNat c.toNat
  | .tsTemp => .tsTemp c.toNat
  | .tsTempF => .tsTempF c.toNat
  | .tsGetRes => .tsGetRes c.toNat
  | .tsSetRes => .tsSetRes c.toNat (b.extractLsb' 0 32).toNat

/-- The fields of a record: `op` 167:160, `a` 159:96, `b` 95:32, `c` 31:0 (rule R100). -/
def Fields.ofRecord (r : BitVec 168) : Fields where
  op := r.extractLsb' 160 8
  a := r.extractLsb' 96 64
  b := r.extractLsb' 32 64
  c := r.extractLsb' 0 32

/-- Decoding a HOSTOP record (rules R102 and R103). -/
def decodeHostOp (r : BitVec 168) : Decoded :=
  let f := Fields.ofRecord r
  match Op.ofCode f.op with
  | some o => .instr (o.withFields f.a f.b f.c)
  | none => .reject (.reservedOpcode f.op)

/-- The sixteen CMDWORD rows of the opcode table: value and operation. -/
def cmdTable : List (Word × Instr) :=
  [(Cmd.serialize, .serialize), (Cmd.resetPulse, .resetPulse), (Cmd.execPullup, .execPullup),
    (Cmd.execNopullup, .execNopullup), (Cmd.readTimeSlots, .readTimeSlots),
    (Cmd.searchRom, .searchRom), (Cmd.readRom, .readRom), (Cmd.matchRom, .matchRom)] ++
  [(Cmd.skipRom, .skipRom), (Cmd.alarmSearch, .alarmSearch), (Cmd.convertT, .convertT),
    (Cmd.writeScratchpad, .writeScratchpad), (Cmd.readScratchpad, .readScratchpad),
    (Cmd.copyScratchpad, .copyScratchpad), (Cmd.recallE2, .recallE2),
    (Cmd.readPowerSupply, .readPowerSupply)]

/-- The row of a table whose value is `w`. -/
def lookupWord (w : Word) : List (Word × Instr) → Option Instr
  | [] => none
  | (v, i) :: rest => if w = v then some i else lookupWord w rest

/-- Decoding a CMDWORD word: the whole word must match (rule R108, mask 0xFFFFFFFF). -/
def decodeCmdWord (w : Word) : Decoded :=
  match lookupWord w cmdTable with
  | some i => .instr i
  | none => .reject (.unlistedWord w)

/-- Decoding, total on every request. -/
def decode : Request → Decoded
  | .hostOp r => decodeHostOp r
  | .cmdWord w => decodeCmdWord w

/-! ## Encoding -/

/-- The record of four fields (rule R100). -/
def Fields.toRecord (f : Fields) : BitVec 168 :=
  (f.op.zeroExtend 168 <<< 160) ||| (f.a.zeroExtend 168 <<< 96) ||| (f.b.zeroExtend 168 <<< 32) |||
    f.c.zeroExtend 168

/-- A 32-bit value in `b[31:0]`, the upper half zero (rule R100). -/
def inLowHalf (v : Word) : BitVec 64 := v.zeroExtend 64

/-- The record of an operation; unused fields are zero. -/
def hostRecord (o : Op) (a b : BitVec 64) (c : BitVec 32) : Request :=
  .hostOp (Fields.toRecord ⟨o.code, a, b, c⟩)

/-- The request of an operation, from rules R100, R101, R105 and R120 to R135. -/
def encode : Instr → Request
  | .busInit base range => hostRecord .busInit (BitVec.ofNat 64 base) 0 (BitVec.ofNat 32 range)
  | .busReset => hostRecord .busReset 0 0 0
  | .busSearch alarm => hostRecord .busSearch 0 0 (if alarm then 1 else 0)
  | .busMatch rom => hostRecord .busMatch rom 0 0
  | .busRd off => hostRecord .busRd 0 0 (BitVec.ofNat 32 off)
  | .busWr off v => hostRecord .busWr 0 (inLowHalf v) (BitVec.ofNat 32 off)
  | .addrRom rom => hostRecord .addrRom rom 0 0
  | .addrFamily rom => hostRecord .addrFamily rom 0 0
  | .addrSerial rom => hostRecord .addrSerial rom 0 0
  | .addrCrc rom => hostRecord .addrCrc rom 0 0
  | .addrEq p q => hostRecord .addrEq p q 0
  | .devOpen rom => hostRecord .devOpen rom 0 0
  | .devClose => hostRecord .devClose 0 0 0
  | .devWcmd v => hostRecord .devWcmd 0 (inLowHalf v) 0
  | .devWctl v => hostRecord .devWctl 0 (inLowHalf v) 0
  | .devWr off v => hostRecord .devWr 0 (inLowHalf v) (BitVec.ofNat 32 off)
  | .devRd off => hostRecord .devRd 0 0 (BitVec.ofNat 32 off)
  | .tsCreate rom refresh res =>
    hostRecord .tsCreate rom (BitVec.ofNat 64 refresh) (BitVec.ofNat 32 res)
  | .tsTemp idx => hostRecord .tsTemp 0 0 (BitVec.ofNat 32 idx)
  | .tsTempF idx => hostRecord .tsTempF 0 0 (BitVec.ofNat 32 idx)
  | .tsGetRes idx => hostRecord .tsGetRes 0 0 (BitVec.ofNat 32 idx)
  | .tsSetRes idx res =>
    hostRecord .tsSetRes 0 (inLowHalf (BitVec.ofNat 32 res)) (BitVec.ofNat 32 idx)
  | .serialize => .cmdWord Cmd.serialize
  | .resetPulse => .cmdWord Cmd.resetPulse
  | .execPullup => .cmdWord Cmd.execPullup
  | .execNopullup => .cmdWord Cmd.execNopullup
  | .readTimeSlots => .cmdWord Cmd.readTimeSlots
  | .searchRom => .cmdWord Cmd.searchRom
  | .readRom => .cmdWord Cmd.readRom
  | .matchRom => .cmdWord Cmd.matchRom
  | .skipRom => .cmdWord Cmd.skipRom
  | .alarmSearch => .cmdWord Cmd.alarmSearch
  | .convertT => .cmdWord Cmd.convertT
  | .writeScratchpad => .cmdWord Cmd.writeScratchpad
  | .readScratchpad => .cmdWord Cmd.readScratchpad
  | .copyScratchpad => .cmdWord Cmd.copyScratchpad
  | .recallE2 => .cmdWord Cmd.recallE2
  | .readPowerSupply => .cmdWord Cmd.readPowerSupply

/-! ## The opcode table's numbering of bits

The table numbers a request from its first unit on: bit 0 is the least significant bit of the first
byte of a HOSTOP record, or of the one 32-bit unit of a CMDWORD. The record is laid out with `op`
first, as it is written (rule R106: "the four fields `op a b c`"), so its first byte is its most
significant one (log entry 9). -/

/-- The number whose 21 base-256 digits are those of `w`, the first digit most significant: the
record whose first byte is byte 0 of `w`. -/
def firstByteOnTop (w : Nat) : Nat → Nat
  | 0 => 0
  | k + 1 => firstByteOnTop w k * 256 + (w / 256 ^ k) % 256

/-- The request whose bits, as the opcode table numbers them, are `w`, the bits from `nbits` on being
zero. Rows of 32 bits are the CMDWORD rows; the others are HOSTOP rows, whose table bits are those of
the opcode. -/
def Request.ofTableWord (nbits w : Nat) : Request :=
  if nbits = 32 then .cmdWord (BitVec.ofNat 32 w)
  else .hostOp (BitVec.ofNat 168 (firstByteOnTop (w % 2 ^ nbits) 21))

/-- The operation the decoder reads from a request given in the table's numbering. -/
def decodeTableWord (nbits w : Nat) : Option Instr :=
  (decode (Request.ofTableWord nbits w)).instr?

end Sys2Proof
end

