-- ==== Sys2Proof/Machine/State.lean ====
section
/-! DEFINITION. The state of OWC as plain data (10_state.md): the shared state of the Bus Protocol
Engine (rules R21 to R28), the sensor file (rules R40 to R45), the contexts' sequencer state (rules R46
to R49), the external clocks (rule R54), and what stands for the outside world: the host's queue of
requests and its received results (rule R51), the trace of events (rule R50) and the scripts from which
the oracles answer (rule R78). The registers of the downstream core are not state (rules R29 and R39):
a write shows in the trace, a read is answered by the oracle. -/

namespace Sys2Proof.Machine

/-! ## Failures and faults of OWC, which are results (60_exceptions.md) -/

/-- The document's failures (rule R260). Class (f), `crc`, is reserved and nothing raises it (R265). -/
inductive Err where
  | ok | noPresence | searchProtocol | searchMemory | addrTimeout | convertTimeout | scratchRead | crc
  | searchTimeout
  deriving DecidableEq, Repr

/-- The six model-level faults of rules R266 to R271, with what each records. They are results
delivered to the host (rule R272), not stops of the machine. -/
inductive HostFault where
  /-- `F_BAD_OP(op)`: a reserved opcode (R266). -/
  | badOp (op : Byte)
  /-- `F_NOT_INIT`: a bus operation before BUS_INIT (R267). -/
  | notInit
  /-- `F_WINDOW(off)`: a register access outside the window or misaligned (R268). -/
  | window (off : Nat)
  /-- `F_BAD_OPERAND`: a sensor index, a resolution or a full sensor file (R269). -/
  | badOperand
  /-- `F_INIT(range)`: an invalid window at construction (R270). -/
  | init (range : Nat)
  /-- `F_NO_SCOPE`: a passthrough access outside a device scope (R271). -/
  | noScope
  deriving DecidableEq, Repr

/-- The value of a result, when the operation has one (rules R10 and R101). -/
inductive Val where
  | none
  | u8 (v : Byte)
  | u32 (v : Word)
  | u48 (v : Serial)
  | u64 (v : RomCode)
  | bool (b : Bool)
  | roms (l : List RomCode)
  | nat (n : Nat)
  | int (m : Int)
  deriving DecidableEq, Repr

/-- A result record (rule R10). `fault` holds the payload of a fault ("It records the offset", R268)
and is `none` for a success or a failure. -/
structure Result where
  ok : Bool
  err : Byte
  val : Val
  fault : Option HostFault
  deriving DecidableEq, Repr

/-! ## Events (rule R9) -/

/-- One interaction of OWC across a port, with its arguments and its answer. -/
inductive Event where
  /-- `R(off) = v` (R71). -/
  | read (off : Nat) (v : Word)
  /-- `W(off, v)` (R72). -/
  | write (off : Nat) (v : Word)
  /-- `D(d)`: a delay of at least `d` microseconds (R281). -/
  | delay (d : Nat)
  /-- `Now = t` (R280). -/
  | now (t : Nat)
  /-- `ClkGet = f` (R284). -/
  | clkGet (f : Nat)
  /-- `ClkSet(f)` (R284). -/
  | clkSet (f : Nat)
  /-- `LockTAS = b` (R86). -/
  | lockTas (b : Bool)
  deriving DecidableEq, Repr

/-! ## The sequencer (rule R47) -/

/-- The phases of rule R47. A phase belongs to one operation, so a frame, which the rule calls a pair
(operation, phase), is a phase; `Phase.op` (Machine/Ops.lean) gives the pair's first part. `oReset`,
`oMatch`, `tOpen1`, `tOpen2` and `fCall` are call phases, all others event phases. -/
inductive Phase where
  | iClkget | iClkset
  | rstCmd | rstPoll | rstWait
  | sLock | sCmd | sSer | sPoll | sWait | sFound | sLo | sHi
  | mCmd | mD0 | mD1 | mSz | mExec | mPoll | mWait
  | rdAcc | wrAcc
  | oReset | oMatch
  | wcAcc | wtAcc | dwAcc | drAcc
  | tNow0 | tOpen1 | tConvCmd | tConvExec | tConvWait | tConvChk
  | tOpen2 | tRdCmd | tRdSz | tRdExec | tRdPoll | tRdWait | tRdData | tNow1
  | fCall
  deriving DecidableEq, Repr

/-- The ghost of rule R28: what OWC has established about the 1-Wire bus. -/
inductive BusPhase where
  | unknown
  | resetDone
  | matched (rom : RomCode)
  deriving DecidableEq, Repr

/-- The states of the temperature sensor driver (rules R45 and R223). -/
inductive Fsm where
  | idle
  | conversionInProgress
  | conversionComplete
  deriving DecidableEq, Repr

/-- One record of the sensor file (rules R40 to R45). -/
structure Sensor where
  /-- The ROM code of the device this record drives (R41). -/
  addr : RomCode
  /-- The stored resolution, 9 to 12 (R42). -/
  res : Nat
  /-- The refresh timeout, microseconds (R44). -/
  refresh : Nat
  cacheValid : Bool
  /-- Thousandths of a degree Celsius (R43). -/
  cacheVal : Int
  cacheTs : Nat
  fsm : Fsm
  deriving DecidableEq, Repr

/-- One context, `ctx[c]` (rules R46 to R49). -/
structure Ctx where
  /-- The operation in flight; `none` is `IDLE` (R46). -/
  op : Option Op
  /-- The sequencer position, a stack of frames (R47), the TOP frame first. -/
  pc : List Phase
  /-- STATUS reads made in the current poll loop (R48). -/
  pollCnt : Nat
  /-- Scratchpad-read attempts started in the current TS_TEMP (R48). -/
  retryCnt : Nat
  opa : BitVec 64
  opb : BitVec 64
  opc : BitVec 32
  tStatus : Word
  tFound : Word
  tIdx : Nat
  tLo : Word
  tNow : Nat
  tRaw : Word
  devOpen : Bool
  devAddr : RomCode
  lastErr : Byte
  deriving DecidableEq, Repr

/-! ## The outside world -/

/-- The oracles (rules R54, R78, R280 to R284) as plain data: what the environment is going to answer,
the next answer first. Where a script is used up the answer is a free value of Config.lean, applied to
`draws`. -/
structure Env where
  /-- Answers to `RegRead`. -/
  regs : List Word
  /-- Answers to `ClkGet`. -/
  clks : List Nat
  /-- Microseconds that pass in an event beyond what the event itself asks for (R282). -/
  dts : List Nat
  /-- Which of the agents that can move moves next (R50). -/
  picks : List Nat
  /-- How many free values have been drawn. -/
  draws : Nat
  deriving DecidableEq, Repr

/-- The state of OWC and of what it meets at its ports. -/
structure State where
  /-- The parameters (rule R6); no step changes them. -/
  cfg : Config
  /-- R21. -/
  initialized : Bool
  /-- R22. -/
  baseAddr : Nat
  /-- R22. -/
  addrRange : Nat
  /-- The search lock (R23). -/
  lock : Bool
  /-- The occupied entries of the address table in table order (R24, R26): `num_roms` is its length. -/
  tab : List RomCode
  /-- The capacity of the address table (R25). -/
  cap : Nat
  /-- The ghost of rule R28. -/
  busPhase : BusPhase
  /-- The sensor file (R40): `n_sens` is its length. -/
  sens : List Sensor
  /-- The contexts (R46, R285): `N_CTX` of them. -/
  ctxs : List Ctx
  /-- The monotonic clock, microseconds (R54 (a)). -/
  clock : Nat
  /-- The PL clock frequency last answered by `ClkGet` or set by `ClkSet`, hertz (R54 (b), R284). -/
  plClk : Nat
  /-- The context that takes the step in progress (the model's own field, log entry 5). -/
  cur : Nat
  env : Env
  /-- What the host is going to issue, and to which context, the next request first (R51). -/
  inbox : List (Nat × Request)
  /-- The results delivered to the host, with their contexts, the newest first (R51). -/
  outbox : List (Nat × Result)
  /-- The trace (R50): the events with their contexts, the newest first. -/
  trace : List (Nat × Event)
  deriving DecidableEq, Repr

/-! ## Stops of the machine -/

/-- Why the machine stops with a fault. -/
inductive Fault where
  /-- The sequencer position, or what the operation in flight needs (a sensor record, a latched
  opcode), is none the spec describes. Raised by the sequencer (`advance`, `ret` and the phases).
  Safe: no run from reset meets it, and rule R47 gives such a position no meaning. -/
  | badSequencer
  deriving DecidableEq, Repr

/-- Why an operation is refused without a meaning. -/
inductive Refusal where
  /-- The instruction has no meaning yet. Raised by `exec`'s refused arms only; safe. -/
  | notModelled (mnemonic : String)
  /-- The request names a context at or above `N_CTX`. Raised by every meaning and by the step's issue
  of a request; safe: rule R100 has the context number in `0 .. N_CTX-1`. -/
  | noSuchContext
  /-- The context has another operation in flight. Raised by every meaning when it is asked for in
  such a context; safe: "The host may issue an operation to context `c` only when `ctx[c].op = IDLE`"
  (R51), and the step never issues into a busy context. -/
  | contextBusy
  /-- A CMDWORD request whose word is none of the sixteen. Raised by the step's issue; safe: such a
  word is no row of the table (rules R108 and R119), and BUS_WR or a DEV passthrough carries it. -/
  | unlistedWord (w : Word)
  deriving DecidableEq, Repr

/-! ## Reset (rules R53, R300 to R302) -/

/-- A context at reset: idle, its stack empty, counters and flags 0 (R53). The operand latches, the
temporaries and `dev_addr`, which the spec leaves unspecified, are 0 here (DESIGN CHOICE, log entry
3). -/
def Ctx.reset : Ctx where
  op := none
  pc := []
  pollCnt := 0
  retryCnt := 0
  opa := 0
  opb := 0
  opc := 0
  tStatus := 0
  tFound := 0
  tIdx := 0
  tLo := 0
  tNow := 0
  tRaw := 0
  devOpen := false
  devAddr := 0
  lastErr := 0

/-- No scripted answer: every oracle answers with free values. -/
def Env.reset : Env where
  regs := []
  clks := []
  dts := []
  picks := []
  draws := 0

/-- The state after reset under a parameter assignment (R53). `base_addr`, `addr_range`, the clock and the
PL clock frequency, which the spec leaves unspecified, are 0 here (DESIGN CHOICE, log entry 3). `cap`, which
rule R53 leaves unspecified until BUS_INIT, is `TABLE_CAP_INIT`, so that rule R27 (e) is true after reset
(DESIGN CHOICE, log entry 23). The host has issued nothing. -/
def State.resetWith (k : Config) : State where
  cfg := k
  initialized := false
  baseAddr := 0
  addrRange := 0
  lock := false
  tab := []
  cap := k.tableCapInit
  busPhase := .unknown
  sens := []
  ctxs := List.replicate k.nCtx Ctx.reset
  clock := 0
  plClk := 0
  cur := 0
  env := Env.reset
  inbox := []
  outbox := []
  trace := []

/-- The machine right after reset, with the default parameters of rule R6. -/
def State.reset : State := State.resetWith Config.default

end Sys2Proof.Machine
end

