-- ==== Sys2Proof/Machine/Flags.lean ====
section
/-! DEFINITION. Flags (rules R32, R52, R110) and codes (rules R260 and R272). OWC has no condition
codes: the flags it computes are the tests of a STATUS answer, and the `err` byte of a result. -/

namespace Sys2Proof.Machine

/-- A flag of a STATUS word: `(s & ST_x) != 0` (R110). All other bits are ignored (R32). -/
def flagSet (status mask : Word) : Bool := decide (status &&& mask ≠ 0)

/-- What one STATUS answer of S_POLL says, in the priority of rule R160. -/
inductive SearchPoll where
  | protocolError
  | memoryError
  | done
  | pending
  deriving DecidableEq, Repr

/-- The tests of one S_POLL answer: search-error, then search-memory-error, then search-done (R160). -/
def searchPoll (k : Config) (status : Word) : SearchPoll :=
  if flagSet status k.stSer then .protocolError
  else if flagSet status k.stSme then .memoryError
  else if flagSet status k.stSrd then .done
  else .pending

/-- The `err` code of a failure (R260). -/
def Err.code : Err → Byte
  | .ok => 0
  | .noPresence => 1
  | .searchProtocol => 2
  | .searchMemory => 3
  | .addrTimeout => 4
  | .convertTimeout => 5
  | .scratchRead => 6
  | .crc => 7
  | .searchTimeout => 8

/-- The `err` code of a fault: 0xF0 + k (R272). -/
def HostFault.code : HostFault → Byte
  | .badOp _ => 0xF0
  | .notInit => 0xF1
  | .window _ => 0xF2
  | .badOperand => 0xF3
  | .init _ => 0xF4
  | .noScope => 0xF5

/-- A success (R10). -/
def Result.success (v : Val) : Result := ⟨true, Err.ok.code, v, none⟩

/-- A failure: `ok = 0` and a code, with the value the operation's rule gives (none but for a search,
whose value is the empty list). -/
def Result.failure (e : Err) (v : Val) : Result := ⟨false, e.code, v, none⟩

/-- A failure handed on by a caller with the callee's code (R225, R242, R276). -/
def Result.failureCode (e : Byte) : Result := ⟨false, e, .none, none⟩

/-- A fault's result record (R272). Its `val` is `none`, that of a BUS_SEARCH ended by `F_WINDOW` included:
R272 gives `ok` and `err` only, and the empty list of decision D14 is said of a failure (DESIGN CHOICE, log
entry 17). -/
def Result.ofFault (f : HostFault) : Result := ⟨false, f.code, .none, some f⟩

end Sys2Proof.Machine
end

