-- ==== Sys2Proof/Machine/Operands.lean ====
section
/-! DEFINITION. Operand forms and the arithmetic of OWC (rule R248), all of it exact: fields of words,
the assembly of a ROM code and of a ROM-ID offset, the window check, the temperature decode, the
conversion delay, and the operand ranges tested at issue (rule R104). -/

namespace Sys2Proof.Machine

/-! ## ROM codes (rules R80, R82, R113, R116, R190) -/

/-- `rom[7:0]` (R190). -/
def romFamily (rom : RomCode) : Byte := rom.extractLsb' 0 8

/-- `rom[55:8]` (R190). -/
def romSerial (rom : RomCode) : Serial := rom.extractLsb' 8 48

/-- `rom[63:56]` (R190). -/
def romCrc (rom : RomCode) : Byte := rom.extractLsb' 56 8

/-- `rom[31:0]`, what is written to WR_DATA0 (R80). -/
def romLo (rom : RomCode) : Word := rom.extractLsb' 0 32

/-- `rom[63:32]`, what is written to WR_DATA1 (R80). -/
def romHi (rom : RomCode) : Word := rom.extractLsb' 32 32

/-- `hi : lo`, the ROM code of a pair of halves (R80, R113). -/
def romOfHalves (hi lo : Word) : RomCode := hi ++ lo

/-- Equality of addresses: of all 64 bits (R195). -/
def romEq (p q : RomCode) : Bool := p == q

/-! ## Offsets (rules R74, R75, R114) -/

/-- The offset of the low half of ROM-ID entry `i`; no wrap-around (R114). -/
def romIdLo (k : Config) (i : Nat) : Nat := k.offRomId0 + (i <<< k.romIdShift)

/-- The offset of the high half of ROM-ID entry `i`; no wrap-around (R114). -/
def romIdHi (k : Config) (i : Nat) : Nat := k.offRomId1 + (i <<< k.romIdShift)

/-- The window check of rule R74: aligned and inside the window. -/
def inWindow (range off : Nat) : Bool := decide (off % 4 = 0) && decide (off + 4 ≤ range)

/-- `ValidWindow(range)` of rule R151: a multiple of 4 that holds every fixed register. -/
def validWindow (k : Config) (range : Nat) : Bool :=
  decide (range % 4 = 0) && decide (k.maxFixedOffset + 4 ≤ range)

/-! ## The search selector (rule R105) -/

/-- The command word a selector stands for: SEARCH_ROM or ALARM_SEARCH. -/
def searchWord (alarm : Bool) : Word := if alarm then Cmd.alarmSearch else Cmd.searchRom

/-- The selector in a latched `c` operand: bit 0. -/
def selector (c : BitVec 32) : Bool := c.getLsbD 0

/-- The 32-bit value in a latched `b` operand: `b[31:0]`. -/
def valueOf (b : BitVec 64) : Word := b.extractLsb' 0 32

/-! ## The PL clock test (rule R152) -/

/-- The frequency is within the tolerance of the target, both ends included. -/
def clkInTolerance (k : Config) (f : Nat) : Bool :=
  decide (((f : Int) - (k.plClkTarget : Int)).natAbs ≤ k.plClkTol)

/-! ## Temperature (rules R115, R237 to R239, R242) -/

/-- `sext_16(t_raw[15:0])`: sixteenths of a degree Celsius (R237). The first 16 bits of the received stream
are bits 15 to 0 of RD_DATA0, byte 0 of the scratchpad the low byte (R35, R81). -/
def rawTemp (w : Word) : Int := (w.extractLsb' 0 16).toInt

/-- `MilliC(q)`: thousandths of a degree Celsius, ties to even (R238). -/
def milliC (q : Int) : Int :=
  let n := 125 * q
  let h := n / 2
  if n % 2 = 0 then h
  else if h % 2 = 0 then h
  else h + 1

/-- Ten-thousandths of a degree Fahrenheit of a Celsius value in thousandths (R242). -/
def fahrenheit (m : Int) : Int := 18 * m + 320000

/-- A resolution OWC stores: 9, 10, 11 or 12 (R104). -/
def validRes (r : Nat) : Bool := decide (9 ≤ r) && decide (r ≤ 12)

/-- `T_CONV(r)`, microseconds (R228). -/
def convDelay (k : Config) (r : Nat) : Option Nat :=
  if r = 9 then some k.tConv9
  else if r = 10 then some k.tConv10
  else if r = 11 then some k.tConv11
  else if r = 12 then some k.tConv12
  else none

/-- The sensor file holding `n` records has room for another (R104, R221). -/
def fileHasRoom (k : Config) (n : Nat) : Bool :=
  match k.nSensors with
  | none => true
  | some most => decide (n < most)

/-- The cached reading is younger than the refresh timeout, strictly (R224). -/
def Sensor.fresh (x : Sensor) (now : Nat) : Bool :=
  x.cacheValid && decide (now < x.cacheTs + x.refresh)

end Sys2Proof.Machine
end

