-- ==== Sys2Proof/Machine/Ops.lean ====
section
/-! DEFINITION. The shared operations: contexts, the oracles, the events of rule R9 over the register
port and the clocks, the end of an operation (rule R51), and raising a fault (rules R266 to R272), which
is what stands in OWC for taking an exception. -/

namespace Sys2Proof.Machine

/-- One step's outcome. -/
abbrev Out := Host.Outcome State Fault Refusal

/-- The operation a phase belongs to (R47): the first part of the frame (operation, phase). -/
def Phase.op : Phase → Op
  | .iClkget | .iClkset => .busInit
  | .rstCmd | .rstPoll | .rstWait => .busReset
  | .sLock | .sCmd | .sSer | .sPoll | .sWait | .sFound | .sLo | .sHi => .busSearch
  | .mCmd | .mD0 | .mD1 | .mSz | .mExec | .mPoll | .mWait => .busMatch
  | .rdAcc => .busRd
  | .wrAcc => .busWr
  | .oReset | .oMatch => .devOpen
  | .wcAcc => .devWcmd
  | .wtAcc => .devWctl
  | .dwAcc => .devWr
  | .drAcc => .devRd
  | .tNow0 | .tOpen1 | .tConvCmd | .tConvExec | .tConvWait | .tConvChk | .tOpen2 | .tRdCmd | .tRdSz
  | .tRdExec | .tRdPoll | .tRdWait | .tRdData | .tNow1 => .tsTemp
  | .fCall => .tsTempF

/-! ## Views of the state -/

/-- `num_roms` (R26). -/
def State.numRoms (s : State) : Nat := s.tab.length

/-- `n_sens` (R40). -/
def State.nSens (s : State) : Nat := s.sens.length

/-- The context that takes the step. -/
def State.ctx? (s : State) : Option Ctx := s.ctxs[s.cur]?

/-- Context `c` has an operation in flight (R46). -/
def State.busy (s : State) (c : Nat) : Bool :=
  match s.ctxs[c]? with
  | some x => x.op.isSome
  | none => false

/-- Write registers of the context that takes the step. -/
def State.updCtx (f : Ctx → Ctx) (s : State) : State := { s with ctxs := s.ctxs.modify s.cur f }

/-- Write the sequencer position of the context that takes the step (R55). -/
def State.goto (pc : List Phase) (s : State) : State := s.updCtx fun x => { x with pc := pc }

/-- Write a sensor record. -/
def State.updSensor (i : Nat) (f : Sensor → Sensor) (s : State) : State :=
  { s with sens := s.sens.modify i f }

/-! ## The oracles (rules R78, R280 to R284) -/

/-- The answer to the next register read. -/
def Env.word (e : Env) : Word :=
  match e.regs with
  | v :: _ => v
  | [] => Config.freeWord e.draws

def Env.afterWord (e : Env) : Env :=
  match e.regs with
  | _ :: vs => { e with regs := vs }
  | [] => { e with draws := e.draws + 1 }

/-- The answer to the next `ClkGet`. -/
def Env.clk (e : Env) : Nat :=
  match e.clks with
  | f :: _ => f
  | [] => Config.freeNat e.draws

def Env.afterClk (e : Env) : Env :=
  match e.clks with
  | _ :: fs => { e with clks := fs }
  | [] => { e with draws := e.draws + 1 }

/-- The time the next event takes beyond what it asks for. -/
def Env.dt (e : Env) : Nat :=
  match e.dts with
  | d :: _ => d
  | [] => Config.freeNat e.draws

def Env.afterDt (e : Env) : Env :=
  match e.dts with
  | _ :: ds => { e with dts := ds }
  | [] => { e with draws := e.draws + 1 }

/-- The scheduler's next choice (R50). -/
def Env.pick (e : Env) : Nat :=
  match e.picks with
  | p :: _ => p
  | [] => Config.freeNat e.draws

def Env.afterPick (e : Env) : Env :=
  match e.picks with
  | _ :: ps => { e with picks := ps }
  | [] => { e with draws := e.draws + 1 }

/-! ## Events (rule R9) -/

/-- Record an event of the context that takes the step (R50). -/
def State.log (e : Event) (s : State) : State := { s with trace := (s.cur, e) :: s.trace }

/-- Time passes: at least `d` microseconds (R281, R282). -/
def State.tick (d : Nat) (s : State) : State :=
  { s with clock := s.clock + d + s.env.dt, env := s.env.afterDt }

/-- The window check on this state's window (R74). -/
def State.admitted (s : State) (off : Nat) : Bool := inWindow s.addrRange off

/-- The physical address of an offset of the window (R70): what `base_addr` is for (R22). The port is given
the offset (R71, R72), so no event carries it. -/
def State.physical (s : State) (off : Nat) : Nat := s.baseAddr + off

/-- What the register port answers to the next read (R78). -/
def State.answer (s : State) : Word := s.env.word

/-- The state after the event `R(off) = v` (R71). -/
def State.didRead (off : Nat) (s : State) : State :=
  (({ s with env := s.env.afterWord } : State).tick 0).log (.read off s.answer)

/-- The state after the event `W(off, v)` (R72): the downstream core has been told, and tells nothing. -/
def State.didWrite (off : Nat) (v : Word) (s : State) : State := (s.tick 0).log (.write off v)

/-- The state after the event `D(d)` (R281). -/
def State.didDelay (d : Nat) (s : State) : State := (s.tick d).log (.delay d)

/-- What `Now()` answers in this state: the clock at the end of the event (R280). -/
def State.nowAnswer (s : State) : Nat := (s.tick 0).clock

/-- The state after the event `Now = t` (R280). -/
def State.didNow (s : State) : State := (s.tick 0).log (.now s.nowAnswer)

/-- The state after the event `ClkGet = f` (R284). -/
def State.didClkGet (s : State) : State :=
  (({ s with plClk := s.env.clk, env := s.env.afterClk } : State).tick 0).log (.clkGet s.env.clk)

/-- The state after the event `ClkSet(f)` (R284). -/
def State.didClkSet (f : Nat) (s : State) : State :=
  (({ s with plClk := f } : State).tick 0).log (.clkSet f)

/-- The state after the event `LockTAS = b` (R86): test and set in one step. -/
def State.didLockTas (s : State) : State :=
  (({ s with lock := true } : State).tick 0).log (.lockTas (!s.lock))

/-! ## The end of an operation (rule R51) -/

/-- `return r` of the bottom frame: the result goes to the host, `last_err` takes its code, the
sequencer is emptied and the context is idle (R51). -/
def State.deliver (r : Result) (s : State) : State :=
  { s.updCtx fun x => { x with op := none, pc := [], lastErr := r.err } with
    outbox := (s.cur, r) :: s.outbox }

/-- `raise F(info)`: what stands for taking an exception (R266 to R272, R275). The operation ends and
its result record says so; there is no handler, no saved state and no mode. -/
def State.raise (f : HostFault) (s : State) : State := s.deliver (Result.ofFault f)

/-- Issue latches the operands, before the request is tested (R49, R51, R85); a field the operation does
not use is latched as 0 (log entry 12). -/
def State.latch (a b : BitVec 64) (c : BitVec 32) (s : State) : State :=
  s.updCtx fun x => { x with opa := a, opb := b, opc := c }

/-- Issue of an operation that has an event to make: the opcode is latched and the first frames are pushed
(R51). An operation that ends at issue is `IDLE` again in the same step, so `op` is not seen to change. -/
def State.start (o : Op) (pc : List Phase) (s : State) : State :=
  s.updCtx fun x => { x with op := some o, pc := pc }

/-! ## Register accesses of a phase (rules R71, R72, R74) -/

/-- A phase's `RegRead`: "Before the event the window check of rule R74 is applied". -/
def readReg (off : Nat) (s : State) (k : Word → State → Out) : Out :=
  if s.admitted off then k s.answer (s.didRead off) else .next (s.raise (.window off))

/-- A phase's `RegWrite`: "Before the event the window check of rule R74 is applied". -/
def writeReg (off : Nat) (v : Word) (s : State) (k : State → Out) : Out :=
  if s.admitted off then k (s.didWrite off v) else .next (s.raise (.window off))

/-- One visit of a poll phase (R149): read STATUS, count, test the flag, then the bound. -/
def pollOnce (mask : Word) (bound : Nat) (wait : List Phase) (x : Ctx) (s : State)
    (onDone onExhausted : State → Out) : Out :=
  readReg s.cfg.offStatus s fun v t =>
    let t := t.updCtx fun y => { y with tStatus := v, pollCnt := x.pollCnt + 1 }
    if flagSet v mask then onDone t
    else if x.pollCnt + 1 = bound then onExhausted t
    else .next (t.goto wait)

/-- One visit of a wait phase (R149): the delay between two polls. -/
def waitOnce (d : Nat) (poll : List Phase) (s : State) : Out := .next ((s.didDelay d).goto poll)

/-! ## The address table (rule R163) -/

/-- `InsertIfNew(rom)`: a known code changes nothing; a new one is appended to the first free slot,
the capacity doubling when the table is full. -/
def State.insertIfNew (rom : RomCode) (s : State) : State :=
  if s.tab.any (romEq rom) then s
  else
    { s with
      cap := if s.numRoms = s.cap then 2 * s.cap else s.cap
      tab := s.tab ++ [rom] }

end Sys2Proof.Machine
end

