-- ==== Sys2Proof/Machine/Call.lean ====
section
/-! DEFINITION. Call and return inside an operation (rules R55, R276): the operands a call hands over,
opening a device scope as a call (rule R201), and `ret`, which pops a frame and goes on in its caller.
The callers are DEV_OPEN (of BUS_RESET and BUS_MATCH), TS_TEMP (of DEV_OPEN, twice or more) and TS_TEMP_F
(of TS_TEMP). -/

namespace Sys2Proof.Machine

/-- Go on with a context's registers; the context is there in every run (R285). -/
def withCtx (s : State) (k : Ctx → Out) : Out :=
  match s.ctx? with
  | some x => k x
  | none => .fault .badSequencer

/-- The sensor record the operation in flight names (R222): its index is the latched `c`. -/
def withSensor (x : Ctx) (s : State) (k : Sensor → Out) : Out :=
  match s.sens[x.opc.toNat]? with
  | some y => k y
  | none => .fault .badSequencer

/-- The ROM code a BUS_MATCH in flight is to send: the latched `a` of BUS_MATCH and DEV_OPEN; `S.addr`
where TS_TEMP called (R201, R225, R231). -/
def withRom (x : Ctx) (s : State) (k : RomCode → Out) : Out :=
  match x.op with
  | some .busMatch | some .devOpen => k x.opa
  | some .tsTemp | some .tsTempF => withSensor x s fun y => k y.addr
  | _ => .fault .badSequencer

/-- `call DEV_OPEN`: a scope already held is given up and the reset is called (R201, R202). -/
def State.callOpen (callers : List Phase) (s : State) : State :=
  s.updCtx fun x => { x with devOpen := false, pc := .rstCmd :: .oReset :: callers }

/-- Give up the device scope (R203, R230, R235, R236). -/
def State.closeScope (s : State) : State := s.updCtx fun x => { x with devOpen := false }

/-- Move the driver state of the sensor the operation in flight names (R223). -/
def State.setFsm (x : Ctx) (f : Fsm) (s : State) : State :=
  s.updSensor x.opc.toNat fun y => { y with fsm := f }

/-- The exit writes of a TS_TEMP that ends with a failure (R241, R275): no scope is held and the driver is
`Idle`, "in every case". -/
def State.exitTemp (x : Ctx) (s : State) : State := s.closeScope.setFsm x .idle

/-- A scratchpad-read attempt has failed (R231): the next one starts at once, or after
`SCRATCH_RETRY_MAX` attempts TS_TEMP ends with `E_SCRATCH_READ`. -/
def failAttempt (callers : List Phase) (s : State) (onGiveUp : Result → State → Out) : Out :=
  withCtx s fun x =>
    if x.retryCnt = s.cfg.scratchRetryMax then
      onGiveUp (.failure .scratchRead .none) (s.exitTemp x)
    else
      .next ((s.updCtx fun y => { y with retryCnt := x.retryCnt + 1 }).callOpen (.tOpen2 :: callers))

/-- The result of TS_TEMP_F from that of the TS_TEMP it called (R242). -/
def fahrenheitResult (r : Result) : Option Result :=
  if r.ok then
    match r.val with
    | .int m => some (.success (.int (fahrenheit m)))
    | _ => none
  else some (.failureCode r.err)

/-- `return r` with these callers, the innermost first (R55 (c), (d)): deliver to the host at the
bottom; otherwise go on in the caller at the phase after its call phase. -/
def ret : List Phase → Result → State → Out
  | [], r, s => .next (s.deliver r)
  | .oReset :: callers, r, s =>
    if r.ok then .next (s.goto (.mCmd :: .oMatch :: callers))
    else ret callers (.failure .noPresence .none) s
  | .oMatch :: callers, r, s =>
    if r.ok then
      withCtx s fun x => withRom x s fun rom =>
        ret callers (.success .none)
          (s.updCtx fun y => { y with devOpen := true, devAddr := rom })
    else ret callers (.failure .addrTimeout .none) s
  | .tOpen1 :: callers, r, s =>
    if r.ok then .next (s.goto (.tConvCmd :: callers))
    else withCtx s fun x => ret callers (.failureCode r.err) (s.exitTemp x)
  | .tOpen2 :: callers, r, s =>
    if r.ok then .next (s.goto (.tRdCmd :: callers))
    else failAttempt callers s fun e t => ret callers e t
  | .fCall :: callers, r, s =>
    match fahrenheitResult r with
    | some e => ret callers e s
    | none => .fault .badSequencer
  | _ :: _, _, _ => .fault .badSequencer

end Sys2Proof.Machine
end

