-- ==== Sys2Proof/Machine/BusPhases.lean ====
section
/-! DEFINITION. The phases of BUS_INIT, BUS_RESET, BUS_MATCH, BUS_RD and BUS_WR (40_bus_engine.md). A
phase takes its callers (the frames below it, innermost first), its context's registers and the state;
it performs its one event, the writes its rule lists, and moves on or returns (rule R50). -/

namespace Sys2Proof.Machine

/-! ## BUS_INIT (rules R150 to R152) -/

/-- The last step of BUS_INIT: the first context to finish constructs the singleton, a later one
changes nothing (R150 corner case (b)). -/
def State.construct (x : Ctx) (s : State) : State :=
  if s.initialized then s
  else
    { s with
      baseAddr := x.opa.toNat
      addrRange := x.opc.toNat
      cap := s.cfg.tableCapInit
      tab := []
      lock := false
      initialized := true }

/-- I_CLKGET: `f <- ClkGet()`; outside the tolerance I_CLKSET follows (R150, R152). -/
def phIClkget (callers : List Phase) (x : Ctx) (s : State) : Out :=
  if clkInTolerance s.cfg s.env.clk then
    ret callers (.success .none) (s.didClkGet.construct x)
  else .next (s.didClkGet.goto (.iClkset :: callers))

/-- I_CLKSET: `ClkSet(PL_CLK_TARGET)`; the clock is not read back (R152). -/
def phIClkset (callers : List Phase) (x : Ctx) (s : State) : Out :=
  ret callers (.success .none) ((s.didClkSet s.cfg.plClkTarget).construct x)

/-! ## BUS_RESET (rules R153 to R155) -/

/-- RST_CMD: the reset pulse; from here on no device is selected (R154). -/
def phRstCmd (callers : List Phase) (_x : Ctx) (s : State) : Out :=
  writeReg s.cfg.offCommand Cmd.resetPulse s fun t =>
    .next (({ t with busPhase := .unknown } : State).updCtx fun y =>
      { y with pollCnt := 0, pc := .rstPoll :: callers })

/-- RST_POLL (R155). -/
def phRstPoll (callers : List Phase) (x : Ctx) (s : State) : Out :=
  pollOnce s.cfg.stRstd s.cfg.resetPollMax (.rstWait :: callers) x s
    (fun t => ret callers (.success .none) { t with busPhase := .resetDone })
    (fun t => ret callers (.failure .noPresence .none) t)

/-- RST_WAIT (R155). -/
def phRstWait (callers : List Phase) (_x : Ctx) (s : State) : Out :=
  waitOnce s.cfg.tPollReset (.rstPoll :: callers) s

/-! ## BUS_MATCH (rules R166 to R169) -/

/-- The ghost at M_CMD: whatever is not `ResetDone` becomes `Unknown` (R168). -/
def BusPhase.atMatch : BusPhase → BusPhase
  | .resetDone => .resetDone
  | _ => .unknown

/-- The ghost at a true result of BUS_MATCH (R168). -/
def BusPhase.afterMatch (rom : RomCode) : BusPhase → BusPhase
  | .resetDone => .matched rom
  | _ => .unknown

/-- M_CMD: the command word (R167). -/
def phMCmd (callers : List Phase) (_x : Ctx) (s : State) : Out :=
  writeReg s.cfg.offCommand Cmd.matchRom s fun t =>
    .next (({ t with busPhase := t.busPhase.atMatch } : State).goto (.mD0 :: callers))

/-- M_D0: the low half of the ROM code (R167). -/
def phMD0 (callers : List Phase) (x : Ctx) (s : State) : Out :=
  withRom x s fun rom => writeReg s.cfg.offWrData0 (romLo rom) s fun t =>
    .next (t.goto (.mD1 :: callers))

/-- M_D1: the high half of the ROM code (R167). -/
def phMD1 (callers : List Phase) (x : Ctx) (s : State) : Out :=
  withRom x s fun rom => writeReg s.cfg.offWrData1 (romHi rom) s fun t =>
    .next (t.goto (.mSz :: callers))

/-- M_SZ: the transmit size (R167). -/
def phMSz (callers : List Phase) (_x : Ctx) (s : State) : Out :=
  writeReg s.cfg.offWrSize s.cfg.wrSizeRom s fun t => .next (t.goto (.mExec :: callers))

/-- M_EXEC: execute without pull-up (R167). -/
def phMExec (callers : List Phase) (_x : Ctx) (s : State) : Out :=
  writeReg s.cfg.regTrigger Cmd.execNopullup s fun t =>
    .next (t.updCtx fun y => { y with pollCnt := 0, pc := .mPoll :: callers })

/-- M_POLL (R168). -/
def phMPoll (callers : List Phase) (x : Ctx) (s : State) : Out :=
  withRom x s fun rom =>
    pollOnce s.cfg.stWrd s.cfg.matchPollMax (.mWait :: callers) x s
      (fun t => ret callers (.success .none) { t with busPhase := t.busPhase.afterMatch rom })
      (fun t => ret callers (.failure .addrTimeout .none) { t with busPhase := .unknown })

/-- M_WAIT (R168). -/
def phMWait (callers : List Phase) (_x : Ctx) (s : State) : Out :=
  waitOnce s.cfg.tPollMatch (.mPoll :: callers) s

/-! ## BUS_RD and BUS_WR (rules R170, R171) -/

/-- RD_ACC: the access of BUS_RD (R170). -/
def phRdAcc (callers : List Phase) (x : Ctx) (s : State) : Out :=
  readReg x.opc.toNat s fun v t => ret callers (.success (.u32 v)) t

/-- The ghost after a write a host has made by BUS_WR: a write to COMMAND, CONTROL or `REG_TRIGGER`
outside a device scope makes it `Unknown` (R171, R28). -/
def State.ghostWrite (off : Nat) (inScope : Bool) (s : State) : State :=
  if (off = s.cfg.offCommand ∨ off = s.cfg.offControl ∨ off = s.cfg.regTrigger) ∧ inScope = false
  then { s with busPhase := .unknown }
  else s

/-- WR_ACC: the access of BUS_WR (R171). -/
def phWrAcc (callers : List Phase) (x : Ctx) (s : State) : Out :=
  writeReg x.opc.toNat (valueOf x.opb) s fun t =>
    ret callers (.success .none) (t.ghostWrite x.opc.toNat x.devOpen)

end Sys2Proof.Machine
end

