-- ==== Sys2Proof/Machine/DevPhases.lean ====
section
/-! DEFINITION. The event phases of the device handle's passthrough accesses (rules R206 to R210). None
changes the ghost `bus_phase` (rule R206). -/

namespace Sys2Proof.Machine

/-- WC_ACC: the write of DEV_WCMD to COMMAND (R207). -/
def phWcAcc (callers : List Phase) (x : Ctx) (s : State) : Out :=
  writeReg s.cfg.offCommand (valueOf x.opb) s fun t => ret callers (.success .none) t

/-- WT_ACC: the write of DEV_WCTL to CONTROL, whatever `REG_TRIGGER` is (R208). -/
def phWtAcc (callers : List Phase) (x : Ctx) (s : State) : Out :=
  writeReg s.cfg.offControl (valueOf x.opb) s fun t => ret callers (.success .none) t

/-- DW_ACC: the write of DEV_WR (R209). -/
def phDwAcc (callers : List Phase) (x : Ctx) (s : State) : Out :=
  writeReg x.opc.toNat (valueOf x.opb) s fun t => ret callers (.success .none) t

/-- DR_ACC: the read of DEV_RD (R210). -/
def phDrAcc (callers : List Phase) (x : Ctx) (s : State) : Out :=
  readReg x.opc.toNat s fun v t => ret callers (.success (.u32 v)) t

end Sys2Proof.Machine
end

