-- ==== Sys2Proof/Machine/SearchPhases.lean ====
section
/-! DEFINITION. The phases of BUS_SEARCH, the ROM search state machine (rules R156 to R165). -/

namespace Sys2Proof.Machine

/-- The lock at an exit that is not a success (R165): cleared if `LOCK_RELEASE_ON_ABORT`. -/
def State.releaseOnAbort (s : State) : State :=
  { s with lock := if s.cfg.lockReleaseOnAbort then false else s.lock }

/-- `ExitFail(e)` (R156, R165): the lock as above, an empty list. -/
def searchFail (callers : List Phase) (e : Err) (s : State) : Out :=
  ret callers (.failure e (.roms [])) s.releaseOnAbort

/-- A search that meets an offset outside the window ends with `F_WINDOW` (R162, R165, R268). -/
def searchWindow (off : Nat) (s : State) : Out := .next (s.releaseOnAbort.raise (.window off))

/-- The successful exit (R164, R165): the lock is released and the whole table returned. -/
def searchDone (callers : List Phase) (s : State) : Out :=
  ret callers (.success (.roms s.tab)) { s with lock := false }

/-- A phase's register write in a search: outside the window it ends as `searchWindow`. -/
def searchWrite (off : Nat) (v : Word) (s : State) (k : State → Out) : Out :=
  if s.admitted off then k (s.didWrite off v) else searchWindow off s

/-- A phase's register read in a search: outside the window it ends as `searchWindow`. -/
def searchRead (off : Nat) (s : State) (k : Word → State → Out) : Out :=
  if s.admitted off then k s.answer (s.didRead off) else searchWindow off s

/-- Go on to harvest entry `i` of `found`, or end the search (R161, R162). The window check of the next
read is made in the step that decides on it, so that no phase is entered whose access is not made
(R50, R165). -/
def harvest (callers : List Phase) (i found : Nat) (s : State) : Out :=
  if i < found then
    if s.admitted (romIdLo s.cfg i) then .next (s.goto (.sLo :: callers))
    else searchWindow (romIdLo s.cfg i) s
  else searchDone callers s

/-- S_LOCK: one test-and-set; stay while another search holds the lock (R157). -/
def phSLock (callers : List Phase) (_x : Ctx) (s : State) : Out :=
  if s.lock then .next (s.didLockTas.goto (.sLock :: callers))
  else .next (s.didLockTas.goto (.sCmd :: callers))

/-- S_CMD: the search command word; any selection of a device ends (R158). -/
def phSCmd (callers : List Phase) (x : Ctx) (s : State) : Out :=
  searchWrite s.cfg.offCommand (searchWord (selector x.opc)) s fun t =>
    .next (({ t with busPhase := .unknown } : State).goto (.sSer :: callers))

/-- S_SER: serialize it onto the bus (R158). -/
def phSSer (callers : List Phase) (_x : Ctx) (s : State) : Out :=
  searchWrite s.cfg.regTrigger Cmd.serialize s fun t =>
    .next (t.updCtx fun y => { y with pollCnt := 0, pc := .sPoll :: callers })

/-- S_POLL: the error flags, then search-done, then the bound (R159, R160). -/
def phSPoll (callers : List Phase) (x : Ctx) (s : State) : Out :=
  searchRead s.cfg.offStatus s fun v t =>
    let t := t.updCtx fun y => { y with tStatus := v, pollCnt := x.pollCnt + 1 }
    match searchPoll s.cfg v with
    | .protocolError => searchFail callers .searchProtocol t
    | .memoryError => searchFail callers .searchMemory t
    | .done => .next (t.goto (.sFound :: callers))
    | .pending =>
      if x.pollCnt + 1 = s.cfg.searchPollMax then searchFail callers .searchTimeout t
      else .next (t.goto (.sWait :: callers))

/-- S_WAIT (R159). -/
def phSWait (callers : List Phase) (_x : Ctx) (s : State) : Out :=
  waitOnce s.cfg.tPollSearch (.sPoll :: callers) s

/-- S_FOUND: the whole answer is the count (R161). -/
def phSFound (callers : List Phase) (_x : Ctx) (s : State) : Out :=
  searchRead s.cfg.offFound s fun v t =>
    harvest callers 0 v.toNat (t.updCtx fun y => { y with tFound := v, tIdx := 0 })

/-- S_LO: the low half of the entry (R162). The check of the high half's offset is made here. -/
def phSLo (callers : List Phase) (x : Ctx) (s : State) : Out :=
  searchRead (romIdLo s.cfg x.tIdx) s fun v t =>
    let t := t.updCtx fun y => { y with tLo := v }
    if t.admitted (romIdHi s.cfg x.tIdx) then .next (t.goto (.sHi :: callers))
    else searchWindow (romIdHi s.cfg x.tIdx) t

/-- S_HI: the high half; the code is inserted in the same step (R162, R163). -/
def phSHi (callers : List Phase) (x : Ctx) (s : State) : Out :=
  searchRead (romIdHi s.cfg x.tIdx) s fun v t =>
    let t := (t.insertIfNew (romOfHalves v x.tLo)).updCtx fun y => { y with tIdx := x.tIdx + 1 }
    harvest callers (x.tIdx + 1) x.tFound.toNat t

end Sys2Proof.Machine
end

