-- ==== Sys2Proof/Machine/TempPhases.lean ====
section
/-! DEFINITION. The event phases of TS_TEMP, the temperature sensor driver (rules R222 to R241). -/

namespace Sys2Proof.Machine

/-- T_NOW0: the cache test, made on every call (R224). -/
def phTNow0 (callers : List Phase) (x : Ctx) (s : State) : Out :=
  withSensor x s fun y =>
    let t := s.didNow.updCtx fun z => { z with tNow := s.nowAnswer }
    if y.fresh s.nowAnswer then ret callers (.success (.int y.cacheVal)) t
    else .next (t.callOpen (.tOpen1 :: callers))

/-- T_CONV_CMD: CONVERT_T (R226). -/
def phTConvCmd (callers : List Phase) (_x : Ctx) (s : State) : Out :=
  writeReg s.cfg.offCommand Cmd.convertT s fun t => .next (t.goto (.tConvExec :: callers))

/-- T_CONV_EXEC: execute with pull-up; the conversion is in progress (R227). -/
def phTConvExec (callers : List Phase) (x : Ctx) (s : State) : Out :=
  withSensor x s fun _ =>
    writeReg s.cfg.regTrigger Cmd.execPullup s fun t =>
      .next ((t.setFsm x .conversionInProgress).goto (.tConvWait :: callers))

/-- T_CONV_WAIT: one delay of the whole conversion time at the resolution stored now (R229). -/
def phTConvWait (callers : List Phase) (x : Ctx) (s : State) : Out :=
  withSensor x s fun y =>
    match convDelay s.cfg y.res with
    | some d => .next ((s.didDelay d).goto (.tConvChk :: callers))
    | none => .fault .badSequencer

/-- T_CONV_CHK: one read; the first scope ends; command-done decides (R230). -/
def phTConvChk (callers : List Phase) (x : Ctx) (s : State) : Out :=
  withSensor x s fun _ =>
    readReg s.cfg.offStatus s fun v t =>
      let t := (t.updCtx fun y => { y with tStatus := v }).closeScope
      if flagSet v s.cfg.stCmdd then
        .next (((t.setFsm x .conversionComplete).updCtx fun y =>
          { y with retryCnt := 1 }).callOpen (.tOpen2 :: callers))
      else ret callers (.failure .convertTimeout .none) (t.exitTemp x)

/-- T_RD_CMD: READ_SCRATCHPAD (R232). -/
def phTRdCmd (callers : List Phase) (_x : Ctx) (s : State) : Out :=
  writeReg s.cfg.offCommand Cmd.readScratchpad s fun t => .next (t.goto (.tRdSz :: callers))

/-- T_RD_SZ: the read size (R233). -/
def phTRdSz (callers : List Phase) (_x : Ctx) (s : State) : Out :=
  writeReg s.cfg.offRdSize s.cfg.rdSizeScratch s fun t => .next (t.goto (.tRdExec :: callers))

/-- T_RD_EXEC: read time slots (R234). -/
def phTRdExec (callers : List Phase) (_x : Ctx) (s : State) : Out :=
  writeReg s.cfg.regTrigger Cmd.readTimeSlots s fun t =>
    .next (t.updCtx fun y => { y with pollCnt := 0, pc := .tRdPoll :: callers })

/-- T_RD_POLL: on exhaustion the attempt has failed and its scope ends (R235). -/
def phTRdPoll (callers : List Phase) (x : Ctx) (s : State) : Out :=
  pollOnce s.cfg.stRdd s.cfg.scratchPollMax (.tRdWait :: callers) x s
    (fun t => .next (t.goto (.tRdData :: callers)))
    (fun t => failAttempt callers t.closeScope fun e u => ret callers e u)

/-- T_RD_WAIT (R235). -/
def phTRdWait (callers : List Phase) (_x : Ctx) (s : State) : Out :=
  waitOnce s.cfg.tPollScratch (.tRdPoll :: callers) s

/-- T_RD_DATA: only RD_DATA0 is read; the second scope ends (R236). -/
def phTRdData (callers : List Phase) (_x : Ctx) (s : State) : Out :=
  readReg s.cfg.offRdData0 s fun v t =>
    .next ((t.updCtx fun y => { y with tRaw := v }).closeScope.goto (.tNow1 :: callers))

/-- T_NOW1: decode, and update the cache and its time stamp (R237, R238, R240). -/
def phTNow1 (callers : List Phase) (x : Ctx) (s : State) : Out :=
  withSensor x s fun _ =>
    let m := milliC (rawTemp x.tRaw)
    let t := s.didNow.updCtx fun z => { z with tNow := s.nowAnswer }
    ret callers (.success (.int m)) (t.updSensor x.opc.toNat fun y =>
      { y with cacheVal := m, cacheTs := s.nowAnswer, cacheValid := true, fsm := .idle })

end Sys2Proof.Machine
end

