-- ==== Sys2Proof/Machine/Engine.lean ====
section
/-! DEFINITION. The step of a context with an operation in flight (rule R50): the phase on top of its
stack performs its event. And `operate`, the shape every host operation's meaning has: issue in an idle
context (rule R51), the next event in a context where the operation is in flight. -/

namespace Sys2Proof.Machine

/-- The event phase `p`, called by `callers` (R47's table). A call phase is never on top. -/
def phaseEvent (p : Phase) (callers : List Phase) (x : Ctx) (s : State) : Out :=
  match p with
  | .iClkget => phIClkget callers x s
  | .iClkset => phIClkset callers x s
  | .rstCmd => phRstCmd callers x s
  | .rstPoll => phRstPoll callers x s
  | .rstWait => phRstWait callers x s
  | .sLock => phSLock callers x s
  | .sCmd => phSCmd callers x s
  | .sSer => phSSer callers x s
  | .sPoll => phSPoll callers x s
  | .sWait => phSWait callers x s
  | .sFound => phSFound callers x s
  | .sLo => phSLo callers x s
  | .sHi => phSHi callers x s
  | .mCmd => phMCmd callers x s
  | .mD0 => phMD0 callers x s
  | .mD1 => phMD1 callers x s
  | .mSz => phMSz callers x s
  | .mExec => phMExec callers x s
  | .mPoll => phMPoll callers x s
  | .mWait => phMWait callers x s
  | .rdAcc => phRdAcc callers x s
  | .wrAcc => phWrAcc callers x s
  | .wcAcc => phWcAcc callers x s
  | .wtAcc => phWtAcc callers x s
  | .dwAcc => phDwAcc callers x s
  | .drAcc => phDrAcc callers x s
  | .tNow0 => phTNow0 callers x s
  | .tConvCmd => phTConvCmd callers x s
  | .tConvExec => phTConvExec callers x s
  | .tConvWait => phTConvWait callers x s
  | .tConvChk => phTConvChk callers x s
  | .tRdCmd => phTRdCmd callers x s
  | .tRdSz => phTRdSz callers x s
  | .tRdExec => phTRdExec callers x s
  | .tRdPoll => phTRdPoll callers x s
  | .tRdWait => phTRdWait callers x s
  | .tRdData => phTRdData callers x s
  | .tNow1 => phTNow1 callers x s
  | .oReset | .oMatch | .tOpen1 | .tOpen2 | .fCall => .fault .badSequencer

/-- The next event of the context that takes the step (R50). -/
def advance (x : Ctx) (s : State) : Out :=
  match x.pc with
  | p :: callers => phaseEvent p callers x s
  | [] => .fault .badSequencer

/-- A host operation: issued in an idle context (R51); one event further in a context where it is in
flight (R50); refused where another operation is in flight. -/
def operate (o : Op) (issue : Ctx → State → State) (s : State) : Out :=
  match s.ctx? with
  | none => .refused .noSuchContext
  | some x =>
    match x.op with
    | none => .next (issue x s)
    | some p => if p = o then advance x s else .refused .contextBusy

end Sys2Proof.Machine
end

