-- ==== Sys2Proof/Machine/Addr.lean ====
section
/-! DEFINITION. The five value operations of the Address Matcher (41_address.md). They are
combinational: no event, no bus, and the only state they write is `last_err`, by the return of their
result (41_address.md, before rule R190); so they latch nothing. -/

namespace Sys2Proof.Machine

/-- ADDR_ROM (R191). -/
def execAddrRom (rom : RomCode) (s : State) : Out :=
  operate .addrRom (fun _ t => t.deliver (.success (.u64 rom))) s

/-- ADDR_FAMILY (R192). -/
def execAddrFamily (rom : RomCode) (s : State) : Out :=
  operate .addrFamily (fun _ t => t.deliver (.success (.u8 (romFamily rom)))) s

/-- ADDR_SERIAL (R193). -/
def execAddrSerial (rom : RomCode) (s : State) : Out :=
  operate .addrSerial (fun _ t => t.deliver (.success (.u48 (romSerial rom)))) s

/-- ADDR_CRC (R194): the stored byte; nothing is computed. -/
def execAddrCrc (rom : RomCode) (s : State) : Out :=
  operate .addrCrc (fun _ t => t.deliver (.success (.u8 (romCrc rom)))) s

/-- ADDR_EQ (R195). -/
def execAddrEq (p q : RomCode) (s : State) : Out :=
  operate .addrEq (fun _ t => t.deliver (.success (.bool (romEq p q)))) s

end Sys2Proof.Machine
end

