-- ==== Sys2Proof/Machine/Bus.lean ====
section
/-! DEFINITION. The six operations of the Bus Protocol Engine (40_bus_engine.md): issue and meaning. The
events they make are in BusPhases.lean and SearchPhases.lean. -/

namespace Sys2Proof.Machine

/-- Issue of BUS_INIT (R150): nothing more once constructed, the operands being ignored; `F_INIT` for an
invalid window (R151). -/
def issueBusInit (base range : Nat) (_x : Ctx) (s : State) : State :=
  if s.initialized then s.deliver (.success .none)
  else
    let t := s.latch (BitVec.ofNat 64 base) 0 (BitVec.ofNat 32 range)
    if validWindow s.cfg range then t.start .busInit [.iClkget] else t.raise (.init range)

/-- BUS_INIT (R150). -/
def execBusInit (base range : Nat) (s : State) : Out :=
  operate .busInit (issueBusInit base range) s

/-- Issue of BUS_RESET (R153). -/
def issueBusReset (_x : Ctx) (s : State) : State :=
  let t := s.latch 0 0 0
  if s.initialized then t.start .busReset [.rstCmd] else t.raise .notInit

/-- BUS_RESET (R153). -/
def execBusReset (s : State) : Out := operate .busReset issueBusReset s

/-- Issue of BUS_SEARCH (R156); the selector is bit 0 of `c` (R105). -/
def issueBusSearch (alarm : Bool) (_x : Ctx) (s : State) : State :=
  let t := s.latch 0 0 (if alarm then 1 else 0)
  if s.initialized then t.start .busSearch [.sLock] else t.raise .notInit

/-- BUS_SEARCH (R156). -/
def execBusSearch (alarm : Bool) (s : State) : Out := operate .busSearch (issueBusSearch alarm) s

/-- Issue of BUS_MATCH (R166): no check that a reset preceded it (R169), none of the code (R196). -/
def issueBusMatch (rom : RomCode) (_x : Ctx) (s : State) : State :=
  let t := s.latch rom 0 0
  if s.initialized then t.start .busMatch [.mCmd] else t.raise .notInit

/-- BUS_MATCH (R166). -/
def execBusMatch (rom : RomCode) (s : State) : Out := operate .busMatch (issueBusMatch rom) s

/-- Issue of BUS_RD (R170): `F_NOT_INIT`, then `F_WINDOW` (R274). -/
def issueBusRd (off : Nat) (_x : Ctx) (s : State) : State :=
  let t := s.latch 0 0 (BitVec.ofNat 32 off)
  if s.initialized then
    if s.admitted off then t.start .busRd [.rdAcc] else t.raise (.window off)
  else t.raise .notInit

/-- BUS_RD (R170). -/
def execBusRd (off : Nat) (s : State) : Out := operate .busRd (issueBusRd off) s

/-- Issue of BUS_WR (R171): `F_NOT_INIT`, then `F_WINDOW` (R274). -/
def issueBusWr (off : Nat) (v : Word) (_x : Ctx) (s : State) : State :=
  let t := s.latch 0 (inLowHalf v) (BitVec.ofNat 32 off)
  if s.initialized then
    if s.admitted off then t.start .busWr [.wrAcc] else t.raise (.window off)
  else t.raise .notInit

/-- BUS_WR (R171). -/
def execBusWr (off : Nat) (v : Word) (s : State) : Out := operate .busWr (issueBusWr off v) s

end Sys2Proof.Machine
end

