-- ==== Sys2Proof/Machine/CmdWord.lean ====
section
/-! DEFINITION. The sixteen command words (rules R108, R109, R120 to R135): "A command word is a 32-bit
value written with one `RegWrite`", the four trigger words to `REG_TRIGGER` and the others to COMMAND.
Inside an operation the phases make that write. Handed over by the host, a word goes the one way rule
R118 gives a host for it outside a scope and in one, that of BUS_WR: the same tests, the same event, the
same ghost, the same result (log entry 8). What the downstream core does with it is its own (R119). -/

namespace Sys2Proof.Machine

/-- A command word the host hands over is written to `off` as BUS_WR writes it (R118, R171), issue and
event in one step. -/
def writeWord (off : Nat) (w : Word) (s : State) : Out :=
  match s.ctx? with
  | none => .refused .noSuchContext
  | some x =>
    match x.op with
    | some _ => .refused .contextBusy
    | none =>
      if s.initialized then
        if s.admitted off then
          .next (((s.didWrite off w).ghostWrite off x.devOpen).deliver (.success .none))
        else .next (s.raise (.window off))
      else .next (s.raise .notInit)

/-- A trigger word, to `REG_TRIGGER` (R120, R109). -/
def execSerialize (s : State) : Out := writeWord s.cfg.regTrigger Cmd.serialize s

/-- To COMMAND (R121, R109). -/
def execResetPulse (s : State) : Out := writeWord s.cfg.offCommand Cmd.resetPulse s

/-- A trigger word, to `REG_TRIGGER` (R122, R109). -/
def execExecPullup (s : State) : Out := writeWord s.cfg.regTrigger Cmd.execPullup s

/-- A trigger word, to `REG_TRIGGER` (R123, R109). -/
def execExecNopullup (s : State) : Out := writeWord s.cfg.regTrigger Cmd.execNopullup s

/-- A trigger word, to `REG_TRIGGER` (R124, R109). -/
def execReadTimeSlots (s : State) : Out := writeWord s.cfg.regTrigger Cmd.readTimeSlots s

/-- To COMMAND (R125, R109). -/
def execSearchRom (s : State) : Out := writeWord s.cfg.offCommand Cmd.searchRom s

/-- To COMMAND (R126, R109). -/
def execReadRom (s : State) : Out := writeWord s.cfg.offCommand Cmd.readRom s

/-- To COMMAND (R127, R109). -/
def execMatchRom (s : State) : Out := writeWord s.cfg.offCommand Cmd.matchRom s

/-- To COMMAND (R128, R109). -/
def execSkipRom (s : State) : Out := writeWord s.cfg.offCommand Cmd.skipRom s

/-- To COMMAND (R129, R109). -/
def execAlarmSearch (s : State) : Out := writeWord s.cfg.offCommand Cmd.alarmSearch s

/-- To COMMAND (R130, R109). -/
def execConvertT (s : State) : Out := writeWord s.cfg.offCommand Cmd.convertT s

/-- To COMMAND (R131, R109). -/
def execWriteScratchpad (s : State) : Out := writeWord s.cfg.offCommand Cmd.writeScratchpad s

/-- To COMMAND (R132, R109). -/
def execReadScratchpad (s : State) : Out := writeWord s.cfg.offCommand Cmd.readScratchpad s

/-- To COMMAND (R133, R109). -/
def execCopyScratchpad (s : State) : Out := writeWord s.cfg.offCommand Cmd.copyScratchpad s

/-- To COMMAND (R134, R109). -/
def execRecallE2 (s : State) : Out := writeWord s.cfg.offCommand Cmd.recallE2 s

/-- To COMMAND (R135, R109). -/
def execReadPowerSupply (s : State) : Out := writeWord s.cfg.offCommand Cmd.readPowerSupply s

end Sys2Proof.Machine
end

