-- ==== Sys2Proof/Machine/Dev.lean ====
section
/-! DEFINITION. The six operations of the Device Handle (42_device_handle.md): issue and meaning. -/

namespace Sys2Proof.Machine

/-- Issue of DEV_OPEN (R201): a scope already held is given up at once (R202). -/
def issueDevOpen (rom : RomCode) (_x : Ctx) (s : State) : State :=
  let t := s.latch rom 0 0
  if s.initialized then (t.start .devOpen []).callOpen [] else t.raise .notInit

/-- DEV_OPEN (R201). -/
def execDevOpen (rom : RomCode) (s : State) : Out := operate .devOpen (issueDevOpen rom) s

/-- DEV_CLOSE (R203): no bus action; it has no operand to latch, and with no scope held it does nothing. -/
def execDevClose (s : State) : Out :=
  operate .devClose (fun _ t => t.closeScope.deliver (.success .none)) s

/-- Issue of DEV_WCMD (R207): `F_NO_SCOPE` outside a scope (R271). -/
def issueDevWcmd (v : Word) (x : Ctx) (s : State) : State :=
  let t := s.latch 0 (inLowHalf v) 0
  if x.devOpen then t.start .devWcmd [.wcAcc] else t.raise .noScope

/-- DEV_WCMD (R207). -/
def execDevWcmd (v : Word) (s : State) : Out := operate .devWcmd (issueDevWcmd v) s

/-- Issue of DEV_WCTL (R208). -/
def issueDevWctl (v : Word) (x : Ctx) (s : State) : State :=
  let t := s.latch 0 (inLowHalf v) 0
  if x.devOpen then t.start .devWctl [.wtAcc] else t.raise .noScope

/-- DEV_WCTL (R208). -/
def execDevWctl (v : Word) (s : State) : Out := operate .devWctl (issueDevWctl v) s

/-- Issue of DEV_WR (R209): `F_NO_SCOPE`, then `F_WINDOW`. -/
def issueDevWr (off : Nat) (v : Word) (x : Ctx) (s : State) : State :=
  let t := s.latch 0 (inLowHalf v) (BitVec.ofNat 32 off)
  if x.devOpen then
    if s.admitted off then t.start .devWr [.dwAcc] else t.raise (.window off)
  else t.raise .noScope

/-- DEV_WR (R209). -/
def execDevWr (off : Nat) (v : Word) (s : State) : Out := operate .devWr (issueDevWr off v) s

/-- Issue of DEV_RD (R210): `F_NO_SCOPE`, then `F_WINDOW`. -/
def issueDevRd (off : Nat) (x : Ctx) (s : State) : State :=
  let t := s.latch 0 0 (BitVec.ofNat 32 off)
  if x.devOpen then
    if s.admitted off then t.start .devRd [.drAcc] else t.raise (.window off)
  else t.raise .noScope

/-- DEV_RD (R210). -/
def execDevRd (off : Nat) (s : State) : Out := operate .devRd (issueDevRd off) s

end Sys2Proof.Machine
end

