-- ==== Sys2Proof/Machine/Temp.lean ====
section
/-! DEFINITION. The five operations of the Temperature Sensor Driver (43_temp_sensor.md): issue and
meaning. The events of TS_TEMP are in TempPhases.lean. A request refused with `F_BAD_OPERAND` latches
nothing: "no state change but `last_err`" (R269). -/

namespace Sys2Proof.Machine

/-- A new sensor record (R221). What the cache holds before the first read is unspecified: free values
of the next draw (log entry 4). -/
def newSensor (rom : RomCode) (refresh res : Nat) (draw : Nat) : Sensor where
  addr := rom
  res := res
  refresh := refresh
  cacheValid := false
  cacheVal := Config.freeInt draw
  cacheTs := Config.freeNat draw
  fsm := .idle

/-- Append a record to the sensor file (R40, R221); the free values take one draw. -/
def State.addSensor (rom : RomCode) (refresh res : Nat) (s : State) : State :=
  { s with
    sens := s.sens ++ [newSensor rom refresh res s.env.draws]
    env := { s.env with draws := s.env.draws + 1 } }

/-- Issue of TS_CREATE (R221): `F_NOT_INIT`, then the resolution, then the file (R274). -/
def issueTsCreate (rom : RomCode) (refresh res : Nat) (_x : Ctx) (s : State) : State :=
  let t := s.latch rom (BitVec.ofNat 64 refresh) (BitVec.ofNat 32 res)
  if s.initialized then
    if validRes res then
      if fileHasRoom s.cfg s.nSens then
        (t.addSensor rom refresh res).deliver (.success (.nat s.nSens))
      else s.raise .badOperand
    else s.raise .badOperand
  else t.raise .notInit

/-- TS_CREATE (R221). -/
def execTsCreate (rom : RomCode) (refresh res : Nat) (s : State) : Out :=
  operate .tsCreate (issueTsCreate rom refresh res) s

/-- Issue of TS_TEMP (R222). -/
def issueTsTemp (idx : Nat) (_x : Ctx) (s : State) : State :=
  if idx < s.nSens then (s.latch 0 0 (BitVec.ofNat 32 idx)).start .tsTemp [.tNow0]
  else s.raise .badOperand

/-- TS_TEMP (R222). -/
def execTsTemp (idx : Nat) (s : State) : Out := operate .tsTemp (issueTsTemp idx) s

/-- Issue of TS_TEMP_F (R242): the sensor-index test is that of the TS_TEMP it calls (R276). -/
def issueTsTempF (idx : Nat) (_x : Ctx) (s : State) : State :=
  if idx < s.nSens then (s.latch 0 0 (BitVec.ofNat 32 idx)).start .tsTempF [.tNow0, .fCall]
  else s.raise .badOperand

/-- TS_TEMP_F (R242). -/
def execTsTempF (idx : Nat) (s : State) : Out := operate .tsTempF (issueTsTempF idx) s

/-- Issue of TS_GET_RES (R243): the stored value. -/
def issueTsGetRes (idx : Nat) (_x : Ctx) (s : State) : State :=
  match s.sens[idx]? with
  | some y => (s.latch 0 0 (BitVec.ofNat 32 idx)).deliver (.success (.nat y.res))
  | none => s.raise .badOperand

/-- TS_GET_RES (R243). -/
def execTsGetRes (idx : Nat) (s : State) : Out := operate .tsGetRes (issueTsGetRes idx) s

/-- Issue of TS_SET_RES (R244): the index, then the resolution; the cache is not invalidated. -/
def issueTsSetRes (idx res : Nat) (_x : Ctx) (s : State) : State :=
  if idx < s.nSens then
    if validRes res then
      ((s.latch 0 (inLowHalf (BitVec.ofNat 32 res)) (BitVec.ofNat 32 idx)).updSensor idx fun y =>
        { y with res := res }).deliver (.success .none)
    else s.raise .badOperand
  else s.raise .badOperand

/-- TS_SET_RES (R244). -/
def execTsSetRes (idx res : Nat) (s : State) : Out := operate .tsSetRes (issueTsSetRes idx res) s

end Sys2Proof.Machine
end

