-- ==== Sys2Proof/Machine/Dispatch.lean ====
section
/-! DEFINITION. One arm for each instruction. -/

namespace Sys2Proof.Machine

/-- What instruction `i` does in the context that takes the step: its issue where the context is idle,
its next event where it is in flight there (rules R50 and R51). -/
def exec (i : Instr) (s : State) : Host.Outcome State Fault Refusal :=
  match i with
  | .busInit base range => Sys2Proof.Machine.execBusInit base range s
  | .busReset => Sys2Proof.Machine.execBusReset s
  | .busSearch alarm => Sys2Proof.Machine.execBusSearch alarm s
  | .busMatch rom => Sys2Proof.Machine.execBusMatch rom s
  | .busRd off => Sys2Proof.Machine.execBusRd off s
  | .busWr off v => Sys2Proof.Machine.execBusWr off v s
  | .addrRom rom => Sys2Proof.Machine.execAddrRom rom s
  | .addrFamily rom => Sys2Proof.Machine.execAddrFamily rom s
  | .addrSerial rom => Sys2Proof.Machine.execAddrSerial rom s
  | .addrCrc rom => Sys2Proof.Machine.execAddrCrc rom s
  | .addrEq p q => Sys2Proof.Machine.execAddrEq p q s
  | .devOpen rom => Sys2Proof.Machine.execDevOpen rom s
  | .devClose => Sys2Proof.Machine.execDevClose s
  | .devWcmd v => Sys2Proof.Machine.execDevWcmd v s
  | .devWctl v => Sys2Proof.Machine.execDevWctl v s
  | .devWr off v => Sys2Proof.Machine.execDevWr off v s
  | .devRd off => Sys2Proof.Machine.execDevRd off s
  | .tsCreate rom refresh res => Sys2Proof.Machine.execTsCreate rom refresh res s
  | .tsTemp idx => Sys2Proof.Machine.execTsTemp idx s
  | .tsTempF idx => Sys2Proof.Machine.execTsTempF idx s
  | .tsGetRes idx => Sys2Proof.Machine.execTsGetRes idx s
  | .tsSetRes idx res => Sys2Proof.Machine.execTsSetRes idx res s
  | .serialize => Sys2Proof.Machine.execSerialize s
  | .resetPulse => Sys2Proof.Machine.execResetPulse s
  | .execPullup => Sys2Proof.Machine.execExecPullup s
  | .execNopullup => Sys2Proof.Machine.execExecNopullup s
  | .readTimeSlots => Sys2Proof.Machine.execReadTimeSlots s
  | .searchRom => Sys2Proof.Machine.execSearchRom s
  | .readRom => Sys2Proof.Machine.execReadRom s
  | .matchRom => Sys2Proof.Machine.execMatchRom s
  | .skipRom => Sys2Proof.Machine.execSkipRom s
  | .alarmSearch => Sys2Proof.Machine.execAlarmSearch s
  | .convertT => Sys2Proof.Machine.execConvertT s
  | .writeScratchpad => Sys2Proof.Machine.execWriteScratchpad s
  | .readScratchpad => Sys2Proof.Machine.execReadScratchpad s
  | .copyScratchpad => Sys2Proof.Machine.execCopyScratchpad s
  | .recallE2 => Sys2Proof.Machine.execRecallE2 s
  | .readPowerSupply => Sys2Proof.Machine.execReadPowerSupply s

end Sys2Proof.Machine
end

