-- ==== Sys2Proof/Machine/Fetch.lean ====
section
/-! DEFINITION. What moves next, and which instruction it runs (rules R50, R51, R84, R286). The host's next
request can be issued when its context is idle; a context with an operation in flight can make its next
event. If several of these can move, the scheduler's oracle picks one: the spec fixes no order and no
fairness. OWC fetches no instructions from a memory (R85): a request comes from the host, and an
operation in flight is read from the latches of its context. -/

namespace Sys2Proof.Machine

/-- Who moves. -/
inductive Turn where
  | issue
  | run (c : Nat)
  deriving DecidableEq, Repr

/-- The contexts with an operation in flight. -/
def State.busyContexts (s : State) : List Nat := (List.range s.ctxs.length).filter s.busy

/-- Who can move: the issue of the host's next request if its context is not busy (R51), and every
context with an operation in flight (R50). -/
def State.turns (s : State) : List Turn :=
  (match s.inbox with
    | (c, _) :: _ => if s.busy c then [] else [.issue]
    | [] => []) ++ s.busyContexts.map .run

/-- Who moves next, and the state after the choice: none if nobody can; no choice is drawn if only one
can. -/
def State.turn (s : State) : Option (Turn × State) :=
  match s.turns with
  | [] => none
  | [t] => some (t, s)
  | t :: ts =>
    some ((t :: ts).getD (s.env.pick % (t :: ts).length) t, { s with env := s.env.afterPick })

/-- The instruction in flight in a context: its operation with the latched operands (R85). -/
def Ctx.inFlight (x : Ctx) : Option Instr := x.op.map fun o => o.withFields x.opa x.opb x.opc

/-- What a step finds to do. -/
inductive Fetched where
  /-- Nobody can move: no request waits and no operation is in flight. -/
  | quiet
  /-- Run `i` in this state. -/
  | run (i : Instr) (t : State)
  /-- A request that decodes to no operation, in the context `cur` of this state. -/
  | reject (r : Reject) (t : State)
  /-- No run from reset finds this. -/
  | stuck
  deriving DecidableEq, Repr

/-- Take the host's next request out of the queue and decode it (R51, R102). -/
def State.fetchRequest (s : State) : Fetched :=
  match s.inbox with
  | [] => .stuck
  | (c, q) :: rest =>
    match decode q with
    | .instr i => .run i { s with inbox := rest, cur := c }
    | .reject r => .reject r { s with inbox := rest, cur := c }

/-- Read the operation in flight in context `c`. -/
def State.fetchInFlight (c : Nat) (s : State) : Fetched :=
  match s.ctxs[c]?.bind Ctx.inFlight with
  | some i => .run i { s with cur := c }
  | none => .stuck

/-- What the next step does. -/
def State.fetch (s : State) : Fetched :=
  match s.turn with
  | none => .quiet
  | some (.issue, t) => t.fetchRequest
  | some (.run c, t) => t.fetchInFlight c

/-- A request that decodes to no operation (R103, R266): a reserved opcode ends at issue with
`F_BAD_OP`, in a context there is; a word outside the sixteen is refused by name. -/
def rejectRequest (r : Reject) (s : State) : Out :=
  match s.ctx?, r with
  | none, _ => .refused .noSuchContext
  | some _, .reservedOpcode op => .next (s.raise (.badOp op))
  | some _, .unlistedWord w => .refused (.unlistedWord w)

/-- Context 0 made idle with `q` waiting for it at the head of the host's queue, and the issue chosen to
move next if others could. -/
def State.present (q : Request) (s : State) : State :=
  let t : State :=
    { s with
      inbox := (0, q) :: s.inbox
      ctxs := s.ctxs.modify 0 fun x => { x with op := none, pc := [] } }
  if t.busyContexts.isEmpty then t
  else { t with env := { t.env with picks := 0 :: t.env.picks } }

end Sys2Proof.Machine
end

