-- ==== Sys2Proof/Machine/Step.lean ====
section
/-! DEFINITION. The step (rules R50, R51): who moves next is found, and runs its instruction. -/

namespace Sys2Proof.Machine

/-- One step. With nothing to do the state stays as it is (R322). -/
def step (s : State) : Host.Outcome State Fault Refusal :=
  match s.fetch with
  | .quiet => .next s
  | .run i t => exec i t
  | .reject r t => rejectRequest r t
  | .stuck => .fault .badSequencer

/-- `s` with a request, in the opcode table's numbering, where the next step takes it: at the head of the
host's queue, for context 0, which is made idle (log entry 9). -/
def State.withFetchWord (s : State) (nbits w : Nat) : State :=
  s.present (Request.ofTableWord nbits w)

end Sys2Proof.Machine
end

