-- ==== Sys2Proof/Safety.lean ====
section
/-! DEFINITION. What counts as a sound state and a safe run, in the words statements use: the legal
sequencer positions (rule R47), the invariants (rules R27 and R323), how many events an operation can
still make (rules R246 and R323 (f)), running one operation to its end (rule R51), and the event lists of
poll loops and of whole operations (rule R149). Nothing of the machine depends on this file. -/

namespace Sys2Proof.Machine

/-! ## Legal sequencer positions (rule R47) -/

/-- A phase that performs an event; the others call an operation. -/
def Phase.isEvent : Phase → Bool
  | .oReset | .oMatch | .tOpen1 | .tOpen2 | .fCall => false
  | _ => true

/-- The stacks of call phases under a frame of operation `q` in a context whose operation is `o`
(R47, R55 (c)): none under the operation itself; DEV_OPEN calls BUS_RESET and BUS_MATCH, TS_TEMP calls
DEV_OPEN, TS_TEMP_F calls TS_TEMP. -/
def callerStacks (o q : Op) : List (List Phase) :=
  if o = q then [[]]
  else
    match o, q with
    | .devOpen, .busReset => [[.oReset]]
    | .devOpen, .busMatch => [[.oMatch]]
    | .tsTemp, .busReset => [[.oReset, .tOpen1], [.oReset, .tOpen2]]
    | .tsTemp, .busMatch => [[.oMatch, .tOpen1], [.oMatch, .tOpen2]]
    | .tsTempF, .tsTemp => [[.fCall]]
    | .tsTempF, .busReset => [[.oReset, .tOpen1, .fCall], [.oReset, .tOpen2, .fCall]]
    | .tsTempF, .busMatch => [[.oMatch, .tOpen1, .fCall], [.oMatch, .tOpen2, .fCall]]
    | _, _ => []

/-- The bound of the poll loop a phase belongs to (R149, R159). -/
def pollBound (k : Config) : Phase → Option Nat
  | .rstPoll | .rstWait => some k.resetPollMax
  | .mPoll | .mWait => some k.matchPollMax
  | .sPoll | .sWait => some k.searchPollMax
  | .tRdPoll | .tRdWait => some k.scratchPollMax
  | _ => none

/-- A context whose sequencer position is one of rule R47's and whose counters are below their bounds
(R48), an idle context's too: issue leaves them as they are. `n` is the number of sensor records. -/
def Ctx.Sound (k : Config) (n : Nat) (x : Ctx) : Prop :=
  match x.op, x.pc with
  | none, [] => x.retryCnt ≤ k.scratchRetryMax
  | some o, p :: callers =>
    p.isEvent = true ∧ callers ∈ callerStacks o p.op ∧
      (∀ b, pollBound k p = some b → x.pollCnt < b) ∧
      x.retryCnt ≤ k.scratchRetryMax ∧
      ((o = .tsTemp ∨ o = .tsTempF) → x.opc.toNat < n) ∧
      (o = .busInit → validWindow k x.opc.toNat = true)
  | _, _ => False

/-- The offset of the access a phase makes, where it is none of the fixed registers: the offset of the
request (R170, R171, R209, R210) or of a ROM-ID entry (R162). -/
def chosenOffset (k : Config) (x : Ctx) : Phase → Option Nat
  | .rdAcc | .wrAcc | .dwAcc | .drAcc => some x.opc.toNat
  | .sLo => some (romIdLo k x.tIdx)
  | .sHi => some (romIdHi k x.tIdx)
  | _ => none

/-! ## Invariants -/

/-- The state the sequencer works in: valid parameters, `N_CTX` contexts, each sound; a window that holds
the fixed registers once constructed (R151); resolutions a conversion delay exists for (R323 (g));
no phase whose access lies outside the window (R268, R276); before construction nothing but a BUS_INIT in
flight, no sensor and no open scope (R267). -/
structure State.Sound (s : State) : Prop where
  cfg : s.cfg.Valid
  count : s.ctxs.length = s.cfg.nCtx
  ctxs : ∀ x ∈ s.ctxs, x.Sound s.cfg s.sens.length
  window : s.initialized = true → validWindow s.cfg s.addrRange = true
  res : ∀ y ∈ s.sens, validRes y.res = true
  access : ∀ x ∈ s.ctxs, ∀ p ∈ x.pc.head?, ∀ off ∈ chosenOffset s.cfg x p,
    inWindow s.addrRange off = true
  before : s.initialized = false → s.sens = [] ∧ s.lock = false ∧
    ∀ x ∈ s.ctxs, x.devOpen = false ∧ (x.op = none ∨ x.op = some .busInit)

/-- Rule R27 (a), (c) and (e); (b) is how the table is held, and (d) is that a step only appends. -/
structure State.TableOk (s : State) : Prop where
  fits : s.initialized = true → s.tab.length ≤ s.cap
  distinct : s.tab.Nodup
  doubled : ∃ n : Nat, s.cap = s.cfg.tableCapInit * 2 ^ n
  empty : s.initialized = false → s.tab = []

/-- The context is in a phase of BUS_SEARCH other than S_LOCK (R323 (c)). -/
def Ctx.holdsSearch (x : Ctx) : Bool :=
  match x.op, x.pc with
  | some .busSearch, p :: _ => decide (p ≠ .sLock)
  | _, _ => false

/-- Rule R323 (c): at most one context is past S_LOCK, the lock is set whenever one is, and, if every
exit releases it, only then. -/
structure State.LockOk (s : State) : Prop where
  one : ∀ (c d : Nat) (x y : Ctx), s.ctxs[c]? = some x → s.ctxs[d]? = some y →
    x.holdsSearch = true → y.holdsSearch = true → c = d
  held : ∀ x ∈ s.ctxs, x.holdsSearch = true → s.lock = true
  only : s.cfg.lockReleaseOnAbort = true → s.lock = true → ∃ x ∈ s.ctxs, x.holdsSearch = true

/-- A TS_TEMP on sensor `i` is in flight in the context, by itself or called by a TS_TEMP_F. -/
def Ctx.drives (i : Nat) (x : Ctx) : Prop :=
  (x.op = some .tsTemp ∨ x.op = some .tsTempF) ∧ x.opc.toNat = i

/-- The conversion has been triggered in this TS_TEMP and its end has not been reached (R223). -/
def Ctx.converting (x : Ctx) : Prop :=
  (∃ p ∈ [Phase.tConvWait, .tConvChk, .tRdCmd, .tRdSz, .tRdExec, .tRdPoll, .tRdWait, .tRdData, .tNow1],
    x.pc.head? = some p) ∨ Phase.tOpen2 ∈ x.pc

/-- Rule R323 (g), second half: a driver state other than `Idle` belongs to a TS_TEMP in flight on that
sensor, and to one whose conversion has been triggered. -/
def State.FsmOk (s : State) : Prop :=
  ∀ i y, s.sens[i]? = some y → y.fsm ≠ .idle →
    ∃ x ∈ s.ctxs, x.drives i ∧ x.converting

/-- The events of one context, the newest first: the trace restricted to it. -/
def State.eventsOf (c : Nat) (s : State) : List Event :=
  (s.trace.filter fun e => e.1 == c).map Prod.snd

/-- The context is in a phase that TS_TEMP makes inside one of its scopes (R222). -/
def Ctx.commandsDevice (x : Ctx) : Prop :=
  ∃ p ∈ [Phase.tConvCmd, .tConvExec, .tConvWait, .tConvChk, .tRdCmd, .tRdSz, .tRdExec, .tRdPoll, .tRdWait,
    .tRdData], x.pc.head? = some p

/-- The ordering invariant (R323 (d), (e)). A reset being polled has written its reset pulse; where DEV_OPEN
is about to write MATCH ROM the last event of its context has seen reset-done, after a reset pulse; where
TS_TEMP is about to write a device command the last event of its context has seen write-done; and all that
TS_TEMP does between is inside a scope on its own sensor's device. -/
structure State.OrderOk (s : State) : Prop where
  pulsed : ∀ (c : Nat) (x : Ctx) (cs : List Phase), s.ctxs[c]? = some x →
    (x.pc = .rstPoll :: cs ∨ x.pc = .rstWait :: cs) →
    Event.write s.cfg.offCommand 0x00010000 ∈ s.eventsOf c
  resetSeen : ∀ (c : Nat) (x : Ctx) (cs : List Phase), s.ctxs[c]? = some x →
    x.pc = .mCmd :: .oMatch :: cs →
    ∃ v before, s.eventsOf c = .read s.cfg.offStatus v :: before ∧ v &&& s.cfg.stRstd ≠ 0 ∧
      Event.write s.cfg.offCommand 0x00010000 ∈ before
  matchSeen : ∀ (c : Nat) (x : Ctx) (cs : List Phase), s.ctxs[c]? = some x →
    (x.pc = .tConvCmd :: cs ∨ x.pc = .tRdCmd :: cs) →
    ∃ v before, s.eventsOf c = .read s.cfg.offStatus v :: before ∧ v &&& s.cfg.stWrd ≠ 0
  scope : ∀ (c : Nat) (x : Ctx) (y : Sensor), s.ctxs[c]? = some x → x.commandsDevice →
    s.sens[x.opc.toNat]? = some y → x.devOpen = true ∧ x.devAddr = y.addr

/-- The clock samples of a trace are not above the clock and do not decrease (R280). -/
def State.ClockOk (s : State) : Prop :=
  (∀ c t, (c, Event.now t) ∈ s.trace → t ≤ s.clock) ∧
    (s.trace.filterMap fun e => match e.2 with | .now t => some t | _ => none).Pairwise (· ≥ ·)

/-- A result record as rule R10 has it: `err` is 0 exactly when `ok` is 1; and never the reserved code
of a CRC error (R265). -/
def Result.WellFormed (r : Result) : Prop :=
  (r.ok = true ↔ r.err = 0) ∧ r.err ≠ Err.crc.code

/-! ## How many events an operation can still make (rules R246, R323 (f)) -/

/-- All events of a BUS_RESET at its bounds: a write, `R` reads, `R - 1` delays. -/
def resetEvents (k : Config) : Nat := 2 * k.resetPollMax

/-- All events of a BUS_MATCH at its bounds: five writes, `M` reads, `M - 1` delays. -/
def matchEvents (k : Config) : Nat := 4 + 2 * k.matchPollMax

/-- All events of a DEV_OPEN at its bounds. -/
def openEvents (k : Config) : Nat := resetEvents k + matchEvents k

/-- All events of a scratchpad-read attempt at its bounds: an open, three writes, the poll. -/
def attemptEvents (k : Config) : Nat := openEvents k + (2 + 2 * k.scratchPollMax)

/-- What TS_TEMP can make after its first open: four events of the conversion, the attempts, two events
of the read. -/
def convertEvents (k : Config) : Nat := 4 + k.scratchRetryMax * attemptEvents k + 2

/-- What can follow the poll of attempt number `r`: the read, and the attempts that are left. -/
def afterAttempt (k : Config) (r : Nat) : Nat := 2 + (k.scratchRetryMax - r) * attemptEvents k

/-- What the callers of a frame can still make after it has returned. -/
def callerEvents (k : Config) (r : Nat) : List Phase → Nat
  | [] => 0
  | .oReset :: cs => matchEvents k + callerEvents k r cs
  | .tOpen1 :: cs => convertEvents k + callerEvents k r cs
  | .tOpen2 :: cs => 2 + 2 * k.scratchPollMax + afterAttempt k r + callerEvents k r cs
  | _ :: cs => callerEvents k r cs

/-- What the frame at event phase `p` can still make, `n` polls and `r` attempts having been made. The
phases of BUS_SEARCH have no such bound (R157) and are given none. -/
def phaseEvents (k : Config) (n r : Nat) : Phase → Nat
  | .iClkget => 2
  | .iClkset => 1
  | .rstCmd => resetEvents k
  | .rstPoll => 2 * (k.resetPollMax - n) - 1
  | .rstWait => 2 * (k.resetPollMax - n)
  | .mCmd => matchEvents k
  | .mD0 => 3 + 2 * k.matchPollMax
  | .mD1 => 2 + 2 * k.matchPollMax
  | .mSz => 1 + 2 * k.matchPollMax
  | .mExec => 2 * k.matchPollMax
  | .mPoll => 2 * (k.matchPollMax - n) - 1
  | .mWait => 2 * (k.matchPollMax - n)
  | .rdAcc | .wrAcc | .wcAcc | .wtAcc | .dwAcc | .drAcc => 1
  | .tNow0 => 1 + openEvents k + convertEvents k
  | .tConvCmd => convertEvents k
  | .tConvExec => convertEvents k - 1
  | .tConvWait => convertEvents k - 2
  | .tConvChk => convertEvents k - 3
  | .tRdCmd => 2 + 2 * k.scratchPollMax + afterAttempt k r
  | .tRdSz => 1 + 2 * k.scratchPollMax + afterAttempt k r
  | .tRdExec => 2 * k.scratchPollMax + afterAttempt k r
  | .tRdPoll => 2 * (k.scratchPollMax - n) - 1 + afterAttempt k r
  | .tRdWait => 2 * (k.scratchPollMax - n) + afterAttempt k r
  | .tRdData => 2
  | .tNow1 => 1
  | .sLock | .sCmd | .sSer | .sPoll | .sWait | .sFound | .sLo | .sHi => 0
  | .oReset | .oMatch | .tOpen1 | .tOpen2 | .fCall => 0

/-- The most events the operation in flight in a context can still make (R323 (f)). -/
def Ctx.eventsLeft (k : Config) (x : Ctx) : Nat :=
  match x.pc with
  | [] => 0
  | p :: callers => phaseEvents k x.pollCnt x.retryCnt p + callerEvents k x.retryCnt callers

/-! ## Running one operation to its end -/

/-- Let the context that takes the step go on with `i` until it is idle, at most `n` events. -/
def finish (i : Instr) : Nat → State → Out
  | 0, s => .next s
  | n + 1, s =>
    if s.busy s.cur then
      match exec i s with
      | .next t => finish i n t
      | .fault f => .fault f
      | .refused r => .refused r
    else .next s

/-- The context that takes the step is there, idle, and holds `x` (R46). -/
def State.IdleAt (s : State) (x : Ctx) : Prop := s.ctx? = some x ∧ x.op = none

/-- `s` after the context that takes the steps has made these events, the oldest first, and holds `y`.
The time and the oracles are those of `t`; all else is as in `s` (R50). -/
def State.moved (s t : State) (y : Ctx) (evs : List Event) : State :=
  { s with
    ctxs := s.ctxs.set s.cur y
    trace := (evs.map fun e => (s.cur, e)).reverse ++ s.trace
    clock := t.clock
    env := t.env }

/-- `s` after an operation of the context that takes the steps has ended with these events: as `moved`,
with the context idle, the result's code in `last_err` and the result delivered (R51). -/
def State.ended (s t : State) (y : Ctx) (evs : List Event) (r : Result) : State :=
  { s.moved t { y with op := none, pc := [], lastErr := r.err } evs with
    outbox := (s.cur, r) :: s.outbox }

/-- `s` after an operation has ended at issue: nothing has changed but that the context holds `x`, idle,
with the result's code in `last_err`, and the result has been delivered (R51). -/
def State.answered (s : State) (x : Ctx) (r : Result) : State :=
  { s with
    ctxs := s.ctxs.set s.cur { x with op := none, pc := [], lastErr := r.err }
    outbox := (s.cur, r) :: s.outbox }

/-- The operand latches hold the operands of `i` as its record has them (R49, R100), what `i` does not use
being 0. -/
def Ctx.Latched (i : Instr) (y : Ctx) : Prop :=
  ∀ r, encode i = .hostOp r →
    y.opa = r.extractLsb' 96 64 ∧ y.opb = r.extractLsb' 32 64 ∧ y.opc = r.extractLsb' 0 32

/-- `i` ends at issue with the result `r` and leaves `x` in its context but for the operand latches, which a
statement of their own is about (`IssueLatchesTheOperands`); all else is as `answered` has it (R51). -/
def AnswersAtIssue (i : Instr) (s : State) (x : Ctx) (r : Result) : Prop :=
  ∃ a b c, exec i s = .next (s.answered { x with opa := a, opb := b, opc := c } r)

/-! ## Event lists -/

/-- The events of a poll loop whose reads answer these words (R149): a delay between two reads, none
before the first, none after the last. -/
def pollEvents (off d : Nat) : List Word → List Event
  | [] => []
  | [v] => [.read off v]
  | v :: w :: vs => .read off v :: .delay d :: pollEvents off d (w :: vs)

/-- The answers of a poll loop for a flag with bound `n` that ended at its last read (R149): the flag is
clear in all answers but perhaps the last, there are at most `n` of them, and if the flag is clear in
the last there are `n`. -/
structure PollAnswers (mask : Word) (n : Nat) (vs : List Word) (seen : Bool) : Prop where
  some : vs ≠ []
  bound : vs.length ≤ n
  clear : ∀ v ∈ vs.dropLast, flagSet v mask = false
  last : ∀ v, vs.getLast? = Option.some v → flagSet v mask = seen
  full : seen = false → vs.length = n

/-- The answers of the poll loop of a search that ends at its last read with search-done and no error
(R159, R160). -/
structure SearchAnswers (k : Config) (vs : List Word) : Prop where
  bound : vs.length ≤ k.searchPollMax
  pending : ∀ v ∈ vs.dropLast,
    flagSet v k.stSer = false ∧ flagSet v k.stSme = false ∧ flagSet v k.stSrd = false
  done : ∃ v, vs.getLast? = some v ∧
    flagSet v k.stSer = false ∧ flagSet v k.stSme = false ∧ flagSet v k.stSrd = true

/-- The events of a BUS_RESET whose polls answer `vs` (R153). -/
def busResetEvents (k : Config) (vs : List Word) : List Event :=
  .write k.offCommand 0x00010000 :: pollEvents k.offStatus k.tPollReset vs

/-- The events of a BUS_MATCH on `rom` whose polls answer `vs` (R166). -/
def busMatchEvents (k : Config) (rom : RomCode) (vs : List Word) : List Event :=
  [.write k.offCommand 0x00000055, .write k.offWrData0 (rom.extractLsb' 0 32),
    .write k.offWrData1 (rom.extractLsb' 32 32), .write k.offWrSize k.wrSizeRom,
    .write k.regTrigger 0x00000018] ++ pollEvents k.offStatus k.tPollMatch vs

/-- The reads of a harvest of these ROM-ID table entries from index `i` on (R162). -/
def harvestEvents (k : Config) (i : Nat) : List RomCode → List Event
  | [] => []
  | r :: rs =>
    [.read (k.offRomId0 + 8 * i) (r.extractLsb' 0 32),
      .read (k.offRomId1 + 8 * i) (r.extractLsb' 32 32)] ++ harvestEvents k (i + 1) rs

/-- The answers a downstream core with these ROM-ID table entries gives to a harvest (R162). -/
def harvestAnswers : List RomCode → List Word
  | [] => []
  | r :: rs => [r.extractLsb' 0 32, r.extractLsb' 32 32] ++ harvestAnswers rs

/-- A table with the codes it does not hold appended one after the other (R163, R164). -/
def mergeRoms (tab : List RomCode) : List RomCode → List RomCode
  | [] => tab
  | r :: rs => mergeRoms (if r ∈ tab then tab else tab ++ [r]) rs

/-- A harvest of these codes, one `InsertIfNew` after the other (R162, R163). -/
def State.insertAll (roms : List RomCode) (s : State) : State := roms.foldl (fun t r => t.insertIfNew r) s

/-- The capacity after merging (R163): doubled at each append that finds the table full. -/
def mergeCap (cap : Nat) (tab : List RomCode) : List RomCode → Nat
  | [] => cap
  | r :: rs =>
    if r ∈ tab then mergeCap cap tab rs
    else mergeCap (if tab.length = cap then 2 * cap else cap) (tab ++ [r]) rs

/-- `T_CONV` of a resolution (R228). -/
def conversionTime (k : Config) (res : Nat) : Nat :=
  if res = 9 then k.tConv9 else if res = 10 then k.tConv10 else if res = 11 then k.tConv11 else k.tConv12

/-- The events of a DEV_OPEN on `rom` (R201): those of the reset, and if its reset-done was seen those of
the match. -/
def devOpenEvents (k : Config) (rom : RomCode) (vs : List Word) (seen : Bool) (ws : List Word) :
    List Event :=
  busResetEvents k vs ++ if seen then busMatchEvents k rom ws else []

/-- The events of a conversion (R226, R227, R229, R230): command word, trigger word, one delay, one read
of STATUS. -/
def convertSequence (k : Config) (res : Nat) (status : Word) : List Event :=
  [.write k.offCommand 0x00000044, .write k.regTrigger 0x00000008, .delay (conversionTime k res),
    .read k.offStatus status]

/-- The events of a scratchpad read inside its scope (R232 to R235). -/
def scratchSequence (k : Config) (ps : List Word) : List Event :=
  [.write k.offCommand 0x000000BE, .write k.offRdSize k.rdSizeScratch,
    .write k.regTrigger 0x00000028] ++ pollEvents k.offStatus k.tPollScratch ps

/-- Every register of the fixed map is inside the window (R74). -/
def State.FixedAdmitted (s : State) : Prop :=
  ∀ o ∈ s.cfg.fixedOffsets, o % 4 = 0 ∧ o + 4 ≤ s.addrRange

end Sys2Proof.Machine
end

