-- ==== Sys2Proof/Certificates/Slice0/Obligations.lean ====
section
/-! DEFINITION. The statements about OWC that are to be proved, from the numbered rules of the spec. In
all of them `s` is the state before and `t` the state after; `x` is the context that takes the steps;
`exec i s = .next t` is one step of `i` there; `finish i n u = .next t` says that the operation then goes
on, at most `n` further events. `State.ended`, `State.moved` and `State.answered` (Safety.lean) leave every
field as it is but the ones they name, so an equation with one of them is the frame of the instruction as
well as its effect. Reads are answered from the script `env.regs`: a statement for every script is one for
every sequence of answers (rule R78). The result records are written out: `ok`, `err`, `val`, and the
fault's payload. -/

open Sys2Proof Sys2Proof.Machine

/-! ## Encoding -/

/-- Rules R100, R101, R105, R108: every operand at every value its field admits comes back. -/
def Obligations.DecodeOfEncodeIsTheInstruction : Prop :=
  ∀ i : Instr, i.WellFormed → decode (encode i) = .instr i

/-- The other direction: what decodes is well formed, as a request and as an instruction, and a command
word is the one word of its instruction (R108). -/
def Obligations.DecodedIsWellFormed : Prop :=
  ∀ (r : Request) (i : Instr), decode r = .instr i →
    i.WellFormed ∧ r.WellFormed ∧ ∀ w, r = .cmdWord w → encode i = .cmdWord w

/-- Rule R103: the records that decode to nothing are those with a reserved opcode, listed by its ranges. That
a bare word outside the sixteen of rule R108, which rule R119 lets pass through BUS_WR and the passthroughs,
is rejected as a request of its own is the model's choice (log entry 16). Each is rejected by its name. -/
def Obligations.UndefinedRequestsAreRejectedByName : Prop :=
  (∀ r : BitVec 168,
    let op := (r.extractLsb' 160 8).toNat
    ((6 ≤ op ∧ op ≤ 15) ∨ (21 ≤ op ∧ op ≤ 31) ∨ (38 ≤ op ∧ op ≤ 47) ∨ 53 ≤ op →
      decode (.hostOp r) = .reject (.reservedOpcode (r.extractLsb' 160 8))) ∧
    ((op ≤ 5) ∨ (16 ≤ op ∧ op ≤ 20) ∨ (32 ≤ op ∧ op ≤ 37) ∨ (48 ≤ op ∧ op ≤ 52) →
      ∃ i, decode (.hostOp r) = .instr i)) ∧
  (∀ w : Word, w ∉ commandWords → decode (.cmdWord w) = .reject (.unlistedWord w)) ∧
  (∀ w : Word, w ∈ commandWords → ∃ i, decode (.cmdWord w) = .instr i)

/-- The opcode map of rule R101 with the fields of rule R100: `op` 167:160, `a` 159:96, `b` 95:32,
`c` 31:0. A field an operation does not use may hold anything (R100), of `c` a search looks at bit 0 only
(R105), and a 32-bit value in `b` is its low half. -/
def Obligations.OpcodeMap : Prop :=
  ∀ r : BitVec 168,
    let op : BitVec 8 := r.extractLsb' 160 8
    let a : BitVec 64 := r.extractLsb' 96 64
    let b : BitVec 64 := r.extractLsb' 32 64
    let v : BitVec 32 := r.extractLsb' 32 32
    let c : Nat := (r.extractLsb' 0 32).toNat
    let gives (i : Instr) : Prop := decode (.hostOp r) = .instr i
    (op = 0x00#8 → gives (.busInit a.toNat c)) ∧ (op = 0x01#8 → gives .busReset) ∧
    (op = 0x02#8 → gives (.busSearch (r.getLsbD 0))) ∧ (op = 0x03#8 → gives (.busMatch a)) ∧
    (op = 0x04#8 → gives (.busRd c)) ∧ (op = 0x05#8 → gives (.busWr c v)) ∧
    (op = 0x10#8 → gives (.addrRom a)) ∧ (op = 0x11#8 → gives (.addrFamily a)) ∧
    (op = 0x12#8 → gives (.addrSerial a)) ∧ (op = 0x13#8 → gives (.addrCrc a)) ∧
    (op = 0x14#8 → gives (.addrEq a b)) ∧ (op = 0x20#8 → gives (.devOpen a)) ∧
    (op = 0x21#8 → gives .devClose) ∧ (op = 0x22#8 → gives (.devWcmd v)) ∧
    (op = 0x23#8 → gives (.devWctl v)) ∧ (op = 0x24#8 → gives (.devWr c v)) ∧
    (op = 0x25#8 → gives (.devRd c)) ∧ (op = 0x30#8 → gives (.tsCreate a b.toNat c)) ∧
    (op = 0x31#8 → gives (.tsTemp c)) ∧ (op = 0x32#8 → gives (.tsTempF c)) ∧
    (op = 0x33#8 → gives (.tsGetRes c)) ∧ (op = 0x34#8 → gives (.tsSetRes c v.toNat))

/-- Words written out by hand: requests of 95_test_vectors.md section 2.1 and command words of its
section 1, one or more of every family. -/
def Obligations.WrittenOutWordsDecode : Prop :=
  decode (.hostOp 0x000000000043C00000000000000000000000010000#168) = .instr (.busInit 0x43C00000 0x10000) ∧
  decode (.hostOp 0x05000000000000000000000000000000480000000C#168) = .instr (.busWr 0x0C 72#32) ∧
  decode (.hostOp 0x147A00000B123456281C00000C9ABCDE2800000000#168) =
    .instr (.addrEq 0x7A00000B12345628#64 0x1C00000C9ABCDE28#64) ∧
  decode (.hostOp 0x250000000000000000000000000000000000000014#168) = .instr (.devRd 0x14) ∧
  decode (.hostOp 0x307A00000B1234562800000000004C4B400000000C#168) =
    .instr (.tsCreate 0x7A00000B12345628#64 5000000 12) ∧
  decode (.hostOp 0x060000000000000000000000000000000000000000#168) = .reject (.reservedOpcode 6#8) ∧
  decode (.cmdWord 0b00000000000000010000000000000000#32) = .instr .resetPulse ∧
  decode (.cmdWord 0b00000000000000000000000011101100#32) = .instr .alarmSearch

/-! ## The step -/

/-- Rules R50, R51, R102: when the issue of the host's next request moves, the step is `exec` of the
decoded request, in the request's context, with the request taken from the queue and, if there was a
choice, one choice of the scheduler used. If no operation is in flight the issue is the only move. That issue
is a step of its own and who moves is drawn from a script are the model's choices (log entries 5 and 14). -/
def Obligations.StepRunsTheHostsRequest : Prop :=
  ∀ (s : State) (c : Nat) (q : Request) (rest : List (Nat × Request)) (i : Instr),
    s.inbox = (c, q) :: rest → decode q = .instr i →
    (∀ t, s.turn = some (.issue, t) →
      step s = exec i { t with inbox := rest, cur := c } ∧ (t = s ∨ t = { s with env := s.env.afterPick })) ∧
    ((∀ d, s.busy d = false) → step s = exec i { s with inbox := rest, cur := c })

/-- Rules R50, R85: when a context with an operation in flight moves, the step is `exec` of the
instruction read from that context's latches. If it is the only one and the host has nothing to issue, it
moves. That who moves is drawn from a script is the model's choice (log entry 5). -/
def Obligations.StepRunsTheOperationInFlight : Prop :=
  ∀ (s : State) (c : Nat) (x : Ctx) (i : Instr), s.ctxs[c]? = some x → x.inFlight = some i →
    (∀ t, s.turn = some (.run c, t) →
      step s = exec i { t with cur := c } ∧ (t = s ∨ t = { s with env := s.env.afterPick })) ∧
    ((∀ d, s.busy d = true → d = c) → s.inbox = [] → step s = exec i { s with cur := c })

/-- Rules R51 and R85: issue latches the instruction, so that it is the one in flight, and no later event
of the operation changes its opcode or operands. That a field an operation does not use is latched as 0 is the
model's choice (log entry 12). -/
def Obligations.LatchedInstructionStays : Prop :=
  ∀ (s t : State) (x : Ctx) (i : Instr), s.ctx? = some x → exec i s = .next t →
    ∃ y, t.ctx? = some y ∧
      (x.op = none → i.WellFormed → y.op = none ∨ y.inFlight = some i) ∧
      (x.op ≠ none → y.op = none ∨
        (y.op = x.op ∧ y.opa = x.opa ∧ y.opb = x.opb ∧ y.opc = x.opc))

/-- Rules R50, R51, R84: any context with an operation in flight may take the next step, and so may the
issue of the host's next request if its context is idle; there is a choice of the scheduler for each (the
script of choices is the model's, log entry 5). -/
def Obligations.WhoeverCanMoveMayMoveNext : Prop :=
  ∀ s : State,
    let choosing (p : Nat) : State := { s with env := { s.env with picks := p :: s.env.picks } }
    (∀ c, s.busy c = true → ∃ p t, (choosing p).turn = some (.run c, t)) ∧
    (∀ c q rest, s.inbox = (c, q) :: rest → s.busy c = false →
      ∃ p t, (choosing p).turn = some (.issue, t)) ∧
    (∀ c t, s.turn = some (.run c, t) → s.busy c = true) ∧
    (∀ t, s.turn = some (.issue, t) → ∃ c q rest, s.inbox = (c, q) :: rest ∧ s.busy c = false)

/-- Rule R322: with nothing in flight and nothing to issue the state stays as it is (a step that changes
nothing: the model's choice, log entry 15). -/
def Obligations.QuietMachineStaysAsItIs : Prop :=
  ∀ s : State, (∀ c, s.busy c = false) → s.inbox = [] → step s = .next s

/-- The model's own `withFetchWord` (log entry 9): the very next step runs the instruction the table's
word decodes to, in context 0 made idle, and finds all else as it was. -/
def Obligations.PresentedWordRunsFirst : Prop :=
  ∀ (s : State) (nbits w : Nat) (i : Instr), decodeTableWord nbits w = some i →
    step (s.withFetchWord nbits w) =
      exec i { s with cur := 0, ctxs := s.ctxs.modify 0 fun x => { x with op := none, pc := [] } }

/-- Rules R266 and R272: a reserved opcode ends at issue with `F_BAD_OP`, code 0xF0, no event, and no
state change but `last_err`. That issue is a step of its own (log entry 14) and that a refused request has no
`val` (log entry 17) are the model's choices. -/
def Obligations.ReservedOpcodeEndsAtIssue : Prop :=
  ∀ (s u : State) (c : Nat) (x : Ctx) (r : BitVec 168) (rest : List (Nat × Request)),
    s.turn = some (.issue, u) → s.inbox = (c, .hostOp r) :: rest →
    reservedOpcode (r.extractLsb' 160 8) = true → s.ctxs[c]? = some x →
    step s = .next (State.answered { u with inbox := rest, cur := c } x
      ⟨false, 0xF0, .none, some (.badOp (r.extractLsb' 160 8))⟩)

/-! ## Reset -/

/-- Rules R301 and R53, the values the spec gives, under every parameter assignment. -/
def Obligations.ResetState : Prop :=
  ∀ k : Config,
    let s := State.resetWith k
    s.cfg = k ∧ s.initialized = false ∧ s.lock = false ∧ s.numRoms = 0 ∧ s.nSens = 0 ∧
    s.busPhase = .unknown ∧ s.ctxs.length = k.nCtx ∧ s.trace = [] ∧
    ∀ x ∈ s.ctxs, x.op = none ∧ x.pc = [] ∧ x.pollCnt = 0 ∧ x.retryCnt = 0 ∧ x.devOpen = false ∧
      x.lastErr = 0

/-- Reset meets every invariant below, under every valid parameter assignment; and the default parameters
are valid (R7), with `State.reset` the reset under them. -/
def Obligations.ResetMeetsTheInvariants : Prop :=
  (∀ k : Config, k.Valid →
    (State.resetWith k).Sound ∧ (State.resetWith k).TableOk ∧ (State.resetWith k).LockOk ∧
      (State.resetWith k).FsmOk ∧ (State.resetWith k).OrderOk ∧ (State.resetWith k).ClockOk) ∧
  Config.default.Valid ∧ State.reset = State.resetWith Config.default

/-! ## Invariants and whole-machine rules -/

/-- Rules R47, R48, R151, R267, R276, R323 (g): every step keeps the sequencer positions legal, the
counters below their bounds, the window valid, every access inside it, and every resolution in 9 to 12. -/
def Obligations.EveryStepKeepsSoundness : Prop :=
  ∀ s t : State, s.Sound → step s = .next t → t.Sound

/-- No run meets a stop of the machine but for a request that is none: a context at or above `N_CTX`, or
a word that is no command word. Both stops are the model's (log entry 16). -/
def Obligations.SoundStatesNeverStop : Prop :=
  ∀ s : State, s.Sound → (∀ f, step s ≠ .fault f) ∧
    ∀ r, step s = .refused r → ∃ c q rest, s.inbox = (c, q) :: rest ∧
      (s.cfg.nCtx ≤ c ∨ ∃ w, q = .cmdWord w ∧ w ∉ commandWords)

/-- Rule R27: the table fits its capacity, holds no code twice, its capacity is the initial one doubled
some number of times; and a step only appends, at most one code (R24: "No address is ever mutated"). -/
def Obligations.EveryStepKeepsTheAddressTable : Prop :=
  ∀ s t : State, s.Sound → s.TableOk → step s = .next t →
    t.TableOk ∧ (s.initialized = true → ∃ new, t.tab = s.tab ++ new ∧ new.length ≤ 1)

/-- Rules R21, R22, R323 (b): the construction is for ever. That the parameters of rule R6 are a field of the
state, `cfg`, and that no step changes it, is the model's choice (log entry 1). -/
def Obligations.ConstructionIsForEver : Prop :=
  ∀ s t : State, step s = .next t → t.cfg = s.cfg ∧
    (s.initialized = true →
      t.initialized = true ∧ t.baseAddr = s.baseAddr ∧ t.addrRange = s.addrRange)

/-- Rule R323 (c): at most one context is past S_LOCK, the lock is set while one is and, if aborts
release it, only then. -/
def Obligations.EveryStepKeepsTheSearchLock : Prop :=
  ∀ s t : State, s.Sound → s.LockOk → step s = .next t → t.LockOk

/-- Rules R223 and R323 (g): a driver state other than `Idle` belongs to a TS_TEMP in flight on that
sensor whose conversion has been triggered. -/
def Obligations.EveryStepKeepsTheDriverStates : Prop :=
  ∀ s t : State, s.Sound → s.FsmOk → step s = .next t → t.FsmOk

/-- Rules R83, R222, R323 (d) and (e): the ordering invariant. In the trace of a context, DEV_OPEN's MATCH
ROM comes right after an answer with reset-done that follows a reset pulse, TS_TEMP's CONVERT_T and
READ_SCRATCHPAD right after an answer with write-done, and both in a scope on the sensor's own device. -/
def Obligations.EveryStepKeepsTheOrder : Prop :=
  ∀ s t : State, s.Sound → s.OrderOk → step s = .next t → t.OrderOk

/-- Rules R280 to R282: the clock does not go back, a delay takes at least what it asks for, a sample is
the clock's value, and so the samples of a run do not decrease. That a sample is the clock after the event is the
model's choice (log entry 11). -/
def Obligations.TimeOnlyPasses : Prop :=
  ∀ s t : State, step s = .next t → s.clock ≤ t.clock ∧
    (∀ c d, t.trace = (c, .delay d) :: s.trace → s.clock + d ≤ t.clock) ∧
    (∀ c n, t.trace = (c, .now n) :: s.trace → n = t.clock) ∧
    (s.ClockOk → t.ClockOk)

/-- Rules R50 and R51: the step of a context with an operation in flight is exactly one event of that
context; the issue of a host operation is none (that it is a step of its own is the model's choice, log entry
14). -/
def Obligations.EveryRunStepIsOneEvent : Prop :=
  ∀ s t : State, s.Sound → step s = .next t →
    (∀ c u, s.turn = some (.run c, u) → ∃ e, t.trace = (c, e) :: s.trace) ∧
    (∀ u c r rest, s.turn = some (.issue, u) → s.inbox = (c, .hostOp r) :: rest → t.trace = s.trace)

/-- Rules R49, R50, R285: a step is of one context and leaves every other as it is; and a result is
delivered, at most one, in that context. -/
def Obligations.OtherContextsAreLeftAlone : Prop :=
  ∀ s t : State, step s = .next t → t = s ∨
    (t.ctxs.length = s.ctxs.length ∧ (∀ d, d ≠ t.cur → t.ctxs[d]? = s.ctxs[d]?) ∧
      (t.outbox = s.outbox ∨ ∃ r, t.outbox = (t.cur, r) :: s.outbox))

/-- Rules R10 and R265: every result a step delivers has `err` 0 exactly when `ok` is 1, and never the
reserved code of a CRC error. -/
def Obligations.ResultsAreWellFormed : Prop :=
  ∀ s t : State, step s = .next t → ∃ new, t.outbox = new ++ s.outbox ∧
    ∀ r ∈ new, (r.2.ok = true ↔ r.2.err = 0) ∧ r.2.err ≠ 7

/-- Rule R323 (f): an operation in flight other than a search comes nearer to its end at every event; with
the default bounds a temperature read has 2611 of them before it (R246). -/
def Obligations.OperationsRunDown : Prop :=
  (∀ (s t u : State) (c : Nat) (x : Ctx), s.Sound → s.turn = some (.run c, u) → s.ctxs[c]? = some x →
    x.op ≠ some .busSearch → step s = .next t →
    ∃ y, t.ctxs[c]? = some y ∧ y.eventsLeft s.cfg < x.eventsLeft s.cfg) ∧
  (∀ x : Ctx, x.pc = [.tNow0] → x.eventsLeft Config.default = 2611)

/-- Rules R246, R287, R323 (f): every instruction but a search, issued in an idle context of a sound
state, answers a next state and, no other context moving, ends within the bound, whatever the oracles
answer. -/
def Obligations.EveryOperationEnds : Prop :=
  ∀ (s : State) (x : Ctx) (i : Instr), s.Sound → s.IdleAt x → i.WellFormed →
    (∀ alarm, i ≠ .busSearch alarm) →
    ∃ u t y, exec i s = .next u ∧
      finish i (1 + openEvents s.cfg + convertEvents s.cfg) u = .next t ∧ t.IdleAt y

/-- Rule R28: the ghost changes nothing. Two runs that differ in `bus_phase` alone make the same step, and
still differ in `bus_phase` alone. -/
def Obligations.GhostChangesNothing : Prop :=
  ∀ (s : State) (b : BusPhase),
    (∀ t, step s = .next t → ∃ c, step { s with busPhase := b } = .next { t with busPhase := c }) ∧
    (∀ f, step s = .fault f → step { s with busPhase := b } = .fault f) ∧
    (∀ r, step s = .refused r → step { s with busPhase := b } = .refused r)

/-! ## The Address Matcher -/

/-- Rules R191 to R194: the accessors, by the bit positions of rule R190, for every 64-bit value; no
event, no state change but `last_err`; each with its opcode. -/
def Obligations.AddressAccessors : Prop :=
  (∀ (s : State) (x : Ctx) (rom : BitVec 64), s.IdleAt x →
    AnswersAtIssue (.addrRom rom) s x ⟨true, 0, .u64 rom, none⟩ ∧
    AnswersAtIssue (.addrFamily rom) s x ⟨true, 0, .u8 (rom.extractLsb' 0 8), none⟩ ∧
    AnswersAtIssue (.addrSerial rom) s x ⟨true, 0, .u48 (rom.extractLsb' 8 48), none⟩ ∧
    AnswersAtIssue (.addrCrc rom) s x ⟨true, 0, .u8 (rom.extractLsb' 56 8), none⟩) ∧
  ∀ r : BitVec 168,
    (r.extractLsb' 160 8 = 0x10#8 → decode (.hostOp r) = .instr (.addrRom (r.extractLsb' 96 64))) ∧
    (r.extractLsb' 160 8 = 0x11#8 → decode (.hostOp r) = .instr (.addrFamily (r.extractLsb' 96 64))) ∧
    (r.extractLsb' 160 8 = 0x12#8 → decode (.hostOp r) = .instr (.addrSerial (r.extractLsb' 96 64))) ∧
    (r.extractLsb' 160 8 = 0x13#8 → decode (.hostOp r) = .instr (.addrCrc (r.extractLsb' 96 64)))

/-- Rule R195: equality of all 64 bits; the comparator is the one a harvest deduplicates with. -/
def Obligations.AddressEquality : Prop :=
  (∀ (s : State) (x : Ctx) (p q : BitVec 64), s.IdleAt x →
    AnswersAtIssue (.addrEq p q) s x ⟨true, 0, .bool (decide (p = q)), none⟩) ∧
  (∀ r : BitVec 168, r.extractLsb' 160 8 = 0x14#8 →
    decode (.hostOp r) = .instr (.addrEq (r.extractLsb' 96 64) (r.extractLsb' 32 64))) ∧
  (∀ (s : State) (rom : BitVec 64), s.insertIfNew rom = s ↔ rom ∈ s.tab)

/-- Rule R197, with the accessors of the model: the fields are disjoint and cover all 64 bits. -/
def Obligations.RomFieldsReassemble : Prop :=
  ∀ r : RomCode, ((romCrc r).zeroExtend 64 <<< 56) ||| ((romSerial r).zeroExtend 64 <<< 8) |||
    (romFamily r).zeroExtend 64 = r

/-! ## The Bus Protocol Engine -/

/-- Rules R150 and R152: BUS_INIT with a valid window, not yet constructed. The clock `f` the generator
answers is left alone within the tolerance, both ends included, and set to the target otherwise; then the
singleton is constructed. Operand latches an operation does not use are 0 (the model's choice, log entry
12), and `plClk` records the frequency last answered or set (the model's, log entry 18). -/
def Obligations.BusInitConstructs : Prop :=
  ∀ (s : State) (x : Ctx) (base range : Nat), s.IdleAt x → s.initialized = false →
    base < 2 ^ 64 → range < 2 ^ 32 →
    range % 4 = 0 → (∀ o ∈ s.cfg.fixedOffsets, o + 4 ≤ range) →
    let f := s.env.clk
    let leftAlone : Prop :=
      s.cfg.plClkTarget ≤ f + s.cfg.plClkTol ∧ f ≤ s.cfg.plClkTarget + s.cfg.plClkTol
    let events (set : Bool) : List Event :=
      .clkGet f :: if set then [.clkSet s.cfg.plClkTarget] else []
    let after (t : State) (set : Bool) : State :=
      { s.ended t { x with opa := BitVec.ofNat 64 base, opb := 0, opc := BitVec.ofNat 32 range }
          (events set) ⟨true, 0, .none, none⟩ with
        initialized := true, baseAddr := base, addrRange := range, cap := s.cfg.tableCapInit,
        tab := [], lock := false, plClk := if set then s.cfg.plClkTarget else f }
    (leftAlone → ∃ u t, exec (.busInit base range) s = .next u ∧
      finish (.busInit base range) 1 u = .next t ∧ t = after t false) ∧
    (¬ leftAlone → ∃ u t, exec (.busInit base range) s = .next u ∧
      finish (.busInit base range) 2 u = .next t ∧ t = after t true)

/-- Rule R150, corner cases (a) and (b): once constructed, BUS_INIT with any operands does nothing; and a
BUS_INIT whose last event comes second, in another context, changes nothing either, be that event its ClkSet
or, the clock answered being within the tolerance (R152), its ClkGet. `plClk` records the frequency last
answered or set (the model's, log entry 18). -/
def Obligations.BusInitAgainChangesNothing : Prop :=
  (∀ (s : State) (x : Ctx) (base range : Nat), s.IdleAt x → s.initialized = true →
    AnswersAtIssue (.busInit base range) s x ⟨true, 0, .none, none⟩) ∧
  (∀ (s : State) (x : Ctx) (base range : Nat), s.ctx? = some x → x.op = some .busInit →
    x.pc = [.iClkset] → s.initialized = true →
    ∃ t, exec (.busInit base range) s = .next t ∧
      t = { s.ended t x [.clkSet s.cfg.plClkTarget] ⟨true, 0, .none, none⟩ with
        plClk := s.cfg.plClkTarget }) ∧
  (∀ (s : State) (x : Ctx) (base range : Nat), s.ctx? = some x → x.op = some .busInit →
    x.pc = [.iClkget] → s.initialized = true →
    s.cfg.plClkTarget ≤ s.env.clk + s.cfg.plClkTol → s.env.clk ≤ s.cfg.plClkTarget + s.cfg.plClkTol →
    ∃ t, exec (.busInit base range) s = .next t ∧
      t = { s.ended t x [.clkGet s.env.clk] ⟨true, 0, .none, none⟩ with plClk := s.env.clk })

/-- Rules R270, R151 and R272: a window that is no multiple of 4 or does not hold every fixed register
ends at issue with `F_INIT`, code 0xF4; nothing is constructed. That a refused request has no `val` is the
model's choice (log entry 17). -/
def Obligations.InvalidWindowIsRefused : Prop :=
  ∀ (s : State) (x : Ctx) (base range : Nat), s.IdleAt x → s.initialized = false →
    ¬ (range % 4 = 0 ∧ ∀ o ∈ s.cfg.fixedOffsets, o + 4 ≤ range) →
    AnswersAtIssue (.busInit base range) s x ⟨false, 0xF4, .none, some (.init range)⟩

/-- Rules R267 and R272: the seven operations that need the bus are refused before BUS_INIT with `F_NOT_INIT`,
code 0xF1; the ADDR operations and DEV_CLOSE are not; and the others find no scope and no sensor. That a refused
request has no `val` is the model's choice (log entry 17). -/
def Obligations.BusOperationsNeedBusInit : Prop :=
  ∀ (s : State) (x : Ctx), s.IdleAt x → s.initialized = false →
    (∀ i : Instr,
      (i = .busReset ∨ (∃ alarm, i = .busSearch alarm) ∨ (∃ rom, i = .busMatch rom) ∨
        (∃ off, i = .busRd off) ∨ (∃ off v, i = .busWr off v) ∨ (∃ rom, i = .devOpen rom) ∨
        ∃ rom refresh res, i = .tsCreate rom refresh res) →
      AnswersAtIssue i s x ⟨false, 0xF1, .none, some .notInit⟩) ∧
    (∀ i : Instr,
      ((∃ rom, i = .addrRom rom) ∨ (∃ rom, i = .addrFamily rom) ∨ (∃ rom, i = .addrSerial rom) ∨
        (∃ rom, i = .addrCrc rom) ∨ (∃ p q, i = .addrEq p q) ∨ i = .devClose) →
      ∃ v d, AnswersAtIssue i s { x with devOpen := d } ⟨true, 0, v, none⟩) ∧
    (s.Sound → x.devOpen = false ∧ s.sens = [])

/-- Rules R153 to R155: BUS_RESET for every sequence of poll answers. One write, the polls, no trigger
word; true if reset-done was seen, no matter what else the answers say; `E_NO_PRESENCE` (R261) if not. The
operand latches, unused, are 0 (the model's choice, log entry 12). -/
def Obligations.BusResetRuns : Prop :=
  ∀ (s : State) (x : Ctx) (vs rest : List Word) (seen : Bool), s.IdleAt x → s.initialized = true →
    s.FixedAdmitted → s.env.regs = vs ++ rest →
    PollAnswers s.cfg.stRstd s.cfg.resetPollMax vs seen →
    let events := busResetEvents s.cfg vs
    ∃ u t, exec .busReset s = .next u ∧ finish .busReset events.length u = .next t ∧
      t.env.regs = rest ∧
      t = { s.ended t
          { x with opa := 0, opb := 0, opc := 0, pollCnt := vs.length, tStatus := vs.getLastD 0 }
          events (if seen then ⟨true, 0, .none, none⟩ else ⟨false, 1, .none, none⟩) with
        busPhase := if seen then .resetDone else .unknown }

/-- Rules R166 to R169: BUS_MATCH for every ROM code and every sequence of poll answers, whether or not a
reset preceded it. Five writes in the order of R167, then the polls; `E_ADDR_TIMEOUT` (R263) if write-done
was not seen. Operand latches it does not use are 0 (the model's choice, log entry 12). -/
def Obligations.BusMatchRuns : Prop :=
  ∀ (s : State) (x : Ctx) (rom : RomCode) (ws rest : List Word) (done : Bool), s.IdleAt x →
    s.initialized = true → s.cfg.Valid → s.FixedAdmitted → s.env.regs = ws ++ rest →
    PollAnswers s.cfg.stWrd s.cfg.matchPollMax ws done →
    let events := busMatchEvents s.cfg rom ws
    ∃ u t, exec (.busMatch rom) s = .next u ∧ finish (.busMatch rom) events.length u = .next t ∧
      t.env.regs = rest ∧
      t = { s.ended t
          { x with opa := rom, opb := 0, opc := 0, pollCnt := ws.length, tStatus := ws.getLastD 0 }
          events (if done then ⟨true, 0, .none, none⟩ else ⟨false, 4, .none, none⟩) with
        busPhase := if done ∧ s.busPhase = .resetDone then .matched rom else .unknown }

/-- Rules R170, R171 and R119: one access, any value unchanged; a read changes no state of OWC, a write
only the ghost, and that only for COMMAND, CONTROL and `REG_TRIGGER` outside a scope. Operand latches an
operation does not use are 0 (the model's choice, log entry 12). -/
def Obligations.BusReadAndWriteRun : Prop :=
  ∀ (s : State) (x : Ctx) (off : Nat) (v : Word), s.IdleAt x → s.initialized = true →
    off < 2 ^ 32 → off % 4 = 0 → off + 4 ≤ s.addrRange →
    (∃ u t, exec (.busRd off) s = .next u ∧ finish (.busRd off) 1 u = .next t ∧
      t = s.ended t { x with opa := 0, opb := 0, opc := BitVec.ofNat 32 off }
        [.read off s.env.word] ⟨true, 0, .u32 s.env.word, none⟩) ∧
    (∃ u t, exec (.busWr off v) s = .next u ∧ finish (.busWr off v) 1 u = .next t ∧
      t = { s.ended t { x with opa := 0, opb := v.zeroExtend 64, opc := BitVec.ofNat 32 off }
          [.write off v] ⟨true, 0, .none, none⟩ with
        busPhase :=
          if (off = s.cfg.offCommand ∨ off = s.cfg.offControl ∨ off = s.cfg.regTrigger) ∧
            x.devOpen = false
          then .unknown else s.busPhase })

/-- Rules R74, R268, R272: an offset that is misaligned or outside the window ends BUS_RD, BUS_WR and, in
a scope, DEV_RD and DEV_WR at issue with `F_WINDOW`, code 0xF2 and the offset; no event. That a refused request
has no `val` is the model's choice (log entry 17). -/
def Obligations.AccessesOutsideTheWindowAreRefused : Prop :=
  ∀ (s : State) (x : Ctx) (off : Nat) (v : Word), s.IdleAt x →
    ¬ (off % 4 = 0 ∧ off + 4 ≤ s.addrRange) →
    let refused (i : Instr) : Prop := AnswersAtIssue i s x ⟨false, 0xF2, .none, some (.window off)⟩
    (s.initialized = true → refused (.busRd off) ∧ refused (.busWr off v)) ∧
    (x.devOpen = true → refused (.devRd off) ∧ refused (.devWr off v))

/-- Rules R156 to R165: BUS_SEARCH that finds the lock clear and no error flag, for every sequence of poll
answers and every ROM-ID table inside the window. The events in order, the harvest low half first, the
codes merged into the address table, the whole table returned, the lock released. Operand latches it does
not use are 0 (the model's choice, log entry 12). -/
def Obligations.SearchHarvests : Prop :=
  ∀ (s : State) (x : Ctx) (alarm : Bool) (vs rest : List Word) (roms : List RomCode), s.IdleAt x →
    s.initialized = true → s.cfg.Valid → s.FixedAdmitted → s.lock = false → SearchAnswers s.cfg vs →
    roms.length < 2 ^ 32 →
    (∀ i, i < roms.length → s.cfg.offRomId0 + 8 * i + 4 ≤ s.addrRange ∧
      s.cfg.offRomId1 + 8 * i + 4 ≤ s.addrRange) →
    s.env.regs = vs ++ BitVec.ofNat 32 roms.length :: harvestAnswers roms ++ rest →
    let events : List Event :=
      [.lockTas true, .write s.cfg.offCommand (if alarm then 0x000000EC else 0x000000F0),
        .write s.cfg.regTrigger 0x00000001] ++
      pollEvents s.cfg.offStatus s.cfg.tPollSearch vs ++
      .read s.cfg.offFound (BitVec.ofNat 32 roms.length) :: harvestEvents s.cfg 0 roms
    ∃ u t, exec (.busSearch alarm) s = .next u ∧
      finish (.busSearch alarm) events.length u = .next t ∧ t.env.regs = rest ∧
      t = { s.ended t
          { x with
            opa := 0, opb := 0, opc := if alarm then 1 else 0, pollCnt := vs.length
            tStatus := vs.getLastD 0, tFound := BitVec.ofNat 32 roms.length, tIdx := roms.length
            tLo := (roms.getLast?.map fun r => r.extractLsb' 0 32).getD x.tLo }
          events ⟨true, 0, .roms (mergeRoms s.tab roms), none⟩ with
        tab := mergeRoms s.tab roms, cap := mergeCap s.cap s.tab roms, lock := false
        busPhase := .unknown }

/-- Rule R160: what one answer `v` of S_POLL does. Search-error first, then search-memory-error, then
search-done, then the bound; a failure returns the empty list and, by the parameter, the lock (R165). -/
def Obligations.SearchPollPriority : Prop :=
  ∀ (s : State) (x : Ctx) (alarm : Bool), s.ctx? = some x → x.op = some .busSearch →
    x.pc = [.sPoll] → s.cfg.offStatus % 4 = 0 → s.cfg.offStatus + 4 ≤ s.addrRange →
    let v := s.env.word
    let y : Ctx := { x with tStatus := v, pollCnt := x.pollCnt + 1 }
    let event : List Event := [.read s.cfg.offStatus v]
    let fails (e : Byte) : Prop := ∃ t, exec (.busSearch alarm) s = .next t ∧
      t = { s.ended t y event ⟨false, e, .roms [], none⟩ with
        lock := if s.cfg.lockReleaseOnAbort then false else s.lock }
    let goesTo (p : Phase) : Prop := ∃ t, exec (.busSearch alarm) s = .next t ∧
      t = s.moved t { y with pc := [p] } event
    (v &&& s.cfg.stSer ≠ 0 → fails 2) ∧
    (v &&& s.cfg.stSer = 0 → v &&& s.cfg.stSme ≠ 0 → fails 3) ∧
    (v &&& s.cfg.stSer = 0 → v &&& s.cfg.stSme = 0 → v &&& s.cfg.stSrd ≠ 0 → goesTo .sFound) ∧
    (v &&& s.cfg.stSer = 0 → v &&& s.cfg.stSme = 0 → v &&& s.cfg.stSrd = 0 →
      (x.pollCnt + 1 = s.cfg.searchPollMax → fails 8) ∧
      (x.pollCnt + 1 ≠ s.cfg.searchPollMax → goesTo .sWait))

/-- Rule R162: a harvest that comes to an entry outside the window ends with `F_WINDOW`; the code read
last is in the table, and the lock is released by the parameter. At the high half of an entry, and at
FOUND for the first entry. An entry whose high half alone lies outside is not inserted. That the search ends
in the step before the access it may not make is the model's reading (log entry 13), and that its result has no
`val`, where decision D14 could be read as giving it the empty list, is the model's choice (log entry 17). -/
def Obligations.HarvestStopsAtTheWindow : Prop :=
  ∀ (s : State) (x : Ctx) (alarm : Bool), s.ctx? = some x → x.op = some .busSearch →
    let v := s.env.word
    let released : Bool := if s.cfg.lockReleaseOnAbort then false else s.lock
    (∀ rom : RomCode, x.pc = [.sHi] → rom = v ++ x.tLo →
      inWindow s.addrRange (romIdHi s.cfg x.tIdx) = true → x.tIdx + 1 < x.tFound.toNat →
      inWindow s.addrRange (romIdLo s.cfg (x.tIdx + 1)) = false →
      ∃ t, exec (.busSearch alarm) s = .next t ∧
        t = { s.ended t { x with tIdx := x.tIdx + 1 } [.read (romIdHi s.cfg x.tIdx) v]
            ⟨false, 0xF2, .none, some (.window (romIdLo s.cfg (x.tIdx + 1)))⟩ with
          tab := if rom ∈ s.tab then s.tab else s.tab ++ [rom]
          cap := if rom ∉ s.tab ∧ s.tab.length = s.cap then 2 * s.cap else s.cap
          lock := released }) ∧
    (x.pc = [.sFound] → inWindow s.addrRange s.cfg.offFound = true → v ≠ 0 →
      inWindow s.addrRange (romIdLo s.cfg 0) = false →
      ∃ t, exec (.busSearch alarm) s = .next t ∧
        t = { s.ended t { x with tFound := v, tIdx := 0 } [.read s.cfg.offFound v]
            ⟨false, 0xF2, .none, some (.window (romIdLo s.cfg 0))⟩ with
          lock := released }) ∧
    (x.pc = [.sLo] → inWindow s.addrRange (romIdLo s.cfg x.tIdx) = true →
      inWindow s.addrRange (romIdHi s.cfg x.tIdx) = false →
      ∃ t, exec (.busSearch alarm) s = .next t ∧
        t = { s.ended t { x with tLo := v } [.read (romIdLo s.cfg x.tIdx) v]
            ⟨false, 0xF2, .none, some (.window (romIdHi s.cfg x.tIdx))⟩ with
          lock := released })

/-- Rules R86 and R157: one visit of S_LOCK is one atomic test-and-set. A clear lock is set and the search
goes on; a set lock is left, and the search stays where it is. -/
def Obligations.LockIsTestAndSet : Prop :=
  ∀ (s : State) (x : Ctx) (alarm : Bool), s.ctx? = some x → x.op = some .busSearch → x.pc = [.sLock] →
    ∃ t, exec (.busSearch alarm) s = .next t ∧
      t = { s.moved t { x with pc := if s.lock then [.sLock] else [.sCmd] } [.lockTas (!s.lock)] with
        lock := true }

/-- Rules R163 and R164, of the machine's own `InsertIfNew` (`State.insertIfNew`) folded over the codes of a
harvest: a second harvest of the same codes changes nothing at all; the first writes the table and its
capacity alone; no code is lost, moved or held twice; every code given is there. -/
def Obligations.DiscoveryIsIdempotent : Prop :=
  ∀ (s : State) (roms : List RomCode),
    let t := s.insertAll roms
    t.insertAll roms = t ∧
    t = { s with tab := mergeRoms s.tab roms, cap := mergeCap s.cap s.tab roms } ∧
    (∃ new, t.tab = s.tab ++ new) ∧
    (s.tab.Nodup → t.tab.Nodup) ∧
    ∀ rom, rom ∈ t.tab ↔ rom ∈ s.tab ∨ rom ∈ roms

/-! ## The Device Handle -/

/-- Rules R201, R202, R204, R276: DEV_OPEN for every sequence of answers: the events of a reset and, only
if its reset-done was seen, those of a match right after. The scope exists if and only if both succeeded,
whatever scope was held before; the failure is that of the step that failed. Operand latches it does not
use are 0 (the model's choice, log entry 12). -/
def Obligations.DevOpenRuns : Prop :=
  ∀ (s : State) (x : Ctx) (rom : RomCode) (vs ws rest : List Word) (seen done : Bool), s.IdleAt x →
    s.initialized = true → s.cfg.Valid → s.FixedAdmitted → s.env.regs = vs ++ ws ++ rest →
    PollAnswers s.cfg.stRstd s.cfg.resetPollMax vs seen →
    (seen = true → PollAnswers s.cfg.stWrd s.cfg.matchPollMax ws done) →
    (seen = false → ws = [] ∧ done = false) →
    let events := devOpenEvents s.cfg rom vs seen ws
    ∃ u t, exec (.devOpen rom) s = .next u ∧ finish (.devOpen rom) events.length u = .next t ∧
      t.env.regs = rest ∧
      t = { s.ended t
          { x with
            opa := rom, opb := 0, opc := 0, pollCnt := if seen then ws.length else vs.length
            tStatus := if seen then ws.getLastD 0 else vs.getLastD 0, devOpen := done
            devAddr := if done then rom else x.devAddr }
          events
          (if done then ⟨true, 0, .none, none⟩
            else if seen then ⟨false, 4, .none, none⟩ else ⟨false, 1, .none, none⟩) with
        busPhase := if done then .matched rom else .unknown }

/-- Rule R203: DEV_CLOSE makes no event and changes nothing but `dev_open`; with no scope held it is the
same and returns the same; no fault. -/
def Obligations.DevCloseClosesTheScope : Prop :=
  (∀ (s : State) (x : Ctx), s.IdleAt x →
    AnswersAtIssue .devClose s { x with devOpen := false } ⟨true, 0, .none, none⟩) ∧
  ∀ r : BitVec 168, r.extractLsb' 160 8 = 0x21#8 → decode (.hostOp r) = .instr .devClose

/-- Rules R206 to R210: the four passthroughs in a scope: one access each, to COMMAND, to CONTROL whatever
`REG_TRIGGER` is, or to the given offset; any value unchanged; the ghost stays. Operand latches an operation
does not use are 0 (the model's choice, log entry 12). -/
def Obligations.PassthroughAccessesRun : Prop :=
  ∀ (s : State) (x : Ctx) (off : Nat) (v : Word), s.IdleAt x → x.devOpen = true → s.FixedAdmitted →
    off < 2 ^ 32 → off % 4 = 0 → off + 4 ≤ s.addrRange →
    let ok : Result := ⟨true, 0, .none, none⟩
    let b : BitVec 64 := v.zeroExtend 64
    (∃ u t, exec (.devWcmd v) s = .next u ∧ finish (.devWcmd v) 1 u = .next t ∧
      t = s.ended t { x with opa := 0, opb := b, opc := 0 } [.write s.cfg.offCommand v] ok) ∧
    (∃ u t, exec (.devWctl v) s = .next u ∧ finish (.devWctl v) 1 u = .next t ∧
      t = s.ended t { x with opa := 0, opb := b, opc := 0 } [.write s.cfg.offControl v] ok) ∧
    (∃ u t, exec (.devWr off v) s = .next u ∧ finish (.devWr off v) 1 u = .next t ∧
      t = s.ended t { x with opa := 0, opb := b, opc := BitVec.ofNat 32 off } [.write off v] ok) ∧
    (∃ u t, exec (.devRd off) s = .next u ∧ finish (.devRd off) 1 u = .next t ∧
      t = s.ended t { x with opa := 0, opb := 0, opc := BitVec.ofNat 32 off }
        [.read off s.env.word] ⟨true, 0, .u32 s.env.word, none⟩)

/-- Rules R271 and R272: outside a scope the four passthroughs end at issue with `F_NO_SCOPE`, code 0xF5,
and no event, whatever the offset (R274). That a refused request has no `val` is the model's choice (log entry
17). -/
def Obligations.PassthroughsNeedAScope : Prop :=
  ∀ (s : State) (x : Ctx) (i : Instr), s.IdleAt x → x.devOpen = false →
    ((∃ v, i = .devWcmd v) ∨ (∃ v, i = .devWctl v) ∨ (∃ off v, i = .devWr off v) ∨
      ∃ off, i = .devRd off) →
    AnswersAtIssue i s x ⟨false, 0xF5, .none, some .noScope⟩

/-! ## The Temperature Sensor Driver -/

/-- Rule R221: TS_CREATE appends a record and returns its index; no event; the ROM code is looked at by no
test. The record's cache is not valid and its unspecified values are some values (log entry 4). The operands
are latched (R51). -/
def Obligations.TsCreateAppendsASensor : Prop :=
  ∀ (s : State) (x : Ctx) (rom : RomCode) (refresh res : Nat), s.IdleAt x → s.initialized = true →
    9 ≤ res → res ≤ 12 → (∀ most, s.cfg.nSensors = some most → s.sens.length < most) →
    ∃ t cacheVal cacheTs, exec (.tsCreate rom refresh res) s = .next t ∧
      t = { s.answered
          { x with opa := rom, opb := BitVec.ofNat 64 refresh, opc := BitVec.ofNat 32 res }
          ⟨true, 0, .nat s.sens.length, none⟩ with
        sens := s.sens ++
          [{ addr := rom, res := res, refresh := refresh, cacheValid := false
             cacheVal := cacheVal, cacheTs := cacheTs, fsm := .idle }]
        env := { s.env with draws := t.env.draws } }

/-- Rules R243 and R244: the resolution is a stored value. A get returns it; a set of 9 to 12 stores it and
does nothing else, the cache stays valid; no event, and the faults they list, with the code of rules R269 and
R272. That a refused request has no `val` is the model's choice (log entry 17). -/
def Obligations.ResolutionIsAStoredValue : Prop :=
  (∀ (s : State) (x : Ctx) (idx res : Nat), s.IdleAt x →
    let bad (i : Instr) : Prop := AnswersAtIssue i s x ⟨false, 0xF3, .none, some .badOperand⟩
    (∀ y, s.sens[idx]? = some y →
      AnswersAtIssue (.tsGetRes idx) s x ⟨true, 0, .nat y.res, none⟩ ∧
      (9 ≤ res ∧ res ≤ 12 → ∃ a b c, exec (.tsSetRes idx res) s =
        .next { s.answered { x with opa := a, opb := b, opc := c } ⟨true, 0, .none, none⟩ with
          sens := s.sens.set idx { y with res := res } }) ∧
      (¬ (9 ≤ res ∧ res ≤ 12) → bad (.tsSetRes idx res))) ∧
    (s.sens.length ≤ idx → bad (.tsGetRes idx) ∧ bad (.tsSetRes idx res))) ∧
  ∀ r : BitVec 168,
    (r.extractLsb' 160 8 = 0x33#8 → decode (.hostOp r) = .instr (.tsGetRes (r.extractLsb' 0 32).toNat)) ∧
    (r.extractLsb' 160 8 = 0x34#8 → decode (.hostOp r) =
      .instr (.tsSetRes (r.extractLsb' 0 32).toNat (r.extractLsb' 32 32).toNat))

/-- Rules R269 and R272: a sensor index at or above `n_sens`, a resolution outside 9 to 12, a full sensor
file: `F_BAD_OPERAND`, code 0xF3, no event and no state change but `last_err`. That a refused request has no
`val` is the model's choice (log entry 17). -/
def Obligations.BadOperandsAreRefused : Prop :=
  ∀ (s : State) (x : Ctx) (i : Instr), s.IdleAt x →
    ((∃ idx, s.sens.length ≤ idx ∧ (i = .tsTemp idx ∨ i = .tsTempF idx ∨ i = .tsGetRes idx ∨
        ∃ res, i = .tsSetRes idx res)) ∨
      (∃ idx res, ¬ (9 ≤ res ∧ res ≤ 12) ∧ i = .tsSetRes idx res) ∨
      (∃ rom refresh res, s.initialized = true ∧ ¬ (9 ≤ res ∧ res ≤ 12) ∧
        i = .tsCreate rom refresh res) ∨
      (∃ rom refresh res most, s.initialized = true ∧ s.cfg.nSensors = some most ∧
        most ≤ s.sens.length ∧ i = .tsCreate rom refresh res)) →
    exec i s = .next (s.answered x ⟨false, 0xF3, .none, some .badOperand⟩)

/-- Rules R224, R242, R247 (a): a reading strictly younger than the refresh timeout is returned with one
clock sample and no register access; in Fahrenheit as in Celsius. Operand latches the operation does not use
are 0 (the model's choice, log entry 12). -/
def Obligations.FreshCacheIsReturned : Prop :=
  ∀ (s : State) (x : Ctx) (idx : Nat) (y : Sensor), s.IdleAt x → idx < 2 ^ 32 →
    s.sens[idx]? = some y → y.cacheValid = true → s.clock + s.env.dt < y.cacheTs + y.refresh →
    let now := s.clock + s.env.dt
    let z : Ctx := { x with opa := 0, opb := 0, opc := BitVec.ofNat 32 idx, tNow := now }
    (∃ u t, exec (.tsTemp idx) s = .next u ∧ finish (.tsTemp idx) 1 u = .next t ∧ t.clock = now ∧
      t = s.ended t z [.now now] ⟨true, 0, .int y.cacheVal, none⟩) ∧
    (∃ u t, exec (.tsTempF idx) s = .next u ∧ finish (.tsTempF idx) 1 u = .next t ∧ t.clock = now ∧
      t = s.ended t z [.now now] ⟨true, 0, .int (18 * y.cacheVal + 320000), none⟩)

/-- Rules R222 to R242: a full temperature read, for every sequence of answers in which both opens
succeed, command-done is set at its one check and read-done is seen in the first attempt: 27 events when
every flag is set at first look (R246). The whole trace, the result in Celsius and in Fahrenheit, the
cache and its time stamp, the scope given up, the driver idle. Operand latches the operation does not use are
0 (the model's choice, log entry 12). -/
def Obligations.TemperatureIsRead : Prop :=
  ∀ (s : State) (x : Ctx) (idx : Nat) (y : Sensor) (vs ws vs' ws' ps rest : List Word)
    (status raw : Word), s.IdleAt x → s.initialized = true → s.cfg.Valid → s.FixedAdmitted →
    idx < 2 ^ 32 → s.sens[idx]? = some y → 9 ≤ y.res → y.res ≤ 12 →
    ¬ (y.cacheValid = true ∧ s.clock + s.env.dt < y.cacheTs + y.refresh) →
    s.env.regs = vs ++ ws ++ status :: vs' ++ ws' ++ ps ++ raw :: rest →
    PollAnswers s.cfg.stRstd s.cfg.resetPollMax vs true →
    PollAnswers s.cfg.stWrd s.cfg.matchPollMax ws true → status &&& s.cfg.stCmdd ≠ 0 →
    PollAnswers s.cfg.stRstd s.cfg.resetPollMax vs' true →
    PollAnswers s.cfg.stWrd s.cfg.matchPollMax ws' true →
    PollAnswers s.cfg.stRdd s.cfg.scratchPollMax ps true →
    let m := milliC (raw.extractLsb' 0 16).toInt
    let events (now : Nat) : List Event :=
      .now (s.clock + s.env.dt) :: devOpenEvents s.cfg y.addr vs true ws ++
      convertSequence s.cfg y.res status ++ devOpenEvents s.cfg y.addr vs' true ws' ++
      scratchSequence s.cfg ps ++ [.read s.cfg.offRdData0 raw, .now now]
    let after (t : State) (v : Int) : State :=
      { s.ended t
          { x with
            opa := 0, opb := 0, opc := BitVec.ofNat 32 idx, pollCnt := ps.length, retryCnt := 1
            tStatus := ps.getLastD 0, tNow := t.clock, tRaw := raw, devOpen := false
            devAddr := y.addr }
          (events t.clock) ⟨true, 0, .int v, none⟩ with
        sens := s.sens.set idx
          { y with cacheVal := m, cacheTs := t.clock, cacheValid := true, fsm := .idle }
        busPhase := .matched y.addr }
    (∃ u t, exec (.tsTemp idx) s = .next u ∧
      finish (.tsTemp idx) (events t.clock).length u = .next t ∧ t.env.regs = rest ∧ t = after t m) ∧
    (∃ u t, exec (.tsTempF idx) s = .next u ∧
      finish (.tsTempF idx) (events t.clock).length u = .next t ∧ t.env.regs = rest ∧
      t = after t (18 * m + 320000))

/-- Rules R225, R241 and R275: if the first open fails the read ends with its code, no CONVERT_T is written,
the cache is as it was, the driver is idle (whatever another TS_TEMP on the sensor had made of it), no scope is
held and no value is returned. Operand latches the operation does not use are 0 (the model's choice, log entry
12). -/
def Obligations.FailedFirstOpenEndsTheRead : Prop :=
  ∀ (s : State) (x : Ctx) (idx : Nat) (y : Sensor) (vs ws rest : List Word) (seen : Bool), s.IdleAt x →
    s.initialized = true → s.cfg.Valid → s.FixedAdmitted → idx < 2 ^ 32 → s.sens[idx]? = some y →
    ¬ (y.cacheValid = true ∧ s.clock + s.env.dt < y.cacheTs + y.refresh) →
    s.env.regs = vs ++ ws ++ rest → PollAnswers s.cfg.stRstd s.cfg.resetPollMax vs seen →
    (seen = true → PollAnswers s.cfg.stWrd s.cfg.matchPollMax ws false) → (seen = false → ws = []) →
    let events : List Event :=
      .now (s.clock + s.env.dt) :: devOpenEvents s.cfg y.addr vs seen ws
    ∀ i : Instr, i = .tsTemp idx ∨ i = .tsTempF idx →
      ∃ u t, exec i s = .next u ∧ finish i events.length u = .next t ∧ t.env.regs = rest ∧
        t = { s.ended t
            { x with
              opa := 0, opb := 0, opc := BitVec.ofNat 32 idx
              pollCnt := if seen then ws.length else vs.length
              tStatus := if seen then ws.getLastD 0 else vs.getLastD 0
              tNow := s.clock + s.env.dt, devOpen := false }
            events (if seen then ⟨false, 4, .none, none⟩ else ⟨false, 1, .none, none⟩) with
          sens := s.sens.set idx { y with fsm := .idle }
          busPhase := .unknown }

/-- Rules R230 and R241: the one check after the conversion delay. Command-done clear: the read ends with
`E_CONVERT_TIMEOUT`, the driver is idle, the cache untouched; set: the conversion is complete and the first
scratchpad attempt starts. The first scope has ended in both. -/
def Obligations.ConversionIsCheckedOnce : Prop :=
  ∀ (s : State) (x : Ctx) (y : Sensor) (i : Instr) (callers : List Phase), s.ctx? = some x →
    (i = .tsTemp x.opc.toNat ∧ x.op = some .tsTemp ∧ callers = []) ∨
      (i = .tsTempF x.opc.toNat ∧ x.op = some .tsTempF ∧ callers = [.fCall]) →
    x.pc = .tConvChk :: callers → s.sens[x.opc.toNat]? = some y →
    s.cfg.offStatus % 4 = 0 → s.cfg.offStatus + 4 ≤ s.addrRange →
    let v := s.env.word
    let z : Ctx := { x with tStatus := v, devOpen := false }
    let event : List Event := [.read s.cfg.offStatus v]
    (v &&& s.cfg.stCmdd = 0 → ∃ t, exec i s = .next t ∧
      t = { s.ended t z event ⟨false, 5, .none, none⟩ with
        sens := s.sens.set x.opc.toNat { y with fsm := .idle } }) ∧
    (v &&& s.cfg.stCmdd ≠ 0 → ∃ t, exec i s = .next t ∧
      t = { s.moved t { z with retryCnt := 1, pc := .rstCmd :: .oReset :: .tOpen2 :: callers } event with
        sens := s.sens.set x.opc.toNat { y with fsm := .conversionComplete } })

/-- Rules R231 and R235: an attempt that fails, be it that its reset finds no reset-done, its match no
write-done or its poll no read-done, is followed at once by the next, or, if it was the last allowed, by the end
with `E_SCRATCH_READ`; no scope is held, the driver is then idle and the cache untouched. A match without
write-done leaves the ghost unknown (R168). -/
def Obligations.FailedAttemptIsRetried : Prop :=
  ∀ (s : State) (x : Ctx) (y : Sensor) (i : Instr) (callers : List Phase), s.ctx? = some x →
    (i = .tsTemp x.opc.toNat ∧ x.op = some .tsTemp ∧ callers = []) ∨
      (i = .tsTempF x.opc.toNat ∧ x.op = some .tsTempF ∧ callers = [.fCall]) →
    s.sens[x.opc.toNat]? = some y → s.cfg.offStatus % 4 = 0 → s.cfg.offStatus + 4 ≤ s.addrRange →
    let v := s.env.word
    let inMatch : Prop := x.pc = .mPoll :: .oMatch :: .tOpen2 :: callers
    (x.pc = .tRdPoll :: callers ∧ v &&& s.cfg.stRdd = 0 ∧ x.pollCnt + 1 = s.cfg.scratchPollMax) ∨
      (x.pc = .rstPoll :: .oReset :: .tOpen2 :: callers ∧ v &&& s.cfg.stRstd = 0 ∧
        x.pollCnt + 1 = s.cfg.resetPollMax) ∨
      (inMatch ∧ v &&& s.cfg.stWrd = 0 ∧ x.pollCnt + 1 = s.cfg.matchPollMax) →
    let z : Ctx := { x with tStatus := v, pollCnt := x.pollCnt + 1, devOpen := false }
    let event : List Event := [.read s.cfg.offStatus v]
    ∃ ghost : BusPhase, (inMatch → ghost = .unknown) ∧ (¬ inMatch → ghost = s.busPhase) ∧
      (x.retryCnt ≠ s.cfg.scratchRetryMax → ∃ t, exec i s = .next t ∧
        t = { s.moved t
            { z with retryCnt := x.retryCnt + 1, pc := .rstCmd :: .oReset :: .tOpen2 :: callers } event with
          busPhase := ghost }) ∧
      (x.retryCnt = s.cfg.scratchRetryMax → ∃ t, exec i s = .next t ∧
        t = { s.ended t z event ⟨false, 6, .none, none⟩ with
          sens := s.sens.set x.opc.toNat { y with fsm := .idle }
          busPhase := ghost })

/-- Rule R238: `MilliC` is the nearest thousandth to `q / 16` degrees, that is to `125 q / 2`; a tie arises
exactly for odd `q` and goes to the even neighbour. -/
def Obligations.MilliCRoundsToTheNearest : Prop :=
  ∀ q : Int, (2 * milliC q - 125 * q).natAbs ≤ 1 ∧
    ((2 * milliC q - 125 * q).natAbs = 1 ↔ q % 2 = 1) ∧ (q % 2 = 1 → milliC q % 2 = 0)

/-- Rule R239: every 16-bit pattern decodes, within the two ends the rule gives, and `MilliC` is
odd-symmetric; the upper half of the register plays no part (R237). -/
def Obligations.DecoderRange : Prop :=
  (∀ w : Word, -2048000 ≤ milliC (rawTemp w) ∧ milliC (rawTemp w) ≤ 2047938) ∧
  (∀ q : Int, milliC (-q) = -milliC q) ∧
  ∀ w w' : Word, w.extractLsb' 0 16 = w'.extractLsb' 0 16 → rawTemp w = rawTemp w'

/-! ## Command words -/

/-- Rules R108, R109, R120 to R135, with the model's choice that a word the host hands over is written as
BUS_WR writes it (log entry 8): each of the sixteen is one write of the whole word, the four trigger words
to `REG_TRIGGER` and the others to COMMAND. -/
def Obligations.CommandWordsAreWritten : Prop :=
  ∀ (s : State) (x : Ctx), s.IdleAt x → s.initialized = true → s.cfg.Valid → s.FixedAdmitted →
    let writes (off : Nat) (w : Word) (i : Instr) : Prop := ∃ t, exec i s = .next t ∧
      t = { s.ended t x [.write off w] ⟨true, 0, .none, none⟩ with
        busPhase := if x.devOpen then s.busPhase else .unknown }
    (writes s.cfg.regTrigger 0x00000001 .serialize ∧ writes s.cfg.regTrigger 0x00000008 .execPullup ∧
      writes s.cfg.regTrigger 0x00000018 .execNopullup ∧
      writes s.cfg.regTrigger 0x00000028 .readTimeSlots) ∧
    (writes s.cfg.offCommand 0x00010000 .resetPulse ∧ writes s.cfg.offCommand 0x000000F0 .searchRom ∧
      writes s.cfg.offCommand 0x00000033 .readRom ∧ writes s.cfg.offCommand 0x00000055 .matchRom ∧
      writes s.cfg.offCommand 0x000000CC .skipRom ∧ writes s.cfg.offCommand 0x000000EC .alarmSearch) ∧
    (writes s.cfg.offCommand 0x00000044 .convertT ∧ writes s.cfg.offCommand 0x0000004E .writeScratchpad ∧
      writes s.cfg.offCommand 0x000000BE .readScratchpad ∧
      writes s.cfg.offCommand 0x00000048 .copyScratchpad ∧
      writes s.cfg.offCommand 0x000000B8 .recallE2 ∧
      writes s.cfg.offCommand 0x000000B4 .readPowerSupply)

/-! ## The operand latches -/

/-- Rules R49, R51 and R85: issue latches the operands of the request, in a, b and c as its record has them,
whether the operation goes on, ends at issue or is refused. The latches stay only where the spec says that
nothing is written: the ADDR operations (41_address.md, before R190), DEV_CLOSE, which has no operand (R203),
BUS_INIT once constructed (R150), and a request refused with `F_BAD_OPERAND` (R269). Three clauses are the
model's choice: that a command word leaves the latches as they are (log entry 8), that a field an operation does
not use is latched as 0 (log entry 12), and that the refused request is known by a result without `val` (log entry
17). -/
def Obligations.IssueLatchesTheOperands : Prop :=
  ∀ (s t : State) (x : Ctx) (i : Instr), s.IdleAt x → exec i s = .next t →
    let latchesNothing : Prop :=
      (∃ rom, i = .addrRom rom ∨ i = .addrFamily rom ∨ i = .addrSerial rom ∨ i = .addrCrc rom) ∨
      (∃ p q, i = .addrEq p q) ∨ i = .devClose ∨
      ((∃ base range, i = .busInit base range) ∧ s.initialized = true) ∨
      t.outbox = (s.cur, ⟨false, 0xF3, .none, some .badOperand⟩) :: s.outbox ∨
      ∃ w, encode i = .cmdWord w
    ∃ y, t.ctx? = some y ∧
      (latchesNothing → y.opa = x.opa ∧ y.opb = x.opb ∧ y.opc = x.opc) ∧
      (¬ latchesNothing → y.Latched i)
end

