-- ==== Sys2Proof/Laws/Encoding.lean ====
section
/-! SUPPORT. The fields of a record that has been put together (rule R100), the opcode map read both ways
(rule R101), and what it means that a table of command words gives an instruction. -/

namespace Sys2Proof

section
variable (o : Byte) (a b : BitVec 64) (c : BitVec 32)

@[simp] theorem Fields.toRecord_op : (Fields.toRecord ⟨o, a, b, c⟩).extractLsb' 160 8 = o := by
  simp only [Fields.toRecord]
  ext i hi
  simp [show 160 + i < 168 by omega, BitVec.getLsbD_of_ge a _ (by omega : 64 ≤ 160 + i - 96),
    BitVec.getLsbD_of_ge b _ (by omega : 64 ≤ 160 + i - 32),
    BitVec.getLsbD_of_ge c _ (by omega : 32 ≤ 160 + i), BitVec.getLsbD_eq_getElem hi]

@[simp] theorem Fields.toRecord_a : (Fields.toRecord ⟨o, a, b, c⟩).extractLsb' 96 64 = a := by
  simp only [Fields.toRecord]
  ext i hi
  simp [show 96 + i < 168 by omega, show 96 + i < 160 by omega,
    BitVec.getLsbD_of_ge b _ (by omega : 64 ≤ 96 + i - 32),
    BitVec.getLsbD_of_ge c _ (by omega : 32 ≤ 96 + i), BitVec.getLsbD_eq_getElem hi]

@[simp] theorem Fields.toRecord_b : (Fields.toRecord ⟨o, a, b, c⟩).extractLsb' 32 64 = b := by
  simp only [Fields.toRecord]
  ext i hi
  simp [show 32 + i < 168 by omega, show 32 + i < 160 by omega, show 32 + i < 96 by omega,
    BitVec.getLsbD_eq_getElem hi]

@[simp] theorem Fields.toRecord_c : (Fields.toRecord ⟨o, a, b, c⟩).extractLsb' 0 32 = c := by
  simp only [Fields.toRecord]
  ext i hi
  simp [show i < 168 by omega, show i < 160 by omega, show i < 96 by omega, show i < 32 by omega]

end

@[simp] theorem inLowHalf_low (v : Word) : (inLowHalf v).extractLsb' 0 32 = v := by
  ext i hi
  simp [inLowHalf, show i < 64 by omega, BitVec.getLsbD_eq_getElem hi]

@[simp] theorem Op.ofCode_code (o : Op) : Op.ofCode o.code = some o := by cases o <;> rfl

theorem Op.code_of_ofCode {c : Byte} {o : Op} (h : Op.ofCode c = some o) : o.code = c := by
  have key : ∀ c : Byte, (Op.ofCode c).all fun o => decide (o.code = c) := by decide
  simpa [h] using key c

/-- A record put together from an operation and its fields decodes to the operation with its fields
(rules R100 to R102). -/
theorem decode_hostRecord (o : Op) (a b : BitVec 64) (c : BitVec 32) :
    decode (hostRecord o a b c) = .instr (o.withFields a b c) := by
  simp [hostRecord, decode, decodeHostOp, Fields.ofRecord]

/-- A table that gives an instruction for a word has their row. -/
theorem mem_of_lookupWord {w : Word} {i : Instr} : ∀ {l : List (Word × Instr)},
    lookupWord w l = some i → (w, i) ∈ l := by
  intro l
  induction l with
  | nil => simp [lookupWord]
  | cons p l ih =>
    obtain ⟨v, j⟩ := p
    intro h
    unfold lookupWord at h
    split at h
    · injection h with h
      simp [*]
    · exact List.mem_cons_of_mem _ (ih h)

end Sys2Proof
end

