-- ==== Sys2Proof/Laws/State.lean ====
section
/-! SUPPORT. What each update of the state leaves in each field: true by unfolding, and in the simp set,
so that no later proof unfolds a record update. -/

namespace Sys2Proof.Machine

section
variable (s : State)

/-! ### Registers of the context that takes the step -/

@[simp] theorem State.updCtx_cfg (f : Ctx → Ctx) : (s.updCtx f).cfg = s.cfg := rfl
@[simp] theorem State.updCtx_initialized (f : Ctx → Ctx) :
    (s.updCtx f).initialized = s.initialized := rfl
@[simp] theorem State.updCtx_baseAddr (f : Ctx → Ctx) : (s.updCtx f).baseAddr = s.baseAddr := rfl
@[simp] theorem State.updCtx_addrRange (f : Ctx → Ctx) : (s.updCtx f).addrRange = s.addrRange := rfl
@[simp] theorem State.updCtx_lock (f : Ctx → Ctx) : (s.updCtx f).lock = s.lock := rfl
@[simp] theorem State.updCtx_tab (f : Ctx → Ctx) : (s.updCtx f).tab = s.tab := rfl
@[simp] theorem State.updCtx_cap (f : Ctx → Ctx) : (s.updCtx f).cap = s.cap := rfl
@[simp] theorem State.updCtx_busPhase (f : Ctx → Ctx) : (s.updCtx f).busPhase = s.busPhase := rfl
@[simp] theorem State.updCtx_sens (f : Ctx → Ctx) : (s.updCtx f).sens = s.sens := rfl
@[simp] theorem State.updCtx_ctxs (f : Ctx → Ctx) : (s.updCtx f).ctxs = s.ctxs.modify s.cur f := rfl
@[simp] theorem State.updCtx_clock (f : Ctx → Ctx) : (s.updCtx f).clock = s.clock := rfl
@[simp] theorem State.updCtx_plClk (f : Ctx → Ctx) : (s.updCtx f).plClk = s.plClk := rfl
@[simp] theorem State.updCtx_cur (f : Ctx → Ctx) : (s.updCtx f).cur = s.cur := rfl
@[simp] theorem State.updCtx_env (f : Ctx → Ctx) : (s.updCtx f).env = s.env := rfl
@[simp] theorem State.updCtx_inbox (f : Ctx → Ctx) : (s.updCtx f).inbox = s.inbox := rfl
@[simp] theorem State.updCtx_outbox (f : Ctx → Ctx) : (s.updCtx f).outbox = s.outbox := rfl
@[simp] theorem State.updCtx_trace (f : Ctx → Ctx) : (s.updCtx f).trace = s.trace := rfl

@[simp] theorem State.goto_cfg (pc : List Phase) : (s.goto pc).cfg = s.cfg := rfl
@[simp] theorem State.goto_initialized (pc : List Phase) :
    (s.goto pc).initialized = s.initialized := rfl
@[simp] theorem State.goto_baseAddr (pc : List Phase) : (s.goto pc).baseAddr = s.baseAddr := rfl
@[simp] theorem State.goto_addrRange (pc : List Phase) : (s.goto pc).addrRange = s.addrRange := rfl
@[simp] theorem State.goto_lock (pc : List Phase) : (s.goto pc).lock = s.lock := rfl
@[simp] theorem State.goto_tab (pc : List Phase) : (s.goto pc).tab = s.tab := rfl
@[simp] theorem State.goto_cap (pc : List Phase) : (s.goto pc).cap = s.cap := rfl
@[simp] theorem State.goto_busPhase (pc : List Phase) : (s.goto pc).busPhase = s.busPhase := rfl
@[simp] theorem State.goto_sens (pc : List Phase) : (s.goto pc).sens = s.sens := rfl
@[simp] theorem State.goto_ctxs (pc : List Phase) :
    (s.goto pc).ctxs = s.ctxs.modify s.cur fun x => { x with pc := pc } := rfl
@[simp] theorem State.goto_clock (pc : List Phase) : (s.goto pc).clock = s.clock := rfl
@[simp] theorem State.goto_plClk (pc : List Phase) : (s.goto pc).plClk = s.plClk := rfl
@[simp] theorem State.goto_cur (pc : List Phase) : (s.goto pc).cur = s.cur := rfl
@[simp] theorem State.goto_env (pc : List Phase) : (s.goto pc).env = s.env := rfl
@[simp] theorem State.goto_inbox (pc : List Phase) : (s.goto pc).inbox = s.inbox := rfl
@[simp] theorem State.goto_outbox (pc : List Phase) : (s.goto pc).outbox = s.outbox := rfl
@[simp] theorem State.goto_trace (pc : List Phase) : (s.goto pc).trace = s.trace := rfl

@[simp] theorem State.latch_cfg (a b : BitVec 64) (c : BitVec 32) :
    (s.latch a b c).cfg = s.cfg := rfl
@[simp] theorem State.latch_initialized (a b : BitVec 64) (c : BitVec 32) :
    (s.latch a b c).initialized = s.initialized := rfl
@[simp] theorem State.latch_baseAddr (a b : BitVec 64) (c : BitVec 32) :
    (s.latch a b c).baseAddr = s.baseAddr := rfl
@[simp] theorem State.latch_addrRange (a b : BitVec 64) (c : BitVec 32) :
    (s.latch a b c).addrRange = s.addrRange := rfl
@[simp] theorem State.latch_lock (a b : BitVec 64) (c : BitVec 32) :
    (s.latch a b c).lock = s.lock := rfl
@[simp] theorem State.latch_tab (a b : BitVec 64) (c : BitVec 32) :
    (s.latch a b c).tab = s.tab := rfl
@[simp] theorem State.latch_cap (a b : BitVec 64) (c : BitVec 32) :
    (s.latch a b c).cap = s.cap := rfl
@[simp] theorem State.latch_busPhase (a b : BitVec 64) (c : BitVec 32) :
    (s.latch a b c).busPhase = s.busPhase := rfl
@[simp] theorem State.latch_sens (a b : BitVec 64) (c : BitVec 32) :
    (s.latch a b c).sens = s.sens := rfl
@[simp] theorem State.latch_ctxs (a b : BitVec 64) (c : BitVec 32) :
    (s.latch a b c).ctxs = s.ctxs.modify s.cur fun x =>
      { x with opa := a, opb := b, opc := c } := rfl
@[simp] theorem State.latch_clock (a b : BitVec 64) (c : BitVec 32) :
    (s.latch a b c).clock = s.clock := rfl
@[simp] theorem State.latch_plClk (a b : BitVec 64) (c : BitVec 32) :
    (s.latch a b c).plClk = s.plClk := rfl
@[simp] theorem State.latch_cur (a b : BitVec 64) (c : BitVec 32) :
    (s.latch a b c).cur = s.cur := rfl
@[simp] theorem State.latch_env (a b : BitVec 64) (c : BitVec 32) :
    (s.latch a b c).env = s.env := rfl
@[simp] theorem State.latch_inbox (a b : BitVec 64) (c : BitVec 32) :
    (s.latch a b c).inbox = s.inbox := rfl
@[simp] theorem State.latch_outbox (a b : BitVec 64) (c : BitVec 32) :
    (s.latch a b c).outbox = s.outbox := rfl
@[simp] theorem State.latch_trace (a b : BitVec 64) (c : BitVec 32) :
    (s.latch a b c).trace = s.trace := rfl
@[simp] theorem State.start_cfg (o : Op) (pc : List Phase) :
    (s.start o pc).cfg = s.cfg := rfl
@[simp] theorem State.start_initialized (o : Op) (pc : List Phase) :
    (s.start o pc).initialized = s.initialized := rfl
@[simp] theorem State.start_baseAddr (o : Op) (pc : List Phase) :
    (s.start o pc).baseAddr = s.baseAddr := rfl
@[simp] theorem State.start_addrRange (o : Op) (pc : List Phase) :
    (s.start o pc).addrRange = s.addrRange := rfl
@[simp] theorem State.start_lock (o : Op) (pc : List Phase) :
    (s.start o pc).lock = s.lock := rfl
@[simp] theorem State.start_tab (o : Op) (pc : List Phase) :
    (s.start o pc).tab = s.tab := rfl
@[simp] theorem State.start_cap (o : Op) (pc : List Phase) :
    (s.start o pc).cap = s.cap := rfl
@[simp] theorem State.start_busPhase (o : Op) (pc : List Phase) :
    (s.start o pc).busPhase = s.busPhase := rfl
@[simp] theorem State.start_sens (o : Op) (pc : List Phase) :
    (s.start o pc).sens = s.sens := rfl
@[simp] theorem State.start_ctxs (o : Op) (pc : List Phase) :
    (s.start o pc).ctxs = s.ctxs.modify s.cur fun x =>
      { x with op := some o, pc := pc } := rfl
@[simp] theorem State.start_clock (o : Op) (pc : List Phase) :
    (s.start o pc).clock = s.clock := rfl
@[simp] theorem State.start_plClk (o : Op) (pc : List Phase) :
    (s.start o pc).plClk = s.plClk := rfl
@[simp] theorem State.start_cur (o : Op) (pc : List Phase) :
    (s.start o pc).cur = s.cur := rfl
@[simp] theorem State.start_env (o : Op) (pc : List Phase) :
    (s.start o pc).env = s.env := rfl
@[simp] theorem State.start_inbox (o : Op) (pc : List Phase) :
    (s.start o pc).inbox = s.inbox := rfl
@[simp] theorem State.start_outbox (o : Op) (pc : List Phase) :
    (s.start o pc).outbox = s.outbox := rfl
@[simp] theorem State.start_trace (o : Op) (pc : List Phase) :
    (s.start o pc).trace = s.trace := rfl

@[simp] theorem State.callOpen_cfg (pc : List Phase) : (s.callOpen pc).cfg = s.cfg := rfl
@[simp] theorem State.callOpen_initialized (pc : List Phase) :
    (s.callOpen pc).initialized = s.initialized := rfl
@[simp] theorem State.callOpen_baseAddr (pc : List Phase) :
    (s.callOpen pc).baseAddr = s.baseAddr := rfl
@[simp] theorem State.callOpen_addrRange (pc : List Phase) :
    (s.callOpen pc).addrRange = s.addrRange := rfl
@[simp] theorem State.callOpen_lock (pc : List Phase) : (s.callOpen pc).lock = s.lock := rfl
@[simp] theorem State.callOpen_tab (pc : List Phase) : (s.callOpen pc).tab = s.tab := rfl
@[simp] theorem State.callOpen_cap (pc : List Phase) : (s.callOpen pc).cap = s.cap := rfl
@[simp] theorem State.callOpen_busPhase (pc : List Phase) :
    (s.callOpen pc).busPhase = s.busPhase := rfl
@[simp] theorem State.callOpen_sens (pc : List Phase) : (s.callOpen pc).sens = s.sens := rfl
@[simp] theorem State.callOpen_ctxs (pc : List Phase) :
    (s.callOpen pc).ctxs = s.ctxs.modify s.cur fun x =>
      { x with devOpen := false, pc := .rstCmd :: .oReset :: pc } := rfl
@[simp] theorem State.callOpen_clock (pc : List Phase) : (s.callOpen pc).clock = s.clock := rfl
@[simp] theorem State.callOpen_plClk (pc : List Phase) : (s.callOpen pc).plClk = s.plClk := rfl
@[simp] theorem State.callOpen_cur (pc : List Phase) : (s.callOpen pc).cur = s.cur := rfl
@[simp] theorem State.callOpen_env (pc : List Phase) : (s.callOpen pc).env = s.env := rfl
@[simp] theorem State.callOpen_inbox (pc : List Phase) : (s.callOpen pc).inbox = s.inbox := rfl
@[simp] theorem State.callOpen_outbox (pc : List Phase) : (s.callOpen pc).outbox = s.outbox := rfl
@[simp] theorem State.callOpen_trace (pc : List Phase) : (s.callOpen pc).trace = s.trace := rfl

@[simp] theorem State.closeScope_cfg : (s.closeScope).cfg = s.cfg := rfl
@[simp] theorem State.closeScope_initialized : (s.closeScope).initialized = s.initialized := rfl
@[simp] theorem State.closeScope_baseAddr : (s.closeScope).baseAddr = s.baseAddr := rfl
@[simp] theorem State.closeScope_addrRange : (s.closeScope).addrRange = s.addrRange := rfl
@[simp] theorem State.closeScope_lock : (s.closeScope).lock = s.lock := rfl
@[simp] theorem State.closeScope_tab : (s.closeScope).tab = s.tab := rfl
@[simp] theorem State.closeScope_cap : (s.closeScope).cap = s.cap := rfl
@[simp] theorem State.closeScope_busPhase : (s.closeScope).busPhase = s.busPhase := rfl
@[simp] theorem State.closeScope_sens : (s.closeScope).sens = s.sens := rfl
@[simp] theorem State.closeScope_ctxs :
    (s.closeScope).ctxs = s.ctxs.modify s.cur fun x => { x with devOpen := false } := rfl
@[simp] theorem State.closeScope_clock : (s.closeScope).clock = s.clock := rfl
@[simp] theorem State.closeScope_plClk : (s.closeScope).plClk = s.plClk := rfl
@[simp] theorem State.closeScope_cur : (s.closeScope).cur = s.cur := rfl
@[simp] theorem State.closeScope_env : (s.closeScope).env = s.env := rfl
@[simp] theorem State.closeScope_inbox : (s.closeScope).inbox = s.inbox := rfl
@[simp] theorem State.closeScope_outbox : (s.closeScope).outbox = s.outbox := rfl
@[simp] theorem State.closeScope_trace : (s.closeScope).trace = s.trace := rfl

/-! ### Sensor records -/

@[simp] theorem State.updSensor_cfg (i : Nat) (f : Sensor → Sensor) :
    (s.updSensor i f).cfg = s.cfg := rfl
@[simp] theorem State.updSensor_initialized (i : Nat) (f : Sensor → Sensor) :
    (s.updSensor i f).initialized = s.initialized := rfl
@[simp] theorem State.updSensor_baseAddr (i : Nat) (f : Sensor → Sensor) :
    (s.updSensor i f).baseAddr = s.baseAddr := rfl
@[simp] theorem State.updSensor_addrRange (i : Nat) (f : Sensor → Sensor) :
    (s.updSensor i f).addrRange = s.addrRange := rfl
@[simp] theorem State.updSensor_lock (i : Nat) (f : Sensor → Sensor) :
    (s.updSensor i f).lock = s.lock := rfl
@[simp] theorem State.updSensor_tab (i : Nat) (f : Sensor → Sensor) :
    (s.updSensor i f).tab = s.tab := rfl
@[simp] theorem State.updSensor_cap (i : Nat) (f : Sensor → Sensor) :
    (s.updSensor i f).cap = s.cap := rfl
@[simp] theorem State.updSensor_busPhase (i : Nat) (f : Sensor → Sensor) :
    (s.updSensor i f).busPhase = s.busPhase := rfl
@[simp] theorem State.updSensor_sens (i : Nat) (f : Sensor → Sensor) :
    (s.updSensor i f).sens = s.sens.modify i f := rfl
@[simp] theorem State.updSensor_ctxs (i : Nat) (f : Sensor → Sensor) :
    (s.updSensor i f).ctxs = s.ctxs := rfl
@[simp] theorem State.updSensor_clock (i : Nat) (f : Sensor → Sensor) :
    (s.updSensor i f).clock = s.clock := rfl
@[simp] theorem State.updSensor_plClk (i : Nat) (f : Sensor → Sensor) :
    (s.updSensor i f).plClk = s.plClk := rfl
@[simp] theorem State.updSensor_cur (i : Nat) (f : Sensor → Sensor) :
    (s.updSensor i f).cur = s.cur := rfl
@[simp] theorem State.updSensor_env (i : Nat) (f : Sensor → Sensor) :
    (s.updSensor i f).env = s.env := rfl
@[simp] theorem State.updSensor_inbox (i : Nat) (f : Sensor → Sensor) :
    (s.updSensor i f).inbox = s.inbox := rfl
@[simp] theorem State.updSensor_outbox (i : Nat) (f : Sensor → Sensor) :
    (s.updSensor i f).outbox = s.outbox := rfl
@[simp] theorem State.updSensor_trace (i : Nat) (f : Sensor → Sensor) :
    (s.updSensor i f).trace = s.trace := rfl

@[simp] theorem State.setFsm_cfg (x : Ctx) (f : Fsm) : (s.setFsm x f).cfg = s.cfg := rfl
@[simp] theorem State.setFsm_initialized (x : Ctx) (f : Fsm) :
    (s.setFsm x f).initialized = s.initialized := rfl
@[simp] theorem State.setFsm_baseAddr (x : Ctx) (f : Fsm) :
    (s.setFsm x f).baseAddr = s.baseAddr := rfl
@[simp] theorem State.setFsm_addrRange (x : Ctx) (f : Fsm) :
    (s.setFsm x f).addrRange = s.addrRange := rfl
@[simp] theorem State.setFsm_lock (x : Ctx) (f : Fsm) : (s.setFsm x f).lock = s.lock := rfl
@[simp] theorem State.setFsm_tab (x : Ctx) (f : Fsm) : (s.setFsm x f).tab = s.tab := rfl
@[simp] theorem State.setFsm_cap (x : Ctx) (f : Fsm) : (s.setFsm x f).cap = s.cap := rfl
@[simp] theorem State.setFsm_busPhase (x : Ctx) (f : Fsm) :
    (s.setFsm x f).busPhase = s.busPhase := rfl
@[simp] theorem State.setFsm_sens (x : Ctx) (f : Fsm) :
    (s.setFsm x f).sens = s.sens.modify x.opc.toNat fun y => { y with fsm := f } := rfl
@[simp] theorem State.setFsm_ctxs (x : Ctx) (f : Fsm) : (s.setFsm x f).ctxs = s.ctxs := rfl
@[simp] theorem State.setFsm_clock (x : Ctx) (f : Fsm) : (s.setFsm x f).clock = s.clock := rfl
@[simp] theorem State.setFsm_plClk (x : Ctx) (f : Fsm) : (s.setFsm x f).plClk = s.plClk := rfl
@[simp] theorem State.setFsm_cur (x : Ctx) (f : Fsm) : (s.setFsm x f).cur = s.cur := rfl
@[simp] theorem State.setFsm_env (x : Ctx) (f : Fsm) : (s.setFsm x f).env = s.env := rfl
@[simp] theorem State.setFsm_inbox (x : Ctx) (f : Fsm) : (s.setFsm x f).inbox = s.inbox := rfl
@[simp] theorem State.setFsm_outbox (x : Ctx) (f : Fsm) : (s.setFsm x f).outbox = s.outbox := rfl
@[simp] theorem State.setFsm_trace (x : Ctx) (f : Fsm) : (s.setFsm x f).trace = s.trace := rfl
@[simp] theorem State.exitTemp_cfg (x : Ctx) : (s.exitTemp x).cfg = s.cfg := rfl
@[simp] theorem State.exitTemp_initialized (x : Ctx) : (s.exitTemp x).initialized = s.initialized := rfl
@[simp] theorem State.exitTemp_baseAddr (x : Ctx) : (s.exitTemp x).baseAddr = s.baseAddr := rfl
@[simp] theorem State.exitTemp_addrRange (x : Ctx) : (s.exitTemp x).addrRange = s.addrRange := rfl
@[simp] theorem State.exitTemp_lock (x : Ctx) : (s.exitTemp x).lock = s.lock := rfl
@[simp] theorem State.exitTemp_tab (x : Ctx) : (s.exitTemp x).tab = s.tab := rfl
@[simp] theorem State.exitTemp_cap (x : Ctx) : (s.exitTemp x).cap = s.cap := rfl
@[simp] theorem State.exitTemp_busPhase (x : Ctx) : (s.exitTemp x).busPhase = s.busPhase := rfl
@[simp] theorem State.exitTemp_clock (x : Ctx) : (s.exitTemp x).clock = s.clock := rfl
@[simp] theorem State.exitTemp_plClk (x : Ctx) : (s.exitTemp x).plClk = s.plClk := rfl
@[simp] theorem State.exitTemp_cur (x : Ctx) : (s.exitTemp x).cur = s.cur := rfl
@[simp] theorem State.exitTemp_env (x : Ctx) : (s.exitTemp x).env = s.env := rfl
@[simp] theorem State.exitTemp_inbox (x : Ctx) : (s.exitTemp x).inbox = s.inbox := rfl
@[simp] theorem State.exitTemp_outbox (x : Ctx) : (s.exitTemp x).outbox = s.outbox := rfl
@[simp] theorem State.exitTemp_trace (x : Ctx) : (s.exitTemp x).trace = s.trace := rfl
@[simp] theorem State.exitTemp_ctxs (x : Ctx) :
    (s.exitTemp x).ctxs = s.ctxs.modify s.cur fun y => { y with devOpen := false } := rfl
@[simp] theorem State.exitTemp_sens (x : Ctx) :
    (s.exitTemp x).sens = s.sens.modify x.opc.toNat fun y => { y with fsm := .idle } := rfl

@[simp] theorem State.addSensor_cfg (rom : RomCode) (refresh res : Nat) :
    (s.addSensor rom refresh res).cfg = s.cfg := rfl
@[simp] theorem State.addSensor_initialized (rom : RomCode) (refresh res : Nat) :
    (s.addSensor rom refresh res).initialized = s.initialized := rfl
@[simp] theorem State.addSensor_baseAddr (rom : RomCode) (refresh res : Nat) :
    (s.addSensor rom refresh res).baseAddr = s.baseAddr := rfl
@[simp] theorem State.addSensor_addrRange (rom : RomCode) (refresh res : Nat) :
    (s.addSensor rom refresh res).addrRange = s.addrRange := rfl
@[simp] theorem State.addSensor_lock (rom : RomCode) (refresh res : Nat) :
    (s.addSensor rom refresh res).lock = s.lock := rfl
@[simp] theorem State.addSensor_tab (rom : RomCode) (refresh res : Nat) :
    (s.addSensor rom refresh res).tab = s.tab := rfl
@[simp] theorem State.addSensor_cap (rom : RomCode) (refresh res : Nat) :
    (s.addSensor rom refresh res).cap = s.cap := rfl
@[simp] theorem State.addSensor_busPhase (rom : RomCode) (refresh res : Nat) :
    (s.addSensor rom refresh res).busPhase = s.busPhase := rfl
@[simp] theorem State.addSensor_sens (rom : RomCode) (refresh res : Nat) :
    (s.addSensor rom refresh res).sens = s.sens ++ [newSensor rom refresh res s.env.draws] := rfl
@[simp] theorem State.addSensor_ctxs (rom : RomCode) (refresh res : Nat) :
    (s.addSensor rom refresh res).ctxs = s.ctxs := rfl
@[simp] theorem State.addSensor_clock (rom : RomCode) (refresh res : Nat) :
    (s.addSensor rom refresh res).clock = s.clock := rfl
@[simp] theorem State.addSensor_plClk (rom : RomCode) (refresh res : Nat) :
    (s.addSensor rom refresh res).plClk = s.plClk := rfl
@[simp] theorem State.addSensor_cur (rom : RomCode) (refresh res : Nat) :
    (s.addSensor rom refresh res).cur = s.cur := rfl
@[simp] theorem State.addSensor_env (rom : RomCode) (refresh res : Nat) :
    (s.addSensor rom refresh res).env = { s.env with draws := s.env.draws + 1 } := rfl
@[simp] theorem State.addSensor_inbox (rom : RomCode) (refresh res : Nat) :
    (s.addSensor rom refresh res).inbox = s.inbox := rfl
@[simp] theorem State.addSensor_outbox (rom : RomCode) (refresh res : Nat) :
    (s.addSensor rom refresh res).outbox = s.outbox := rfl
@[simp] theorem State.addSensor_trace (rom : RomCode) (refresh res : Nat) :
    (s.addSensor rom refresh res).trace = s.trace := rfl

/-! ### Events -/

@[simp] theorem State.log_cfg (e : Event) : (s.log e).cfg = s.cfg := rfl
@[simp] theorem State.log_initialized (e : Event) : (s.log e).initialized = s.initialized := rfl
@[simp] theorem State.log_baseAddr (e : Event) : (s.log e).baseAddr = s.baseAddr := rfl
@[simp] theorem State.log_addrRange (e : Event) : (s.log e).addrRange = s.addrRange := rfl
@[simp] theorem State.log_lock (e : Event) : (s.log e).lock = s.lock := rfl
@[simp] theorem State.log_tab (e : Event) : (s.log e).tab = s.tab := rfl
@[simp] theorem State.log_cap (e : Event) : (s.log e).cap = s.cap := rfl
@[simp] theorem State.log_busPhase (e : Event) : (s.log e).busPhase = s.busPhase := rfl
@[simp] theorem State.log_sens (e : Event) : (s.log e).sens = s.sens := rfl
@[simp] theorem State.log_ctxs (e : Event) : (s.log e).ctxs = s.ctxs := rfl
@[simp] theorem State.log_clock (e : Event) : (s.log e).clock = s.clock := rfl
@[simp] theorem State.log_plClk (e : Event) : (s.log e).plClk = s.plClk := rfl
@[simp] theorem State.log_cur (e : Event) : (s.log e).cur = s.cur := rfl
@[simp] theorem State.log_env (e : Event) : (s.log e).env = s.env := rfl
@[simp] theorem State.log_inbox (e : Event) : (s.log e).inbox = s.inbox := rfl
@[simp] theorem State.log_outbox (e : Event) : (s.log e).outbox = s.outbox := rfl
@[simp] theorem State.log_trace (e : Event) : (s.log e).trace = (s.cur, e) :: s.trace := rfl

@[simp] theorem State.tick_cfg (d : Nat) : (s.tick d).cfg = s.cfg := rfl
@[simp] theorem State.tick_initialized (d : Nat) : (s.tick d).initialized = s.initialized := rfl
@[simp] theorem State.tick_baseAddr (d : Nat) : (s.tick d).baseAddr = s.baseAddr := rfl
@[simp] theorem State.tick_addrRange (d : Nat) : (s.tick d).addrRange = s.addrRange := rfl
@[simp] theorem State.tick_lock (d : Nat) : (s.tick d).lock = s.lock := rfl
@[simp] theorem State.tick_tab (d : Nat) : (s.tick d).tab = s.tab := rfl
@[simp] theorem State.tick_cap (d : Nat) : (s.tick d).cap = s.cap := rfl
@[simp] theorem State.tick_busPhase (d : Nat) : (s.tick d).busPhase = s.busPhase := rfl
@[simp] theorem State.tick_sens (d : Nat) : (s.tick d).sens = s.sens := rfl
@[simp] theorem State.tick_ctxs (d : Nat) : (s.tick d).ctxs = s.ctxs := rfl
@[simp] theorem State.tick_clock (d : Nat) : (s.tick d).clock = s.clock + d + s.env.dt := rfl
@[simp] theorem State.tick_plClk (d : Nat) : (s.tick d).plClk = s.plClk := rfl
@[simp] theorem State.tick_cur (d : Nat) : (s.tick d).cur = s.cur := rfl
@[simp] theorem State.tick_env (d : Nat) : (s.tick d).env = s.env.afterDt := rfl
@[simp] theorem State.tick_inbox (d : Nat) : (s.tick d).inbox = s.inbox := rfl
@[simp] theorem State.tick_outbox (d : Nat) : (s.tick d).outbox = s.outbox := rfl
@[simp] theorem State.tick_trace (d : Nat) : (s.tick d).trace = s.trace := rfl

@[simp] theorem State.didRead_cfg (off : Nat) : (s.didRead off).cfg = s.cfg := rfl
@[simp] theorem State.didRead_initialized (off : Nat) :
    (s.didRead off).initialized = s.initialized := rfl
@[simp] theorem State.didRead_baseAddr (off : Nat) : (s.didRead off).baseAddr = s.baseAddr := rfl
@[simp] theorem State.didRead_addrRange (off : Nat) : (s.didRead off).addrRange = s.addrRange := rfl
@[simp] theorem State.didRead_lock (off : Nat) : (s.didRead off).lock = s.lock := rfl
@[simp] theorem State.didRead_tab (off : Nat) : (s.didRead off).tab = s.tab := rfl
@[simp] theorem State.didRead_cap (off : Nat) : (s.didRead off).cap = s.cap := rfl
@[simp] theorem State.didRead_busPhase (off : Nat) : (s.didRead off).busPhase = s.busPhase := rfl
@[simp] theorem State.didRead_sens (off : Nat) : (s.didRead off).sens = s.sens := rfl
@[simp] theorem State.didRead_ctxs (off : Nat) : (s.didRead off).ctxs = s.ctxs := rfl
@[simp] theorem State.didRead_clock (off : Nat) :
    (s.didRead off).clock = s.clock + 0 + s.env.afterWord.dt := rfl
@[simp] theorem State.didRead_plClk (off : Nat) : (s.didRead off).plClk = s.plClk := rfl
@[simp] theorem State.didRead_cur (off : Nat) : (s.didRead off).cur = s.cur := rfl
@[simp] theorem State.didRead_env (off : Nat) : (s.didRead off).env = s.env.afterWord.afterDt := rfl
@[simp] theorem State.didRead_inbox (off : Nat) : (s.didRead off).inbox = s.inbox := rfl
@[simp] theorem State.didRead_outbox (off : Nat) : (s.didRead off).outbox = s.outbox := rfl
@[simp] theorem State.didRead_trace (off : Nat) :
    (s.didRead off).trace = (s.cur, .read off s.answer) :: s.trace := rfl

@[simp] theorem State.didWrite_cfg (off : Nat) (v : Word) : (s.didWrite off v).cfg = s.cfg := rfl
@[simp] theorem State.didWrite_initialized (off : Nat) (v : Word) :
    (s.didWrite off v).initialized = s.initialized := rfl
@[simp] theorem State.didWrite_baseAddr (off : Nat) (v : Word) :
    (s.didWrite off v).baseAddr = s.baseAddr := rfl
@[simp] theorem State.didWrite_addrRange (off : Nat) (v : Word) :
    (s.didWrite off v).addrRange = s.addrRange := rfl
@[simp] theorem State.didWrite_lock (off : Nat) (v : Word) : (s.didWrite off v).lock = s.lock := rfl
@[simp] theorem State.didWrite_tab (off : Nat) (v : Word) : (s.didWrite off v).tab = s.tab := rfl
@[simp] theorem State.didWrite_cap (off : Nat) (v : Word) : (s.didWrite off v).cap = s.cap := rfl
@[simp] theorem State.didWrite_busPhase (off : Nat) (v : Word) :
    (s.didWrite off v).busPhase = s.busPhase := rfl
@[simp] theorem State.didWrite_sens (off : Nat) (v : Word) : (s.didWrite off v).sens = s.sens := rfl
@[simp] theorem State.didWrite_ctxs (off : Nat) (v : Word) : (s.didWrite off v).ctxs = s.ctxs := rfl
@[simp] theorem State.didWrite_clock (off : Nat) (v : Word) :
    (s.didWrite off v).clock = s.clock + 0 + s.env.dt := rfl
@[simp] theorem State.didWrite_plClk (off : Nat) (v : Word) :
    (s.didWrite off v).plClk = s.plClk := rfl
@[simp] theorem State.didWrite_cur (off : Nat) (v : Word) : (s.didWrite off v).cur = s.cur := rfl
@[simp] theorem State.didWrite_env (off : Nat) (v : Word) :
    (s.didWrite off v).env = s.env.afterDt := rfl
@[simp] theorem State.didWrite_inbox (off : Nat) (v : Word) :
    (s.didWrite off v).inbox = s.inbox := rfl
@[simp] theorem State.didWrite_outbox (off : Nat) (v : Word) :
    (s.didWrite off v).outbox = s.outbox := rfl
@[simp] theorem State.didWrite_trace (off : Nat) (v : Word) :
    (s.didWrite off v).trace = (s.cur, .write off v) :: s.trace := rfl

@[simp] theorem State.didDelay_cfg (d : Nat) : (s.didDelay d).cfg = s.cfg := rfl
@[simp] theorem State.didDelay_initialized (d : Nat) :
    (s.didDelay d).initialized = s.initialized := rfl
@[simp] theorem State.didDelay_baseAddr (d : Nat) : (s.didDelay d).baseAddr = s.baseAddr := rfl
@[simp] theorem State.didDelay_addrRange (d : Nat) : (s.didDelay d).addrRange = s.addrRange := rfl
@[simp] theorem State.didDelay_lock (d : Nat) : (s.didDelay d).lock = s.lock := rfl
@[simp] theorem State.didDelay_tab (d : Nat) : (s.didDelay d).tab = s.tab := rfl
@[simp] theorem State.didDelay_cap (d : Nat) : (s.didDelay d).cap = s.cap := rfl
@[simp] theorem State.didDelay_busPhase (d : Nat) : (s.didDelay d).busPhase = s.busPhase := rfl
@[simp] theorem State.didDelay_sens (d : Nat) : (s.didDelay d).sens = s.sens := rfl
@[simp] theorem State.didDelay_ctxs (d : Nat) : (s.didDelay d).ctxs = s.ctxs := rfl
@[simp] theorem State.didDelay_clock (d : Nat) :
    (s.didDelay d).clock = s.clock + d + s.env.dt := rfl
@[simp] theorem State.didDelay_plClk (d : Nat) : (s.didDelay d).plClk = s.plClk := rfl
@[simp] theorem State.didDelay_cur (d : Nat) : (s.didDelay d).cur = s.cur := rfl
@[simp] theorem State.didDelay_env (d : Nat) : (s.didDelay d).env = s.env.afterDt := rfl
@[simp] theorem State.didDelay_inbox (d : Nat) : (s.didDelay d).inbox = s.inbox := rfl
@[simp] theorem State.didDelay_outbox (d : Nat) : (s.didDelay d).outbox = s.outbox := rfl
@[simp] theorem State.didDelay_trace (d : Nat) :
    (s.didDelay d).trace = (s.cur, .delay d) :: s.trace := rfl

@[simp] theorem State.didNow_cfg : (s.didNow).cfg = s.cfg := rfl
@[simp] theorem State.didNow_initialized : (s.didNow).initialized = s.initialized := rfl
@[simp] theorem State.didNow_baseAddr : (s.didNow).baseAddr = s.baseAddr := rfl
@[simp] theorem State.didNow_addrRange : (s.didNow).addrRange = s.addrRange := rfl
@[simp] theorem State.didNow_lock : (s.didNow).lock = s.lock := rfl
@[simp] theorem State.didNow_tab : (s.didNow).tab = s.tab := rfl
@[simp] theorem State.didNow_cap : (s.didNow).cap = s.cap := rfl
@[simp] theorem State.didNow_busPhase : (s.didNow).busPhase = s.busPhase := rfl
@[simp] theorem State.didNow_sens : (s.didNow).sens = s.sens := rfl
@[simp] theorem State.didNow_ctxs : (s.didNow).ctxs = s.ctxs := rfl
@[simp] theorem State.didNow_clock : (s.didNow).clock = s.nowAnswer := rfl
@[simp] theorem State.didNow_plClk : (s.didNow).plClk = s.plClk := rfl
@[simp] theorem State.didNow_cur : (s.didNow).cur = s.cur := rfl
@[simp] theorem State.didNow_env : (s.didNow).env = s.env.afterDt := rfl
@[simp] theorem State.didNow_inbox : (s.didNow).inbox = s.inbox := rfl
@[simp] theorem State.didNow_outbox : (s.didNow).outbox = s.outbox := rfl
@[simp] theorem State.didNow_trace : (s.didNow).trace = (s.cur, .now s.nowAnswer) :: s.trace := rfl

@[simp] theorem State.didClkGet_cfg : (s.didClkGet).cfg = s.cfg := rfl
@[simp] theorem State.didClkGet_initialized : (s.didClkGet).initialized = s.initialized := rfl
@[simp] theorem State.didClkGet_baseAddr : (s.didClkGet).baseAddr = s.baseAddr := rfl
@[simp] theorem State.didClkGet_addrRange : (s.didClkGet).addrRange = s.addrRange := rfl
@[simp] theorem State.didClkGet_lock : (s.didClkGet).lock = s.lock := rfl
@[simp] theorem State.didClkGet_tab : (s.didClkGet).tab = s.tab := rfl
@[simp] theorem State.didClkGet_cap : (s.didClkGet).cap = s.cap := rfl
@[simp] theorem State.didClkGet_busPhase : (s.didClkGet).busPhase = s.busPhase := rfl
@[simp] theorem State.didClkGet_sens : (s.didClkGet).sens = s.sens := rfl
@[simp] theorem State.didClkGet_ctxs : (s.didClkGet).ctxs = s.ctxs := rfl
@[simp] theorem State.didClkGet_clock : (s.didClkGet).clock = s.clock + 0 + s.env.afterClk.dt := rfl
@[simp] theorem State.didClkGet_plClk : (s.didClkGet).plClk = s.env.clk := rfl
@[simp] theorem State.didClkGet_cur : (s.didClkGet).cur = s.cur := rfl
@[simp] theorem State.didClkGet_env : (s.didClkGet).env = s.env.afterClk.afterDt := rfl
@[simp] theorem State.didClkGet_inbox : (s.didClkGet).inbox = s.inbox := rfl
@[simp] theorem State.didClkGet_outbox : (s.didClkGet).outbox = s.outbox := rfl
@[simp] theorem State.didClkGet_trace :
    (s.didClkGet).trace = (s.cur, .clkGet s.env.clk) :: s.trace := rfl

@[simp] theorem State.didClkSet_cfg (f : Nat) : (s.didClkSet f).cfg = s.cfg := rfl
@[simp] theorem State.didClkSet_initialized (f : Nat) :
    (s.didClkSet f).initialized = s.initialized := rfl
@[simp] theorem State.didClkSet_baseAddr (f : Nat) : (s.didClkSet f).baseAddr = s.baseAddr := rfl
@[simp] theorem State.didClkSet_addrRange (f : Nat) : (s.didClkSet f).addrRange = s.addrRange := rfl
@[simp] theorem State.didClkSet_lock (f : Nat) : (s.didClkSet f).lock = s.lock := rfl
@[simp] theorem State.didClkSet_tab (f : Nat) : (s.didClkSet f).tab = s.tab := rfl
@[simp] theorem State.didClkSet_cap (f : Nat) : (s.didClkSet f).cap = s.cap := rfl
@[simp] theorem State.didClkSet_busPhase (f : Nat) : (s.didClkSet f).busPhase = s.busPhase := rfl
@[simp] theorem State.didClkSet_sens (f : Nat) : (s.didClkSet f).sens = s.sens := rfl
@[simp] theorem State.didClkSet_ctxs (f : Nat) : (s.didClkSet f).ctxs = s.ctxs := rfl
@[simp] theorem State.didClkSet_clock (f : Nat) :
    (s.didClkSet f).clock = s.clock + 0 + s.env.dt := rfl
@[simp] theorem State.didClkSet_plClk (f : Nat) : (s.didClkSet f).plClk = f := rfl
@[simp] theorem State.didClkSet_cur (f : Nat) : (s.didClkSet f).cur = s.cur := rfl
@[simp] theorem State.didClkSet_env (f : Nat) : (s.didClkSet f).env = s.env.afterDt := rfl
@[simp] theorem State.didClkSet_inbox (f : Nat) : (s.didClkSet f).inbox = s.inbox := rfl
@[simp] theorem State.didClkSet_outbox (f : Nat) : (s.didClkSet f).outbox = s.outbox := rfl
@[simp] theorem State.didClkSet_trace (f : Nat) :
    (s.didClkSet f).trace = (s.cur, .clkSet f) :: s.trace := rfl

@[simp] theorem State.didLockTas_cfg : (s.didLockTas).cfg = s.cfg := rfl
@[simp] theorem State.didLockTas_initialized : (s.didLockTas).initialized = s.initialized := rfl
@[simp] theorem State.didLockTas_baseAddr : (s.didLockTas).baseAddr = s.baseAddr := rfl
@[simp] theorem State.didLockTas_addrRange : (s.didLockTas).addrRange = s.addrRange := rfl
@[simp] theorem State.didLockTas_lock : (s.didLockTas).lock = true := rfl
@[simp] theorem State.didLockTas_tab : (s.didLockTas).tab = s.tab := rfl
@[simp] theorem State.didLockTas_cap : (s.didLockTas).cap = s.cap := rfl
@[simp] theorem State.didLockTas_busPhase : (s.didLockTas).busPhase = s.busPhase := rfl
@[simp] theorem State.didLockTas_sens : (s.didLockTas).sens = s.sens := rfl
@[simp] theorem State.didLockTas_ctxs : (s.didLockTas).ctxs = s.ctxs := rfl
@[simp] theorem State.didLockTas_clock : (s.didLockTas).clock = s.clock + 0 + s.env.dt := rfl
@[simp] theorem State.didLockTas_plClk : (s.didLockTas).plClk = s.plClk := rfl
@[simp] theorem State.didLockTas_cur : (s.didLockTas).cur = s.cur := rfl
@[simp] theorem State.didLockTas_env : (s.didLockTas).env = s.env.afterDt := rfl
@[simp] theorem State.didLockTas_inbox : (s.didLockTas).inbox = s.inbox := rfl
@[simp] theorem State.didLockTas_outbox : (s.didLockTas).outbox = s.outbox := rfl
@[simp] theorem State.didLockTas_trace :
    (s.didLockTas).trace = (s.cur, .lockTas (!s.lock)) :: s.trace := rfl

/-! ### The end of an operation -/

@[simp] theorem State.deliver_cfg (r : Result) : (s.deliver r).cfg = s.cfg := rfl
@[simp] theorem State.deliver_initialized (r : Result) :
    (s.deliver r).initialized = s.initialized := rfl
@[simp] theorem State.deliver_baseAddr (r : Result) : (s.deliver r).baseAddr = s.baseAddr := rfl
@[simp] theorem State.deliver_addrRange (r : Result) : (s.deliver r).addrRange = s.addrRange := rfl
@[simp] theorem State.deliver_lock (r : Result) : (s.deliver r).lock = s.lock := rfl
@[simp] theorem State.deliver_tab (r : Result) : (s.deliver r).tab = s.tab := rfl
@[simp] theorem State.deliver_cap (r : Result) : (s.deliver r).cap = s.cap := rfl
@[simp] theorem State.deliver_busPhase (r : Result) : (s.deliver r).busPhase = s.busPhase := rfl
@[simp] theorem State.deliver_sens (r : Result) : (s.deliver r).sens = s.sens := rfl
@[simp] theorem State.deliver_ctxs (r : Result) :
    (s.deliver r).ctxs = s.ctxs.modify s.cur fun x =>
      { x with op := none, pc := [], lastErr := r.err } := rfl
@[simp] theorem State.deliver_clock (r : Result) : (s.deliver r).clock = s.clock := rfl
@[simp] theorem State.deliver_plClk (r : Result) : (s.deliver r).plClk = s.plClk := rfl
@[simp] theorem State.deliver_cur (r : Result) : (s.deliver r).cur = s.cur := rfl
@[simp] theorem State.deliver_env (r : Result) : (s.deliver r).env = s.env := rfl
@[simp] theorem State.deliver_inbox (r : Result) : (s.deliver r).inbox = s.inbox := rfl
@[simp] theorem State.deliver_outbox (r : Result) :
    (s.deliver r).outbox = (s.cur, r) :: s.outbox := rfl
@[simp] theorem State.deliver_trace (r : Result) : (s.deliver r).trace = s.trace := rfl

@[simp] theorem State.raise_cfg (f : HostFault) : (s.raise f).cfg = s.cfg := rfl
@[simp] theorem State.raise_initialized (f : HostFault) :
    (s.raise f).initialized = s.initialized := rfl
@[simp] theorem State.raise_baseAddr (f : HostFault) : (s.raise f).baseAddr = s.baseAddr := rfl
@[simp] theorem State.raise_addrRange (f : HostFault) : (s.raise f).addrRange = s.addrRange := rfl
@[simp] theorem State.raise_lock (f : HostFault) : (s.raise f).lock = s.lock := rfl
@[simp] theorem State.raise_tab (f : HostFault) : (s.raise f).tab = s.tab := rfl
@[simp] theorem State.raise_cap (f : HostFault) : (s.raise f).cap = s.cap := rfl
@[simp] theorem State.raise_busPhase (f : HostFault) : (s.raise f).busPhase = s.busPhase := rfl
@[simp] theorem State.raise_sens (f : HostFault) : (s.raise f).sens = s.sens := rfl
@[simp] theorem State.raise_ctxs (f : HostFault) :
    (s.raise f).ctxs = s.ctxs.modify s.cur fun x =>
      { x with op := none, pc := [], lastErr := f.code } := rfl
@[simp] theorem State.raise_clock (f : HostFault) : (s.raise f).clock = s.clock := rfl
@[simp] theorem State.raise_plClk (f : HostFault) : (s.raise f).plClk = s.plClk := rfl
@[simp] theorem State.raise_cur (f : HostFault) : (s.raise f).cur = s.cur := rfl
@[simp] theorem State.raise_env (f : HostFault) : (s.raise f).env = s.env := rfl
@[simp] theorem State.raise_inbox (f : HostFault) : (s.raise f).inbox = s.inbox := rfl
@[simp] theorem State.raise_outbox (f : HostFault) :
    (s.raise f).outbox = (s.cur, .ofFault f) :: s.outbox := rfl
@[simp] theorem State.raise_trace (f : HostFault) : (s.raise f).trace = s.trace := rfl

/-! ### The search and the bus -/

@[simp] theorem State.releaseOnAbort_cfg : (s.releaseOnAbort).cfg = s.cfg := rfl
@[simp] theorem State.releaseOnAbort_initialized :
    (s.releaseOnAbort).initialized = s.initialized := rfl
@[simp] theorem State.releaseOnAbort_baseAddr : (s.releaseOnAbort).baseAddr = s.baseAddr := rfl
@[simp] theorem State.releaseOnAbort_addrRange : (s.releaseOnAbort).addrRange = s.addrRange := rfl
@[simp] theorem State.releaseOnAbort_lock :
    (s.releaseOnAbort).lock = if s.cfg.lockReleaseOnAbort then false else s.lock := rfl
@[simp] theorem State.releaseOnAbort_tab : (s.releaseOnAbort).tab = s.tab := rfl
@[simp] theorem State.releaseOnAbort_cap : (s.releaseOnAbort).cap = s.cap := rfl
@[simp] theorem State.releaseOnAbort_busPhase : (s.releaseOnAbort).busPhase = s.busPhase := rfl
@[simp] theorem State.releaseOnAbort_sens : (s.releaseOnAbort).sens = s.sens := rfl
@[simp] theorem State.releaseOnAbort_ctxs : (s.releaseOnAbort).ctxs = s.ctxs := rfl
@[simp] theorem State.releaseOnAbort_clock : (s.releaseOnAbort).clock = s.clock := rfl
@[simp] theorem State.releaseOnAbort_plClk : (s.releaseOnAbort).plClk = s.plClk := rfl
@[simp] theorem State.releaseOnAbort_cur : (s.releaseOnAbort).cur = s.cur := rfl
@[simp] theorem State.releaseOnAbort_env : (s.releaseOnAbort).env = s.env := rfl
@[simp] theorem State.releaseOnAbort_inbox : (s.releaseOnAbort).inbox = s.inbox := rfl
@[simp] theorem State.releaseOnAbort_outbox : (s.releaseOnAbort).outbox = s.outbox := rfl
@[simp] theorem State.releaseOnAbort_trace : (s.releaseOnAbort).trace = s.trace := rfl

@[simp] theorem State.insertIfNew_cfg (rom : RomCode) : (s.insertIfNew rom).cfg = s.cfg := by
  unfold State.insertIfNew; split <;> rfl
@[simp] theorem State.insertIfNew_initialized (rom : RomCode) : (s.insertIfNew rom).initialized = s.initialized := by
  unfold State.insertIfNew; split <;> rfl
@[simp] theorem State.insertIfNew_baseAddr (rom : RomCode) : (s.insertIfNew rom).baseAddr = s.baseAddr := by
  unfold State.insertIfNew; split <;> rfl
@[simp] theorem State.insertIfNew_addrRange (rom : RomCode) : (s.insertIfNew rom).addrRange = s.addrRange := by
  unfold State.insertIfNew; split <;> rfl
@[simp] theorem State.insertIfNew_lock (rom : RomCode) : (s.insertIfNew rom).lock = s.lock := by
  unfold State.insertIfNew; split <;> rfl
@[simp] theorem State.insertIfNew_busPhase (rom : RomCode) : (s.insertIfNew rom).busPhase = s.busPhase := by
  unfold State.insertIfNew; split <;> rfl
@[simp] theorem State.insertIfNew_sens (rom : RomCode) : (s.insertIfNew rom).sens = s.sens := by
  unfold State.insertIfNew; split <;> rfl
@[simp] theorem State.insertIfNew_ctxs (rom : RomCode) : (s.insertIfNew rom).ctxs = s.ctxs := by
  unfold State.insertIfNew; split <;> rfl
@[simp] theorem State.insertIfNew_clock (rom : RomCode) : (s.insertIfNew rom).clock = s.clock := by
  unfold State.insertIfNew; split <;> rfl
@[simp] theorem State.insertIfNew_plClk (rom : RomCode) : (s.insertIfNew rom).plClk = s.plClk := by
  unfold State.insertIfNew; split <;> rfl
@[simp] theorem State.insertIfNew_cur (rom : RomCode) : (s.insertIfNew rom).cur = s.cur := by
  unfold State.insertIfNew; split <;> rfl
@[simp] theorem State.insertIfNew_env (rom : RomCode) : (s.insertIfNew rom).env = s.env := by
  unfold State.insertIfNew; split <;> rfl
@[simp] theorem State.insertIfNew_inbox (rom : RomCode) : (s.insertIfNew rom).inbox = s.inbox := by
  unfold State.insertIfNew; split <;> rfl
@[simp] theorem State.insertIfNew_outbox (rom : RomCode) : (s.insertIfNew rom).outbox = s.outbox := by
  unfold State.insertIfNew; split <;> rfl
@[simp] theorem State.insertIfNew_trace (rom : RomCode) : (s.insertIfNew rom).trace = s.trace := by
  unfold State.insertIfNew; split <;> rfl

@[simp] theorem State.ghostWrite_cfg (off : Nat) (b : Bool) : (s.ghostWrite off b).cfg = s.cfg := by
  unfold State.ghostWrite; split <;> rfl
@[simp] theorem State.ghostWrite_initialized (off : Nat) (b : Bool) : (s.ghostWrite off b).initialized = s.initialized := by
  unfold State.ghostWrite; split <;> rfl
@[simp] theorem State.ghostWrite_baseAddr (off : Nat) (b : Bool) : (s.ghostWrite off b).baseAddr = s.baseAddr := by
  unfold State.ghostWrite; split <;> rfl
@[simp] theorem State.ghostWrite_addrRange (off : Nat) (b : Bool) : (s.ghostWrite off b).addrRange = s.addrRange := by
  unfold State.ghostWrite; split <;> rfl
@[simp] theorem State.ghostWrite_lock (off : Nat) (b : Bool) : (s.ghostWrite off b).lock = s.lock := by
  unfold State.ghostWrite; split <;> rfl
@[simp] theorem State.ghostWrite_tab (off : Nat) (b : Bool) : (s.ghostWrite off b).tab = s.tab := by
  unfold State.ghostWrite; split <;> rfl
@[simp] theorem State.ghostWrite_cap (off : Nat) (b : Bool) : (s.ghostWrite off b).cap = s.cap := by
  unfold State.ghostWrite; split <;> rfl
@[simp] theorem State.ghostWrite_sens (off : Nat) (b : Bool) : (s.ghostWrite off b).sens = s.sens := by
  unfold State.ghostWrite; split <;> rfl
@[simp] theorem State.ghostWrite_ctxs (off : Nat) (b : Bool) : (s.ghostWrite off b).ctxs = s.ctxs := by
  unfold State.ghostWrite; split <;> rfl
@[simp] theorem State.ghostWrite_clock (off : Nat) (b : Bool) : (s.ghostWrite off b).clock = s.clock := by
  unfold State.ghostWrite; split <;> rfl
@[simp] theorem State.ghostWrite_plClk (off : Nat) (b : Bool) : (s.ghostWrite off b).plClk = s.plClk := by
  unfold State.ghostWrite; split <;> rfl
@[simp] theorem State.ghostWrite_cur (off : Nat) (b : Bool) : (s.ghostWrite off b).cur = s.cur := by
  unfold State.ghostWrite; split <;> rfl
@[simp] theorem State.ghostWrite_env (off : Nat) (b : Bool) : (s.ghostWrite off b).env = s.env := by
  unfold State.ghostWrite; split <;> rfl
@[simp] theorem State.ghostWrite_inbox (off : Nat) (b : Bool) : (s.ghostWrite off b).inbox = s.inbox := by
  unfold State.ghostWrite; split <;> rfl
@[simp] theorem State.ghostWrite_outbox (off : Nat) (b : Bool) : (s.ghostWrite off b).outbox = s.outbox := by
  unfold State.ghostWrite; split <;> rfl
@[simp] theorem State.ghostWrite_trace (off : Nat) (b : Bool) : (s.ghostWrite off b).trace = s.trace := by
  unfold State.ghostWrite; split <;> rfl

@[simp] theorem State.construct_cfg (x : Ctx) : (s.construct x).cfg = s.cfg := by
  unfold State.construct; split <;> rfl
@[simp] theorem State.construct_busPhase (x : Ctx) : (s.construct x).busPhase = s.busPhase := by
  unfold State.construct; split <;> rfl
@[simp] theorem State.construct_sens (x : Ctx) : (s.construct x).sens = s.sens := by
  unfold State.construct; split <;> rfl
@[simp] theorem State.construct_ctxs (x : Ctx) : (s.construct x).ctxs = s.ctxs := by
  unfold State.construct; split <;> rfl
@[simp] theorem State.construct_clock (x : Ctx) : (s.construct x).clock = s.clock := by
  unfold State.construct; split <;> rfl
@[simp] theorem State.construct_plClk (x : Ctx) : (s.construct x).plClk = s.plClk := by
  unfold State.construct; split <;> rfl
@[simp] theorem State.construct_cur (x : Ctx) : (s.construct x).cur = s.cur := by
  unfold State.construct; split <;> rfl
@[simp] theorem State.construct_env (x : Ctx) : (s.construct x).env = s.env := by
  unfold State.construct; split <;> rfl
@[simp] theorem State.construct_inbox (x : Ctx) : (s.construct x).inbox = s.inbox := by
  unfold State.construct; split <;> rfl
@[simp] theorem State.construct_outbox (x : Ctx) : (s.construct x).outbox = s.outbox := by
  unfold State.construct; split <;> rfl
@[simp] theorem State.construct_trace (x : Ctx) : (s.construct x).trace = s.trace := by
  unfold State.construct; split <;> rfl

end

end Sys2Proof.Machine
end

