-- ==== Sys2Proof/Laws/Ops.lean ====
section
/-! SUPPORT. What each shared operation can do, said once: register accesses, polls, waits, the end of an
operation, the current context under an update, `InsertIfNew`, and the pieces that change a field only
under a condition. -/

namespace Sys2Proof.Machine

/-! ## The current context -/

@[simp] theorem ctx?_updCtx (s : State) (f : Ctx → Ctx) : (s.updCtx f).ctx? = s.ctx?.map f := by
  simp [State.ctx?, State.updCtx]

@[simp] theorem ctx?_goto (s : State) (pc : List Phase) :
    (s.goto pc).ctx? = s.ctx?.map fun x => { x with pc := pc } := ctx?_updCtx _ _

@[simp] theorem ctx?_latch (s : State) (a b : BitVec 64) (c : BitVec 32) : (s.latch a b c).ctx? =
    s.ctx?.map fun x => { x with opa := a, opb := b, opc := c } := ctx?_updCtx _ _

@[simp] theorem ctx?_start (s : State) (o : Op) (pc : List Phase) : (s.start o pc).ctx? =
    s.ctx?.map fun x => { x with op := some o, pc := pc } := ctx?_updCtx _ _

@[simp] theorem ctx?_callOpen (s : State) (pc : List Phase) : (s.callOpen pc).ctx? =
    s.ctx?.map fun x => { x with devOpen := false, pc := .rstCmd :: .oReset :: pc } := ctx?_updCtx _ _

@[simp] theorem ctx?_closeScope (s : State) :
    s.closeScope.ctx? = s.ctx?.map fun x => { x with devOpen := false } := ctx?_updCtx _ _

@[simp] theorem ctx?_deliver (s : State) (r : Result) : (s.deliver r).ctx? =
    s.ctx?.map fun x => { x with op := none, pc := [], lastErr := r.err } := ctx?_updCtx _ _

@[simp] theorem ctx?_raise (s : State) (f : HostFault) : (s.raise f).ctx? =
    s.ctx?.map fun x => { x with op := none, pc := [], lastErr := f.code } := ctx?_updCtx _ _

@[simp] theorem ctx?_updSensor (s : State) (i : Nat) (f : Sensor → Sensor) :
    (s.updSensor i f).ctx? = s.ctx? := rfl
@[simp] theorem ctx?_setFsm (s : State) (x : Ctx) (f : Fsm) : (s.setFsm x f).ctx? = s.ctx? := rfl
@[simp] theorem ctx?_exitTemp (s : State) (x : Ctx) :
    (s.exitTemp x).ctx? = s.ctx?.map fun y => { y with devOpen := false } := ctx?_closeScope s
@[simp] theorem ctx?_addSensor (s : State) (rom : RomCode) (a b : Nat) :
    (s.addSensor rom a b).ctx? = s.ctx? := rfl
@[simp] theorem ctx?_didRead (s : State) (o : Nat) : (s.didRead o).ctx? = s.ctx? := rfl
@[simp] theorem ctx?_didWrite (s : State) (o : Nat) (v : Word) : (s.didWrite o v).ctx? = s.ctx? := rfl
@[simp] theorem ctx?_didDelay (s : State) (d : Nat) : (s.didDelay d).ctx? = s.ctx? := rfl
@[simp] theorem ctx?_didNow (s : State) : s.didNow.ctx? = s.ctx? := rfl
@[simp] theorem ctx?_didClkGet (s : State) : s.didClkGet.ctx? = s.ctx? := rfl
@[simp] theorem ctx?_didClkSet (s : State) (f : Nat) : (s.didClkSet f).ctx? = s.ctx? := rfl
@[simp] theorem ctx?_didLockTas (s : State) : s.didLockTas.ctx? = s.ctx? := rfl
@[simp] theorem ctx?_releaseOnAbort (s : State) : s.releaseOnAbort.ctx? = s.ctx? := rfl
@[simp] theorem ctx?_busPhase (s : State) (b : BusPhase) :
    ({ s with busPhase := b } : State).ctx? = s.ctx? := rfl
@[simp] theorem ctx?_lock (s : State) (b : Bool) : ({ s with lock := b } : State).ctx? = s.ctx? := rfl

@[simp] theorem ctx?_construct (s : State) (x : Ctx) : (s.construct x).ctx? = s.ctx? := by
  simp [State.ctx?]

@[simp] theorem ctx?_ghostWrite (s : State) (o : Nat) (b : Bool) :
    (s.ghostWrite o b).ctx? = s.ctx? := by simp [State.ctx?]

@[simp] theorem ctx?_insertIfNew (s : State) (r : RomCode) : (s.insertIfNew r).ctx? = s.ctx? := by
  simp [State.ctx?]

/-- Another context is not touched by an update of the current one. -/
theorem getElem?_modify_other {α : Type} (l : List α) (i c : Nat) (f : α → α) (h : c ≠ i) :
    (l.modify i f)[c]? = l[c]? := by
  simp [Ne.symm h]

/-- With a context there, an update of it is a `set`. -/
theorem modify_eq_set_of_ctx? {s : State} {x : Ctx} (h : s.ctx? = some x) (f : Ctx → Ctx) :
    s.ctxs.modify s.cur f = s.ctxs.set s.cur (f x) := by
  apply List.ext_getElem?
  intro i
  by_cases e : i = s.cur
  · subst e
    have h' : s.ctxs[s.cur]? = some x := h
    obtain ⟨hl, he⟩ := List.getElem?_eq_some_iff.mp h'
    simp [hl, he]
  · simp [Ne.symm e]

/-- A context is busy when its operation is there. -/
theorem busy_cur {s : State} {x : Ctx} (h : s.ctx? = some x) : s.busy s.cur = x.op.isSome := by
  have h' : s.ctxs[s.cur]? = some x := h
  simp [State.busy, h']

/-! ## Register accesses, polls and waits -/

/-- A register read that answers next was admitted and went on with the port's answer, or was not and
ended the operation with `F_WINDOW` (R71, R74). -/
theorem readReg_next {off : Nat} {s t : State} {k : Word → State → Out}
    (h : readReg off s k = .next t) :
    (s.admitted off = true ∧ k s.answer (s.didRead off) = .next t) ∨
      (s.admitted off = false ∧ t = s.raise (.window off)) := by
  unfold readReg at h
  split at h
  · exact .inl ⟨‹_›, h⟩
  · rename_i hn
    injection h with h
    exact .inr ⟨by simpa using hn, h.symm⟩

/-- A register write that answers next was admitted and went on, or was not and ended the operation with
`F_WINDOW` (R72, R74). -/
theorem writeReg_next {off : Nat} {v : Word} {s t : State} {k : State → Out}
    (h : writeReg off v s k = .next t) :
    (s.admitted off = true ∧ k (s.didWrite off v) = .next t) ∨
      (s.admitted off = false ∧ t = s.raise (.window off)) := by
  unfold writeReg at h
  split at h
  · exact .inl ⟨‹_›, h⟩
  · rename_i hn
    injection h with h
    exact .inr ⟨by simpa using hn, h.symm⟩

theorem readReg_of_admitted {off : Nat} {s : State} (k : Word → State → Out)
    (h : s.admitted off = true) : readReg off s k = k s.answer (s.didRead off) := by
  simp [readReg, h]

theorem writeReg_of_admitted {off : Nat} {v : Word} {s : State} (k : State → Out)
    (h : s.admitted off = true) : writeReg off v s k = k (s.didWrite off v) := by
  simp [writeReg, h]

/-- The state in which a poll phase goes on after its read (R149). -/
def polled (x : Ctx) (s : State) : State :=
  (s.didRead s.cfg.offStatus).updCtx fun y =>
    { y with tStatus := s.answer, pollCnt := x.pollCnt + 1 }

/-- One visit of a poll phase on an admitted STATUS: done on the flag, exhausted at the bound, else a
wait (R149). -/
theorem pollOnce_of_admitted {mask : Word} {bound : Nat} {wait : List Phase} {x : Ctx} {s : State}
    {d e : State → Out} (h : s.admitted s.cfg.offStatus = true) :
    pollOnce mask bound wait x s d e =
      if flagSet s.answer mask then d (polled x s)
      else if x.pollCnt + 1 = bound then e (polled x s)
      else .next ((polled x s).goto wait) := by
  simp [pollOnce, readReg, h, polled]

/-- What one visit of a poll phase can do. -/
theorem pollOnce_next {mask : Word} {bound : Nat} {wait : List Phase} {x : Ctx} {s t : State}
    {d e : State → Out} (h : pollOnce mask bound wait x s d e = .next t) :
    (s.admitted s.cfg.offStatus = false ∧ t = s.raise (.window s.cfg.offStatus)) ∨
    (s.admitted s.cfg.offStatus = true ∧
      ((flagSet s.answer mask = true ∧ d (polled x s) = .next t) ∨
        (flagSet s.answer mask = false ∧ x.pollCnt + 1 = bound ∧ e (polled x s) = .next t) ∨
        (flagSet s.answer mask = false ∧ x.pollCnt + 1 ≠ bound ∧ t = (polled x s).goto wait))) := by
  rcases readReg_next h with ⟨ha, hk⟩ | h'
  · refine .inr ⟨ha, ?_⟩
    have hk' : (if flagSet s.answer mask then d (polled x s)
      else if x.pollCnt + 1 = bound then e (polled x s)
      else .next ((polled x s).goto wait)) = .next t := hk
    split at hk'
    · exact .inl ⟨‹_›, hk'⟩
    · split at hk'
      · exact .inr (.inl ⟨by simpa using ‹¬ flagSet _ _ = true›, ‹_›, hk'⟩)
      · refine .inr (.inr ⟨by simpa using ‹¬ flagSet _ _ = true›, ‹_›, ?_⟩)
        injection hk' with hk'; exact hk'.symm
  · exact .inl h'

@[simp] theorem ctx?_polled (x : Ctx) (s : State) : (polled x s).ctx? =
    s.ctx?.map fun y => { y with tStatus := s.answer, pollCnt := x.pollCnt + 1 } := by
  simp [polled]

/-! ## The address table (rule R163) -/

theorem insertIfNew_of_mem {s : State} {r : RomCode} (h : r ∈ s.tab) : s.insertIfNew r = s := by
  have : s.tab.any (romEq r) = true := by
    simp only [List.any_eq_true]
    exact ⟨r, h, by simp [romEq]⟩
  simp [State.insertIfNew, this]

theorem insertIfNew_of_new {s : State} {r : RomCode} (h : r ∉ s.tab) :
    s.insertIfNew r =
      { s with
        cap := if s.tab.length = s.cap then 2 * s.cap else s.cap
        tab := s.tab ++ [r] } := by
  have : s.tab.any (romEq r) = false := by
    simp only [List.any_eq_false]
    intro x hx e
    have : r = x := by simpa [romEq] using e
    exact h (this ▸ hx)
  simp only [State.insertIfNew, this, State.numRoms]
  rfl

theorem insertIfNew_tab (s : State) (r : RomCode) :
    (s.insertIfNew r).tab = if r ∈ s.tab then s.tab else s.tab ++ [r] := by
  split
  · rw [insertIfNew_of_mem ‹_›]
  · rw [insertIfNew_of_new ‹_›]

theorem insertIfNew_cap (s : State) (r : RomCode) : (s.insertIfNew r).cap =
    if r ∈ s.tab then s.cap else if s.tab.length = s.cap then 2 * s.cap else s.cap := by
  by_cases h : r ∈ s.tab
  · simp [insertIfNew_of_mem, h]
  · simp [insertIfNew_of_new, h]

@[simp] theorem insertAll_nil (s : State) : s.insertAll [] = s := rfl
@[simp] theorem insertAll_cons (s : State) (r : RomCode) (rs : List RomCode) :
    s.insertAll (r :: rs) = (s.insertIfNew r).insertAll rs := rfl

/-! ## The operand latches (rule R49) -/

/-- A context that holds the fields of the record of `i` has latched `i` (R49, R100). -/
theorem Ctx.latched_of_record {i : Instr} {o : Op} {a b : BitVec 64} {c : BitVec 32} {y : Ctx}
    (h : encode i = hostRecord o a b c) (ha : y.opa = a) (hb : y.opb = b) (hc : y.opc = c) :
    y.Latched i := by
  intro r hr
  rw [h] at hr
  cases hr
  simp [ha, hb, hc]

/-! ## Construction (rule R150) -/

theorem construct_of_initialized {s : State} (x : Ctx) (h : s.initialized = true) :
    s.construct x = s := by simp [State.construct, h]

theorem construct_of_not_initialized {s : State} (x : Ctx) (h : s.initialized = false) :
    s.construct x =
      { s with
        baseAddr := x.opa.toNat, addrRange := x.opc.toNat, cap := s.cfg.tableCapInit, tab := [],
        lock := false, initialized := true } := by simp [State.construct, h]

@[simp] theorem construct_initialized (s : State) (x : Ctx) : (s.construct x).initialized = true := by
  unfold State.construct; split <;> simp_all

/-! ## The window (rules R74, R151) -/

/-- A valid window admits every fixed register (R151). -/
theorem inWindow_of_validWindow {k : Config} {r o : Nat} (hk : k.Valid)
    (hr : validWindow k r = true) (ho : o ∈ k.fixedOffsets) : inWindow r o = true := by
  have h4 : o % 4 = 0 := hk.aligned o (by simp [Config.allOffsets, ho])
  have hmax : ∀ (l : List Nat) (a : Nat), a ≤ l.foldl max a ∧ ∀ o ∈ l, o ≤ l.foldl max a := by
    intro l
    induction l with
    | nil => simp
    | cons b l ih =>
      intro a
      have hb := ih (max a b)
      simp only [List.foldl_cons, List.mem_cons, forall_eq_or_imp]
      exact ⟨le_trans (le_max_left _ _) hb.1, le_trans (le_max_right _ _) hb.1, hb.2⟩
  have hle : o ≤ k.maxFixedOffset := (hmax k.fixedOffsets 0).2 o ho
  simp only [validWindow, Bool.and_eq_true, decide_eq_true_eq] at hr
  simp [inWindow, h4]
  omega

/-- `REG_TRIGGER` is one of the fixed registers (R7 (f)). -/
theorem regTrigger_mem {k : Config} (hk : k.Valid) : k.regTrigger ∈ k.fixedOffsets := by
  rcases hk.trigger with h | h <;> simp [h, Config.fixedOffsets]

end Sys2Proof.Machine
end

