-- ==== Sys2Proof/Laws/Does.lean ====
section
/-! SUPPORT. What any instruction can do to a state, said once: `Does evs s t` holds when `t` is reached
from `s` by the shared operations, making exactly the events `evs`. `exec_does` is the inversion lemma of
`exec`; whatever each shared operation keeps, every instruction keeps, by induction on `Does`. -/

namespace Sys2Proof.Machine

/-- `t` is reached from `s` by shared operations, making the events `evs`, the oldest first. -/
inductive Does : List Event → State → State → Prop
  | none (s) : Does [] s s
  | seq {a b s t u} : Does a s t → Does b t u → Does (a ++ b) s u
  | ctx (s) (f : Ctx → Ctx) : Does [] s (s.updCtx f)
  | read (s) (off) : s.admitted off = true → Does [.read off s.answer] s (s.didRead off)
  | write (s) (off v) : s.admitted off = true → Does [.write off v] s (s.didWrite off v)
  | delay (s) (d) : Does [.delay d] s (s.didDelay d)
  | now (s) : Does [.now s.nowAnswer] s s.didNow
  | clkGet (s) : Does [.clkGet s.env.clk] s s.didClkGet
  | clkSet (s) (f) : Does [.clkSet f] s (s.didClkSet f)
  | lockTas (s) : Does [.lockTas (!s.lock)] s s.didLockTas
  | unlock (s) : Does [] s { s with lock := false }
  | bus (s) (b : BusPhase) : Does [] s { s with busPhase := b }
  | construct (s) (x : Ctx) : Does [] s (s.construct x)
  | insert (s) (r : RomCode) : Does [] s (s.insertIfNew r)
  | sensor (s) (i : Nat) (f : Sensor → Sensor) :
      (∀ y, (f y).addr = y.addr ∧ (f y).refresh = y.refresh ∧
        (validRes y.res = true → validRes (f y).res = true)) → Does [] s (s.updSensor i f)
  | addSensor (s) (rom : RomCode) (a b : Nat) : validRes b = true → Does [] s (s.addSensor rom a b)
  | deliver (s) (r : Result) : r.WellFormed → Does [] s (s.deliver r)

namespace Does

theorem before {evs s t u} (h : Does [] s t) (h' : Does evs t u) : Does evs s u := by
  simpa using h.seq h'

theorem after {evs s t u} (h : Does evs s t) (h' : Does [] t u) : Does evs s u := by
  simpa using h.seq h'

theorem goto (s : State) (pc) : Does [] s (s.goto pc) := .ctx s _
theorem latch (s : State) (a b c) : Does [] s (s.latch a b c) := .ctx s _
theorem start (s : State) (o pc) : Does [] s (s.start o pc) := .ctx s _
theorem callOpen (s : State) (pc) : Does [] s (s.callOpen pc) := .ctx s _
theorem closeScope (s : State) : Does [] s s.closeScope := .ctx s _

theorem setFsm (s : State) (x : Ctx) (f : Fsm) : Does [] s (s.setFsm x f) :=
  .sensor s _ _ fun _ => ⟨rfl, rfl, id⟩

theorem exitTemp (s : State) (x : Ctx) : Does [] s (s.exitTemp x) := (closeScope s).before (setFsm ..)

theorem releaseOnAbort (s : State) : Does [] s s.releaseOnAbort := by
  by_cases h : s.cfg.lockReleaseOnAbort
  · have : s.releaseOnAbort = { s with lock := false } := by simp [State.releaseOnAbort, h]
    exact this ▸ .unlock s
  · have : s.releaseOnAbort = s := by simp [State.releaseOnAbort, h]
    exact this.symm ▸ .none s

theorem ghostWrite (s : State) (o : Nat) (b : Bool) : Does [] s (s.ghostWrite o b) := by
  unfold State.ghostWrite
  split
  · exact .bus s _
  · exact .none s

theorem polled (x : Ctx) (s : State) (h : s.admitted s.cfg.offStatus = true) :
    Does [.read s.cfg.offStatus s.answer] s (polled x s) :=
  (Does.read s _ h).after (.ctx _ _)

end Does

/-- From `s` to `t` the context that took the steps made exactly these events, the oldest first. -/
def Made (s t : State) (evs : List Event) : Prop :=
  t.trace = (evs.map fun e => (s.cur, e)).reverse ++ s.trace

/-! ## Results are well formed (rules R10, R265, R272) -/

theorem Result.success_wf (v : Val) : (Result.success v).WellFormed := by
  simp [Result.WellFormed, Result.success, Err.code]

theorem Result.failure_wf {e : Err} (v : Val) (h : e ≠ .ok) (h' : e ≠ .crc) :
    (Result.failure e v).WellFormed := by
  cases e <;> simp_all [Result.WellFormed, Result.failure, Err.code]

theorem Result.ofFault_wf (f : HostFault) : (Result.ofFault f).WellFormed := by
  cases f <;> simp [Result.WellFormed, Result.ofFault, HostFault.code, Err.code]

theorem Result.failureCode_wf {r : Result} (h : r.WellFormed) (hr : r.ok = false) :
    (Result.failureCode r.err).WellFormed := by
  simp_all [Result.WellFormed, Result.failureCode]

theorem Does.raise (s : State) (f : HostFault) : Does [] s (s.raise f) :=
  .deliver s _ (Result.ofFault_wf f)

/-! ## Call and return -/

theorem withCtx_next {s t : State} {k : Ctx → Out} (h : withCtx s k = .next t) :
    ∃ x, s.ctx? = some x ∧ k x = .next t := by
  unfold withCtx at h
  split at h
  · exact ⟨_, ‹_›, h⟩
  · cases h

theorem withSensor_next {x : Ctx} {s t : State} {k : Sensor → Out}
    (h : withSensor x s k = .next t) : ∃ y, s.sens[x.opc.toNat]? = some y ∧ k y = .next t := by
  unfold withSensor at h
  split at h
  · exact ⟨_, ‹_›, h⟩
  · cases h

/-- The ROM code of the BUS_MATCH in flight, when there is one (R201, R225, R231). -/
def romInFlight (x : Ctx) (s : State) (rom : RomCode) : Prop :=
  ((x.op = some .busMatch ∨ x.op = some .devOpen) ∧ rom = x.opa) ∨
    ((x.op = some .tsTemp ∨ x.op = some .tsTempF) ∧
      ∃ y, s.sens[x.opc.toNat]? = some y ∧ rom = y.addr)

theorem withRom_next {x : Ctx} {s t : State} {k : RomCode → Out} (h : withRom x s k = .next t) :
    ∃ rom, romInFlight x s rom ∧ k rom = .next t := by
  unfold withRom at h
  split at h
  · exact ⟨_, .inl ⟨.inl ‹_›, rfl⟩, h⟩
  · exact ⟨_, .inl ⟨.inr ‹_›, rfl⟩, h⟩
  · obtain ⟨y, hy, hk⟩ := withSensor_next h
    exact ⟨_, .inr ⟨.inl ‹_›, y, hy, rfl⟩, hk⟩
  · obtain ⟨y, hy, hk⟩ := withSensor_next h
    exact ⟨_, .inr ⟨.inr ‹_›, y, hy, rfl⟩, hk⟩
  · cases h

theorem failAttempt_does {cs : List Phase} {s t : State} {g : Result → State → Out}
    (h : failAttempt cs s g = .next t)
    (hg : ∀ r u, r.WellFormed → g r u = .next t → Does [] u t) : Does [] s t := by
  obtain ⟨x, -, h⟩ := withCtx_next h
  split at h
  · exact (Does.exitTemp s x).before
      (hg _ _ (Result.failure_wf _ (by decide) (by decide)) h)
  · injection h with h
    subst h
    exact (Does.ctx s _).before (.callOpen _ _)

/-- A return makes no event, whatever the callers do with the result. -/
theorem ret_does : ∀ (cs : List Phase) (r : Result) (s t : State), r.WellFormed →
    ret cs r s = .next t → Does [] s t := by
  intro cs
  induction cs with
  | nil =>
    intro r s t hr h
    injection h with h
    exact h ▸ .deliver s r hr
  | cons p cs ih =>
    intro r s t hr h
    cases p
    case oReset =>
      simp only [ret] at h
      split at h
      · injection h with h; exact h ▸ .goto s _
      · exact ih _ _ _ (Result.failure_wf _ (by decide) (by decide)) h
    case oMatch =>
      simp only [ret] at h
      split at h
      · obtain ⟨x, -, h⟩ := withCtx_next h
        obtain ⟨rom, -, h⟩ := withRom_next h
        exact (Does.ctx s _).before (ih _ _ _ (Result.success_wf _) h)
      · exact ih _ _ _ (Result.failure_wf _ (by decide) (by decide)) h
    case tOpen1 =>
      simp only [ret] at h
      split at h
      · injection h with h; exact h ▸ .goto s _
      · rename_i hn
        obtain ⟨x, -, h⟩ := withCtx_next h
        exact (Does.exitTemp s x).before (ih _ _ _ (Result.failureCode_wf hr (by simpa using hn)) h)
    case tOpen2 =>
      simp only [ret] at h
      split at h
      · injection h with h; exact h ▸ .goto s _
      · exact failAttempt_does h fun e u he hu => ih e u t he hu
    case fCall =>
      simp only [ret] at h
      split at h
      · rename_i e he
        refine ih _ _ _ ?_ h
        unfold fahrenheitResult at he
        split at he
        · split at he
          · cases he; exact Result.success_wf _
          · cases he
        · rename_i hn
          cases he; exact Result.failureCode_wf hr (by simpa using hn)
      · cases h
    all_goals cases h

/-! ## The phases -/

theorem waitOnce_does {d : Nat} {poll : List Phase} {s t : State}
    (h : waitOnce d poll s = .next t) : ∃ evs, Does evs s t ∧ evs.length ≤ 1 := by
  injection h with h
  exact ⟨_, h ▸ (Does.delay s d).after (.goto _ _), by simp⟩

theorem readReg_does {off : Nat} {s t : State} {k : Word → State → Out}
    (h : readReg off s k = .next t)
    (hk : ∀ v u, k v u = .next t → Does [] u t) : ∃ evs, Does evs s t ∧ evs.length ≤ 1 := by
  rcases readReg_next h with ⟨ha, h⟩ | ⟨-, rfl⟩
  · exact ⟨_, (Does.read s off ha).after (hk _ _ h), by simp⟩
  · exact ⟨_, .raise s _, by simp⟩

theorem writeReg_does {off : Nat} {v : Word} {s t : State} {k : State → Out}
    (h : writeReg off v s k = .next t)
    (hk : ∀ u, k u = .next t → Does [] u t) : ∃ evs, Does evs s t ∧ evs.length ≤ 1 := by
  rcases writeReg_next h with ⟨ha, h⟩ | ⟨-, rfl⟩
  · exact ⟨_, (Does.write s off v ha).after (hk _ h), by simp⟩
  · exact ⟨_, .raise s _, by simp⟩

theorem pollOnce_does {mask : Word} {bound : Nat} {wait : List Phase} {x : Ctx} {s t : State}
    {d e : State → Out} (h : pollOnce mask bound wait x s d e = .next t)
    (hd : ∀ u, d u = .next t → Does [] u t) (he : ∀ u, e u = .next t → Does [] u t) :
    ∃ evs, Does evs s t ∧ evs.length ≤ 1 := by
  rcases pollOnce_next h with ⟨-, rfl⟩ | ⟨ha, ⟨-, h⟩ | ⟨-, -, h⟩ | ⟨-, -, rfl⟩⟩
  · exact ⟨_, .raise s _, by simp⟩
  · exact ⟨_, (Does.polled x s ha).after (hd _ h), by simp⟩
  · exact ⟨_, (Does.polled x s ha).after (he _ h), by simp⟩
  · exact ⟨_, (Does.polled x s ha).after (.goto _ _), by simp⟩

theorem searchWindow_does {off : Nat} {s t : State} (h : searchWindow off s = .next t) :
    Does [] s t := by
  injection h with h
  exact h ▸ (Does.releaseOnAbort s).before (.raise _ _)

theorem searchRead_does {off : Nat} {s t : State} {k : Word → State → Out}
    (h : searchRead off s k = .next t)
    (hk : ∀ v u, k v u = .next t → Does [] u t) : ∃ evs, Does evs s t ∧ evs.length ≤ 1 := by
  unfold searchRead at h
  split at h
  · exact ⟨_, (Does.read s off ‹_›).after (hk _ _ h), by simp⟩
  · exact ⟨_, searchWindow_does h, by simp⟩

theorem searchWrite_does {off : Nat} {v : Word} {s t : State} {k : State → Out}
    (h : searchWrite off v s k = .next t)
    (hk : ∀ u, k u = .next t → Does [] u t) : ∃ evs, Does evs s t ∧ evs.length ≤ 1 := by
  unfold searchWrite at h
  split at h
  · exact ⟨_, (Does.write s off v ‹_›).after (hk _ h), by simp⟩
  · exact ⟨_, searchWindow_does h, by simp⟩

theorem searchFail_does {cs : List Phase} {e : Err} {s t : State} (h : searchFail cs e s = .next t)
    (he : e ≠ .ok) (he' : e ≠ .crc) : Does [] s t :=
  (Does.releaseOnAbort s).before (ret_does _ _ _ _ (Result.failure_wf _ he he') h)

theorem harvest_does {cs : List Phase} {i n : Nat} {s t : State} (h : harvest cs i n s = .next t) :
    Does [] s t := by
  unfold harvest at h
  split at h
  · split at h
    · injection h with h; exact h ▸ .goto s _
    · exact searchWindow_does h
  · exact (Does.unlock s).before (ret_does _ _ _ _ (Result.success_wf _) h)

theorem ret_success_does {cs : List Phase} {v : Val} {s t : State}
    (h : ret cs (.success v) s = .next t) : Does [] s t :=
  ret_does _ _ _ _ (Result.success_wf v) h

theorem ret_failure_does {cs : List Phase} {e : Err} {v : Val} {s t : State} (he : e ≠ .ok)
    (he' : e ≠ .crc) (h : ret cs (.failure e v) s = .next t) : Does [] s t :=
  ret_does _ _ _ _ (Result.failure_wf v he he') h

theorem next_does {s t u : State} (hu : Does [] s u)
    (h : (.next u : Out) = .next t) : Does [] s t := by
  injection h with h
  exact h ▸ hu

theorem phaseEvent_does (p : Phase) (cs : List Phase) (x : Ctx) (s t : State)
    (h : phaseEvent p cs x s = .next t) : ∃ evs, Does evs s t ∧ evs.length ≤ 1 := by
  cases p
  case iClkget =>
    simp only [phaseEvent, phIClkget] at h
    split at h
    · exact ⟨_, (Does.clkGet s).after ((Does.construct _ x).before (ret_success_does h)), by simp⟩
    · exact ⟨_, (Does.clkGet s).after (next_does (.goto _ _) h), by simp⟩
  case iClkset =>
    dsimp only [phaseEvent, phIClkset] at h
    exact ⟨_, (Does.clkSet s _).after ((Does.construct _ x).before (ret_success_does h)), by simp⟩
  case rstCmd =>
    dsimp only [phaseEvent, phRstCmd] at h
    exact writeReg_does h fun u hu => (Does.bus u .unknown).before (next_does (.ctx _ _) hu)
  case rstPoll =>
    dsimp only [phaseEvent, phRstPoll] at h
    exact pollOnce_does h (fun u hu => (Does.bus u .resetDone).before (ret_success_does hu))
      fun u hu => ret_failure_does (by decide) (by decide) hu
  case rstWait =>
    dsimp only [phaseEvent, phRstWait] at h
    exact waitOnce_does h
  case sLock =>
    simp only [phaseEvent, phSLock] at h
    split at h
    · exact ⟨_, (Does.lockTas s).after (next_does (.goto _ _) h), by simp⟩
    · exact ⟨_, (Does.lockTas s).after (next_does (.goto _ _) h), by simp⟩
  case sCmd =>
    dsimp only [phaseEvent, phSCmd] at h
    exact searchWrite_does h fun u hu => (Does.bus u .unknown).before (next_does (.goto _ _) hu)
  case sSer =>
    dsimp only [phaseEvent, phSSer] at h
    exact searchWrite_does h fun u hu => next_does (.ctx _ _) hu
  case sPoll =>
    dsimp only [phaseEvent, phSPoll] at h
    refine searchRead_does h fun v u hu => ?_
    split at hu
    · exact (Does.ctx u _).before (searchFail_does hu (by decide) (by decide))
    · exact (Does.ctx u _).before (searchFail_does hu (by decide) (by decide))
    · exact (Does.ctx u _).before (next_does (.goto _ _) hu)
    · split at hu
      · exact (Does.ctx u _).before (searchFail_does hu (by decide) (by decide))
      · exact (Does.ctx u _).before (next_does (.goto _ _) hu)
  case sWait =>
    dsimp only [phaseEvent, phSWait] at h
    exact waitOnce_does h
  case sFound =>
    dsimp only [phaseEvent, phSFound] at h
    exact searchRead_does h fun v u hu => (Does.ctx u _).before (harvest_does hu)
  case sLo =>
    dsimp only [phaseEvent, phSLo] at h
    refine searchRead_does h fun v u hu => ?_
    split at hu
    · exact (Does.ctx u _).before (next_does (.goto _ _) hu)
    · exact (Does.ctx u _).before (searchWindow_does hu)
  case sHi =>
    dsimp only [phaseEvent, phSHi] at h
    exact searchRead_does h fun v u hu =>
      (Does.insert u _).before ((Does.ctx _ _).before (harvest_does hu))
  case mCmd =>
    dsimp only [phaseEvent, phMCmd] at h
    exact writeReg_does h fun u hu => (Does.bus u _).before (next_does (.goto _ _) hu)
  case mD0 =>
    dsimp only [phaseEvent, phMD0] at h
    obtain ⟨rom, -, h⟩ := withRom_next h
    exact writeReg_does h fun u hu => next_does (.goto _ _) hu
  case mD1 =>
    dsimp only [phaseEvent, phMD1] at h
    obtain ⟨rom, -, h⟩ := withRom_next h
    exact writeReg_does h fun u hu => next_does (.goto _ _) hu
  case mSz =>
    dsimp only [phaseEvent, phMSz] at h
    exact writeReg_does h fun u hu => next_does (.goto _ _) hu
  case mExec =>
    dsimp only [phaseEvent, phMExec] at h
    exact writeReg_does h fun u hu => next_does (.ctx _ _) hu
  case mPoll =>
    dsimp only [phaseEvent, phMPoll] at h
    obtain ⟨rom, -, h⟩ := withRom_next h
    exact pollOnce_does h (fun u hu => (Does.bus u _).before (ret_success_does hu))
      fun u hu => (Does.bus u _).before (ret_failure_does (by decide) (by decide) hu)
  case mWait =>
    dsimp only [phaseEvent, phMWait] at h
    exact waitOnce_does h
  case rdAcc =>
    dsimp only [phaseEvent, phRdAcc] at h
    exact readReg_does h fun v u hu => ret_success_does hu
  case wrAcc =>
    dsimp only [phaseEvent, phWrAcc] at h
    exact writeReg_does h fun u hu => (Does.ghostWrite u _ _).before (ret_success_does hu)
  case wcAcc =>
    dsimp only [phaseEvent, phWcAcc] at h
    exact writeReg_does h fun u hu => ret_success_does hu
  case wtAcc =>
    dsimp only [phaseEvent, phWtAcc] at h
    exact writeReg_does h fun u hu => ret_success_does hu
  case dwAcc =>
    dsimp only [phaseEvent, phDwAcc] at h
    exact writeReg_does h fun u hu => ret_success_does hu
  case drAcc =>
    dsimp only [phaseEvent, phDrAcc] at h
    exact readReg_does h fun v u hu => ret_success_does hu
  case tNow0 =>
    dsimp only [phaseEvent, phTNow0] at h
    obtain ⟨y, -, h⟩ := withSensor_next h
    split at h
    · exact ⟨_, (Does.now s).after ((Does.ctx _ _).before (ret_success_does h)), by simp⟩
    · exact ⟨_, (Does.now s).after ((Does.ctx _ _).before (next_does (.callOpen _ _) h)), by simp⟩
  case tConvCmd =>
    dsimp only [phaseEvent, phTConvCmd] at h
    exact writeReg_does h fun u hu => next_does (.goto _ _) hu
  case tConvExec =>
    dsimp only [phaseEvent, phTConvExec] at h
    obtain ⟨y, -, h⟩ := withSensor_next h
    exact writeReg_does h fun u hu => (Does.setFsm u x _).before (next_does (.goto _ _) hu)
  case tConvWait =>
    dsimp only [phaseEvent, phTConvWait] at h
    obtain ⟨y, -, h⟩ := withSensor_next h
    split at h
    · exact ⟨_, (Does.delay s _).after (next_does (.goto _ _) h), by simp⟩
    · cases h
  case tConvChk =>
    dsimp only [phaseEvent, phTConvChk] at h
    obtain ⟨y, -, h⟩ := withSensor_next h
    refine readReg_does h fun v u hu => ?_
    split at hu
    · exact (Does.ctx u _).before ((Does.closeScope _).before ((Does.setFsm _ x _).before
        ((Does.ctx _ _).before (next_does (.callOpen _ _) hu))))
    · exact (Does.ctx u _).before ((Does.closeScope _).before ((Does.exitTemp _ x).before
        (ret_failure_does (by decide) (by decide) hu)))
  case tRdCmd =>
    dsimp only [phaseEvent, phTRdCmd] at h
    exact writeReg_does h fun u hu => next_does (.goto _ _) hu
  case tRdSz =>
    dsimp only [phaseEvent, phTRdSz] at h
    exact writeReg_does h fun u hu => next_does (.goto _ _) hu
  case tRdExec =>
    dsimp only [phaseEvent, phTRdExec] at h
    exact writeReg_does h fun u hu => next_does (.ctx _ _) hu
  case tRdPoll =>
    dsimp only [phaseEvent, phTRdPoll] at h
    exact pollOnce_does h (fun u hu => next_does (.goto _ _) hu)
      fun u hu => (Does.closeScope u).before (failAttempt_does hu fun e w he hw => ret_does _ e w t he hw)
  case tRdWait =>
    dsimp only [phaseEvent, phTRdWait] at h
    exact waitOnce_does h
  case tRdData =>
    dsimp only [phaseEvent, phTRdData] at h
    exact readReg_does h fun v u hu =>
      (Does.ctx u _).before ((Does.closeScope _).before (next_does (.goto _ _) hu))
  case tNow1 =>
    dsimp only [phaseEvent, phTNow1] at h
    obtain ⟨y, -, h⟩ := withSensor_next h
    refine ⟨_, (Does.now s).after ((Does.ctx _ _).before
      ((Does.sensor _ _ _ ?_).before (ret_success_does h))), by simp⟩
    exact fun _ => ⟨rfl, rfl, id⟩
  all_goals cases h

theorem advance_does {x : Ctx} {s t : State} (h : advance x s = .next t) :
    ∃ evs, Does evs s t ∧ evs.length ≤ 1 := by
  unfold advance at h
  split at h
  · exact phaseEvent_does _ _ _ _ _ h
  · cases h

/-! ## The instructions -/

/-- What a meaning of the shape `operate` can do: issue in an idle context, or one event in flight. -/
theorem operate_next {o : Op} {issue : Ctx → State → State} {s t : State}
    (h : operate o issue s = .next t) :
    ∃ x, s.ctx? = some x ∧ ((x.op = none ∧ t = issue x s) ∨ (x.op = some o ∧ advance x s = .next t)) := by
  unfold operate at h
  split at h
  · cases h
  · rename_i x hx
    refine ⟨x, hx, ?_⟩
    split at h
    · injection h with h; exact .inl ⟨‹_›, h.symm⟩
    · split at h
      · rename_i p hp hpo
        exact .inr ⟨hpo ▸ hp, h⟩
      · cases h

/-- A meaning in an idle context issues. -/
theorem operate_idle {o : Op} {issue : Ctx → State → State} {s : State} {x : Ctx}
    (hx : s.ctx? = some x) (hi : x.op = none) : operate o issue s = .next (issue x s) := by
  simp [operate, hx, hi]

/-- A meaning whose operation is in flight makes the next event. -/
theorem operate_inFlight {o : Op} {issue : Ctx → State → State} {s : State} {x : Ctx}
    (hx : s.ctx? = some x) (hi : x.op = some o) : operate o issue s = advance x s := by
  simp [operate, hx, hi]

theorem operate_does {o : Op} {issue : Ctx → State → State} {s t : State}
    (h : operate o issue s = .next t) (hi : ∀ x, Does [] s (issue x s)) :
    ∃ evs, Does evs s t ∧ evs.length ≤ 1 := by
  obtain ⟨x, -, ⟨-, rfl⟩ | ⟨-, h⟩⟩ := operate_next h
  · exact ⟨_, hi x, by simp⟩
  · exact advance_does h

/-- What a command word handed over by the host can do: a fault result, or its one write. -/
theorem writeWord_next {off : Nat} {w : Word} {s t : State} (h : writeWord off w s = .next t) :
    ∃ x, s.ctx? = some x ∧ x.op = none ∧
      ((s.initialized = false ∧ t = s.raise .notInit) ∨
        (s.initialized = true ∧ s.admitted off = false ∧ t = s.raise (.window off)) ∨
        (s.initialized = true ∧ s.admitted off = true ∧
          t = ((s.didWrite off w).ghostWrite off x.devOpen).deliver (.success .none))) := by
  unfold writeWord at h
  split at h
  · cases h
  · rename_i x hx
    split at h
    · cases h
    · refine ⟨x, hx, ‹_›, ?_⟩
      split at h
      · split at h <;> injection h with h
        · exact .inr (.inr ⟨‹_›, ‹_›, h.symm⟩)
        · rename_i hn
          exact .inr (.inl ⟨‹_›, by simpa using hn, h.symm⟩)
      · rename_i hn
        injection h with h
        exact .inl ⟨by simpa using hn, h.symm⟩

theorem writeWord_does {off : Nat} {w : Word} {s t : State} (h : writeWord off w s = .next t) :
    ∃ evs, Does evs s t ∧ evs.length ≤ 1 := by
  obtain ⟨x, -, -, ⟨-, rfl⟩ | ⟨-, -, rfl⟩ | ⟨-, ha, rfl⟩⟩ := writeWord_next h
  · exact ⟨_, .raise s _, by simp⟩
  · exact ⟨_, .raise s _, by simp⟩
  · exact ⟨_, (Does.write s off w ha).after
      ((Does.ghostWrite _ _ _).before (.deliver _ _ (Result.success_wf _))), by simp⟩

theorem Does.deliverSuccess (s : State) (v : Val) : Does [] s (s.deliver (.success v)) :=
  .deliver s _ (Result.success_wf v)

/-- The inversion lemma of `exec`: a next state is reached by shared operations with at most one
event. -/
theorem exec_does {i : Instr} {s t : State} (h : exec i s = .next t) :
    ∃ evs, Does evs s t ∧ evs.length ≤ 1 := by
  cases i
  case busInit base range =>
    refine operate_does h fun x => ?_
    unfold issueBusInit
    split
    · exact .deliverSuccess s _
    · split
      · exact (Does.latch ..).before (.start ..)
      · exact (Does.latch ..).before (.raise ..)
  case busReset =>
    refine operate_does h fun x => ?_
    unfold issueBusReset
    split
    · exact (Does.latch ..).before (.start ..)
    · exact (Does.latch ..).before (.raise ..)
  case busSearch alarm =>
    refine operate_does h fun x => ?_
    by_cases hi : s.initialized = true <;> simp only [issueBusSearch, hi, if_true, if_false, Bool.false_eq_true]
    · exact (Does.latch ..).before (.start ..)
    · exact (Does.latch ..).before (.raise ..)
  case busMatch rom =>
    refine operate_does h fun x => ?_
    unfold issueBusMatch
    split
    · exact (Does.latch ..).before (.start ..)
    · exact (Does.latch ..).before (.raise ..)
  case busRd off =>
    refine operate_does h fun x => ?_
    unfold issueBusRd
    split
    · split
      · exact (Does.latch ..).before (.start ..)
      · exact (Does.latch ..).before (.raise ..)
    · exact (Does.latch ..).before (.raise ..)
  case busWr off v =>
    refine operate_does h fun x => ?_
    unfold issueBusWr
    split
    · split
      · exact (Does.latch ..).before (.start ..)
      · exact (Does.latch ..).before (.raise ..)
    · exact (Does.latch ..).before (.raise ..)
  case addrRom rom => exact operate_does h fun x => .deliverSuccess s _
  case addrFamily rom => exact operate_does h fun x => .deliverSuccess s _
  case addrSerial rom => exact operate_does h fun x => .deliverSuccess s _
  case addrCrc rom => exact operate_does h fun x => .deliverSuccess s _
  case addrEq p q => exact operate_does h fun x => .deliverSuccess s _
  case devOpen rom =>
    refine operate_does h fun x => ?_
    unfold issueDevOpen
    split
    · exact (Does.latch ..).before ((Does.start ..).before (.callOpen ..))
    · exact (Does.latch ..).before (.raise ..)
  case devClose =>
    exact operate_does (issue := fun _ t => t.closeScope.deliver (.success .none)) h fun x =>
      (Does.closeScope s).before (.deliverSuccess _ _)
  case devWcmd v =>
    refine operate_does h fun x => ?_
    unfold issueDevWcmd
    split
    · exact (Does.latch ..).before (.start ..)
    · exact (Does.latch ..).before (.raise ..)
  case devWctl v =>
    refine operate_does h fun x => ?_
    unfold issueDevWctl
    split
    · exact (Does.latch ..).before (.start ..)
    · exact (Does.latch ..).before (.raise ..)
  case devWr off v =>
    refine operate_does h fun x => ?_
    unfold issueDevWr
    split
    · split
      · exact (Does.latch ..).before (.start ..)
      · exact (Does.latch ..).before (.raise ..)
    · exact (Does.latch ..).before (.raise ..)
  case devRd off =>
    refine operate_does h fun x => ?_
    unfold issueDevRd
    split
    · split
      · exact (Does.latch ..).before (.start ..)
      · exact (Does.latch ..).before (.raise ..)
    · exact (Does.latch ..).before (.raise ..)
  case tsCreate rom refresh res =>
    refine operate_does h fun x => ?_
    unfold issueTsCreate
    split
    · split
      · split
        · exact (Does.latch ..).before ((Does.addSensor _ _ _ _ ‹_›).before (.deliverSuccess _ _))
        · exact .raise ..
      · exact .raise ..
    · exact (Does.latch ..).before (.raise ..)
  case tsTemp idx =>
    refine operate_does h fun x => ?_
    unfold issueTsTemp
    split
    · exact (Does.latch ..).before (.start ..)
    · exact .raise ..
  case tsTempF idx =>
    refine operate_does h fun x => ?_
    unfold issueTsTempF
    split
    · exact (Does.latch ..).before (.start ..)
    · exact .raise ..
  case tsGetRes idx =>
    refine operate_does h fun x => ?_
    unfold issueTsGetRes
    split
    · exact (Does.latch ..).before (.deliverSuccess _ _)
    · exact .raise ..
  case tsSetRes idx res =>
    refine operate_does h fun x => ?_
    unfold issueTsSetRes
    split
    · split
      · exact (Does.latch ..).before ((Does.sensor _ idx (fun y => { y with res := res }) fun y =>
          ⟨rfl, rfl, fun _ => ‹_›⟩).before (.deliverSuccess _ _))
      · exact .raise ..
    · exact .raise ..
  all_goals exact writeWord_does h

/-! ## What every instruction keeps -/

/-- What no shared operation changes: the parameters, who moves, the host's queue, the other contexts,
the clock's direction; and that results and events are only added. -/
structure Kept (s t : State) : Prop where
  cfg : t.cfg = s.cfg
  cur : t.cur = s.cur
  inbox : t.inbox = s.inbox
  count : t.ctxs.length = s.ctxs.length
  others : ∀ c, c ≠ s.cur → t.ctxs[c]? = s.ctxs[c]?
  clock : s.clock ≤ t.clock
  initialized : s.initialized = true → t.initialized = true ∧ t.baseAddr = s.baseAddr ∧
    t.addrRange = s.addrRange
  table : s.initialized = true → ∃ l, t.tab = s.tab ++ l
  sensors : ∀ (i : Nat) y, s.sens[i]? = some y →
    ∃ z, t.sens[i]? = some z ∧ z.addr = y.addr ∧ z.refresh = y.refresh
  results : ∃ l, t.outbox = l ++ s.outbox ∧ ∀ r ∈ l, r.1 = s.cur ∧ r.2.WellFormed

theorem Kept.refl (s : State) : Kept s s :=
  ⟨rfl, rfl, rfl, rfl, fun _ _ => rfl, le_refl _, fun h => ⟨h, rfl, rfl⟩, fun _ => ⟨[], by simp⟩,
    fun i y h => ⟨y, h, rfl, rfl⟩, [], by simp, by simp⟩

theorem Kept.trans {s t u : State} (h : Kept s t) (h' : Kept t u) : Kept s u where
  cfg := h'.cfg.trans h.cfg
  cur := h'.cur.trans h.cur
  inbox := h'.inbox.trans h.inbox
  count := h'.count.trans h.count
  others c hc := (h'.others c (h.cur ▸ hc)).trans (h.others c hc)
  clock := h.clock.trans h'.clock
  initialized hi := by
    obtain ⟨a, b, c⟩ := h.initialized hi
    obtain ⟨a', b', c'⟩ := h'.initialized a
    exact ⟨a', b'.trans b, c'.trans c⟩
  table hi := by
    obtain ⟨l, hl⟩ := h.table hi
    obtain ⟨l', hl'⟩ := h'.table (h.initialized hi).1
    exact ⟨l ++ l', by rw [hl', hl, List.append_assoc]⟩
  sensors i y hy := by
    obtain ⟨z, hz, a, b⟩ := h.sensors i y hy
    obtain ⟨w, hw, a', b'⟩ := h'.sensors i z hz
    exact ⟨w, hw, a'.trans a, b'.trans b⟩
  results := by
    obtain ⟨l, hl, hw⟩ := h.results
    obtain ⟨l', hl', hw'⟩ := h'.results
    refine ⟨l' ++ l, by rw [hl', hl, List.append_assoc], fun r hr => ?_⟩
    rcases List.mem_append.mp hr with hr | hr
    · exact h.cur ▸ hw' r hr
    · exact hw r hr

theorem Does.kept {evs : List Event} {s t : State} (h : Does evs s t) : Kept s t := by
  induction h with
  | none s => exact .refl s
  | seq _ _ ih ih' => exact ih.trans ih'
  | ctx s f =>
    refine { Kept.refl s with count := by simp, others := fun c hc => ?_ }
    simp [hc.symm]
  | read s off _ | write s off v _ | delay s d | clkGet s | clkSet s f | lockTas s =>
    exact { Kept.refl s with clock := by simp; try omega }
  | now s => exact { Kept.refl s with clock := by simp [State.nowAnswer] }
  | unlock s | bus s b => exact { Kept.refl s with }
  | construct s x =>
    by_cases hi : s.initialized
    · rw [construct_of_initialized x hi]; exact .refl s
    · rw [construct_of_not_initialized x (by simpa using hi)]
      exact { Kept.refl s with
        initialized := fun h => absurd h hi, table := fun h => absurd h hi }
  | insert s r =>
    refine { Kept.refl s with
      cfg := by simp, cur := by simp, inbox := by simp, count := by simp, others := by simp
      clock := by simp, initialized := by simp, results := ⟨[], by simp⟩
      sensors := by simpa using (Kept.refl s).sensors, table := fun _ => ?_ }
    rw [insertIfNew_tab]
    split
    · exact ⟨[], by simp⟩
    · exact ⟨[r], rfl⟩
  | sensor s i f hf =>
    refine { Kept.refl s with sensors := fun j y hy => ?_ }
    by_cases e : j = i
    · subst e
      exact ⟨f y, by simp [hy], (hf y).1, (hf y).2.1⟩
    · exact ⟨y, by simp [hy, Ne.symm e], rfl, rfl⟩
  | addSensor s rom a b hb =>
    refine { Kept.refl s with sensors := fun j y hy => ⟨y, ?_, rfl, rfl⟩ }
    have := (List.getElem?_eq_some_iff.mp hy).1
    simp [List.getElem?_append_left this, hy]
  | deliver s r hr =>
    refine { Kept.refl s with
      count := by simp, others := fun c hc => by simp [hc.symm], results := ⟨[(s.cur, r)], rfl, ?_⟩ }
    simp [hr]

theorem exec_kept {i : Instr} {s t : State} (h : exec i s = .next t) : Kept s t := by
  obtain ⟨evs, hd, -⟩ := exec_does h
  exact hd.kept

/-- The trace grows by exactly the events made. -/
theorem Does.trace {evs : List Event} {s t : State} (h : Does evs s t) : Made s t evs := by
  unfold Made
  induction h with
  | seq h _ ih ih' => rw [ih', h.kept.cur, ih]; simp
  | insert s r => simp
  | construct s x => simp
  | _ => simp

end Sys2Proof.Machine
end

