-- ==== Sys2Proof/Laws/Step.lean ====
section
/-! SUPPORT. The step and the turn, said once: `step_next` is the inversion lemma of `step`; the lemmas on
`turn` say who can move; those on `exec` and `finish` say how an operation in flight goes on. -/

namespace Sys2Proof.Machine

/-! ## The operation an instruction is -/

/-- The host operation of an instruction; a command word is none (R101, R108). -/
def opOf : Instr → Option Op
  | .busInit _ _ => some .busInit
  | .busReset => some .busReset
  | .busSearch _ => some .busSearch
  | .busMatch _ => some .busMatch
  | .busRd _ => some .busRd
  | .busWr _ _ => some .busWr
  | .addrRom _ => some .addrRom
  | .addrFamily _ => some .addrFamily
  | .addrSerial _ => some .addrSerial
  | .addrCrc _ => some .addrCrc
  | .addrEq _ _ => some .addrEq
  | .devOpen _ => some .devOpen
  | .devClose => some .devClose
  | .devWcmd _ => some .devWcmd
  | .devWctl _ => some .devWctl
  | .devWr _ _ => some .devWr
  | .devRd _ => some .devRd
  | .tsCreate _ _ _ => some .tsCreate
  | .tsTemp _ => some .tsTemp
  | .tsTempF _ => some .tsTempF
  | .tsGetRes _ => some .tsGetRes
  | .tsSetRes _ _ => some .tsSetRes
  | .serialize | .resetPulse | .execPullup | .execNopullup | .readTimeSlots | .searchRom | .readRom
  | .matchRom | .skipRom | .alarmSearch | .convertT | .writeScratchpad | .readScratchpad
  | .copyScratchpad | .recallE2 | .readPowerSupply => none

@[simp] theorem opOf_withFields (o : Op) (a b : BitVec 64) (c : BitVec 32) :
    opOf (o.withFields a b c) = some o := by cases o <;> rfl

/-- An instruction whose operation is in flight makes the next event (R50). -/
theorem exec_inFlight {i : Instr} {o : Op} {s : State} {x : Ctx} (hx : s.ctx? = some x)
    (ho : x.op = some o) (hi : opOf i = some o) : exec i s = advance x s := by
  cases i <;> simp only [opOf, Option.some.injEq, reduceCtorEq] at hi <;> subst hi <;>
    first
      | exact operate_inFlight hx ho
      | (simp only [exec, execDevClose]; exact operate_inFlight hx ho)

/-- In a context with another operation in flight every instruction is refused (R51). -/
theorem exec_busy {i : Instr} {o : Op} {s : State} {x : Ctx} (hx : s.ctx? = some x)
    (ho : x.op = some o) (hi : opOf i ≠ some o) : exec i s = .refused .contextBusy := by
  cases i <;> simp only [opOf, ne_eq, Option.some.injEq, reduceCtorEq, not_false_eq_true] at hi <;>
    first
      | (show operate _ _ s = _; simp [operate, hx, ho, Ne.symm hi])
      | (show writeWord _ _ s = _; simp [writeWord, hx, ho])
      | (simp only [exec, execDevClose]; simp [operate, hx, ho, Ne.symm hi])

/-- In no context every instruction is refused. -/
theorem exec_noContext {i : Instr} {s : State} (hx : s.ctx? = none) :
    exec i s = .refused .noSuchContext := by
  cases i <;>
    first
      | (show operate _ _ s = _; simp [operate, hx])
      | (show writeWord _ _ s = _; simp [writeWord, hx])
      | (simp only [exec, execDevClose]; simp [operate, hx])

/-! ## Running on -/

@[simp] theorem finish_zero (i : Instr) (s : State) : finish i 0 s = .next s := rfl

theorem finish_idle {i : Instr} {n : Nat} {s : State} {x : Ctx} (hx : s.ctx? = some x)
    (ho : x.op = none) : finish i n s = .next s := by
  cases n with
  | zero => rfl
  | succ n => simp [finish, busy_cur hx, ho]

/-- One event of a run. -/
theorem finish_succ {i : Instr} {o : Op} {n : Nat} {s t : State} {x : Ctx} (hx : s.ctx? = some x)
    (ho : x.op = some o) (hi : opOf i = some o) (ht : advance x s = .next t) :
    finish i (n + 1) s = finish i n t := by
  simp [finish, busy_cur hx, ho, exec_inFlight hx ho hi, ht]

/-- A run cut in two. -/
theorem finish_add {i : Instr} {t : State} : ∀ (m n : Nat) (s : State),
    finish i m s = .next t → finish i (m + n) s = finish i n t := by
  intro m n
  induction m with
  | zero => intro s h; injection h with h; simp [h]
  | succ m ih =>
    intro s h
    rw [Nat.succ_add]
    by_cases hb : s.busy s.cur = true
    · simp only [finish, hb, if_true] at h ⊢
      split at h
      · exact ih _ h
      · cases h
      · cases h
    · simp only [finish, hb] at h ⊢
      injection h with h
      subst h
      cases n with
      | zero => rfl
      | succ n => simp [finish, hb]

/-! ## Who moves -/

theorem mem_busyContexts {s : State} {c : Nat} : c ∈ s.busyContexts ↔ s.busy c = true := by
  simp only [State.busyContexts, List.mem_filter, List.mem_range, and_iff_right_iff_imp]
  intro h
  unfold State.busy at h
  split at h
  · exact (List.getElem?_eq_some_iff.mp ‹_›).1
  · cases h

theorem mem_turns_run {s : State} {c : Nat} : Turn.run c ∈ s.turns ↔ s.busy c = true := by
  unfold State.turns
  split
  · split <;> simp [mem_busyContexts]
  · simp [mem_busyContexts]

theorem mem_turns_issue {s : State} :
    Turn.issue ∈ s.turns ↔ ∃ c q rest, s.inbox = (c, q) :: rest ∧ s.busy c = false := by
  unfold State.turns
  split
  · rename_i c q rest h
    split <;> simp_all
  · rename_i h
    simp [h]

/-- A turn is one of those that can be taken, and choosing it changes nothing but the script of
choices. -/
theorem turn_some {s t : State} {m : Turn} (h : s.turn = some (m, t)) :
    m ∈ s.turns ∧ (t = s ∨ t = { s with env := s.env.afterPick }) := by
  unfold State.turn at h
  split at h
  · cases h
  · rename_i t' e
    injection h with h; injection h with h1 h2
    subst h1 h2
    exact ⟨by simp [e], .inl rfl⟩
  · rename_i t' ts hne e
    injection h with h; injection h with h1 h2
    refine ⟨?_, .inr h2.symm⟩
    rw [← h1, e]
    have : s.env.pick % (t' :: ts).length < (t' :: ts).length := Nat.mod_lt _ (by simp)
    rw [List.getD_eq_getElem?_getD, List.getElem?_eq_getElem this]
    exact List.getElem_mem this

theorem turn_none {s : State} (h : s.turn = none) : s.turns = [] := by
  unfold State.turn at h
  split at h
  · assumption
  · cases h
  · cases h

/-- What a step that answers next has done: nothing, an instruction in the context that moves, or a fault
result for a reserved opcode. `u` is `s` with the move chosen and the request taken. -/
inductive Moved (s : State) : State → Prop
  | quiet : s.turns = [] → Moved s s
  | issue {u c q rest i t} : s.turn = some (.issue, u) → s.inbox = (c, q) :: rest →
      decode q = .instr i → exec i { u with inbox := rest, cur := c } = .next t → Moved s t
  | run {u c x i t} : s.turn = some (.run c, u) → s.ctxs[c]? = some x → x.inFlight = some i →
      exec i { u with cur := c } = .next t → Moved s t
  | reject {u c q rest op t} : s.turn = some (.issue, u) → s.inbox = (c, q) :: rest →
      decode q = .reject (.reservedOpcode op) →
      (State.ctx? { u with inbox := rest, cur := c }).isSome →
      t = State.raise (.badOp op) { u with inbox := rest, cur := c } → Moved s t

theorem turn_inbox {s t : State} {m : Turn} (h : s.turn = some (m, t)) : t.inbox = s.inbox := by
  rcases (turn_some h).2 with rfl | rfl <;> rfl

theorem turn_ctxs {s t : State} {m : Turn} (h : s.turn = some (m, t)) : t.ctxs = s.ctxs := by
  rcases (turn_some h).2 with rfl | rfl <;> rfl

/-- The inversion lemma of the step. -/
theorem step_next {s t : State} (h : step s = .next t) : Moved s t := by
  unfold step at h
  cases hf : s.turn with
  | none =>
    simp only [State.fetch, hf] at h
    injection h with h
    exact h ▸ .quiet (turn_none hf)
  | some p =>
    obtain ⟨m, u⟩ := p
    cases m with
    | issue =>
      simp only [State.fetch, hf, State.fetchRequest, turn_inbox hf] at h
      split at h
      · rename_i e
        split at e <;> (try split at e) <;> cases e
      · rename_i i v e
        split at e
        · cases e
        · rename_i c q rest hin
          split at e
          · injection e with e1 e2
            subst e1 e2
            exact .issue hf hin ‹_› h
          · cases e
      · rename_i r v e
        split at e
        · cases e
        · rename_i c q rest hin
          split at e
          · cases e
          · rename_i r' hr
            injection e with e1 e2
            subst e1 e2
            unfold rejectRequest at h
            split at h
            · cases h
            · rename_i op hx
              injection h with h
              exact .reject hf hin hr (by simp [hx]) h.symm
            · cases h
      · cases h
    | run c =>
      simp only [State.fetch, hf, State.fetchInFlight, turn_ctxs hf] at h
      cases hc : s.ctxs[c]? with
      | none => simp [hc] at h
      | some x =>
        cases hi : x.inFlight with
        | none => simp [hc, hi] at h
        | some i =>
          simp only [hc, Option.bind_some, hi] at h
          have hs := turn_ctxs hf
          exact .run hf hc hi (by rw [← h, ← hs])

theorem turn_cur {s t : State} {m : Turn} (h : s.turn = some (m, t)) : t.cur = s.cur := by
  rcases (turn_some h).2 with rfl | rfl <;> rfl

/-- Every step that answers next is reached from `s` with the choice made and the request taken, by
shared operations that make at most one event. -/
theorem step_does {s t : State} (h : step s = .next t) :
    t = s ∨ ∃ u evs, Does evs u t ∧ evs.length ≤ 1 ∧
      (∃ e, u = { s with env := e, cur := u.cur, inbox := u.inbox } ∧
        (u.inbox = s.inbox ∨ ∃ r, s.inbox = r :: u.inbox)) := by
  cases step_next h with
  | quiet _ => exact .inl rfl
  | issue hu hin _ hx =>
    obtain ⟨evs, hd, hl⟩ := exec_does hx
    refine .inr ⟨_, evs, hd, hl, ?_⟩
    rcases (turn_some hu).2 with rfl | rfl
    · exact ⟨_, rfl, .inr ⟨_, hin⟩⟩
    · exact ⟨_, rfl, .inr ⟨_, hin⟩⟩
  | run hu hc hi hx =>
    obtain ⟨evs, hd, hl⟩ := exec_does hx
    refine .inr ⟨_, evs, hd, hl, ?_⟩
    rcases (turn_some hu).2 with rfl | rfl
    · exact ⟨_, rfl, .inl rfl⟩
    · exact ⟨_, rfl, .inl rfl⟩
  | reject hu hin _ _ ht =>
    subst ht
    refine .inr ⟨_, [], Does.raise _ _, by simp, ?_⟩
    rcases (turn_some hu).2 with rfl | rfl
    · exact ⟨_, rfl, .inr ⟨_, hin⟩⟩
    · exact ⟨_, rfl, .inr ⟨_, hin⟩⟩

end Sys2Proof.Machine
end

