-- ==== Sys2Proof/Laws/Run.lean ====
section
/-! SUPPORT. Running an operation from a state `s`: `s.during y evs c e` is `s` when its context holds `y`,
the events `evs` have been made, the clock is `c` and the oracles `e`. Every shared operation takes such a
state to another, so that a run is a chain of equations; `finish_poll` is the run of a whole poll loop. -/

namespace Sys2Proof.Machine

/-- `s` in the middle of an operation of the context that takes the steps. -/
def State.during (s : State) (y : Ctx) (evs : List Event) (c : Nat) (e : Env) : State :=
  { s with
    ctxs := s.ctxs.set s.cur y
    trace := (evs.map fun v => (s.cur, v)).reverse ++ s.trace
    clock := c
    env := e }

section
variable (s : State) (y : Ctx) (evs : List Event) (c : Nat) (e : Env)

@[simp] theorem State.during_cfg : (s.during y evs c e).cfg = s.cfg := rfl
@[simp] theorem State.during_initialized : (s.during y evs c e).initialized = s.initialized := rfl
@[simp] theorem State.during_addrRange : (s.during y evs c e).addrRange = s.addrRange := rfl
@[simp] theorem State.during_lock : (s.during y evs c e).lock = s.lock := rfl
@[simp] theorem State.during_tab : (s.during y evs c e).tab = s.tab := rfl
@[simp] theorem State.during_cap : (s.during y evs c e).cap = s.cap := rfl
@[simp] theorem State.during_busPhase : (s.during y evs c e).busPhase = s.busPhase := rfl
@[simp] theorem State.during_sens : (s.during y evs c e).sens = s.sens := rfl
@[simp] theorem State.during_cur : (s.during y evs c e).cur = s.cur := rfl
@[simp] theorem State.during_clock : (s.during y evs c e).clock = c := rfl
@[simp] theorem State.during_env : (s.during y evs c e).env = e := rfl
@[simp] theorem State.during_admitted (o : Nat) :
    (s.during y evs c e).admitted o = s.admitted o := rfl
@[simp] theorem State.during_answer : (s.during y evs c e).answer = e.word := rfl
@[simp] theorem State.during_nowAnswer : (s.during y evs c e).nowAnswer = c + e.dt := rfl

theorem State.moved_eq_during (t : State) : s.moved t y evs = s.during y evs t.clock t.env := rfl

@[simp] theorem State.during_withBusPhase (b : BusPhase) :
    { s.during y evs c e with busPhase := b } = State.during { s with busPhase := b } y evs c e := rfl

@[simp] theorem State.during_updSensor (i : Nat) (f : Sensor → Sensor) :
    (s.during y evs c e).updSensor i f = (s.updSensor i f).during y evs c e := rfl

@[simp] theorem State.didWrite_during (o : Nat) (v : Word) : (s.during y evs c e).didWrite o v =
    s.during y (evs ++ [.write o v]) (c + e.dt) e.afterDt := by
  simp [State.during, State.didWrite, State.log, State.tick]

@[simp] theorem State.didRead_during (o : Nat) : (s.during y evs c e).didRead o =
    s.during y (evs ++ [.read o e.word]) (c + e.afterWord.dt) e.afterWord.afterDt := by
  simp [State.during, State.didRead, State.log, State.tick, State.answer]

@[simp] theorem State.didDelay_during (d : Nat) : (s.during y evs c e).didDelay d =
    s.during y (evs ++ [.delay d]) (c + d + e.dt) e.afterDt := by
  simp [State.during, State.didDelay, State.log, State.tick]

@[simp] theorem State.didNow_during : (s.during y evs c e).didNow =
    s.during y (evs ++ [.now (c + e.dt)]) (c + e.dt) e.afterDt := by
  simp [State.during, State.didNow, State.nowAnswer, State.log, State.tick]

end

section
variable {s : State} {x : Ctx} (hx : s.ctx? = some x) (y : Ctx) (evs : List Event) (c : Nat) (e : Env)
include hx

theorem ctx?_during : (s.during y evs c e).ctx? = some y := by
  have h : s.ctxs[s.cur]? = some x := hx
  have hl := (List.getElem?_eq_some_iff.mp h).1
  simp [State.ctx?, State.during, hl]

theorem updCtx_during (f : Ctx → Ctx) :
    (s.during y evs c e).updCtx f = s.during (f y) evs c e := by
  have h := modify_eq_set_of_ctx? (ctx?_during hx y evs c e) f
  simp only [State.updCtx, h]
  simp [State.during]

theorem goto_during (pc : List Phase) :
    (s.during y evs c e).goto pc = s.during { y with pc := pc } evs c e := updCtx_during hx y evs c e _

theorem callOpen_during (pc : List Phase) : (s.during y evs c e).callOpen pc =
    s.during { y with devOpen := false, pc := .rstCmd :: .oReset :: pc } evs c e :=
  updCtx_during hx y evs c e _

theorem closeScope_during :
    (s.during y evs c e).closeScope = s.during { y with devOpen := false } evs c e :=
  updCtx_during hx y evs c e _

/-- Before the first event of an operation. -/
theorem updCtx_eq_during (f : Ctx → Ctx) : s.updCtx f = s.during (f x) [] s.clock s.env := by
  simp only [State.updCtx, modify_eq_set_of_ctx? hx f]
  rfl

/-- A result delivered at the end of a run. -/
theorem deliver_during (r : Result) : (s.during y evs c e).deliver r =
    { s.during { y with op := none, pc := [], lastErr := r.err } evs c e with
      outbox := (s.cur, r) :: s.outbox } := by
  unfold State.deliver
  rw [updCtx_during hx]
  rfl

/-- A result delivered at issue. -/
theorem deliver_eq_answered (r : Result) : s.deliver r = s.answered x r := by
  simp only [State.deliver, State.updCtx, State.answered, modify_eq_set_of_ctx? hx]

end

/-! ## One event of a run -/

theorem finish_during {i : Instr} {o : Op} {s t : State} {x y : Ctx} {evs : List Event} {c : Nat} {e : Env}
    {p : Phase} {callers : List Phase} (n : Nat) (hx : s.ctx? = some x) (hi : opOf i = some o)
    (ho : y.op = some o) (hp : y.pc = p :: callers)
    (ht : phaseEvent p callers y (s.during y evs c e) = .next t) :
    finish i (n + 1) (s.during y evs c e) = finish i n t := by
  refine finish_succ (ctx?_during hx y evs c e) ho hi ?_
  simpa [advance, hp] using ht

/-! ## A poll loop (rule R149) -/

/-- The events of a poll loop before its last read. -/
def pollsBefore (off d : Nat) : List Word → List Event
  | [] => []
  | [_] => []
  | v :: w :: vs => .read off v :: .delay d :: pollsBefore off d (w :: vs)

theorem pollEvents_eq (off d : Nat) : ∀ (vs : List Word) (h : vs ≠ []),
    pollEvents off d vs = pollsBefore off d vs ++ [.read off (vs.getLast h)]
  | [v], _ => rfl
  | v :: w :: vs, _ => by
    simp only [pollEvents, pollsBefore, List.cons_append]
    rw [pollEvents_eq off d (w :: vs) (by simp)]
    simp

theorem pollEvents_length (off d : Nat) : ∀ vs : List Word, vs ≠ [] →
    (pollEvents off d vs).length = 2 * vs.length - 1
  | [v], _ => rfl
  | v :: w :: vs, _ => by
    have := pollEvents_length off d (w :: vs) (by simp)
    simp only [pollEvents, List.length_cons] at this ⊢
    omega

/-- A poll loop up to its last read: the reads before it found the flag clear, with a delay after each.
The template `y` is what the context holds but for the two registers a poll writes. -/
theorem finish_poll {i : Instr} {o : Op} {s : State} {x y : Ctx} {mask : Word} {bound d : Nat}
    {p w : Phase} {callers : List Phase} {D E : State → Out} (hx : s.ctx? = some x) (hi : opOf i = some o)
    (ho : y.op = some o) (ha : s.admitted s.cfg.offStatus = true)
    (hp : ∀ τ n evs c e, phaseEvent p callers { y with tStatus := τ, pollCnt := n, pc := p :: callers }
        (s.during { y with tStatus := τ, pollCnt := n, pc := p :: callers } evs c e) =
      pollOnce mask bound (w :: callers) { y with tStatus := τ, pollCnt := n, pc := p :: callers }
        (s.during { y with tStatus := τ, pollCnt := n, pc := p :: callers } evs c e) D E)
    (hw : ∀ z evs c e, phaseEvent w callers z (s.during z evs c e) =
      waitOnce d (p :: callers) (s.during z evs c e)) (rest : List Word) :
    ∀ (vs : List Word) (hvs : vs ≠ []) (τ : Word) (n : Nat) (evs : List Event) (c : Nat) (e : Env),
      e.regs = vs ++ rest → (∀ v ∈ vs.dropLast, flagSet v mask = false) → n + vs.length ≤ bound →
      ∃ τ' c' e', e'.regs = vs.getLast hvs :: rest ∧ ∀ m,
        finish i (2 * (vs.length - 1) + m)
          (s.during { y with tStatus := τ, pollCnt := n, pc := p :: callers } evs c e) =
        finish i m
          (s.during { y with tStatus := τ', pollCnt := n + (vs.length - 1), pc := p :: callers }
            (evs ++ pollsBefore s.cfg.offStatus d vs) c' e')
  | [v], _, τ, n, evs, c, e, he, _, _ => ⟨τ, c, e, by simpa using he, fun m => by simp [pollsBefore]⟩
  | v :: v' :: vs, _, τ, n, evs, c, e, he, hc, hb => by
    have hv : e.word = v := by simp [Env.word, he]
    have hclear : flagSet v mask = false := hc v (by simp)
    have hn : n + 1 ≠ bound := by simp only [List.length_cons] at hb; omega
    have he1 : e.afterWord.regs = v' :: vs ++ rest := by simp [Env.afterWord, he]
    have hdt : ∀ e : Env, e.afterDt.regs = e.regs := fun e => by
      unfold Env.afterDt; split <;> rfl
    obtain ⟨τ', c', e', h1, h2⟩ := finish_poll hx hi ho ha hp hw rest (v' :: vs) (by simp) v (n + 1)
      (evs ++ [.read s.cfg.offStatus v] ++ [.delay d])
      (c + e.afterWord.dt + d + e.afterWord.afterDt.dt) e.afterWord.afterDt.afterDt
      (by rw [hdt, hdt, he1]) (fun u hu => hc u (by simp [hu])) (by simp only [List.length_cons] at hb ⊢; omega)
    refine ⟨τ', c', e', by simpa using h1, fun m => ?_⟩
    have hlen : 2 * ((v :: v' :: vs).length - 1) + m = (2 * ((v' :: vs).length - 1) + m) + 1 + 1 := by
      simp only [List.length_cons]; omega
    rw [hlen]
    refine (finish_during
      (t := s.during { y with tStatus := v, pollCnt := n + 1, pc := w :: callers }
        (evs ++ [.read s.cfg.offStatus v]) (c + e.afterWord.dt) e.afterWord.afterDt)
      _ hx hi (by exact ho) rfl ?_).trans
      ((finish_during _ hx hi (by exact ho) rfl ?_).trans ((h2 m).trans ?_))
    · rw [hp, pollOnce_of_admitted (by simpa using ha)]
      simp [hv, hclear, polled, hn, updCtx_during hx, goto_during hx]
    · rw [hw]
      simp only [waitOnce, State.didDelay_during, goto_during hx]
    · simp [pollsBefore, Nat.add_assoc, Nat.add_comm 1]

end Sys2Proof.Machine
end

