-- ==== Sys2Proof/Laws/Calls.lean ====
section
/-! SUPPORT. The operations that others call, run to their return: a reset, a match and an open, for every
script of answers, in any operation and under any callers (rules R153, R166, R201). Each ends where its
frame returns its result to the callers. -/

namespace Sys2Proof.Machine

theorem Env.afterDt_regs (e : Env) : e.afterDt.regs = e.regs := by unfold Env.afterDt; split <;> rfl

theorem Env.afterWord_regs {e : Env} {v : Word} {vs : List Word} (h : e.regs = v :: vs) :
    e.afterWord.regs = vs := by simp [Env.afterWord, h]

theorem Env.word_of_regs {e : Env} {v : Word} {vs : List Word} (h : e.regs = v :: vs) :
    e.word = v := by simp [Env.word, h]

theorem admitted_of_fixed {s : State} (h : s.FixedAdmitted) {o : Nat} (ho : o ∈ s.cfg.fixedOffsets) :
    s.admitted o = true := by
  obtain ⟨h1, h2⟩ := h o ho
  simp [State.admitted, inWindow, h1, h2]

theorem PollAnswers.getLast {mask : Word} {n : Nat} {vs : List Word} {seen : Bool}
    (h : PollAnswers mask n vs seen) : flagSet (vs.getLast h.some) mask = seen :=
  h.last _ (List.getLast?_eq_some_getLast h.some)

theorem getLastD_eq {vs : List Word} (h : vs ≠ []) : vs.getLastD 0 = vs.getLast h := by
  cases vs with
  | nil => exact absurd rfl h
  | cons v vs => rw [List.getLastD_cons, List.getLast_eq_getLastD]

/-- What the match in flight in a context of this operation sends. -/
theorem withRom_during {s : State} {y : Ctx} {rom : RomCode} (hr : romInFlight y s rom)
    (evs : List Event) (c : Nat) (e : Env) (k : RomCode → Out) :
    withRom y (s.during y evs c e) k = k rom := by
  unfold withRom withSensor
  rcases hr with ⟨h | h, rfl⟩ | ⟨h | h, z, hz, rfl⟩ <;> simp [*]

section
variable {i : Instr} {o : Op} {s : State} {x y : Ctx} (hx : s.ctx? = some x) (hi : opOf i = some o)
  (ho : y.op = some o) (hf : s.FixedAdmitted)
include hx hi ho hf

/-- A whole poll loop: `2 k - 1` events for `k` reads, and then what its phase does with the outcome. -/
theorem finish_polled {mask : Word} {bound d : Nat} {p w : Phase} {callers : List Phase}
    {D E : State → Out}
    (hp : ∀ τ n evs c e, phaseEvent p callers { y with tStatus := τ, pollCnt := n, pc := p :: callers }
        (s.during { y with tStatus := τ, pollCnt := n, pc := p :: callers } evs c e) =
      pollOnce mask bound (w :: callers) { y with tStatus := τ, pollCnt := n, pc := p :: callers }
        (s.during { y with tStatus := τ, pollCnt := n, pc := p :: callers } evs c e) D E)
    (hw : ∀ z evs c e, phaseEvent w callers z (s.during z evs c e) =
      waitOnce d (p :: callers) (s.during z evs c e))
    {vs rest : List Word} {seen : Bool} (h : PollAnswers mask bound vs seen) (τ : Word)
    (evs : List Event) (c : Nat) (e : Env) (he : e.regs = vs ++ rest) :
    ∃ c' e', e'.regs = rest ∧ ∀ m t,
      (if seen then D else E) (s.during
        { y with tStatus := vs.getLastD 0, pollCnt := vs.length, pc := p :: callers }
        (evs ++ pollEvents s.cfg.offStatus d vs) c' e') = .next t →
      finish i ((pollEvents s.cfg.offStatus d vs).length + m)
        (s.during { y with tStatus := τ, pollCnt := 0, pc := p :: callers } evs c e) = finish i m t := by
  have ha : s.admitted s.cfg.offStatus = true :=
    admitted_of_fixed hf (by simp [Config.fixedOffsets])
  have hpos : 1 ≤ vs.length := List.length_pos_iff.mpr h.some
  obtain ⟨τ', c', e', h1, h2⟩ := finish_poll hx hi ho ha hp hw rest vs h.some τ 0 evs c e he h.clear
    (by simpa using h.bound)
  refine ⟨c' + e'.afterWord.dt, e'.afterWord.afterDt, ?_, fun m t ht => ?_⟩
  · rw [Env.afterDt_regs, Env.afterWord_regs h1]
  have hlen : (pollEvents s.cfg.offStatus d vs).length + m = 2 * (vs.length - 1) + (m + 1) := by
    rw [pollEvents_length _ _ _ h.some]; omega
  rw [hlen, h2]
  refine finish_during _ hx hi (by exact ho) rfl ?_
  have hw : e'.word = vs.getLast h.some := Env.word_of_regs h1
  have hcnt : 0 + (vs.length - 1) + 1 = vs.length := by omega
  have hflag := h.getLast
  rw [pollEvents_eq _ _ _ h.some, getLastD_eq h.some] at ht
  rw [hp, pollOnce_of_admitted (by simpa using ha)]
  simp only [State.during_answer, hw, hflag, polled, State.during_cfg, State.didRead_during,
    updCtx_during hx, goto_during hx, hcnt]
  cases seen with
  | true => simpa using ht
  | false => simpa [h.full rfl] using ht

/-- A reset, run to its return. -/
theorem finish_reset (callers : List Phase) {vs rest : List Word} {seen : Bool}
    (h : PollAnswers s.cfg.stRstd s.cfg.resetPollMax vs seen) (evs : List Event) (c : Nat) (e : Env)
    (he : e.regs = vs ++ rest) :
    ∃ c' e', e'.regs = rest ∧ ∀ m t,
      ret callers (if seen then .success .none else .failure .noPresence .none)
        (State.during { s with busPhase := if seen then .resetDone else .unknown }
          { y with tStatus := vs.getLastD 0, pollCnt := vs.length, pc := .rstPoll :: callers }
          (evs ++ busResetEvents s.cfg vs) c' e') = .next t →
      finish i ((busResetEvents s.cfg vs).length + m)
        (s.during { y with pc := .rstCmd :: callers } evs c e) = finish i m t := by
  obtain ⟨c', e', h1, h2⟩ := finish_polled (s := { s with busPhase := .unknown }) (x := x) (y := y)
    (mask := s.cfg.stRstd) (bound := s.cfg.resetPollMax) (d := s.cfg.tPollReset) (p := .rstPoll)
    (w := .rstWait) (callers := callers)
    (D := fun t => ret callers (.success .none) { t with busPhase := .resetDone })
    (E := fun t => ret callers (.failure .noPresence .none) t) hx hi ho hf (fun _ _ _ _ _ => rfl) (fun _ _ _ _ => rfl) h y.tStatus
    (evs ++ [.write s.cfg.offCommand Cmd.resetPulse]) (c + e.dt) e.afterDt
    (by rw [Env.afterDt_regs]; exact he)
  refine ⟨c', e', h1, fun m t ht => ?_⟩
  have hlen : (busResetEvents s.cfg vs).length + m =
      ((pollEvents s.cfg.offStatus s.cfg.tPollReset vs).length + m) + 1 := by
    simp [busResetEvents]; omega
  rw [hlen]
  refine (finish_during _ hx hi (by exact ho) rfl ?_).trans (h2 m t ?_)
  · have ha : s.admitted s.cfg.offCommand = true :=
      admitted_of_fixed hf (by simp [Config.fixedOffsets])
    simp only [phaseEvent, phRstCmd, State.during_cfg]
    rw [writeReg_of_admitted _ (by simpa using ha)]
    simp only [State.didWrite_during, State.during_withBusPhase]
    rw [updCtx_during (s := { s with busPhase := .unknown }) hx]
  · have e1 : evs ++ [.write s.cfg.offCommand Cmd.resetPulse] ++
        pollEvents s.cfg.offStatus s.cfg.tPollReset vs = evs ++ busResetEvents s.cfg vs := by
      simp [busResetEvents, Cmd.resetPulse]
    rw [← ht, e1]
    cases seen <;> rfl

omit hf in
/-- A phase that makes one register write and goes on. -/
theorem finish_write {off : Nat} {v : Word} {p : Phase} {callers pc : List Phase}
    (ha : s.admitted off = true)
    (hp : ∀ evs c e, phaseEvent p callers { y with pc := p :: callers }
        (s.during { y with pc := p :: callers } evs c e) =
      writeReg off v (s.during { y with pc := p :: callers } evs c e) fun t => .next (t.goto pc))
    (n : Nat) (evs : List Event) (c : Nat) (e : Env) :
    finish i (n + 1) (s.during { y with pc := p :: callers } evs c e) =
      finish i n (s.during { y with pc := pc } (evs ++ [.write off v]) (c + e.dt) e.afterDt) := by
  refine finish_during _ hx hi (by exact ho) rfl ?_
  rw [hp, writeReg_of_admitted _ (by simpa using ha)]
  simp only [State.didWrite_during, goto_during hx]

/-- A match on `rom`, run to its return (R167, R168). -/
theorem finish_match (callers : List Phase) {rom : RomCode} (hk : s.cfg.Valid)
    (hr : romInFlight y s rom) {ws rest : List Word} {done : Bool}
    (h : PollAnswers s.cfg.stWrd s.cfg.matchPollMax ws done) (evs : List Event) (c : Nat) (e : Env)
    (he : e.regs = ws ++ rest) :
    ∃ c' e', e'.regs = rest ∧ ∀ m t,
      ret callers (if done then .success .none else .failure .addrTimeout .none)
        (State.during { s with
            busPhase := if done then s.busPhase.atMatch.afterMatch rom else .unknown }
          { y with tStatus := ws.getLastD 0, pollCnt := ws.length, pc := .mPoll :: callers }
          (evs ++ busMatchEvents s.cfg rom ws) c' e') = .next t →
      finish i ((busMatchEvents s.cfg rom ws).length + m)
        (s.during { y with pc := .mCmd :: callers } evs c e) = finish i m t := by
  have adm : ∀ o ∈ s.cfg.fixedOffsets, s.admitted o = true := fun o ho => admitted_of_fixed hf ho
  have a1 : s.admitted s.cfg.offCommand = true := adm _ (by simp [Config.fixedOffsets])
  have a2 : s.admitted s.cfg.offWrData0 = true := adm _ (by simp [Config.fixedOffsets])
  have a3 : s.admitted s.cfg.offWrData1 = true := adm _ (by simp [Config.fixedOffsets])
  have a4 : s.admitted s.cfg.offWrSize = true := adm _ (by simp [Config.fixedOffsets])
  have a5 : s.admitted s.cfg.regTrigger = true := adm _ (regTrigger_mem hk)
  let s' : State := { s with busPhase := s.busPhase.atMatch }
  let ev : List Event := evs ++ [.write s.cfg.offCommand Cmd.matchRom] ++
    [.write s.cfg.offWrData0 (romLo rom)] ++ [.write s.cfg.offWrData1 (romHi rom)] ++
    [.write s.cfg.offWrSize s.cfg.wrSizeRom] ++ [.write s.cfg.regTrigger Cmd.execNopullup]
  obtain ⟨c', e', h1, h2⟩ := finish_polled (s := s') (x := x) (y := y)
    (mask := s.cfg.stWrd) (bound := s.cfg.matchPollMax) (d := s.cfg.tPollMatch) (p := .mPoll)
    (w := .mWait) (callers := callers)
    (D := fun t => ret callers (.success .none) { t with busPhase := t.busPhase.afterMatch rom })
    (E := fun t => ret callers (.failure .addrTimeout .none) { t with busPhase := .unknown }) hx hi ho hf
    (fun τ n evs c e => by
      have hr' : romInFlight { y with tStatus := τ, pollCnt := n, pc := .mPoll :: callers } s' rom := hr
      simp only [phaseEvent, phMPoll, withRom_during hr']
      rfl)
    (fun _ _ _ _ => rfl) h y.tStatus ev (c + e.dt + e.afterDt.dt + e.afterDt.afterDt.dt +
      e.afterDt.afterDt.afterDt.dt + e.afterDt.afterDt.afterDt.afterDt.dt)
    e.afterDt.afterDt.afterDt.afterDt.afterDt (by simpa only [Env.afterDt_regs] using he)
  refine ⟨c', e', h1, fun m t ht => ?_⟩
  have hlen : (busMatchEvents s.cfg rom ws).length + m =
      ((pollEvents s.cfg.offStatus s.cfg.tPollMatch ws).length + m) + 1 + 1 + 1 + 1 + 1 := by
    simp [busMatchEvents]; omega
  have first : ∀ n, finish i (n + 1) (s.during { y with pc := .mCmd :: callers } evs c e) =
      finish i n (s'.during { y with pc := .mD0 :: callers }
        (evs ++ [.write s.cfg.offCommand Cmd.matchRom]) (c + e.dt) e.afterDt) := fun n => by
    refine finish_during _ hx hi (by exact ho) rfl ?_
    simp only [phaseEvent, phMCmd, State.during_cfg]
    rw [writeReg_of_admitted _ (by simpa using a1)]
    simp only [State.didWrite_during, State.during_busPhase, State.during_withBusPhase]
    rw [goto_during (s := s') hx]
  have last : ∀ n evs c e, finish i (n + 1) (s'.during { y with pc := .mExec :: callers } evs c e) =
      finish i n (s'.during { y with pollCnt := 0, pc := .mPoll :: callers }
        (evs ++ [.write s.cfg.regTrigger Cmd.execNopullup]) (c + e.dt) e.afterDt) := fun n evs c e => by
    refine finish_during _ hx hi (by exact ho) rfl ?_
    simp only [phaseEvent, phMExec]
    rw [writeReg_of_admitted _ (by exact a5)]
    simp only [State.didWrite_during, updCtx_during (s := s') hx]
    rfl
  rw [hlen, first, finish_write (s := s') (y := y) (p := .mD0) (pc := .mD1 :: callers) hx hi ho a2
      (fun evs c e => by
        have hr' : romInFlight { y with pc := .mD0 :: callers } s' rom := hr
        simp only [phaseEvent, phMD0, withRom_during hr']; rfl),
    finish_write (s := s') (y := y) (p := .mD1) (pc := .mSz :: callers) hx hi ho a3
      (fun evs c e => by
        have hr' : romInFlight { y with pc := .mD1 :: callers } s' rom := hr
        simp only [phaseEvent, phMD1, withRom_during hr']; rfl),
    finish_write (s := s') (y := y) (v := s.cfg.wrSizeRom) (p := .mSz) (pc := .mExec :: callers) hx hi ho a4
      (fun evs c e => rfl), last]
  refine h2 m t ?_
  have e1 : ev ++ pollEvents s.cfg.offStatus s.cfg.tPollMatch ws =
      evs ++ busMatchEvents s.cfg rom ws := by
    simp [ev, busMatchEvents, Cmd.matchRom, Cmd.execNopullup, romLo, romHi]
  rw [← ht, ← e1]
  cases done <;> rfl

/-- An open on `rom`, run to its return (R201, R276). -/
theorem finish_open (callers : List Phase) {rom : RomCode} (hk : s.cfg.Valid)
    (hr : romInFlight y s rom) {vs ws rest : List Word} {seen done : Bool}
    (hv : PollAnswers s.cfg.stRstd s.cfg.resetPollMax vs seen)
    (hw : seen = true → PollAnswers s.cfg.stWrd s.cfg.matchPollMax ws done)
    (hn : seen = false → ws = [] ∧ done = false) (evs : List Event) (c : Nat) (e : Env)
    (he : e.regs = vs ++ ws ++ rest) :
    ∃ c' e' pc, e'.regs = rest ∧ ∀ m t,
      ret callers (if done then .success .none
          else if seen then .failure .addrTimeout .none else .failure .noPresence .none)
        (State.during { s with busPhase := if done then .matched rom else .unknown }
          { y with
            tStatus := if seen then ws.getLastD 0 else vs.getLastD 0
            pollCnt := if seen then ws.length else vs.length
            devOpen := if done then true else y.devOpen
            devAddr := if done then rom else y.devAddr
            pc := pc }
          (evs ++ devOpenEvents s.cfg rom vs seen ws) c' e') = .next t →
      finish i ((devOpenEvents s.cfg rom vs seen ws).length + m)
        (s.during { y with pc := .rstCmd :: .oReset :: callers } evs c e) = finish i m t := by
  obtain ⟨c1, e1, he1, h1⟩ := finish_reset hx hi ho hf (.oReset :: callers) hv evs c e
    (by rw [he, List.append_assoc])
  cases seen with
  | false =>
    obtain ⟨rfl, rfl⟩ := hn rfl
    refine ⟨c1, e1, .rstPoll :: .oReset :: callers, by simpa using he1, fun m t ht => ?_⟩
    have := h1 m t (by simpa [ret, Result.failure, devOpenEvents] using ht)
    simpa [devOpenEvents] using this
  | true =>
    let s1 : State := { s with busPhase := .resetDone }
    let y1 : Ctx := { y with tStatus := vs.getLastD 0, pollCnt := vs.length }
    obtain ⟨c2, e2, he2, h2⟩ := finish_match (s := s1) (y := y1) hx hi ho hf (.oMatch :: callers) hk
      (rom := rom) hr (hw rfl) (evs ++ busResetEvents s.cfg vs) c1 e1 he1
    refine ⟨c2, e2, .mPoll :: .oMatch :: callers, he2, fun m t ht => ?_⟩
    have hlen : (devOpenEvents s.cfg rom vs true ws).length + m =
        (busResetEvents s.cfg vs).length + ((busMatchEvents s.cfg rom ws).length + m) := by
      simp [devOpenEvents, Nat.add_assoc]
    rw [hlen]
    refine (h1 _ (s1.during { y1 with pc := .mCmd :: .oMatch :: callers }
      (evs ++ busResetEvents s.cfg vs) c1 e1) ?_).trans (h2 m t ?_)
    · simp only [ret, Result.success, if_true]
      rw [goto_during (s := s1) hx]
    · have e3 : evs ++ devOpenEvents s.cfg rom vs true ws =
          evs ++ busResetEvents s.cfg vs ++ busMatchEvents s.cfg rom ws := by simp [devOpenEvents]
      rw [e3] at ht
      cases done with
      | true =>
        simp only [ret, Result.success, if_true, withCtx]
        rw [ctx?_during (s := { s1 with busPhase := s1.busPhase.atMatch.afterMatch rom }) hx]
        have hr' : romInFlight { y1 with
            tStatus := ws.getLastD 0, pollCnt := ws.length, pc := .mPoll :: .oMatch :: callers }
            { s1 with busPhase := s1.busPhase.atMatch.afterMatch rom } rom := hr
        simp only [withRom_during hr']
        rw [updCtx_during (s := { s1 with busPhase := s1.busPhase.atMatch.afterMatch rom }) hx, ← ht]
        rfl
      | false =>
        simp only [ret, Result.failure]
        rw [← ht]
        rfl

end

end Sys2Proof.Machine
end

