-- ==== Sys2Proof/Laws/GoesOn.lean ====
section
/-! SUPPORT. What one event leaves in the context that makes it (rules R47, R50, R55): the context is idle,
or it holds the same operation with the same latches at a legal position, with fewer events before it.
Stated for a return, then for each phase. -/

namespace Sys2Proof.Machine

/-- What an event of operation `o` in a context `x` leaves there: idle, or at a legal position with at
most `b` events before it; sound in both. `n` is the number of sensor records. -/
def Ctx.GoesOn (k : Config) (n : Nat) (o : Op) (x : Ctx) (b : Nat) (y : Ctx) : Prop :=
  (y.op = none ∧ y.Sound k n) ∨
    (y.op = some o ∧ y.opa = x.opa ∧ y.opb = x.opb ∧ y.opc = x.opc ∧ y.Sound k n ∧ y.eventsLeft k ≤ b)

theorem Ctx.GoesOn.of_latches {k : Config} {n b : Nat} {o : Op} {x z y : Ctx} (h : z.GoesOn k n o b y)
    (e : z.opa = x.opa ∧ z.opb = x.opb ∧ z.opc = x.opc) : x.GoesOn k n o b y := by
  rcases h with h | ⟨h1, h2, h3, h4, h5, h6⟩
  · exact .inl h
  · exact .inr ⟨h1, h2.trans e.1, h3.trans e.2.1, h4.trans e.2.2, h5, h6⟩

/-- The context `x` is at event phase `p` of operation `o`, under the callers `cs`: what `Ctx.Sound` says of
one that is not idle. -/
structure Ctx.InFlight (k : Config) (n : Nat) (o : Op) (p : Phase) (cs : List Phase) (x : Ctx) : Prop where
  op : x.op = some o
  callers : cs ∈ callerStacks o p.op
  polls : ∀ b, pollBound k p = some b → x.pollCnt < b
  retries : x.retryCnt ≤ k.scratchRetryMax
  sensor : (o = .tsTemp ∨ o = .tsTempF) → x.opc.toNat < n
  window : o = .busInit → validWindow k x.opc.toNat = true

theorem Ctx.Sound.inFlight {k : Config} {n : Nat} {o : Op} {p : Phase} {cs : List Phase} {x : Ctx}
    (h : x.Sound k n) (ho : x.op = some o) (hp : x.pc = p :: cs) : x.InFlight k n o p cs := by
  simp only [Ctx.Sound, ho, hp] at h
  obtain ⟨-, h2, h3, h4, h5, h6⟩ := h
  exact ⟨ho, h2, h3, h4, fun h => h5 (by simpa using h), fun h => h6 (by simpa using h)⟩

/-- The events that are left once the event of phase `p` has been made. -/
def Ctx.before (k : Config) (p : Phase) (cs : List Phase) (x : Ctx) : Nat :=
  phaseEvents k x.pollCnt x.retryCnt p + callerEvents k x.retryCnt cs - 1

/-! ## The stacks of callers (rule R55) -/

/-- Every stack of call phases that can stand under a frame of operation `o`, with those that come up
while a result is handed on. -/
def allCallers : Op → List (List Phase)
  | .devOpen => [[], [.oReset], [.oMatch]]
  | .tsTemp => [[], [.oReset, .tOpen1], [.oReset, .tOpen2], [.oMatch, .tOpen1], [.oMatch, .tOpen2],
      [.tOpen1], [.tOpen2]]
  | .tsTempF => [[], [.oReset, .tOpen1, .fCall], [.oReset, .tOpen2, .fCall], [.oMatch, .tOpen1, .fCall],
      [.oMatch, .tOpen2, .fCall], [.tOpen1, .fCall], [.tOpen2, .fCall], [.fCall]]
  | _ => [[]]

section
variable {o : Op}

theorem callerStacks_subset {q : Op} : ∀ l ∈ callerStacks o q, l ∈ allCallers o := by
  cases o <;> cases q <;> decide

theorem allCallers_tail : ∀ l ∈ allCallers o, l.tail ∈ allCallers o := by cases o <;> decide

theorem allCallers_oReset : ∀ l ∈ allCallers o, l.head? = some .oReset →
    .oMatch :: l.tail ∈ callerStacks o .busMatch ∧ o ≠ .busInit := by cases o <;> decide

theorem allCallers_tOpen1 : ∀ l ∈ allCallers o, l.head? = some .tOpen1 →
    l.tail ∈ callerStacks o .tsTemp ∧ o ≠ .busInit := by cases o <;> decide

theorem allCallers_tOpen2 : ∀ l ∈ allCallers o, l.head? = some .tOpen2 →
    l.tail ∈ callerStacks o .tsTemp ∧ o ≠ .busInit ∧
      ((o = .tsTemp ∧ l.tail = []) ∨ (o = .tsTempF ∧ l.tail = [.fCall])) := by cases o <;> decide

theorem open1_stack : ∀ l ∈ callerStacks o .tsTemp, .oReset :: .tOpen1 :: l ∈ callerStacks o .busReset := by
  cases o <;> decide

theorem open2_stack : ∀ l ∈ callerStacks o .tsTemp, .oReset :: .tOpen2 :: l ∈ callerStacks o .busReset := by
  cases o <;> decide

theorem tempCallers {cs : List Phase} (h : cs ∈ callerStacks o .tsTemp) :
    (o = .tsTemp ∧ cs = []) ∨ (o = .tsTempF ∧ cs = [.fCall]) := by
  revert h; cases o <;> simp +contextual [callerStacks]

theorem tempCallers_events {k : Config} {r : Nat} {cs : List Phase} (h : cs ∈ callerStacks o .tsTemp) :
    callerEvents k r cs = 0 := by
  rcases tempCallers h with ⟨-, rfl⟩ | ⟨-, rfl⟩ <;> rfl

theorem searchCallers_events {s : State} {x : Ctx} {cs : List Phase}
    (h : cs ∈ callerStacks o .busSearch) : callerEvents s.cfg x.retryCnt cs = 0 := by
  have : ∀ l ∈ callerStacks o .busSearch, l = [] := by cases o <;> decide
  rw [this _ h]; rfl

end

/-! ## Event counts (rule R246) -/

theorem six_le_convertEvents (k : Config) : 6 ≤ convertEvents k := by
  simp only [convertEvents]; omega

theorem attemptEvents_eq (k : Config) :
    attemptEvents k = resetEvents k + matchEvents k + (2 + 2 * k.scratchPollMax) := rfl

/-- One more attempt uses up the events of one. -/
theorem afterAttempt_succ {k : Config} {r : Nat} (h : r < k.scratchRetryMax) :
    afterAttempt k r = attemptEvents k + afterAttempt k (r + 1) := by
  have : k.scratchRetryMax - r = (k.scratchRetryMax - (r + 1)) + 1 := by omega
  simp only [afterAttempt, this, Nat.add_mul, Nat.one_mul]; omega

/-- The first attempt and what follows it are within what a conversion's events allow. -/
theorem firstAttempt_le {k : Config} (hk : k.Valid) :
    4 + attemptEvents k + afterAttempt k 1 ≤ convertEvents k := by
  have h := afterAttempt_succ (k := k) (r := 0) hk.pollsPos.2.2.2.2
  simp only [afterAttempt, Nat.sub_zero, Nat.zero_add] at h
  simp only [convertEvents, afterAttempt]; omega

/-! ## Returns -/

theorem Ctx.sound_idle {k : Config} {n : Nat} {y : Ctx} (ho : y.op = none) (hp : y.pc = [])
    (hr : y.retryCnt ≤ k.scratchRetryMax) : y.Sound k n := by
  simpa only [Ctx.Sound, ho, hp] using hr

theorem goesOn_raise {k : Config} {n b : Nat} {o : Op} {s : State} {x z : Ctx} {f : HostFault}
    (hx : s.ctx? = some z) (hr : z.retryCnt ≤ k.scratchRetryMax) :
    ∃ y, (s.raise f).ctx? = some y ∧ Ctx.GoesOn k n o x b y :=
  ⟨{ z with op := none, pc := [], lastErr := f.code }, by simp only [ctx?_raise, hx, Option.map_some],
    .inl ⟨rfl, Ctx.sound_idle rfl rfl hr⟩⟩

theorem map_ctx? {s : State} {x : Ctx} {f : Ctx → Ctx} (hx : s.ctx? = some x) :
    (s.updCtx f).ctx? = some (f x) := by simp [hx]

theorem failAttempt_goesOn {k : Config} {n : Nat} {o : Op} {cs : List Phase} {s t : State} {x : Ctx}
    {g : Result → State → Out} (hk : k.Valid) (h : failAttempt cs s g = .next t) (hx : s.ctx? = some x)
    (ho : x.op = some o) (hc : s.cfg = k)
    (hcs : (o = .tsTemp ∧ cs = []) ∨ (o = .tsTempF ∧ cs = [.fCall]))
    (hr : x.retryCnt ≤ k.scratchRetryMax) (hn : x.opc.toNat < n) (b : Nat)
    (hb : afterAttempt k x.retryCnt ≤ b)
    (hg : ∀ r u, u.cfg = s.cfg → u.ctx? = some { x with devOpen := false } → g r u = .next t →
      ∃ y, t.ctx? = some y ∧ Ctx.GoesOn k n o { x with devOpen := false } b y) :
    ∃ y, t.ctx? = some y ∧ x.GoesOn k n o b y := by
  obtain ⟨x', hx', h⟩ := withCtx_next h
  rw [hx] at hx'; cases hx'
  subst hc
  split at h
  · obtain ⟨y, hy, h⟩ := hg _ (s.exitTemp x) rfl (by simp [hx]) h
    exact ⟨y, hy, h.of_latches ⟨rfl, rfl, rfl⟩⟩
  · injection h with h; subst h
    have h1 : x.retryCnt < s.cfg.scratchRetryMax := by omega
    refine ⟨{ x with
        retryCnt := x.retryCnt + 1, devOpen := false, pc := .rstCmd :: .oReset :: .tOpen2 :: cs },
      by simp [hx], .inr ⟨ho, rfl, rfl, rfl, ?_, ?_⟩⟩
    · rcases hcs with ⟨rfl, rfl⟩ | ⟨rfl, rfl⟩ <;>
        simp [Ctx.Sound, ho, Phase.isEvent, callerStacks, Phase.op, pollBound, hn] <;> omega
    · have h2 := afterAttempt_succ h1
      have h3 := attemptEvents_eq s.cfg
      rcases hcs with ⟨-, rfl⟩ | ⟨-, rfl⟩ <;>
        simp only [Ctx.eventsLeft, phaseEvents, callerEvents] <;> omega

/-- What a return to the callers `cs` leaves in the context. -/
theorem ret_goesOn {k : Config} {n : Nat} {o : Op} (hk : k.Valid) :
    ∀ (cs : List Phase) {r : Result} {s t : State} {x : Ctx} (b : Nat), ret cs r s = .next t →
      s.ctx? = some x → x.op = some o → s.cfg = k → cs ∈ allCallers o →
      x.retryCnt ≤ k.scratchRetryMax → ((o = .tsTemp ∨ o = .tsTempF) → x.opc.toNat < n) →
      callerEvents k x.retryCnt cs ≤ b → ∃ y, t.ctx? = some y ∧ x.GoesOn k n o b y := by
  intro cs
  induction cs with
  | nil =>
    intro r s t x b h hx _ _ _ hr _ _
    injection h with h; subst h
    exact ⟨{ x with op := none, pc := [], lastErr := r.err },
      by simp only [ctx?_deliver, hx, Option.map_some], .inl ⟨rfl, Ctx.sound_idle rfl rfl hr⟩⟩
  | cons p cs ih =>
    intro r s t x b h hx ho hc hcs hr hn hb
    have go : ∀ q qs, t.ctx? = some { x with pc := q :: qs } → q.isEvent = true →
        pollBound k q = none → qs ∈ callerStacks o q.op →
        phaseEvents k x.pollCnt x.retryCnt q + callerEvents k x.retryCnt qs ≤ b → o ≠ .busInit →
        ∃ y, t.ctx? = some y ∧ x.GoesOn k n o b y := by
      intro q qs ht hq hpb hqs hb' hne
      refine ⟨_, ht, .inr ⟨ho, rfl, rfl, rfl, ?_, hb'⟩⟩
      simp only [Ctx.Sound, ho]
      exact ⟨hq, hqs, by simp [hpb], hr, fun h => hn (by simpa using h),
        fun h => absurd (by simpa using h) hne⟩
    have tail : cs ∈ allCallers o := allCallers_tail _ hcs
    cases p
    case oReset =>
      simp only [ret] at h
      simp only [callerEvents] at hb
      obtain ⟨h1, h2⟩ := allCallers_oReset _ hcs rfl
      split at h
      · injection h with h; subst h
        exact go .mCmd (.oMatch :: cs) (by simp [hx]) rfl rfl h1
          (by simp only [phaseEvents, callerEvents]; omega) h2
      · exact ih b h hx ho hc tail hr hn (by omega)
    case oMatch =>
      simp only [ret] at h
      simp only [callerEvents] at hb
      split at h
      · obtain ⟨x', -, h⟩ := withCtx_next h
        obtain ⟨rom, -, h⟩ := withRom_next h
        obtain ⟨y, hy, hg⟩ := ih (x := { x with devOpen := true, devAddr := rom }) b h
          (by simp [hx]) ho hc tail hr hn hb
        exact ⟨y, hy, hg.of_latches ⟨rfl, rfl, rfl⟩⟩
      · exact ih b h hx ho hc tail hr hn hb
    case tOpen1 =>
      simp only [ret] at h
      simp only [callerEvents] at hb
      obtain ⟨h1, h2⟩ := allCallers_tOpen1 _ hcs rfl
      split at h
      · injection h with h; subst h
        exact go .tConvCmd cs (by simp [hx]) rfl rfl h1 (by simp only [phaseEvents]; omega) h2
      · obtain ⟨x', -, h⟩ := withCtx_next h
        obtain ⟨y, hy, hg⟩ := ih (x := { x with devOpen := false }) b h (by simp [hx]) ho hc tail hr hn
          (show callerEvents k x.retryCnt cs ≤ b by omega)
        exact ⟨y, hy, hg.of_latches ⟨rfl, rfl, rfl⟩⟩
    case tOpen2 =>
      simp only [ret] at h
      simp only [callerEvents] at hb
      obtain ⟨h1, h2, h3⟩ := allCallers_tOpen2 _ hcs rfl
      split at h
      · injection h with h; subst h
        exact go .tRdCmd cs (by simp [hx]) rfl rfl h1 (by simp only [phaseEvents]; omega) h2
      · exact failAttempt_goesOn hk h hx ho hc h3 hr (hn (h3.imp And.left And.left)) b (by omega)
          fun r u hu hux hh => ih (x := { x with devOpen := false }) b hh hux ho (hu.trans hc) tail hr hn
            (show callerEvents k x.retryCnt cs ≤ b by omega)
    case fCall =>
      simp only [ret] at h
      simp only [callerEvents] at hb
      split at h
      · exact ih b h hx ho hc tail hr hn hb
      · cases h
    all_goals cases h

section
variable {n : Nat} {o : Op} {p : Phase} {cs : List Phase} {s t u : State} {x : Ctx}

/-- A phase that ends in a return. -/
theorem goesOn_of_ret {r : Result} {z : Ctx} (hi : x.InFlight s.cfg n o p cs) (hk : s.cfg.Valid)
    (h : ret cs r u = .next t) (hz : u.ctx? = some z) (hc : u.cfg = s.cfg)
    (hb : callerEvents s.cfg x.retryCnt cs ≤ x.before s.cfg p cs)
    (e : z.op = x.op ∧ z.retryCnt = x.retryCnt ∧ z.opa = x.opa ∧ z.opb = x.opb ∧ z.opc = x.opc) :
    ∃ y, t.ctx? = some y ∧ x.GoesOn s.cfg n o (x.before s.cfg p cs) y := by
  obtain ⟨e1, e2, e3, e4, e5⟩ := e
  obtain ⟨y, hy, hg⟩ := ret_goesOn hk cs (x.before s.cfg p cs) h hz (e1.trans hi.op) hc
    (callerStacks_subset _ hi.callers) (e2 ▸ hi.retries) (e5 ▸ hi.sensor) (e2 ▸ hb)
  exact ⟨y, hy, hg.of_latches ⟨e3, e4, e5⟩⟩

/-- A phase that goes on at phase `q`. -/
theorem goesOn_of_ctx {q : Phase} {qs : List Phase} (hi : x.InFlight s.cfg n o p cs) (z : Ctx)
    (hz : t.ctx? = some z)
    (e : z.pc = q :: qs ∧ z.op = x.op ∧ z.opa = x.opa ∧ z.opb = x.opb ∧ z.opc = x.opc ∧
      z.retryCnt ≤ s.cfg.scratchRetryMax ∧ q.isEvent = true)
    (hp : ∀ b, pollBound s.cfg q = some b → z.pollCnt < b) (hqs : qs ∈ callerStacks o q.op)
    (hb : phaseEvents s.cfg z.pollCnt z.retryCnt q + callerEvents s.cfg z.retryCnt qs ≤
      x.before s.cfg p cs) :
    ∃ y, t.ctx? = some y ∧ x.GoesOn s.cfg n o (x.before s.cfg p cs) y := by
  obtain ⟨e1, e2, e3, e4, e5, e6, e7⟩ := e
  refine ⟨z, hz, .inr ⟨e2.trans hi.op, e3, e4, e5, ?_, ?_⟩⟩
  · simp only [Ctx.Sound, e2, hi.op, e1]
    exact ⟨e7, hqs, hp, e6, fun h => e5 ▸ hi.sensor (by simpa using h),
      fun h => e5 ▸ hi.window (by simpa using h)⟩
  · simpa only [Ctx.eventsLeft, e1] using hb

/-! ## The phases -/

variable (hk : s.cfg.Valid) (hx : s.ctx? = some x)
include hk hx

theorem iClkget_goesOn (h : phaseEvent .iClkget cs x s = .next t) (hi : x.InFlight s.cfg n o .iClkget cs) :
    ∃ y, t.ctx? = some y ∧ Ctx.GoesOn s.cfg n o x (x.before s.cfg .iClkget cs) y := by
  simp only [phaseEvent, phIClkget] at h
  split at h
  · exact goesOn_of_ret hi hk (z := x) h (by simp [hx]) (by simp)
      (by simp only [Ctx.before, phaseEvents]; omega) ⟨rfl, rfl, rfl, rfl, rfl⟩
  · injection h with h; subst h
    exact goesOn_of_ctx hi { x with pc := .iClkset :: cs } (by simp [hx])
      ⟨rfl, rfl, rfl, rfl, rfl, hi.retries, rfl⟩ (by simp [pollBound]) hi.callers
      (by simp [Ctx.before, phaseEvents])

theorem iClkset_goesOn (h : phaseEvent .iClkset cs x s = .next t) (hi : x.InFlight s.cfg n o .iClkset cs) :
    ∃ y, t.ctx? = some y ∧ Ctx.GoesOn s.cfg n o x (x.before s.cfg .iClkset cs) y := by
  dsimp only [phaseEvent, phIClkset] at h
  exact goesOn_of_ret hi hk (z := x) h (by simp [hx]) (by simp)
    (by simp only [Ctx.before, phaseEvents]; omega) ⟨rfl, rfl, rfl, rfl, rfl⟩

theorem rstCmd_goesOn (h : phaseEvent .rstCmd cs x s = .next t) (hi : x.InFlight s.cfg n o .rstCmd cs) :
    ∃ y, t.ctx? = some y ∧ Ctx.GoesOn s.cfg n o x (x.before s.cfg .rstCmd cs) y := by
  have hpp := hk.pollsPos
  dsimp only [phaseEvent, phRstCmd] at h
  rcases writeReg_next h with ⟨-, h⟩ | ⟨-, rfl⟩
  · injection h with h; subst h
    exact goesOn_of_ctx hi { x with pollCnt := 0, pc := .rstPoll :: cs } (map_ctx? hx)
      ⟨rfl, rfl, rfl, rfl, rfl, hi.retries, rfl⟩ (by simp [pollBound]; omega) hi.callers
      (by simp [Ctx.before, phaseEvents, resetEvents]; omega)
  · exact goesOn_raise hx hi.retries

theorem rstPoll_goesOn (h : phaseEvent .rstPoll cs x s = .next t) (hi : x.InFlight s.cfg n o .rstPoll cs) :
    ∃ y, t.ctx? = some y ∧ Ctx.GoesOn s.cfg n o x (x.before s.cfg .rstPoll cs) y := by
  have hpp := hi.polls _ rfl
  dsimp only [phaseEvent, phRstPoll] at h
  rcases pollOnce_next h with ⟨-, rfl⟩ | ⟨-, ⟨-, h⟩ | ⟨-, -, h⟩ | ⟨-, hne, rfl⟩⟩
  · exact goesOn_raise hx hi.retries
  · exact goesOn_of_ret hi hk (z := { x with tStatus := s.answer, pollCnt := x.pollCnt + 1 }) h (by simp [hx]) (by simp [polled])
      (by simp only [Ctx.before, phaseEvents]; omega) ⟨rfl, rfl, rfl, rfl, rfl⟩
  · exact goesOn_of_ret hi hk (z := { x with tStatus := s.answer, pollCnt := x.pollCnt + 1 }) h (by simp [hx]) (by simp [polled])
      (by simp only [Ctx.before, phaseEvents]; omega) ⟨rfl, rfl, rfl, rfl, rfl⟩
  · exact goesOn_of_ctx hi 
      { x with
        tStatus := s.answer, pollCnt := x.pollCnt + 1
        pc := .rstWait :: cs }
      (by simp [hx])
      ⟨rfl, rfl, rfl, rfl, rfl, hi.retries, rfl⟩ (by simp [pollBound]; omega) hi.callers
      (by simp [Ctx.before, phaseEvents]; omega)

omit hk in
theorem rstWait_goesOn (h : phaseEvent .rstWait cs x s = .next t) (hi : x.InFlight s.cfg n o .rstWait cs) :
    ∃ y, t.ctx? = some y ∧ Ctx.GoesOn s.cfg n o x (x.before s.cfg .rstWait cs) y := by
  have hpp := hi.polls _ rfl
  dsimp only [phaseEvent, phRstWait] at h
  injection h with h; subst h
  exact goesOn_of_ctx hi { x with pc := .rstPoll :: cs } (by simp [hx])
    ⟨rfl, rfl, rfl, rfl, rfl, hi.retries, rfl⟩ (by simpa [pollBound] using hpp) hi.callers
    (by simp [Ctx.before, phaseEvents]; omega)

omit hk in
theorem mCmd_goesOn (h : phaseEvent .mCmd cs x s = .next t) (hi : x.InFlight s.cfg n o .mCmd cs) :
    ∃ y, t.ctx? = some y ∧ Ctx.GoesOn s.cfg n o x (x.before s.cfg .mCmd cs) y := by
  dsimp only [phaseEvent, phMCmd] at h
  rcases writeReg_next h with ⟨-, h⟩ | ⟨-, rfl⟩
  · injection h with h; subst h
    exact goesOn_of_ctx hi { x with pc := .mD0 :: cs } (map_ctx? hx)
      ⟨rfl, rfl, rfl, rfl, rfl, hi.retries, rfl⟩ (by simp [pollBound]) hi.callers
      (by simp [Ctx.before, phaseEvents, matchEvents]; omega)
  · exact goesOn_raise hx hi.retries

omit hk in
theorem mD0_goesOn (h : phaseEvent .mD0 cs x s = .next t) (hi : x.InFlight s.cfg n o .mD0 cs) :
    ∃ y, t.ctx? = some y ∧ Ctx.GoesOn s.cfg n o x (x.before s.cfg .mD0 cs) y := by
  dsimp only [phaseEvent, phMD0] at h
  obtain ⟨rom, -, h⟩ := withRom_next h
  rcases writeReg_next h with ⟨-, h⟩ | ⟨-, rfl⟩
  · injection h with h; subst h
    exact goesOn_of_ctx hi { x with pc := .mD1 :: cs } (by simp [hx])
      ⟨rfl, rfl, rfl, rfl, rfl, hi.retries, rfl⟩ (by simp [pollBound]) hi.callers
      (by simp [Ctx.before, phaseEvents]; omega)
  · exact goesOn_raise hx hi.retries

omit hk in
theorem mD1_goesOn (h : phaseEvent .mD1 cs x s = .next t) (hi : x.InFlight s.cfg n o .mD1 cs) :
    ∃ y, t.ctx? = some y ∧ Ctx.GoesOn s.cfg n o x (x.before s.cfg .mD1 cs) y := by
  dsimp only [phaseEvent, phMD1] at h
  obtain ⟨rom, -, h⟩ := withRom_next h
  rcases writeReg_next h with ⟨-, h⟩ | ⟨-, rfl⟩
  · injection h with h; subst h
    exact goesOn_of_ctx hi { x with pc := .mSz :: cs } (by simp [hx])
      ⟨rfl, rfl, rfl, rfl, rfl, hi.retries, rfl⟩ (by simp [pollBound]) hi.callers
      (by simp [Ctx.before, phaseEvents]; omega)
  · exact goesOn_raise hx hi.retries

omit hk in
theorem mSz_goesOn (h : phaseEvent .mSz cs x s = .next t) (hi : x.InFlight s.cfg n o .mSz cs) :
    ∃ y, t.ctx? = some y ∧ Ctx.GoesOn s.cfg n o x (x.before s.cfg .mSz cs) y := by
  dsimp only [phaseEvent, phMSz] at h
  rcases writeReg_next h with ⟨-, h⟩ | ⟨-, rfl⟩
  · injection h with h; subst h
    exact goesOn_of_ctx hi { x with pc := .mExec :: cs } (by simp [hx])
      ⟨rfl, rfl, rfl, rfl, rfl, hi.retries, rfl⟩ (by simp [pollBound]) hi.callers
      (by simp [Ctx.before, phaseEvents]; omega)
  · exact goesOn_raise hx hi.retries

theorem mExec_goesOn (h : phaseEvent .mExec cs x s = .next t) (hi : x.InFlight s.cfg n o .mExec cs) :
    ∃ y, t.ctx? = some y ∧ Ctx.GoesOn s.cfg n o x (x.before s.cfg .mExec cs) y := by
  have hpp := hk.pollsPos
  dsimp only [phaseEvent, phMExec] at h
  rcases writeReg_next h with ⟨-, h⟩ | ⟨-, rfl⟩
  · injection h with h; subst h
    exact goesOn_of_ctx hi { x with pollCnt := 0, pc := .mPoll :: cs } (by simp [hx])
      ⟨rfl, rfl, rfl, rfl, rfl, hi.retries, rfl⟩ (by simp [pollBound]; omega) hi.callers
      (by simp [Ctx.before, phaseEvents]; omega)
  · exact goesOn_raise hx hi.retries

theorem mPoll_goesOn (h : phaseEvent .mPoll cs x s = .next t) (hi : x.InFlight s.cfg n o .mPoll cs) :
    ∃ y, t.ctx? = some y ∧ Ctx.GoesOn s.cfg n o x (x.before s.cfg .mPoll cs) y := by
  have hpp := hi.polls _ rfl
  dsimp only [phaseEvent, phMPoll] at h
  obtain ⟨rom, -, h⟩ := withRom_next h
  rcases pollOnce_next h with ⟨-, rfl⟩ | ⟨-, ⟨-, h⟩ | ⟨-, -, h⟩ | ⟨-, hne, rfl⟩⟩
  · exact goesOn_raise hx hi.retries
  · exact goesOn_of_ret hi hk (z := { x with tStatus := s.answer, pollCnt := x.pollCnt + 1 }) h (by simp [hx]) (by simp [polled])
      (by simp only [Ctx.before, phaseEvents]; omega) ⟨rfl, rfl, rfl, rfl, rfl⟩
  · exact goesOn_of_ret hi hk (z := { x with tStatus := s.answer, pollCnt := x.pollCnt + 1 }) h (by simp [hx]) (by simp [polled])
      (by simp only [Ctx.before, phaseEvents]; omega) ⟨rfl, rfl, rfl, rfl, rfl⟩
  · exact goesOn_of_ctx hi 
      { x with
        tStatus := s.answer, pollCnt := x.pollCnt + 1
        pc := .mWait :: cs }
      (by simp [hx])
      ⟨rfl, rfl, rfl, rfl, rfl, hi.retries, rfl⟩ (by simp [pollBound]; omega) hi.callers
      (by simp [Ctx.before, phaseEvents]; omega)

omit hk in
theorem mWait_goesOn (h : phaseEvent .mWait cs x s = .next t) (hi : x.InFlight s.cfg n o .mWait cs) :
    ∃ y, t.ctx? = some y ∧ Ctx.GoesOn s.cfg n o x (x.before s.cfg .mWait cs) y := by
  have hpp := hi.polls _ rfl
  dsimp only [phaseEvent, phMWait] at h
  injection h with h; subst h
  exact goesOn_of_ctx hi { x with pc := .mPoll :: cs } (by simp [hx])
    ⟨rfl, rfl, rfl, rfl, rfl, hi.retries, rfl⟩ (by simpa [pollBound] using hpp) hi.callers
    (by simp [Ctx.before, phaseEvents]; omega)

theorem rdAcc_goesOn (h : phaseEvent .rdAcc cs x s = .next t) (hi : x.InFlight s.cfg n o .rdAcc cs) :
    ∃ y, t.ctx? = some y ∧ Ctx.GoesOn s.cfg n o x (x.before s.cfg .rdAcc cs) y := by
  dsimp only [phaseEvent, phRdAcc] at h
  rcases readReg_next h with ⟨-, h⟩ | ⟨-, rfl⟩
  · exact goesOn_of_ret hi hk (z := x) h (by simp [hx]) (by simp)
      (by simp only [Ctx.before, phaseEvents]; omega) ⟨rfl, rfl, rfl, rfl, rfl⟩
  · exact goesOn_raise hx hi.retries

theorem wrAcc_goesOn (h : phaseEvent .wrAcc cs x s = .next t) (hi : x.InFlight s.cfg n o .wrAcc cs) :
    ∃ y, t.ctx? = some y ∧ Ctx.GoesOn s.cfg n o x (x.before s.cfg .wrAcc cs) y := by
  dsimp only [phaseEvent, phWrAcc] at h
  rcases writeReg_next h with ⟨-, h⟩ | ⟨-, rfl⟩
  · exact goesOn_of_ret hi hk (z := x) h (by simp [hx]) (by simp)
      (by simp only [Ctx.before, phaseEvents]; omega) ⟨rfl, rfl, rfl, rfl, rfl⟩
  · exact goesOn_raise hx hi.retries

theorem wcAcc_goesOn (h : phaseEvent .wcAcc cs x s = .next t) (hi : x.InFlight s.cfg n o .wcAcc cs) :
    ∃ y, t.ctx? = some y ∧ Ctx.GoesOn s.cfg n o x (x.before s.cfg .wcAcc cs) y := by
  dsimp only [phaseEvent, phWcAcc] at h
  rcases writeReg_next h with ⟨-, h⟩ | ⟨-, rfl⟩
  · exact goesOn_of_ret hi hk (z := x) h (by simp [hx]) (by simp)
      (by simp only [Ctx.before, phaseEvents]; omega) ⟨rfl, rfl, rfl, rfl, rfl⟩
  · exact goesOn_raise hx hi.retries

theorem wtAcc_goesOn (h : phaseEvent .wtAcc cs x s = .next t) (hi : x.InFlight s.cfg n o .wtAcc cs) :
    ∃ y, t.ctx? = some y ∧ Ctx.GoesOn s.cfg n o x (x.before s.cfg .wtAcc cs) y := by
  dsimp only [phaseEvent, phWtAcc] at h
  rcases writeReg_next h with ⟨-, h⟩ | ⟨-, rfl⟩
  · exact goesOn_of_ret hi hk (z := x) h (by simp [hx]) (by simp)
      (by simp only [Ctx.before, phaseEvents]; omega) ⟨rfl, rfl, rfl, rfl, rfl⟩
  · exact goesOn_raise hx hi.retries

theorem dwAcc_goesOn (h : phaseEvent .dwAcc cs x s = .next t) (hi : x.InFlight s.cfg n o .dwAcc cs) :
    ∃ y, t.ctx? = some y ∧ Ctx.GoesOn s.cfg n o x (x.before s.cfg .dwAcc cs) y := by
  dsimp only [phaseEvent, phDwAcc] at h
  rcases writeReg_next h with ⟨-, h⟩ | ⟨-, rfl⟩
  · exact goesOn_of_ret hi hk (z := x) h (by simp [hx]) (by simp)
      (by simp only [Ctx.before, phaseEvents]; omega) ⟨rfl, rfl, rfl, rfl, rfl⟩
  · exact goesOn_raise hx hi.retries

theorem drAcc_goesOn (h : phaseEvent .drAcc cs x s = .next t) (hi : x.InFlight s.cfg n o .drAcc cs) :
    ∃ y, t.ctx? = some y ∧ Ctx.GoesOn s.cfg n o x (x.before s.cfg .drAcc cs) y := by
  dsimp only [phaseEvent, phDrAcc] at h
  rcases readReg_next h with ⟨-, h⟩ | ⟨-, rfl⟩
  · exact goesOn_of_ret hi hk (z := x) h (by simp [hx]) (by simp)
      (by simp only [Ctx.before, phaseEvents]; omega) ⟨rfl, rfl, rfl, rfl, rfl⟩
  · exact goesOn_raise hx hi.retries

/-! ## The phases of a search -/

omit hk in
theorem sLock_goesOn (h : phaseEvent .sLock cs x s = .next t) (hi : x.InFlight s.cfg n o .sLock cs) :
    ∃ y, t.ctx? = some y ∧ Ctx.GoesOn s.cfg n o x (x.before s.cfg .sLock cs) y := by
  have hce := searchCallers_events (s := s) (x := x) hi.callers
  simp only [phaseEvent, phSLock] at h
  split at h <;> (injection h with h; subst h)
  · exact goesOn_of_ctx hi { x with pc := .sLock :: cs } (by simp [hx])
      ⟨rfl, rfl, rfl, rfl, rfl, hi.retries, rfl⟩ (by simp [pollBound]) hi.callers
      (by simp [Ctx.before, phaseEvents, hce])
  · exact goesOn_of_ctx hi { x with pc := .sCmd :: cs } (by simp [hx])
      ⟨rfl, rfl, rfl, rfl, rfl, hi.retries, rfl⟩ (by simp [pollBound]) hi.callers
      (by simp [Ctx.before, phaseEvents, hce])

omit hk in
theorem sCmd_goesOn (h : phaseEvent .sCmd cs x s = .next t) (hi : x.InFlight s.cfg n o .sCmd cs) :
    ∃ y, t.ctx? = some y ∧ Ctx.GoesOn s.cfg n o x (x.before s.cfg .sCmd cs) y := by
  have hce := searchCallers_events (s := s) (x := x) hi.callers
  dsimp only [phaseEvent, phSCmd, searchWrite, searchWindow] at h
  split at h <;> (injection h with h; subst h)
  · exact goesOn_of_ctx hi { x with pc := .sSer :: cs } (map_ctx? hx)
      ⟨rfl, rfl, rfl, rfl, rfl, hi.retries, rfl⟩ (by simp [pollBound]) hi.callers
      (by simp [Ctx.before, phaseEvents, hce])
  · exact goesOn_raise (z := x) (by simpa using hx) hi.retries

theorem sSer_goesOn (h : phaseEvent .sSer cs x s = .next t) (hi : x.InFlight s.cfg n o .sSer cs) :
    ∃ y, t.ctx? = some y ∧ Ctx.GoesOn s.cfg n o x (x.before s.cfg .sSer cs) y := by
  have hce := searchCallers_events (s := s) (x := x) hi.callers
  have hpp := hk.pollsPos
  dsimp only [phaseEvent, phSSer, searchWrite, searchWindow] at h
  split at h <;> (injection h with h; subst h)
  · exact goesOn_of_ctx hi { x with pollCnt := 0, pc := .sPoll :: cs } (by simp [hx])
      ⟨rfl, rfl, rfl, rfl, rfl, hi.retries, rfl⟩ (by simp [pollBound]; omega) hi.callers
      (by simp [Ctx.before, phaseEvents, hce])
  · exact goesOn_raise (z := x) (by simpa using hx) hi.retries

theorem sPoll_goesOn (h : phaseEvent .sPoll cs x s = .next t) (hi : x.InFlight s.cfg n o .sPoll cs) :
    ∃ y, t.ctx? = some y ∧ Ctx.GoesOn s.cfg n o x (x.before s.cfg .sPoll cs) y := by
  have hce := searchCallers_events (s := s) (x := x) hi.callers
  have hpp := hi.polls _ rfl
  dsimp only [phaseEvent, phSPoll, searchRead, searchWindow, searchFail] at h
  split at h
  · split at h
    · exact goesOn_of_ret hi hk (z := { x with tStatus := s.answer, pollCnt := x.pollCnt + 1 }) h (by simp [hx]) (by simp)
        (by simp [hce]) ⟨rfl, rfl, rfl, rfl, rfl⟩
    · exact goesOn_of_ret hi hk (z := { x with tStatus := s.answer, pollCnt := x.pollCnt + 1 }) h (by simp [hx]) (by simp)
        (by simp [hce]) ⟨rfl, rfl, rfl, rfl, rfl⟩
    · injection h with h; subst h
      exact goesOn_of_ctx hi 
        { x with
          tStatus := s.answer, pollCnt := x.pollCnt + 1
          pc := .sFound :: cs }
        (by simp [hx])
        ⟨rfl, rfl, rfl, rfl, rfl, hi.retries, rfl⟩ (by simp [pollBound]) hi.callers
        (by simp [Ctx.before, phaseEvents, hce])
    · split at h
      · exact goesOn_of_ret hi hk (z := { x with tStatus := s.answer, pollCnt := x.pollCnt + 1 }) h (by simp [hx]) (by simp)
          (by simp [hce]) ⟨rfl, rfl, rfl, rfl, rfl⟩
      · injection h with h; subst h
        exact goesOn_of_ctx hi 
          { x with
            tStatus := s.answer, pollCnt := x.pollCnt + 1
            pc := .sWait :: cs }
          (by simp [hx])
          ⟨rfl, rfl, rfl, rfl, rfl, hi.retries, rfl⟩ (by simp [pollBound]; omega) hi.callers
          (by simp [Ctx.before, phaseEvents, hce])
  · injection h with h; subst h
    exact goesOn_raise (z := x) (by simpa using hx) hi.retries

omit hk in
theorem sWait_goesOn (h : phaseEvent .sWait cs x s = .next t) (hi : x.InFlight s.cfg n o .sWait cs) :
    ∃ y, t.ctx? = some y ∧ Ctx.GoesOn s.cfg n o x (x.before s.cfg .sWait cs) y := by
  have hce := searchCallers_events (s := s) (x := x) hi.callers
  have hpp := hi.polls _ rfl
  dsimp only [phaseEvent, phSWait] at h
  injection h with h; subst h
  exact goesOn_of_ctx hi { x with pc := .sPoll :: cs } (by simp [hx])
    ⟨rfl, rfl, rfl, rfl, rfl, hi.retries, rfl⟩ (by simpa [pollBound] using hpp) hi.callers
    (by simp [Ctx.before, phaseEvents, hce])

theorem sFound_goesOn (h : phaseEvent .sFound cs x s = .next t) (hi : x.InFlight s.cfg n o .sFound cs) :
    ∃ y, t.ctx? = some y ∧ Ctx.GoesOn s.cfg n o x (x.before s.cfg .sFound cs) y := by
  have hce := searchCallers_events (s := s) (x := x) hi.callers
  dsimp only [phaseEvent, phSFound, searchRead, searchWindow, harvest, searchDone] at h
  split at h
  · split at h
    · split at h <;> (injection h with h; subst h)
      · exact goesOn_of_ctx hi 
          { x with
            tFound := s.answer, tIdx := 0
            pc := .sLo :: cs }
          (by simp [hx])
          ⟨rfl, rfl, rfl, rfl, rfl, hi.retries, rfl⟩ (by simp [pollBound]) hi.callers
          (by simp [Ctx.before, phaseEvents, hce])
      · exact goesOn_raise (z := { x with tFound := s.answer, tIdx := 0 }) (by simp [hx]) hi.retries
    · exact goesOn_of_ret hi hk (z := { x with tFound := s.answer, tIdx := 0 }) h (map_ctx? (s := s.didRead _) hx) (by simp)
        (by simp [hce]) ⟨rfl, rfl, rfl, rfl, rfl⟩
  · injection h with h; subst h
    exact goesOn_raise (z := x) (by simpa using hx) hi.retries

omit hk in
theorem sLo_goesOn (h : phaseEvent .sLo cs x s = .next t) (hi : x.InFlight s.cfg n o .sLo cs) :
    ∃ y, t.ctx? = some y ∧ Ctx.GoesOn s.cfg n o x (x.before s.cfg .sLo cs) y := by
  have hce := searchCallers_events (s := s) (x := x) hi.callers
  dsimp only [phaseEvent, phSLo, searchRead, searchWindow] at h
  split at h
  · split at h <;> (injection h with h; subst h)
    · exact goesOn_of_ctx hi { x with tLo := s.answer, pc := .sHi :: cs } (by simp [hx])
        ⟨rfl, rfl, rfl, rfl, rfl, hi.retries, rfl⟩ (by simp [pollBound]) hi.callers
        (by simp [Ctx.before, phaseEvents, hce])
    · exact goesOn_raise (z := { x with tLo := s.answer }) (by simp [hx]) hi.retries
  · injection h with h; subst h
    exact goesOn_raise (z := x) (by simpa using hx) hi.retries

theorem sHi_goesOn (h : phaseEvent .sHi cs x s = .next t) (hi : x.InFlight s.cfg n o .sHi cs) :
    ∃ y, t.ctx? = some y ∧ Ctx.GoesOn s.cfg n o x (x.before s.cfg .sHi cs) y := by
  have hce := searchCallers_events (s := s) (x := x) hi.callers
  dsimp only [phaseEvent, phSHi, searchRead, searchWindow, harvest, searchDone] at h
  split at h
  · split at h
    · split at h <;> (injection h with h; subst h)
      · exact goesOn_of_ctx hi { x with tIdx := x.tIdx + 1, pc := .sLo :: cs } (by simp [hx])
          ⟨rfl, rfl, rfl, rfl, rfl, hi.retries, rfl⟩ (by simp [pollBound]) hi.callers
          (by simp [Ctx.before, phaseEvents, hce])
      · exact goesOn_raise (z := { x with tIdx := x.tIdx + 1 }) (by simp [hx]) hi.retries
    · exact goesOn_of_ret hi hk (z := { x with tIdx := x.tIdx + 1 }) h (map_ctx? (s := (s.didRead _).insertIfNew _) (by simpa using hx)) (by simp)
        (by simp [hce]) ⟨rfl, rfl, rfl, rfl, rfl⟩
  · injection h with h; subst h
    exact goesOn_raise (z := x) (by simpa using hx) hi.retries

/-! ## The phases of a temperature read -/

theorem tNow0_goesOn (h : phaseEvent .tNow0 cs x s = .next t) (hi : x.InFlight s.cfg n o .tNow0 cs) :
    ∃ y, t.ctx? = some y ∧ Ctx.GoesOn s.cfg n o x (x.before s.cfg .tNow0 cs) y := by
  dsimp only [phaseEvent, phTNow0] at h
  obtain ⟨y, -, h⟩ := withSensor_next h
  split at h
  · exact goesOn_of_ret hi hk (z := { x with tNow := s.nowAnswer }) h (by simp [hx]) (by simp)
      (by simp only [Ctx.before, phaseEvents]; omega) ⟨rfl, rfl, rfl, rfl, rfl⟩
  · injection h with h; subst h
    exact goesOn_of_ctx hi 
      { x with
        tNow := s.nowAnswer, devOpen := false
        pc := .rstCmd :: .oReset :: .tOpen1 :: cs }
      (by simp [hx])
      ⟨rfl, rfl, rfl, rfl, rfl, hi.retries, rfl⟩ (by simp [pollBound]) (open1_stack _ hi.callers)
      (by simp [Ctx.before, phaseEvents, callerEvents, openEvents]; omega)

omit hk in
theorem tConvCmd_goesOn (h : phaseEvent .tConvCmd cs x s = .next t) (hi : x.InFlight s.cfg n o .tConvCmd cs) :
    ∃ y, t.ctx? = some y ∧ Ctx.GoesOn s.cfg n o x (x.before s.cfg .tConvCmd cs) y := by
  have hc := six_le_convertEvents s.cfg
  dsimp only [phaseEvent, phTConvCmd] at h
  rcases writeReg_next h with ⟨-, h⟩ | ⟨-, rfl⟩
  · injection h with h; subst h
    exact goesOn_of_ctx hi { x with pc := .tConvExec :: cs } (by simp [hx])
      ⟨rfl, rfl, rfl, rfl, rfl, hi.retries, rfl⟩ (by simp [pollBound]) hi.callers
      (by simp [Ctx.before, phaseEvents]; omega)
  · exact goesOn_raise hx hi.retries

omit hk in
theorem tConvExec_goesOn (h : phaseEvent .tConvExec cs x s = .next t) (hi : x.InFlight s.cfg n o .tConvExec cs) :
    ∃ y, t.ctx? = some y ∧ Ctx.GoesOn s.cfg n o x (x.before s.cfg .tConvExec cs) y := by
  have hc := six_le_convertEvents s.cfg
  dsimp only [phaseEvent, phTConvExec] at h
  obtain ⟨y, -, h⟩ := withSensor_next h
  rcases writeReg_next h with ⟨-, h⟩ | ⟨-, rfl⟩
  · injection h with h; subst h
    exact goesOn_of_ctx hi { x with pc := .tConvWait :: cs } (by simp [hx])
      ⟨rfl, rfl, rfl, rfl, rfl, hi.retries, rfl⟩ (by simp [pollBound]) hi.callers
      (by simp [Ctx.before, phaseEvents]; omega)
  · exact goesOn_raise hx hi.retries

omit hk in
theorem tConvWait_goesOn (h : phaseEvent .tConvWait cs x s = .next t) (hi : x.InFlight s.cfg n o .tConvWait cs) :
    ∃ y, t.ctx? = some y ∧ Ctx.GoesOn s.cfg n o x (x.before s.cfg .tConvWait cs) y := by
  have hc := six_le_convertEvents s.cfg
  dsimp only [phaseEvent, phTConvWait] at h
  obtain ⟨y, -, h⟩ := withSensor_next h
  split at h
  · injection h with h; subst h
    exact goesOn_of_ctx hi { x with pc := .tConvChk :: cs } (by simp [hx])
      ⟨rfl, rfl, rfl, rfl, rfl, hi.retries, rfl⟩ (by simp [pollBound]) hi.callers
      (by simp [Ctx.before, phaseEvents]; omega)
  · cases h

theorem tConvChk_goesOn (h : phaseEvent .tConvChk cs x s = .next t) (hi : x.InFlight s.cfg n o .tConvChk cs) :
    ∃ y, t.ctx? = some y ∧ Ctx.GoesOn s.cfg n o x (x.before s.cfg .tConvChk cs) y := by
  have hc := six_le_convertEvents s.cfg
  dsimp only [phaseEvent, phTConvChk] at h
  obtain ⟨y, -, h⟩ := withSensor_next h
  rcases readReg_next h with ⟨-, h⟩ | ⟨-, rfl⟩
  · split at h
    · injection h with h; subst h
      exact goesOn_of_ctx hi 
        { x with
          tStatus := s.answer, devOpen := false, retryCnt := 1
          pc := .rstCmd :: .oReset :: .tOpen2 :: cs }
        (by simp [hx])
        ⟨rfl, rfl, rfl, rfl, rfl, hk.pollsPos.2.2.2.2, rfl⟩ (by simp [pollBound]) (open2_stack _ hi.callers)
        (by have := firstAttempt_le hk; have h3 := attemptEvents_eq s.cfg; simp only [Ctx.before, phaseEvents, callerEvents, tempCallers_events hi.callers]; omega)
    · exact goesOn_of_ret hi hk (z := { x with tStatus := s.answer, devOpen := false }) h (by simp [hx]) (by simp)
        (by simp only [Ctx.before, phaseEvents]; omega) ⟨rfl, rfl, rfl, rfl, rfl⟩
  · exact goesOn_raise hx hi.retries

omit hk in
theorem tRdCmd_goesOn (h : phaseEvent .tRdCmd cs x s = .next t) (hi : x.InFlight s.cfg n o .tRdCmd cs) :
    ∃ y, t.ctx? = some y ∧ Ctx.GoesOn s.cfg n o x (x.before s.cfg .tRdCmd cs) y := by
  dsimp only [phaseEvent, phTRdCmd] at h
  rcases writeReg_next h with ⟨-, h⟩ | ⟨-, rfl⟩
  · injection h with h; subst h
    exact goesOn_of_ctx hi { x with pc := .tRdSz :: cs } (by simp [hx])
      ⟨rfl, rfl, rfl, rfl, rfl, hi.retries, rfl⟩ (by simp [pollBound]) hi.callers
      (by simp [Ctx.before, phaseEvents]; omega)
  · exact goesOn_raise hx hi.retries

omit hk in
theorem tRdSz_goesOn (h : phaseEvent .tRdSz cs x s = .next t) (hi : x.InFlight s.cfg n o .tRdSz cs) :
    ∃ y, t.ctx? = some y ∧ Ctx.GoesOn s.cfg n o x (x.before s.cfg .tRdSz cs) y := by
  dsimp only [phaseEvent, phTRdSz] at h
  rcases writeReg_next h with ⟨-, h⟩ | ⟨-, rfl⟩
  · injection h with h; subst h
    exact goesOn_of_ctx hi { x with pc := .tRdExec :: cs } (by simp [hx])
      ⟨rfl, rfl, rfl, rfl, rfl, hi.retries, rfl⟩ (by simp [pollBound]) hi.callers
      (by simp [Ctx.before, phaseEvents]; omega)
  · exact goesOn_raise hx hi.retries

theorem tRdExec_goesOn (h : phaseEvent .tRdExec cs x s = .next t) (hi : x.InFlight s.cfg n o .tRdExec cs) :
    ∃ y, t.ctx? = some y ∧ Ctx.GoesOn s.cfg n o x (x.before s.cfg .tRdExec cs) y := by
  have hpp := hk.pollsPos
  dsimp only [phaseEvent, phTRdExec] at h
  rcases writeReg_next h with ⟨-, h⟩ | ⟨-, rfl⟩
  · injection h with h; subst h
    exact goesOn_of_ctx hi { x with pollCnt := 0, pc := .tRdPoll :: cs } (by simp [hx])
      ⟨rfl, rfl, rfl, rfl, rfl, hi.retries, rfl⟩ (by simp [pollBound]; omega) hi.callers
      (by simp [Ctx.before, phaseEvents]; omega)
  · exact goesOn_raise hx hi.retries

theorem tRdPoll_goesOn (h : phaseEvent .tRdPoll cs x s = .next t) (hi : x.InFlight s.cfg n o .tRdPoll cs) :
    ∃ y, t.ctx? = some y ∧ Ctx.GoesOn s.cfg n o x (x.before s.cfg .tRdPoll cs) y := by
  have hpp := hi.polls _ rfl
  dsimp only [phaseEvent, phTRdPoll] at h
  rcases pollOnce_next h with ⟨-, rfl⟩ | ⟨-, ⟨-, h⟩ | ⟨-, -, h⟩ | ⟨-, hne, rfl⟩⟩
  · exact goesOn_raise hx hi.retries
  · injection h with h; subst h
    exact goesOn_of_ctx hi 
      { x with
        tStatus := s.answer, pollCnt := x.pollCnt + 1
        pc := .tRdData :: cs }
      (by simp [hx])
      ⟨rfl, rfl, rfl, rfl, rfl, hi.retries, rfl⟩ (by simp [pollBound]) hi.callers
      (by simp [Ctx.before, phaseEvents, afterAttempt]; omega)
  · have ho := tempCallers hi.callers
    obtain ⟨y, hy, hg⟩ := failAttempt_goesOn (x := { x with tStatus := s.answer, pollCnt := x.pollCnt + 1, devOpen := false })
      (s := (polled x s).closeScope) hk h (by simp [hx]) hi.op (by simp [polled, State.closeScope]) ho hi.retries
      (hi.sensor (ho.imp And.left And.left)) (x.before s.cfg .tRdPoll cs)
      (by simp only [Ctx.before, phaseEvents]; omega)
      fun r u hc hu hh => ret_goesOn hk cs _ hh hu hi.op (by rw [hc]; simp [polled, State.closeScope])
        (callerStacks_subset _ hi.callers) hi.retries hi.sensor (by simp only [Ctx.before, phaseEvents]; omega)
    exact ⟨y, hy, hg.of_latches ⟨rfl, rfl, rfl⟩⟩
  · exact goesOn_of_ctx hi 
      { x with
        tStatus := s.answer, pollCnt := x.pollCnt + 1
        pc := .tRdWait :: cs }
      (by simp [hx])
      ⟨rfl, rfl, rfl, rfl, rfl, hi.retries, rfl⟩ (by simp [pollBound]; omega) hi.callers
      (by simp [Ctx.before, phaseEvents]; omega)

omit hk in
theorem tRdWait_goesOn (h : phaseEvent .tRdWait cs x s = .next t) (hi : x.InFlight s.cfg n o .tRdWait cs) :
    ∃ y, t.ctx? = some y ∧ Ctx.GoesOn s.cfg n o x (x.before s.cfg .tRdWait cs) y := by
  have hpp := hi.polls _ rfl
  dsimp only [phaseEvent, phTRdWait] at h
  injection h with h; subst h
  exact goesOn_of_ctx hi { x with pc := .tRdPoll :: cs } (by simp [hx])
    ⟨rfl, rfl, rfl, rfl, rfl, hi.retries, rfl⟩ (by simpa [pollBound] using hpp) hi.callers
    (by simp [Ctx.before, phaseEvents]; omega)

omit hk in
theorem tRdData_goesOn (h : phaseEvent .tRdData cs x s = .next t) (hi : x.InFlight s.cfg n o .tRdData cs) :
    ∃ y, t.ctx? = some y ∧ Ctx.GoesOn s.cfg n o x (x.before s.cfg .tRdData cs) y := by
  dsimp only [phaseEvent, phTRdData] at h
  rcases readReg_next h with ⟨-, h⟩ | ⟨-, rfl⟩
  · injection h with h; subst h
    exact goesOn_of_ctx hi 
      { x with
        tRaw := s.answer, devOpen := false
        pc := .tNow1 :: cs }
      (by simp [hx])
      ⟨rfl, rfl, rfl, rfl, rfl, hi.retries, rfl⟩ (by simp [pollBound]) hi.callers
      (by simp [Ctx.before, phaseEvents])
  · exact goesOn_raise hx hi.retries

theorem tNow1_goesOn (h : phaseEvent .tNow1 cs x s = .next t) (hi : x.InFlight s.cfg n o .tNow1 cs) :
    ∃ y, t.ctx? = some y ∧ Ctx.GoesOn s.cfg n o x (x.before s.cfg .tNow1 cs) y := by
  dsimp only [phaseEvent, phTNow1] at h
  obtain ⟨y, -, h⟩ := withSensor_next h
  exact goesOn_of_ret hi hk (z := { x with tNow := s.nowAnswer }) h (by simp [hx]) (by simp)
    (by simp only [Ctx.before, phaseEvents]; omega) ⟨rfl, rfl, rfl, rfl, rfl⟩

/-- What one event leaves in the context, whatever the phase. -/
theorem phaseEvent_goesOn (h : phaseEvent p cs x s = .next t) (hi : x.InFlight s.cfg n o p cs) :
    ∃ y, t.ctx? = some y ∧ x.GoesOn s.cfg n o (x.before s.cfg p cs) y := by
  cases p
  case iClkget => exact iClkget_goesOn hk hx h hi
  case iClkset => exact iClkset_goesOn hk hx h hi
  case rstCmd => exact rstCmd_goesOn hk hx h hi
  case rstPoll => exact rstPoll_goesOn hk hx h hi
  case rstWait => exact rstWait_goesOn hx h hi
  case mCmd => exact mCmd_goesOn hx h hi
  case mD0 => exact mD0_goesOn hx h hi
  case mD1 => exact mD1_goesOn hx h hi
  case mSz => exact mSz_goesOn hx h hi
  case mExec => exact mExec_goesOn hk hx h hi
  case mPoll => exact mPoll_goesOn hk hx h hi
  case mWait => exact mWait_goesOn hx h hi
  case rdAcc => exact rdAcc_goesOn hk hx h hi
  case wrAcc => exact wrAcc_goesOn hk hx h hi
  case wcAcc => exact wcAcc_goesOn hk hx h hi
  case wtAcc => exact wtAcc_goesOn hk hx h hi
  case dwAcc => exact dwAcc_goesOn hk hx h hi
  case drAcc => exact drAcc_goesOn hk hx h hi
  case sLock => exact sLock_goesOn hx h hi
  case sCmd => exact sCmd_goesOn hx h hi
  case sSer => exact sSer_goesOn hk hx h hi
  case sPoll => exact sPoll_goesOn hk hx h hi
  case sWait => exact sWait_goesOn hx h hi
  case sFound => exact sFound_goesOn hk hx h hi
  case sLo => exact sLo_goesOn hx h hi
  case sHi => exact sHi_goesOn hk hx h hi
  case tNow0 => exact tNow0_goesOn hk hx h hi
  case tConvCmd => exact tConvCmd_goesOn hx h hi
  case tConvExec => exact tConvExec_goesOn hx h hi
  case tConvWait => exact tConvWait_goesOn hx h hi
  case tConvChk => exact tConvChk_goesOn hk hx h hi
  case tRdCmd => exact tRdCmd_goesOn hx h hi
  case tRdSz => exact tRdSz_goesOn hx h hi
  case tRdExec => exact tRdExec_goesOn hk hx h hi
  case tRdPoll => exact tRdPoll_goesOn hk hx h hi
  case tRdWait => exact tRdWait_goesOn hx h hi
  case tRdData => exact tRdData_goesOn hx h hi
  case tNow1 => exact tNow1_goesOn hk hx h hi
  all_goals cases h

end

end Sys2Proof.Machine
end

