-- ==== Sys2Proof/Laws/PerInstr.lean ====
section
/-! SUPPORT. Statements about every instruction as syntax, one lemma for each constructor: the encoder
gives every well-formed instruction a well-formed request, that is one that names an operation
(rules R101, R103 and R108). -/

namespace Sys2Proof.Laws

/-- The request of a well-formed instruction is well formed. -/
def Encodes.Statement (i : Instr) : Prop := i.WellFormed → (encode i).WellFormed

/-- The request of an operation is none of those with a reserved opcode (rule R103). -/
theorem Encodes.hostRecord_wf (o : Op) (a b : BitVec 64) (c : BitVec 32) :
    (hostRecord o a b c).WellFormed := by
  simp only [hostRecord, Request.WellFormed, Request.wf, Fields.toRecord_op]
  cases o <;> decide

theorem Encodes.busInit (base range : Nat) :
    Encodes.Statement (.busInit base range) := fun _ => Encodes.hostRecord_wf _ _ _ _
theorem Encodes.busReset : Encodes.Statement .busReset := fun _ => Encodes.hostRecord_wf _ _ _ _
theorem Encodes.busSearch (alarm : Bool) :
    Encodes.Statement (.busSearch alarm) := fun _ => Encodes.hostRecord_wf _ _ _ _
theorem Encodes.busMatch (rom : RomCode) :
    Encodes.Statement (.busMatch rom) := fun _ => Encodes.hostRecord_wf _ _ _ _
theorem Encodes.busRd (off : Nat) :
    Encodes.Statement (.busRd off) := fun _ => Encodes.hostRecord_wf _ _ _ _
theorem Encodes.busWr (off : Nat) (v : Word) :
    Encodes.Statement (.busWr off v) := fun _ => Encodes.hostRecord_wf _ _ _ _
theorem Encodes.addrRom (rom : RomCode) :
    Encodes.Statement (.addrRom rom) := fun _ => Encodes.hostRecord_wf _ _ _ _
theorem Encodes.addrFamily (rom : RomCode) :
    Encodes.Statement (.addrFamily rom) := fun _ => Encodes.hostRecord_wf _ _ _ _
theorem Encodes.addrSerial (rom : RomCode) :
    Encodes.Statement (.addrSerial rom) := fun _ => Encodes.hostRecord_wf _ _ _ _
theorem Encodes.addrCrc (rom : RomCode) :
    Encodes.Statement (.addrCrc rom) := fun _ => Encodes.hostRecord_wf _ _ _ _
theorem Encodes.addrEq (p q : RomCode) :
    Encodes.Statement (.addrEq p q) := fun _ => Encodes.hostRecord_wf _ _ _ _
theorem Encodes.devOpen (rom : RomCode) :
    Encodes.Statement (.devOpen rom) := fun _ => Encodes.hostRecord_wf _ _ _ _
theorem Encodes.devClose : Encodes.Statement .devClose := fun _ => Encodes.hostRecord_wf _ _ _ _
theorem Encodes.devWcmd (v : Word) :
    Encodes.Statement (.devWcmd v) := fun _ => Encodes.hostRecord_wf _ _ _ _
theorem Encodes.devWctl (v : Word) :
    Encodes.Statement (.devWctl v) := fun _ => Encodes.hostRecord_wf _ _ _ _
theorem Encodes.devWr (off : Nat) (v : Word) :
    Encodes.Statement (.devWr off v) := fun _ => Encodes.hostRecord_wf _ _ _ _
theorem Encodes.devRd (off : Nat) :
    Encodes.Statement (.devRd off) := fun _ => Encodes.hostRecord_wf _ _ _ _
theorem Encodes.tsCreate (rom : RomCode) (refresh res : Nat) :
    Encodes.Statement (.tsCreate rom refresh res) := fun _ => Encodes.hostRecord_wf _ _ _ _
theorem Encodes.tsTemp (idx : Nat) :
    Encodes.Statement (.tsTemp idx) := fun _ => Encodes.hostRecord_wf _ _ _ _
theorem Encodes.tsTempF (idx : Nat) :
    Encodes.Statement (.tsTempF idx) := fun _ => Encodes.hostRecord_wf _ _ _ _
theorem Encodes.tsGetRes (idx : Nat) :
    Encodes.Statement (.tsGetRes idx) := fun _ => Encodes.hostRecord_wf _ _ _ _
theorem Encodes.tsSetRes (idx res : Nat) :
    Encodes.Statement (.tsSetRes idx res) := fun _ => Encodes.hostRecord_wf _ _ _ _
theorem Encodes.serialize : Encodes.Statement .serialize := fun _ => by decide
theorem Encodes.resetPulse : Encodes.Statement .resetPulse := fun _ => by decide
theorem Encodes.execPullup : Encodes.Statement .execPullup := fun _ => by decide
theorem Encodes.execNopullup : Encodes.Statement .execNopullup := fun _ => by decide
theorem Encodes.readTimeSlots : Encodes.Statement .readTimeSlots := fun _ => by decide
theorem Encodes.searchRom : Encodes.Statement .searchRom := fun _ => by decide
theorem Encodes.readRom : Encodes.Statement .readRom := fun _ => by decide
theorem Encodes.matchRom : Encodes.Statement .matchRom := fun _ => by decide
theorem Encodes.skipRom : Encodes.Statement .skipRom := fun _ => by decide
theorem Encodes.alarmSearch : Encodes.Statement .alarmSearch := fun _ => by decide
theorem Encodes.convertT : Encodes.Statement .convertT := fun _ => by decide
theorem Encodes.writeScratchpad : Encodes.Statement .writeScratchpad := fun _ => by decide
theorem Encodes.readScratchpad : Encodes.Statement .readScratchpad := fun _ => by decide
theorem Encodes.copyScratchpad : Encodes.Statement .copyScratchpad := fun _ => by decide
theorem Encodes.recallE2 : Encodes.Statement .recallE2 := fun _ => by decide
theorem Encodes.readPowerSupply : Encodes.Statement .readPowerSupply := fun _ => by decide

end Sys2Proof.Laws
end

