-- ==== Sys2Proof/Tests/Slice0.lean ====
section
/-! SUPPORT. Tests and witnesses. A `test_` theorem is one step, or one decoding, on fixed values, with the
expected result written out from the vectors of 95_test_vectors.md (its ids are cited) or from a numbered
rule; a `witness_<Name>` theorem shows states and operands that meet the hypotheses of
`Obligations.<Name>`, at the ends of their ranges. -/

namespace Sys2Proof.Tests

open Sys2Proof Sys2Proof.Machine

/-! ## Small states -/

/-- `A`, `B` and `C` of 95_test_vectors.md section 2. -/
def romA : RomCode := 0x7A00000B12345628#64
def romB : RomCode := 0x1C00000C9ABCDE28#64
def romC : RomCode := 0x5500000D0F0E0D10#64

/-- Register answers, with events that take no time of their own. -/
def script (regs : List Word) : Env := { Env.reset with regs := regs, dts := List.replicate 4 0 }

/-- The state after vector I1, with one context holding `x` and these register answers to come. -/
def ready (x : Ctx) (regs : List Word) : State :=
  { State.reset with
    initialized := true
    baseAddr := 0x43C00000
    addrRange := 0x10000
    cap := 8
    plClk := 33333000
    ctxs := [x]
    env := script regs }

/-- A context with operation `o` at phase `p` under `callers`. -/
def at' (o : Op) (p : Phase) (callers : List Phase := []) : Ctx :=
  { Ctx.reset with op := some o, pc := p :: callers }

/-- A sensor on `A`, 12 bits, 5 s, never read. -/
def sensorA : Sensor where
  addr := romA
  res := 12
  refresh := 5000000
  cacheValid := false
  cacheVal := 0
  cacheTs := 0
  fsm := .idle

/-- The state after I1 and `ts_create A, 5000000, 12`, with what the record has since cached. -/
def withSensorA (x : Ctx) (regs : List Word) : State := { ready x regs with sens := [sensorA] }

/-- A register file in an open scope. -/
def inScope : Ctx := { Ctx.reset with devOpen := true, devAddr := romA }

/-- What a test looks at after a step: a view of the next state. -/
def after {α : Type} (o : Out) (view : State → α) : Option α :=
  match o with
  | .next t => some (view t)
  | _ => none

/-- The result delivered last. -/
def result (t : State) : Option Result := t.outbox.head?.map Prod.snd

/-- The event made last. -/
def event (t : State) : Option Event := t.trace.head?.map Prod.snd

/-- Where context 0 is. -/
def position (t : State) : Option (List Phase) := t.ctxs.head?.map Ctx.pc

def fault (f : HostFault) : Option (Option Result) := some (some (Result.ofFault f))

/-! ## Well-formedness: an ill-formed term for each check, refused -/

theorem test_wf_busInit_base : (Instr.busInit (2 ^ 64) 0).wf = false := by decide
theorem test_wf_busInit_range : (Instr.busInit 0 (2 ^ 32)).wf = false := by decide
theorem test_wf_busRd : (Instr.busRd (2 ^ 32)).wf = false := by decide
theorem test_wf_busWr : (Instr.busWr (2 ^ 32) 0).wf = false := by decide
theorem test_wf_devWr : (Instr.devWr (2 ^ 32) 0).wf = false := by decide
theorem test_wf_devRd : (Instr.devRd (2 ^ 32)).wf = false := by decide
theorem test_wf_tsCreate_refresh : (Instr.tsCreate 0 (2 ^ 64) 12).wf = false := by decide
theorem test_wf_tsCreate_res : (Instr.tsCreate 0 0 (2 ^ 32)).wf = false := by decide
theorem test_wf_tsTemp : (Instr.tsTemp (2 ^ 32)).wf = false := by decide
theorem test_wf_tsTempF : (Instr.tsTempF (2 ^ 32)).wf = false := by decide
theorem test_wf_tsGetRes : (Instr.tsGetRes (2 ^ 32)).wf = false := by decide
theorem test_wf_tsSetRes_idx : (Instr.tsSetRes (2 ^ 32) 12).wf = false := by decide
theorem test_wf_tsSetRes_res : (Instr.tsSetRes 0 (2 ^ 32)).wf = false := by decide

/-- Reserved opcodes of section 2.1 and of rule R103. -/
theorem test_wf_reserved : [0x06#8, 0x0F#8, 0x15#8, 0x1F#8, 0x26#8, 0x2F#8, 0x35#8, 0xFF#8].all
    (fun op => !(Request.hostOp (op.zeroExtend 168 <<< 160)).wf) = true := by decide

/-- A word that is none of the sixteen: 0xEC with bit 16 set as well. -/
theorem test_wf_word : (Request.cmdWord 0x000100EC#32).wf = false := by decide

/-! ## Decoding: each constructor from a word written out by hand (section 2.1; section 1, X5 and X6) -/

theorem test_decode_bus :
    decode (.hostOp 0x000000000043C00000000000000000000000010000#168) = .instr (.busInit 0x43C00000 0x10000) ∧
    decode (.hostOp 0x010000000000000000000000000000000000000000#168) = .instr .busReset ∧
    decode (.hostOp 0x020000000000000000000000000000000000000000#168) = .instr (.busSearch false) ∧
    decode (.hostOp 0x020000000000000000000000000000000000000001#168) = .instr (.busSearch true) ∧
    decode (.hostOp 0x037A00000B12345628000000000000000000000000#168) = .instr (.busMatch romA) ∧
    decode (.hostOp 0x040000000000000000000000000000000000000008#168) = .instr (.busRd 0x08) ∧
    decode (.hostOp 0x05000000000000000000000000000000480000000C#168) = .instr (.busWr 0x0C 72) := by decide

/-- Only `c[0]` selects (section 2.1, after the table). -/
theorem test_decode_selector :
    decode (.hostOp 0x0200000000000000000000000000000000FFFFFFFE#168) = .instr (.busSearch false) ∧
    decode (.hostOp 0x0200000000000000000000000000000000FFFFFFFF#168) = .instr (.busSearch true) := by decide

theorem test_decode_addr :
    decode (.hostOp 0x107A00000B12345628000000000000000000000000#168) = .instr (.addrRom romA) ∧
    decode (.hostOp 0x117A00000B12345628000000000000000000000000#168) = .instr (.addrFamily romA) ∧
    decode (.hostOp 0x127A00000B12345628000000000000000000000000#168) = .instr (.addrSerial romA) ∧
    decode (.hostOp 0x137A00000B12345628000000000000000000000000#168) = .instr (.addrCrc romA) ∧
    decode (.hostOp 0x147A00000B123456281C00000C9ABCDE2800000000#168) = .instr (.addrEq romA romB) := by
  decide

theorem test_decode_dev :
    decode (.hostOp 0x207A00000B12345628000000000000000000000000#168) = .instr (.devOpen romA) ∧
    decode (.hostOp 0x210000000000000000000000000000000000000000#168) = .instr .devClose ∧
    decode (.hostOp 0x220000000000000000000000000000004400000000#168) = .instr (.devWcmd 0x44) ∧
    decode (.hostOp 0x230000000000000000000000000000002800000000#168) = .instr (.devWctl 0x28) ∧
    decode (.hostOp 0x24000000000000000000000000000000480000000C#168) = .instr (.devWr 0x0C 72) ∧
    decode (.hostOp 0x250000000000000000000000000000000000000014#168) = .instr (.devRd 0x14) := by decide

theorem test_decode_ts :
    decode (.hostOp 0x307A00000B1234562800000000004C4B400000000C#168) =
      .instr (.tsCreate romA 5000000 12) ∧
    decode (.hostOp 0x310000000000000000000000000000000000000000#168) = .instr (.tsTemp 0) ∧
    decode (.hostOp 0x320000000000000000000000000000000000000000#168) = .instr (.tsTempF 0) ∧
    decode (.hostOp 0x330000000000000000000000000000000000000000#168) = .instr (.tsGetRes 0) ∧
    decode (.hostOp 0x340000000000000000000000000000000900000000#168) = .instr (.tsSetRes 0 9) := by decide

/-- The bit patterns of section 1. -/
theorem test_decode_bus_words :
    decode (.cmdWord 0b00000000000000000000000000000001#32) = .instr .serialize ∧
    decode (.cmdWord 0b00000000000000000000000000001000#32) = .instr .execPullup ∧
    decode (.cmdWord 0b00000000000000000000000000011000#32) = .instr .execNopullup ∧
    decode (.cmdWord 0b00000000000000000000000000101000#32) = .instr .readTimeSlots ∧
    decode (.cmdWord 0b00000000000000010000000000000000#32) = .instr .resetPulse ∧
    decode (.cmdWord 0b00000000000000000000000011110000#32) = .instr .searchRom ∧
    decode (.cmdWord 0b00000000000000000000000000110011#32) = .instr .readRom ∧
    decode (.cmdWord 0b00000000000000000000000001010101#32) = .instr .matchRom ∧
    decode (.cmdWord 0b00000000000000000000000011001100#32) = .instr .skipRom ∧
    decode (.cmdWord 0b00000000000000000000000011101100#32) = .instr .alarmSearch := by decide

theorem test_decode_device_words :
    decode (.cmdWord 0b00000000000000000000000001000100#32) = .instr .convertT ∧
    decode (.cmdWord 0b00000000000000000000000001001110#32) = .instr .writeScratchpad ∧
    decode (.cmdWord 0b00000000000000000000000010111110#32) = .instr .readScratchpad ∧
    decode (.cmdWord 0b00000000000000000000000001001000#32) = .instr .copyScratchpad ∧
    decode (.cmdWord 0b00000000000000000000000010111000#32) = .instr .recallE2 ∧
    decode (.cmdWord 0b00000000000000000000000010110100#32) = .instr .readPowerSupply := by decide

theorem test_decode_rejects :
    decode (.hostOp 0x060000000000000000000000000000000000000000#168) = .reject (.reservedOpcode 0x06) ∧
    decode (.hostOp 0xFF0000000000000000000000000000000000000000#168) = .reject (.reservedOpcode 0xFF) ∧
    decode (.cmdWord 0#32) = .reject (.unlistedWord 0) := by decide

/-- The opcode table's numbering: the opcode is in the first byte (30_encoding.md). -/
theorem test_table_word :
    decodeTableWord 8 0x01 = some .busReset ∧ decodeTableWord 8 0x24 = some (.devWr 0 0) ∧
    decodeTableWord 32 0x00010000 = some .resetPulse ∧ decodeTableWord 8 0x06 = none := by decide

/-! ## The Bus Protocol Engine -/

/-- I10: a window of 0x2C bytes does not hold FOUND. -/
theorem test_busInit_window :
    after (exec (.busInit 0x43C00000 0x2C) State.reset) result = fault (.init 0x2C) := by decide

/-- I4: one below the lower end of the tolerance, the clock is going to be set. -/
theorem test_busInit_clock :
    after (exec (.busInit 0x43C00000 0x10000)
      { State.reset with
        ctxs := [{ at' .busInit .iClkget with opa := 0x43C00000, opc := 0x10000 }]
        env := { Env.reset with clks := [32332999], dts := [0] } }) position =
      some (some [.iClkset]) := by decide

/-- The write every vector of section 2.3 begins with. -/
theorem test_busReset_pulse :
    after (exec .busReset (ready (at' .busReset .rstCmd) [])) event =
      some (some (.write 0x04 0x00010000)) := by decide

/-- B6: everything but reset-done, in the last read allowed. -/
theorem test_busReset_exhausted :
    after (exec .busReset (ready { at' .busReset .rstPoll with pollCnt := 19 } [0xFFFFFFDF])) result =
      some (some ⟨false, 1, .none, none⟩) := by decide

/-- S4b: the protocol error wins over the memory error. -/
theorem test_busSearch_errors :
    after (exec (.busSearch false) (ready (at' .busSearch .sPoll) [0x300])) result =
      some (some ⟨false, 2, .roms [], none⟩) := by decide

/-- S8: `C` is found, `A` and `B` are kept; the last half is read, the table returned. -/
theorem test_busSearch_merges :
    after (exec (.busSearch false)
      { ready { at' .busSearch .sHi with tFound := 1, tLo := 0x0F0E0D10 } [0x5500000D] with
        tab := [romA, romB], lock := true }) (fun t => (result t, t.tab, t.lock)) =
      some (some ⟨true, 0, .roms [romA, romB, romC], none⟩, [romA, romB, romC], false) := by decide

/-- M1: the high half of `A` goes to 0x28. -/
theorem test_busMatch_high :
    after (exec (.busMatch romA) (ready { at' .busMatch .mD1 with opa := romA } [])) event =
      some (some (.write 0x28 0x7A00000B)) := by decide

/-- M5: without a reset before it a match succeeds and the ghost stays `Unknown`. -/
theorem test_busMatch_unreset :
    after (exec (.busMatch romA) (ready { at' .busMatch .mPoll with opa := romA } [0x008]))
      (fun t => (result t, t.busPhase)) = some (some ⟨true, 0, .none, none⟩, .unknown) := by decide

/-- A1: the value read comes back as it is. -/
theorem test_busRd_value :
    after (exec (.busRd 0x08) (ready { at' .busRd .rdAcc with opc := 0x08 } [0x7D])) result =
      some (some ⟨true, 0, .u32 0x7D, none⟩) := by decide

/-- A5: misaligned at the end of the window; and issue has latched the offset before the test (R51). -/
theorem test_busRd_window :
    after (exec (.busRd 0xFFFE) (ready Ctx.reset [])) (fun t => (result t, t.ctxs.map Ctx.opc)) =
      some (some (Result.ofFault (.window 0xFFFE)), [0xFFFE#32]) := by decide

/-- A7: any value passes, and a write to COMMAND ends what the ghost knew. -/
theorem test_busWr_command :
    after (exec (.busWr 0x04 0xDEADBEEF)
      { ready { at' .busWr .wrAcc with opb := 0xDEADBEEF, opc := 0x04 } [] with busPhase := .resetDone })
      (fun t => (event t, t.busPhase)) = some (some (.write 0x04 0xDEADBEEF), .unknown) := by decide

/-! ## The Address Matcher (section 2.7; they work from reset) -/

theorem test_addrRom :
    after (exec (.addrRom 0x0123456789ABCDEF) State.reset) result =
      some (some ⟨true, 0, .u64 0x0123456789ABCDEF, none⟩) := by decide
theorem test_addrFamily :
    after (exec (.addrFamily 0x0123456789ABCDEF) State.reset) result =
      some (some ⟨true, 0, .u8 0xEF, none⟩) := by decide
theorem test_addrSerial :
    after (exec (.addrSerial 0x0123456789ABCDEF) State.reset) result =
      some (some ⟨true, 0, .u48 0x23456789ABCD, none⟩) := by decide
theorem test_addrCrc :
    after (exec (.addrCrc 0x0123456789ABCDEF) State.reset) result =
      some (some ⟨true, 0, .u8 0x01, none⟩) := by decide
/-- A difference in the CRC byte alone. -/
theorem test_addrEq :
    after (exec (.addrEq romA 0x7B00000B12345628) State.reset) result =
      some (some ⟨true, 0, .bool false, none⟩) := by decide

/-! ## The Device Handle -/

/-- V5: the old scope is given up when the next open is issued. -/
theorem test_devOpen_issue :
    after (exec (.devOpen romB) (ready inScope [])) (fun t => (position t, t.ctxs.map Ctx.devOpen)) =
      some (some [.rstCmd, .oReset], [false]) := by decide

/-- V1, its last event. -/
theorem test_devOpen_done :
    after (exec (.devOpen romA)
      { ready { at' .devOpen .mPoll [.oMatch] with opa := romA } [0x008] with busPhase := .resetDone })
      (fun t => (result t, t.ctxs.map Ctx.devAddr, t.busPhase)) =
      some (some ⟨true, 0, .none, none⟩, [romA], .matched romA) := by decide

/-- V6: no event, the ghost stays. -/
theorem test_devClose :
    after (exec .devClose { ready inScope [] with busPhase := .matched romA })
      (fun t => (t.ctxs.map Ctx.devOpen, t.busPhase, t.trace)) =
      some ([false], .matched romA, []) := by decide

/-- V12: no scope. -/
theorem test_devWcmd_noScope :
    after (exec (.devWcmd 0x44) (ready Ctx.reset [])) result = fault .noScope := by decide

/-- V9: to CONTROL. -/
theorem test_devWctl :
    after (exec (.devWctl 0x28) (ready { inScope with op := some .devWctl, pc := [.wtAcc], opb := 0x28 } []))
      event = some (some (.write 0x00 0x28)) := by decide

/-- V10. -/
theorem test_devWr :
    after (exec (.devWr 0x0C 72)
      (ready { inScope with op := some .devWr, pc := [.dwAcc], opb := 72, opc := 0x0C } [])) event =
      some (some (.write 0x0C 0x48)) := by decide

/-- V14: the scope is tested before the window. -/
theorem test_devRd_priority :
    after (exec (.devRd 0x09) (ready Ctx.reset [])) result = fault .noScope := by decide

/-- V13. -/
theorem test_devRd_window :
    after (exec (.devRd 0x09) (ready inScope [])) result = fault (.window 0x09) := by decide

/-! ## The Temperature Sensor Driver -/

/-- T1: the second sensor has index 1. -/
theorem test_tsCreate :
    after (exec (.tsCreate romB 0 9) (withSensorA Ctx.reset []))
      (fun t => (result t, t.sens.map Sensor.addr, t.sens.map Sensor.res, t.sens.map Sensor.cacheValid)) =
      some (some ⟨true, 0, .nat 1, none⟩, [romA, romB], [12, 9], [false, false]) := by decide

/-- T2 and section 2.11: the resolution, but from reset `F_NOT_INIT`. -/
theorem test_tsCreate_faults :
    after (exec (.tsCreate romB 0 8) (withSensorA Ctx.reset [])) result = fault .badOperand ∧
    after (exec (.tsCreate romA 0 8) State.reset) result = fault .notInit := by decide

/-- T9, the last event: 0x0550 at 1800000 is 85000, and the cache holds it. -/
theorem test_tsTemp_decode :
    after (exec (.tsTemp 0)
      { withSensorA { at' .tsTemp .tNow1 with tRaw := 0x0550 } [] with clock := 1800000 })
      (fun t => (result t, t.sens)) =
      some (some ⟨true, 0, .int 85000, none⟩,
        [{ sensorA with cacheVal := 85000, cacheTs := 1800000, cacheValid := true }]) := by decide

/-- T11: an age equal to the timeout is not younger, so a device scope is opened. T21: every flag but
command-done ends the read. And rule R241: a first open that fails leaves the driver idle, whatever another
TS_TEMP on the sensor had made of it. -/
theorem test_tsTemp_age_and_check :
    after (exec (.tsTemp 0)
      { ready (at' .tsTemp .tNow0) [] with
        clock := 6800000
        sens := [{ sensorA with cacheVal := 85000, cacheTs := 1800000, cacheValid := true }] }) position =
      some (some [.rstCmd, .oReset, .tOpen1]) ∧
    after (exec (.tsTemp 0) (withSensorA (at' .tsTemp .tConvChk) [0x079])) result =
      some (some ⟨false, 5, .none, none⟩) ∧
    after (exec (.tsTemp 0)
      { ready { at' .tsTemp .rstPoll [.oReset, .tOpen1] with pollCnt := 19 } [0] with
        sens := [{ sensorA with fsm := .conversionInProgress }] }) (fun t => (result t, t.sens)) =
      some (some ⟨false, 1, .none, none⟩, [sensorA]) := by decide

/-- T17: 85 degrees Celsius from the cache are 185 degrees Fahrenheit. -/
theorem test_tsTempF_cache :
    after (exec (.tsTempF 0)
      { ready (at' .tsTempF .tNow0 [.fCall]) [] with
        clock := 2000000
        sens := [{ sensorA with cacheVal := 85000, cacheTs := 1800000, cacheValid := true }] }) result =
      some (some ⟨true, 0, .int 1850000, none⟩) := by decide

/-- T14: the twentieth attempt fails too. -/
theorem test_tsTempF_scratch :
    after (exec (.tsTempF 0)
      (withSensorA { at' .tsTempF .tRdPoll [.fCall] with pollCnt := 19, retryCnt := 20 } [0x000])) result =
      some (some ⟨false, 6, .none, none⟩) := by decide

/-- T5 and T8. -/
theorem test_tsGetRes :
    after (exec (.tsGetRes 0) (withSensorA Ctx.reset [])) result =
      some (some ⟨true, 0, .nat 12, none⟩) ∧
    after (exec (.tsGetRes 5) (withSensorA Ctx.reset [])) result = fault .badOperand := by decide

/-- T6 and T7. -/
theorem test_tsSetRes :
    after (exec (.tsSetRes 0 10) (withSensorA Ctx.reset [])) (fun t => t.sens.map Sensor.res) =
      some [10] ∧
    after (exec (.tsSetRes 0 13) (withSensorA Ctx.reset [])) (fun t => (result t, t.sens)) =
      some (some (Result.ofFault .badOperand), [sensorA]) := by decide

/-- Rows of section 2.9: ties, the sign, the two ends, the upper half ignored. -/
theorem test_decode_temperature :
    [0x0001, 0x0003, 0x0007, 0xFFFF0550, 0xFF5E, 0xFFFF, 0xFFFD, 0x7FFF, 0x8000].map
      (fun w : Nat => milliC (rawTemp (BitVec.ofNat 32 w))) =
      [62, 188, 438, 85000, -10125, -62, -188, 2047938, -2048000] := by decide

/-! ## Command words -/

/-- A trigger word goes to `REG_TRIGGER`, here CONTROL; the others go to COMMAND (R109). -/
theorem test_words_trigger :
    let s : State := { ready Ctx.reset [] with cfg := { Config.default with regTrigger := 0x00 } }
    after (exec .serialize s) event = some (some (.write 0x00 0x01)) ∧
    after (exec .execPullup s) event = some (some (.write 0x00 0x08)) ∧
    after (exec .execNopullup s) event = some (some (.write 0x00 0x18)) ∧
    after (exec .readTimeSlots s) event = some (some (.write 0x00 0x28)) := by decide

theorem test_words_command :
    [Instr.resetPulse, .searchRom, .readRom, .matchRom, .skipRom, .alarmSearch, .convertT,
      .writeScratchpad, .readScratchpad, .copyScratchpad, .recallE2, .readPowerSupply].map
      (fun i => after (exec i (ready Ctx.reset [])) event) =
    [0x00010000, 0xF0, 0x33, 0x55, 0xCC, 0xEC, 0x44, 0x4E, 0xBE, 0x48, 0xB8, 0xB4].map
      (fun w : Word => some (some (.write 0x04 w))) := by decide

/-- The trigger values are unions of the CONTROL enables (rule R117). -/
theorem test_trigger_unions :
    let k := Config.default
    Cmd.serialize = k.ctlSra ∧ Cmd.execPullup = k.ctlCme ∧ Cmd.execNopullup = k.ctlCme ||| k.ctlWre ∧
      Cmd.readTimeSlots = k.ctlCme ||| k.ctlRde := by decide

/-! ## The step -/

/-- The last word of the window of vector I1 (rule R70, vector A2). -/
theorem test_physical : (ready Ctx.reset []).physical 0xFFFC = 0x43C0FFFC := by decide

/-- A request with a reserved opcode from reset (section 2.11): `F_BAD_OP` and nothing else. -/
theorem test_step_badOp :
    after (step { State.reset with inbox := [(0, .hostOp (0x06#168 <<< 160))] })
      (fun t => (result t, t.trace, t.inbox)) =
      some (some (Result.ofFault (.badOp 0x06)), [], []) := by decide

/-- B8, as the opcode table numbers it: BUS_RESET as the first instruction after reset. -/
theorem test_step_withFetchWord :
    after (step (State.reset.withFetchWord 8 0x01)) result = fault .notInit := by decide

/-! ## Witnesses: states for several statements -/

theorem ready_idle (x : Ctx) (regs : List Word) (h : x.op = none) : (ready x regs).IdleAt x := ⟨rfl, h⟩

theorem ready_fixed (x : Ctx) (regs : List Word) : (ready x regs).FixedAdmitted := by
  show ∀ o ∈ Config.default.fixedOffsets, o % 4 = 0 ∧ o + 4 ≤ 0x10000
  decide

/-- The default parameters are an assignment as rule R7 has it. -/
theorem default_valid : Config.default.Valid where
  aligned := by decide
  distinct := by decide
  halves := by decide
  tableClear i o ho := by
    have h : ∀ o ∈ Config.default.fixedOffsets, o < 0x30 := by decide
    have := h o ho
    show 0x30 + (i <<< 3) ≠ o ∧ 0x34 + (i <<< 3) ≠ o
    omega
  shift := rfl
  statusBits := by
    refine ⟨?_, by decide⟩
    simp only [Config.statusMasks, List.forall_mem_cons]
    exact ⟨⟨0, by decide⟩, ⟨1, by decide⟩, ⟨2, by decide⟩, ⟨3, by decide⟩, ⟨4, by decide⟩, ⟨5, by decide⟩,
      ⟨6, by decide⟩, ⟨7, by decide⟩, ⟨8, by decide⟩, ⟨9, by decide⟩, ⟨10, by decide⟩, by simp⟩
  controlBits := by
    refine ⟨?_, by decide⟩
    simp only [Config.controlMasks, List.forall_mem_cons]
    exact ⟨⟨0, by decide⟩, ⟨1, by decide⟩, ⟨3, by decide⟩, ⟨4, by decide⟩, ⟨5, by decide⟩, by simp⟩
  trigger := by decide
  capPos := by decide
  ctxPos := by decide
  window := by decide
  pollsPos := by decide

/-- Two contexts: context 0 searches and holds the lock, context 1 waits for the conversion of sensor 0. The
host has a request for context 0. The scheduler's script is `picks`. -/
def running (picks : List Nat) : State :=
  { ready Ctx.reset [] with
    cfg := { Config.default with nCtx := 2 }
    ctxs := [at' .busSearch .sCmd, { inScope with op := some .tsTemp, pc := [.tConvWait] }]
    lock := true
    tab := [romA, romB]
    sens := [{ sensorA with fsm := .conversionInProgress }]
    inbox := [(0, .cmdWord 0xF0)]
    clock := 10
    trace := [(1, .now 9)]
    env := { Env.reset with picks := picks, dts := [0, 0] } }

theorem running_valid : Config.Valid { Config.default with nCtx := 2 } :=
  { default_valid with ctxPos := by decide }

theorem running_sound (picks : List Nat) : (running picks).Sound where
  cfg := running_valid
  count := rfl
  ctxs x hx := by
    simp only [running, List.mem_cons, List.not_mem_nil, or_false] at hx
    rcases hx with rfl | rfl <;>
      simp [Ctx.Sound, at', inScope, Ctx.reset, Phase.isEvent, Phase.op, callerStacks, pollBound, running]
  window _ := by
    show validWindow Config.default 0x10000 = true
    decide
  res y hy := by
    simp only [running, List.mem_singleton] at hy
    subst hy; decide
  access x hx p hp off ho := by
    simp only [running, List.mem_cons, List.not_mem_nil, or_false] at hx
    rcases hx with rfl | rfl <;> simp [at'] at hp <;> subst hp <;> simp [chosenOffset] at ho
  before h := by simp [running, ready] at h

/-- After I1, every context idle. -/
theorem ready_sound (regs : List Word) : (ready Ctx.reset regs).Sound where
  cfg := default_valid
  count := rfl
  ctxs x hx := by
    simp only [ready, List.mem_singleton] at hx
    subst hx; simp [Ctx.Sound, Ctx.reset]
  window _ := by
    show validWindow Config.default 0x10000 = true
    decide
  res y hy := by simp [ready, State.reset, State.resetWith] at hy
  access x hx p hp off ho := by
    simp only [ready, List.mem_singleton] at hx
    subst hx; simp [Ctx.reset] at hp
  before h := by simp [ready] at h

/-- In `running` context 1 moves if the script says 1, context 0 if it says 0: the request for context 0
cannot be issued while that is busy. -/
theorem running_turn :
    (running [1]).turn = some (.run 1, running []) ∧ (running [0]).turn = some (.run 0, running []) := by
  decide

theorem running_step : (∃ t, step (running [0]) = .next t) ∧ ∃ t, step (running [1]) = .next t :=
  ⟨⟨_, rfl⟩, ⟨_, rfl⟩⟩

/-- One context, idle, and a request for it. -/
def asked (q : Request) : State := { ready Ctx.reset [] with inbox := [(0, q)] }

/-- A record with this opcode and all other bits zero. -/
def record (op : Byte) : BitVec 168 := op.zeroExtend 168 <<< 160

/-! ## Witnesses: encoding and the step -/

theorem witness_DecodeOfEncodeIsTheInstruction :
    (Instr.busInit (2 ^ 64 - 1) (2 ^ 32 - 1)).WellFormed ∧ (Instr.busSearch true).WellFormed ∧
    (Instr.busWr (2 ^ 32 - 1) 0xFFFFFFFF).WellFormed ∧ (Instr.addrEq romA romB).WellFormed ∧
    (Instr.devRd 0).WellFormed ∧ (Instr.tsCreate romA (2 ^ 64 - 1) (2 ^ 32 - 1)).WellFormed ∧
    (Instr.tsSetRes (2 ^ 32 - 1) (2 ^ 32 - 1)).WellFormed ∧ Instr.convertT.WellFormed := by decide

theorem witness_DecodedIsWellFormed :
    decode (.hostOp (record 0x25)) = .instr (.devRd 0) ∧ decode (.cmdWord 0xF0#32) = .instr .searchRom := by
  decide

/-- The two ends of each range of rule R103, and the opcodes beside them. -/
theorem witness_UndefinedRequestsAreRejectedByName :
    ([6, 15, 21, 31, 38, 47, 53, 255].all fun n => decide ((record (BitVec.ofNat 8 n)).extractLsb' 160 8 =
      BitVec.ofNat 8 n)) = true ∧
    ([0, 5, 16, 20, 32, 37, 48, 52].all fun n => decide ((record (BitVec.ofNat 8 n)).extractLsb' 160 8 =
      BitVec.ofNat 8 n)) = true ∧
    (0x00000000#32 ∉ commandWords) ∧ (0xFFFFFFFF#32 ∉ commandWords) ∧ (0x000000F0#32 ∈ commandWords) := by
  decide

theorem witness_OpcodeMap :
    [0x00#8, 0x01#8, 0x02#8, 0x03#8, 0x04#8, 0x05#8, 0x10#8, 0x11#8, 0x12#8, 0x13#8, 0x14#8, 0x20#8, 0x21#8,
      0x22#8, 0x23#8, 0x24#8, 0x25#8, 0x30#8, 0x31#8, 0x32#8, 0x33#8, 0x34#8].all
      (fun op => decide ((record op).extractLsb' 160 8 = op)) = true := by decide

/-- The only move, and a move among three: the request for context 0, then the two operations. -/
theorem witness_StepRunsTheHostsRequest :
    (let s := asked (.hostOp (record 0x01));
      s.inbox = [(0, .hostOp (record 0x01))] ∧ decode (.hostOp (record 0x01)) = .instr .busReset ∧
      s.turn = some (.issue, s) ∧ ∀ d, s.busy d = false) ∧
    (let s (picks : List Nat) : State := { running picks with inbox := [(2, .hostOp (record 0x21))] };
      (s [0]).turn = some (.issue, s []) ∧ decode (.hostOp (record 0x21)) = .instr .devClose) := by
  refine ⟨⟨rfl, by decide, by decide, fun d => ?_⟩, by decide, by decide⟩
  match d with
  | 0 => rfl
  | d + 1 => rfl

theorem witness_StepRunsTheOperationInFlight :
    ((running [1]).ctxs[1]? = some { inScope with op := some .tsTemp, pc := [.tConvWait] } ∧
      ({ inScope with op := some .tsTemp, pc := [.tConvWait] } : Ctx).inFlight = some (.tsTemp 0) ∧
      (running [1]).turn = some (.run 1, running [])) ∧
    (let s := ready (at' .busReset .rstCmd) [];
      s.ctxs[0]? = some (at' .busReset .rstCmd) ∧ (at' .busReset .rstCmd).inFlight = some .busReset ∧
      (∀ d, s.busy d = true → d = 0) ∧ s.inbox = []) := by
  refine ⟨by decide, rfl, rfl, fun d h => ?_, rfl⟩
  match d with
  | 0 => rfl
  | d + 1 => cases h

/-- An issue, and an event in flight. -/
theorem witness_LatchedInstructionStays :
    (∃ t, (ready Ctx.reset []).ctx? = some Ctx.reset ∧ Ctx.reset.op = none ∧
      (Instr.busRd 0xFFFC).WellFormed ∧ exec (.busRd 0xFFFC) (ready Ctx.reset []) = .next t ∧
      t.ctxs.map Ctx.op = [some .busRd]) ∧
    ∃ t, (ready (at' .busReset .rstCmd) []).ctx? = some (at' .busReset .rstCmd) ∧
      (at' .busReset .rstCmd).op ≠ none ∧
      exec .busReset (ready (at' .busReset .rstCmd) []) = .next t ∧ t.ctxs.map Ctx.op = [some .busReset] :=
  ⟨⟨_, rfl, rfl, by decide, rfl, by decide⟩, _, rfl, by decide, rfl, by decide⟩

theorem witness_WhoeverCanMoveMayMoveNext :
    (running [1]).busy 1 = true ∧ (running [1]).turn = some (.run 1, running []) ∧
    (let s := asked (.cmdWord 0xF0);
      s.inbox = [(0, .cmdWord 0xF0)] ∧ s.busy 0 = false ∧ s.turn = some (.issue, s)) := by decide

theorem witness_QuietMachineStaysAsItIs :
    (∀ d, (ready Ctx.reset []).busy d = false) ∧ (ready Ctx.reset []).inbox = [] := by
  refine ⟨fun d => ?_, rfl⟩
  match d with
  | 0 => rfl
  | d + 1 => rfl

theorem witness_PresentedWordRunsFirst :
    decodeTableWord 8 0x00 = some (.busInit 0 0) ∧ decodeTableWord 8 0x34 = some (.tsSetRes 0 0) ∧
    decodeTableWord 32 0xF0 = some .searchRom := by decide

theorem witness_ReservedOpcodeEndsAtIssue :
    let s := asked (.hostOp (record 0xFF));
    s.turn = some (.issue, s) ∧ s.inbox = [(0, .hostOp (record 0xFF))] ∧
      reservedOpcode ((record 0xFF).extractLsb' 160 8) = true ∧ s.ctxs[0]? = some Ctx.reset := by decide

/-! ## Witnesses: invariants and whole-machine rules -/

theorem witness_ResetMeetsTheInvariants : Config.default.Valid := default_valid

theorem witness_EveryStepKeepsSoundness :
    (running [1]).Sound ∧ ∃ t, step (running [1]) = .next t := ⟨running_sound _, running_step.2⟩

/-- A stop: a word that is none of the sixteen. -/
theorem witness_SoundStatesNeverStop :
    (running [0]).Sound ∧ step (asked (.cmdWord 0)) = .refused (.unlistedWord 0) :=
  ⟨running_sound _, rfl⟩

theorem witness_EveryStepKeepsTheAddressTable :
    (running [0]).Sound ∧ (running [0]).TableOk ∧ (running [0]).initialized = true ∧
      ∃ t, step (running [0]) = .next t :=
  ⟨running_sound _, ⟨fun _ => by decide, by decide, ⟨0, rfl⟩, fun h => by cases h⟩, rfl,
    running_step.1⟩

theorem witness_ConstructionIsForEver :
    (running [1]).initialized = true ∧ ∃ t, step (running [1]) = .next t := ⟨rfl, running_step.2⟩

theorem witness_EveryStepKeepsTheSearchLock :
    (running [0]).Sound ∧ (running [0]).LockOk ∧ ∃ t, step (running [0]) = .next t := by
  refine ⟨running_sound _, ⟨fun c d x y hc hd hx hy => ?_, fun _ _ _ => rfl, fun _ _ => ?_⟩, running_step.1⟩
  · have key : ∀ (c : Nat) x, (running [0]).ctxs[c]? = some x → x.holdsSearch = true → c = 0 := by
      intro c x hc hx
      match c with
      | 0 => rfl
      | 1 => cases hc; cases hx
      | c + 2 => cases hc
    rw [key c x hc hx, key d y hd hy]
  · exact ⟨_, List.mem_cons_self, rfl⟩

theorem witness_EveryStepKeepsTheDriverStates :
    (running [1]).Sound ∧ (running [1]).FsmOk ∧ ∃ t, step (running [1]) = .next t := by
  refine ⟨running_sound _, fun i y hy _ => ?_, running_step.2⟩
  match i with
  | 0 =>
    exact ⟨_, List.mem_cons_of_mem _ List.mem_cons_self, ⟨.inl rfl, rfl⟩, .inl ⟨.tConvWait, by decide, rfl⟩⟩
  | i + 1 => cases hy

/-- DEV_OPEN (`o = .devOpen`, `cs = []`) or TS_TEMP on sensor 0 in the poll of its reset, one answer given. -/
def polling (o : Op) (cs : List Phase) : State :=
  { withSensorA (at' o .rstPoll (.oReset :: cs)) [0x20] with trace := [(0, .write 4 0x10000)] }

/-- About to write CONVERT_T, the scope open, the match seen done. -/
def converting : State :=
  { withSensorA { inScope with op := some .tsTemp, pc := [.tConvCmd] } [] with trace := [(0, .read 8 0x8)] }

/-- A state of one context, with sensor 0 on `A`, is sound if its context is. -/
theorem one_sound (x : Ctx) (regs : List Word) (tr : List (Nat × Event)) (hx : x.Sound Config.default 1)
    (ha : ∀ p, chosenOffset Config.default x p = none ∨ x.pc.head? ≠ some p) :
    State.Sound { withSensorA x regs with trace := tr } where
  cfg := default_valid
  count := rfl
  ctxs z hz := by
    simp only [withSensorA, ready, List.mem_singleton] at hz
    subst hz; exact hx
  window _ := by
    show validWindow Config.default 0x10000 = true
    decide
  res y hy := by
    simp only [withSensorA, List.mem_singleton] at hy
    subst hy; decide
  access z hz p hp off ho := by
    simp only [withSensorA, ready, List.mem_singleton] at hz
    subst hz
    rcases ha p with h | h
    · rw [show (withSensorA z regs).cfg = Config.default from rfl, h] at ho; cases ho
    · exact absurd hp h
  before h := by simp [withSensorA, ready] at h

/-- A trace whose next event is MATCH ROM, and one whose next event is CONVERT_T; each is sound. -/
theorem witness_EveryStepKeepsTheOrder :
    (∃ t, step (polling .devOpen []) = .next t ∧ t.ctxs.map (·.pc) = [[.mCmd, .oMatch]] ∧
      t.eventsOf 0 = [.read 8 0x20, .write 4 0x10000]) ∧
    (polling .devOpen []).Sound ∧ (polling .devOpen []).OrderOk ∧
    (∃ t, step converting = .next t ∧ t.eventsOf 0 = [.write 4 0x44, .read 8 0x8]) ∧
    converting.Sound ∧ converting.OrderOk := by
  have only {k : Ctx} {c : Nat} {x : Ctx} (h : [k][c]? = some x) : c = 0 ∧ x = k := by
    cases c <;> simp_all
  refine ⟨⟨_, rfl, by decide, by decide⟩, one_sound _ _ _ ?_ ?_, ?_, ⟨_, rfl, by decide⟩,
    one_sound _ _ _ ?_ ?_, ?_⟩
  · simp [Ctx.Sound, at', Ctx.reset, Phase.isEvent, Phase.op, callerStacks, pollBound, Config.default]
  · intro p; by_cases h : Phase.rstPoll = p
    · subst h; exact .inl rfl
    · exact .inr fun e => h (Option.some.inj e)
  · refine ⟨fun c x cs h _ => ?_, fun c x cs h e => ?_, fun c x cs h e => ?_, fun c x y h e _ => ?_⟩ <;>
      obtain ⟨rfl, rfl⟩ := only h
    · decide
    · cases e
    · rcases e with e | e <;> cases e
    · obtain ⟨p, hp, e⟩ := e; cases e; exact absurd hp (by decide)
  · simp [Ctx.Sound, inScope, Ctx.reset, Phase.isEvent, Phase.op, callerStacks, pollBound, Config.default]
  · intro p; by_cases h : Phase.tConvCmd = p
    · subst h; exact .inl rfl
    · exact .inr fun e => h (Option.some.inj e)
  · refine ⟨fun c x cs h e => ?_, fun c x cs h e => ?_, fun c x cs h e => ⟨0x8, [], ?_⟩, fun c x y h e hy => ?_⟩ <;>
      obtain ⟨rfl, rfl⟩ := only h
    · rcases e with e | e <;> cases e
    · cases e
    · decide
    · cases hy; exact ⟨rfl, rfl⟩

/-- A delay, a clock sample, and samples already taken. -/
theorem witness_TimeOnlyPasses :
    (∃ t, step (running [1]) = .next t ∧ t.trace = (1, .delay 750000) :: (running [1]).trace) ∧
    (∃ t, step (withSensorA (at' .tsTemp .tNow0) []) = .next t ∧
      t.trace = (0, .now 0) :: (withSensorA (at' .tsTemp .tNow0) []).trace) ∧
    (running [1]).ClockOk := by
  refine ⟨⟨_, rfl, by decide⟩, ⟨_, rfl, by decide⟩, fun c t h => ?_, by decide⟩
  simp only [running, List.mem_singleton, Prod.mk.injEq, Event.now.injEq] at h
  obtain ⟨-, rfl⟩ := h
  decide

theorem witness_EveryRunStepIsOneEvent :
    ((running [1]).Sound ∧ (running [1]).turn = some (.run 1, running []) ∧
      ∃ t, step (running [1]) = .next t) ∧
    (let s : State := { running [0] with inbox := [(2, .hostOp (record 0x21))] };
      s.turn = some (.issue, { running [] with inbox := [(2, .hostOp (record 0x21))] })) ∧
    ∃ t, step (asked (.hostOp (record 0x21))) = .next t :=
  ⟨⟨running_sound _, by decide, running_step.2⟩, by decide, _, rfl⟩

theorem witness_OtherContextsAreLeftAlone : ∃ t, step (running [1]) = .next t := running_step.2

theorem witness_ResultsAreWellFormed :
    ∃ t, step (asked (.hostOp (record 0x21))) = .next t ∧ t.outbox = [(0, ⟨true, 0, .none, none⟩)] :=
  ⟨_, rfl, by decide⟩

theorem witness_OperationsRunDown :
    ((running [1]).Sound ∧ (running [1]).turn = some (.run 1, running []) ∧
      (running [1]).ctxs[1]? = some { inScope with op := some .tsTemp, pc := [.tConvWait] } ∧
      ∃ t, step (running [1]) = .next t) ∧
    (at' .tsTemp .tNow0).pc = [.tNow0] :=
  ⟨⟨running_sound _, by decide, rfl, running_step.2⟩, rfl⟩

theorem witness_EveryOperationEnds :
    (ready Ctx.reset []).Sound ∧ (ready Ctx.reset []).IdleAt Ctx.reset ∧
      (Instr.tsTemp (2 ^ 32 - 1)).WellFormed ∧ (∀ alarm, Instr.tsTemp (2 ^ 32 - 1) ≠ .busSearch alarm) :=
  ⟨ready_sound _, ready_idle _ _ rfl, by decide, fun _ h => by cases h⟩

/-- A step, a stop and a refusal. -/
theorem witness_GhostChangesNothing :
    (∃ t, step (running [0]) = .next t) ∧
    step (ready { Ctx.reset with op := some .busReset } []) = .fault .badSequencer ∧
    step (asked (.cmdWord 0)) = .refused (.unlistedWord 0) := ⟨running_step.1, rfl, rfl⟩

/-! ## Witnesses: the operations -/

theorem witness_AddressAccessors :
    State.reset.IdleAt Ctx.reset ∧ (record 0x10).extractLsb' 160 8 = 0x10#8 ∧
    (record 0x11).extractLsb' 160 8 = 0x11#8 ∧ (record 0x12).extractLsb' 160 8 = 0x12#8 ∧
    (record 0x13).extractLsb' 160 8 = 0x13#8 := ⟨⟨rfl, rfl⟩, by decide⟩

theorem witness_AddressEquality :
    State.reset.IdleAt Ctx.reset ∧ (record 0x14).extractLsb' 160 8 = 0x14#8 ∧ romA ∈ (running []).tab ∧
      romC ∉ (running []).tab := ⟨⟨rfl, rfl⟩, by decide⟩

/-- The smallest window (I9); both ends of the tolerance (I3, I5) and the values beside them (I4, I6). -/
theorem witness_BusInitConstructs :
    State.reset.IdleAt Ctx.reset ∧ State.reset.initialized = false ∧ (0x43C00000 < 2 ^ 64) ∧
    (0x30 < 2 ^ 32) ∧ 0x30 % 4 = 0 ∧ (∀ o ∈ State.reset.cfg.fixedOffsets, o + 4 ≤ 0x30) ∧
    ([32333000, 34333000].all fun f => decide (Config.default.plClkTarget ≤ f + Config.default.plClkTol ∧
      f ≤ Config.default.plClkTarget + Config.default.plClkTol)) = true ∧
    ([0, 32332999, 34333001].all fun f => decide (¬ (Config.default.plClkTarget ≤
      f + Config.default.plClkTol ∧ f ≤ Config.default.plClkTarget + Config.default.plClkTol))) = true :=
  ⟨⟨rfl, rfl⟩, by decide⟩

theorem witness_BusInitAgainChangesNothing :
    ((ready Ctx.reset []).IdleAt Ctx.reset ∧ (ready Ctx.reset []).initialized = true) ∧
    ((ready (at' .busInit .iClkset) []).ctx? = some (at' .busInit .iClkset) ∧
      (at' .busInit .iClkset).op = some .busInit ∧ (at' .busInit .iClkset).pc = [.iClkset] ∧
      (ready (at' .busInit .iClkset) []).initialized = true) ∧
    -- the two ends of the tolerance (R152)
    ([32333000, 34333000].all fun f =>
      let x : Ctx := at' .busInit .iClkget
      let s : State := { ready x [] with env := { script [] with clks := [f] } }
      decide (s.ctx? = some x ∧ x.op = some .busInit ∧ x.pc = [.iClkget] ∧ s.initialized = true ∧
        s.cfg.plClkTarget ≤ s.env.clk + s.cfg.plClkTol ∧
        s.env.clk ≤ s.cfg.plClkTarget + s.cfg.plClkTol)) = true :=
  ⟨⟨ready_idle _ _ rfl, rfl⟩, ⟨rfl, rfl, rfl, rfl⟩, by decide⟩

/-- I10, I11 and I12. -/
theorem witness_InvalidWindowIsRefused :
    State.reset.IdleAt Ctx.reset ∧ State.reset.initialized = false ∧
    ([0x2C, 0x32, 0].all fun r => decide (¬ (r % 4 = 0 ∧
      ∀ o ∈ State.reset.cfg.fixedOffsets, o + 4 ≤ r))) = true := ⟨⟨rfl, rfl⟩, by decide⟩

theorem witness_BusOperationsNeedBusInit :
    State.reset.IdleAt Ctx.reset ∧ State.reset.initialized = false ∧ State.reset.Sound := by
  have only : ∀ x ∈ State.reset.ctxs, x = Ctx.reset := fun x hx => by
    simpa [State.reset, State.resetWith, Config.default] using hx
  refine ⟨⟨rfl, rfl⟩, rfl, ⟨default_valid, rfl, fun x hx => ?_, fun h => (by cases h),
    fun y hy => (by cases hy), fun x hx p hp => ?_, fun _ => ⟨rfl, rfl, fun x hx => ?_⟩⟩⟩
  · rw [only x hx]; simp [Ctx.Sound, Ctx.reset]
  · rw [only x hx] at hp; simp [Ctx.reset] at hp
  · rw [only x hx]; exact ⟨rfl, .inl rfl⟩

/-- A poll that sees its flag at the first look, and one that does not in all the looks it has (B1, B3). -/
theorem pollAnswers_seen (m v : Word) (n : Nat) (hn : 1 ≤ n) (h : flagSet v m = true) :
    PollAnswers m n [v] true :=
  ⟨by simp, by simpa using hn, by simp, fun w hw => by cases hw; exact h, by simp⟩

theorem pollAnswers_silent (m : Word) : PollAnswers m 20 (List.replicate 20 0) false :=
  ⟨by decide, by decide, fun v hv => by
      have : v = 0 := List.eq_of_mem_replicate (List.mem_of_mem_dropLast hv)
      subst this; simp [flagSet],
    fun v hv => by cases hv; simp [flagSet], fun _ => rfl⟩

theorem witness_BusResetRuns (rest : List Word) :
    ((ready Ctx.reset ([0x020] ++ rest)).IdleAt Ctx.reset ∧
      (ready Ctx.reset ([0x020] ++ rest)).FixedAdmitted ∧ PollAnswers 0x020 20 [0x020] true) ∧
    ((ready Ctx.reset (List.replicate 20 0 ++ rest)).IdleAt Ctx.reset ∧
      PollAnswers 0x020 20 (List.replicate 20 0) false) :=
  ⟨⟨ready_idle _ _ rfl, ready_fixed _ _, pollAnswers_seen _ _ _ (by decide) (by decide)⟩,
    ready_idle _ _ rfl, pollAnswers_silent _⟩

theorem witness_BusMatchRuns (rest : List Word) :
    (ready Ctx.reset ([0x008] ++ rest)).IdleAt Ctx.reset ∧ Config.default.Valid ∧
      (ready Ctx.reset ([0x008] ++ rest)).FixedAdmitted ∧ PollAnswers 0x008 20 [0x008] true ∧
      PollAnswers 0x008 20 (List.replicate 20 0) false :=
  ⟨ready_idle _ _ rfl, default_valid, ready_fixed _ _, pollAnswers_seen _ _ _ (by decide) (by decide),
    pollAnswers_silent _⟩

/-- The last word of the window (A2). -/
theorem witness_BusReadAndWriteRun :
    (ready Ctx.reset []).IdleAt Ctx.reset ∧ (ready Ctx.reset []).initialized = true ∧ 0xFFFC < 2 ^ 32 ∧
      0xFFFC % 4 = 0 ∧ 0xFFFC + 4 ≤ (ready Ctx.reset []).addrRange :=
  ⟨ready_idle _ _ rfl, by decide⟩

/-- A3, A4 and A5; with no scope and in one. -/
theorem witness_AccessesOutsideTheWindowAreRefused :
    (ready Ctx.reset []).IdleAt Ctx.reset ∧ (ready inScope []).IdleAt inScope ∧ inScope.devOpen = true ∧
    ([0x10000, 0x09, 0xFFFE].all fun o => decide (¬ (o % 4 = 0 ∧ o + 4 ≤ (ready inScope []).addrRange))) =
      true := ⟨ready_idle _ _ rfl, ready_idle _ _ rfl, by decide⟩

/-- S6: three entries, one of them twice; and the poll that ends at once. -/
theorem witness_SearchHarvests (rest : List Word) :
    let answers := [0x001] ++ BitVec.ofNat 32 3 :: harvestAnswers [romA, romB, romA] ++ rest;
    (ready Ctx.reset answers).IdleAt Ctx.reset ∧ (ready Ctx.reset answers).lock = false ∧
      (ready Ctx.reset answers).FixedAdmitted ∧ SearchAnswers Config.default [0x001] ∧
      (ready Ctx.reset answers).env.regs = answers ∧
      ∀ i, i < 3 → 0x30 + 8 * i + 4 ≤ (ready Ctx.reset answers).addrRange ∧
        0x34 + 8 * i + 4 ≤ (ready Ctx.reset answers).addrRange := by
  refine ⟨ready_idle _ _ rfl, rfl, ready_fixed _ _, ⟨by decide, by simp, 0x001, rfl, by decide⟩, rfl,
    fun i hi => ?_⟩
  have : (ready Ctx.reset ([0x001] ++ BitVec.ofNat 32 3 :: harvestAnswers [romA, romB, romA] ++ rest)).addrRange
    = 0x10000 := rfl
  omega

/-- S3, S4, the end, the last allowed answer and one before it. -/
theorem witness_SearchPollPriority :
    (ready (at' .busSearch .sPoll) [0x100]).ctx? = some (at' .busSearch .sPoll) ∧
    (0x100#32 &&& Config.default.stSer ≠ 0) ∧
    (0x200#32 &&& Config.default.stSer = 0 ∧ 0x200#32 &&& Config.default.stSme ≠ 0) ∧
    (0x001#32 &&& Config.default.stSer = 0 ∧ 0x001#32 &&& Config.default.stSme = 0 ∧
      0x001#32 &&& Config.default.stSrd ≠ 0) ∧
    (0x400#32 &&& Config.default.stSer = 0 ∧ 0x400#32 &&& Config.default.stSme = 0 ∧
      0x400#32 &&& Config.default.stSrd = 0 ∧ 29 + 1 = Config.default.searchPollMax ∧
      28 + 1 ≠ Config.default.searchPollMax) := by decide

/-- S9, at the high half of entry 1; and windows that end at FOUND and inside entry 0. -/
theorem witness_HarvestStopsAtTheWindow :
    (inWindow 0x40 (romIdHi Config.default 1) = true ∧ 1 + 1 < (3#32).toNat ∧
      inWindow 0x40 (romIdLo Config.default 2) = false) ∧
    (inWindow 0x30 Config.default.offFound = true ∧ inWindow 0x30 (romIdLo Config.default 0) = false) ∧
    (inWindow 0x34 (romIdLo Config.default 0) = true ∧ inWindow 0x34 (romIdHi Config.default 0) = false) ∧
    (let x : Ctx := { at' .busSearch .sHi with tIdx := 1, tFound := 3 };
      ({ ready x [0x1C00000C] with addrRange := 0x40 } : State).ctx? = some x ∧ x.pc = [.sHi] ∧
        x.op = some .busSearch) := by decide

theorem witness_LockIsTestAndSet :
    (ready (at' .busSearch .sLock) []).ctx? = some (at' .busSearch .sLock) ∧
      (at' .busSearch .sLock).op = some .busSearch ∧ (at' .busSearch .sLock).pc = [.sLock] :=
  ⟨rfl, rfl, rfl⟩

/-- A table that is full, in a harvest of a code it holds and one it does not. -/
theorem witness_DiscoveryIsIdempotent :
    let s : State := { ready Ctx.reset [] with tab := [romA, romB], cap := 2 };
    s.tab.Nodup ∧ romB ∈ s.tab ∧ romC ∉ s.tab ∧ (s.insertAll [romB, romC]).cap = 4 := by decide

/-- V1, V2 and V3, from an open scope. -/
theorem witness_DevOpenRuns (rest : List Word) :
    ((ready inScope ([0x020] ++ [0x008] ++ rest)).IdleAt inScope ∧
      (ready inScope ([0x020] ++ [0x008] ++ rest)).FixedAdmitted ∧ Config.default.Valid) ∧
    (PollAnswers 0x020 20 [0x020] true ∧ PollAnswers 0x008 20 [0x008] true) ∧
    PollAnswers 0x020 20 (List.replicate 20 0) false ∧
    PollAnswers 0x008 20 (List.replicate 20 0) false :=
  ⟨⟨ready_idle _ _ rfl, ready_fixed _ _, default_valid⟩,
    ⟨pollAnswers_seen _ _ _ (by decide) (by decide), pollAnswers_seen _ _ _ (by decide) (by decide)⟩,
    pollAnswers_silent _, pollAnswers_silent _⟩

theorem witness_DevCloseClosesTheScope :
    (ready inScope []).IdleAt inScope ∧ (ready Ctx.reset []).IdleAt Ctx.reset ∧
      (record 0x21).extractLsb' 160 8 = 0x21#8 := ⟨ready_idle _ _ rfl, ready_idle _ _ rfl, by decide⟩

theorem witness_PassthroughAccessesRun :
    (ready inScope []).IdleAt inScope ∧ inScope.devOpen = true ∧ (ready inScope []).FixedAdmitted ∧
      0xFFFC < 2 ^ 32 ∧ 0xFFFC % 4 = 0 ∧ 0xFFFC + 4 ≤ (ready inScope []).addrRange :=
  ⟨ready_idle _ _ rfl, rfl, ready_fixed _ _, by decide⟩

theorem witness_PassthroughsNeedAScope :
    (ready Ctx.reset []).IdleAt Ctx.reset ∧ Ctx.reset.devOpen = false := ⟨ready_idle _ _ rfl, rfl⟩

/-- The two ends of the resolutions; no bound on the file, and a file with room for one more. -/
theorem witness_TsCreateAppendsASensor :
    (ready Ctx.reset []).IdleAt Ctx.reset ∧ (ready Ctx.reset []).initialized = true ∧
      (9 ≤ 9 ∧ 12 ≤ 12) ∧ (∀ most, (ready Ctx.reset []).cfg.nSensors = some most →
        (ready Ctx.reset []).sens.length < most) ∧
      (let s : State := { withSensorA Ctx.reset [] with cfg := { Config.default with nSensors := some 2 } };
        s.cfg.nSensors = some 2 ∧ s.sens.length < 2) :=
  ⟨ready_idle _ _ rfl, rfl, by decide, fun most h => (by cases h), by decide⟩

theorem witness_ResolutionIsAStoredValue :
    (withSensorA Ctx.reset []).IdleAt Ctx.reset ∧ (withSensorA Ctx.reset []).sens[0]? = some sensorA ∧
      (9 ≤ 9 ∧ 9 ≤ 12) ∧ (9 ≤ 12 ∧ 12 ≤ 12) ∧ ¬ (9 ≤ 8 ∧ 8 ≤ 12) ∧ ¬ (9 ≤ 13 ∧ 13 ≤ 12) ∧
      (withSensorA Ctx.reset []).sens.length ≤ 1 ∧
      (record 0x33).extractLsb' 160 8 = 0x33#8 ∧ (record 0x34).extractLsb' 160 8 = 0x34#8 :=
  ⟨⟨rfl, rfl⟩, rfl, by decide⟩

theorem witness_BadOperandsAreRefused :
    (withSensorA Ctx.reset []).IdleAt Ctx.reset ∧ (withSensorA Ctx.reset []).sens.length ≤ 1 ∧
      ¬ (9 ≤ 8 ∧ 8 ≤ 12) ∧ ¬ (9 ≤ 13 ∧ 13 ≤ 12) ∧ (withSensorA Ctx.reset []).initialized = true ∧
      (let s : State := { withSensorA Ctx.reset [] with cfg := { Config.default with nSensors := some 1 } };
        s.cfg.nSensors = some 1 ∧ 1 ≤ s.sens.length) := ⟨⟨rfl, rfl⟩, by decide⟩

/-- T10: one microsecond before the timeout. -/
theorem witness_FreshCacheIsReturned :
    let y : Sensor := { sensorA with cacheVal := 85000, cacheTs := 1800000, cacheValid := true }
    let s : State := { ready Ctx.reset [] with sens := [y], clock := 6799999 };
    s.IdleAt Ctx.reset ∧ 0 < 2 ^ 32 ∧ s.sens[0]? = some y ∧ y.cacheValid = true ∧
      s.clock + s.env.dt < y.cacheTs + y.refresh := ⟨⟨rfl, rfl⟩, by decide⟩

/-- T9: no reading cached; T11: one as old as the timeout. -/
theorem witness_TemperatureIsRead (rest : List Word) :
    (withSensorA Ctx.reset
        ([0x020] ++ [0x008] ++ 0x004 :: [0x020] ++ [0x008] ++ [0x010] ++ 0x0550 :: rest)).IdleAt Ctx.reset ∧
    Config.default.Valid ∧ (withSensorA Ctx.reset rest).FixedAdmitted ∧
    (withSensorA Ctx.reset rest).sens[0]? = some sensorA ∧ (9 ≤ sensorA.res ∧ sensorA.res ≤ 12) ∧
    ¬ (sensorA.cacheValid = true ∧ 0 < sensorA.cacheTs + sensorA.refresh) ∧
    ¬ (6800000 < 1800000 + 5000000) ∧
    PollAnswers 0x020 20 [0x020] true ∧ PollAnswers 0x008 20 [0x008] true ∧ 0x004#32 &&& 0x004#32 ≠ 0 ∧
    PollAnswers 0x010 20 [0x010] true :=
  ⟨⟨rfl, rfl⟩, default_valid, ready_fixed Ctx.reset rest, rfl, by decide, by decide, by decide,
    pollAnswers_seen _ _ _ (by decide) (by decide), pollAnswers_seen _ _ _ (by decide) (by decide),
    by decide, pollAnswers_seen _ _ _ (by decide) (by decide)⟩

/-- T12, and an open whose match is not seen to end. -/
theorem witness_FailedFirstOpenEndsTheRead (rest : List Word) :
    (withSensorA Ctx.reset (List.replicate 20 0 ++ [] ++ rest)).IdleAt Ctx.reset ∧
    (withSensorA Ctx.reset ([0x020] ++ List.replicate 20 0 ++ rest)).IdleAt Ctx.reset ∧
    Config.default.Valid ∧ (withSensorA Ctx.reset rest).FixedAdmitted ∧
    (withSensorA Ctx.reset rest).sens[0]? = some sensorA ∧ sensorA.cacheValid = false ∧
    PollAnswers 0x020 20 (List.replicate 20 0) false ∧ PollAnswers 0x020 20 [0x020] true ∧
    PollAnswers 0x008 20 (List.replicate 20 0) false :=
  ⟨⟨rfl, rfl⟩, ⟨rfl, rfl⟩, default_valid, ready_fixed Ctx.reset rest, rfl, rfl, pollAnswers_silent _,
    pollAnswers_seen _ _ _ (by decide) (by decide), pollAnswers_silent _⟩

/-- T13, and the same with command-done; by itself and called by a TS_TEMP_F. -/
theorem witness_ConversionIsCheckedOnce :
    (withSensorA (at' .tsTemp .tConvChk) [0]).ctx? = some (at' .tsTemp .tConvChk) ∧
    (withSensorA (at' .tsTempF .tConvChk [.fCall]) [0]).ctx? = some (at' .tsTempF .tConvChk [.fCall]) ∧
    (withSensorA (at' .tsTemp .tConvChk) [0]).sens[(at' .tsTemp .tConvChk).opc.toNat]? = some sensorA ∧
    0x08 % 4 = 0 ∧ 0x08 + 4 ≤ (withSensorA (at' .tsTemp .tConvChk) [0]).addrRange ∧
    (0x000#32 &&& 0x004#32 = 0) ∧ (0x004#32 &&& 0x004#32 ≠ 0) := by decide

/-- T14: a poll exhausted in the last attempt; an open without reset-done in one before it; an open without
write-done in the first. -/
theorem witness_FailedAttemptIsRetried :
    (let x : Ctx := { at' .tsTemp .tRdPoll with pollCnt := 19, retryCnt := 20 };
      (withSensorA x [0]).ctx? = some x ∧ (withSensorA x [0]).sens[x.opc.toNat]? = some sensorA ∧
        x.pollCnt + 1 = Config.default.scratchPollMax ∧ x.retryCnt = Config.default.scratchRetryMax) ∧
    (let x : Ctx := { at' .tsTempF .rstPoll [.oReset, .tOpen2, .fCall] with pollCnt := 19, retryCnt := 19 };
      (withSensorA x [0]).ctx? = some x ∧ x.pc = [.rstPoll, .oReset, .tOpen2, .fCall] ∧
        x.pollCnt + 1 = Config.default.resetPollMax ∧ x.retryCnt ≠ Config.default.scratchRetryMax) ∧
    (let x : Ctx := { at' .tsTemp .mPoll [.oMatch, .tOpen2] with pollCnt := 19, retryCnt := 1 };
      (withSensorA x [0]).ctx? = some x ∧ x.pc = [.mPoll, .oMatch, .tOpen2] ∧
        x.pollCnt + 1 = Config.default.matchPollMax ∧ x.retryCnt ≠ Config.default.scratchRetryMax) ∧
    0x000#32 &&& 0x010#32 = 0 ∧ 0x000#32 &&& 0x020#32 = 0 ∧ 0x000#32 &&& 0x008#32 = 0 := by decide

theorem witness_MilliCRoundsToTheNearest : (1 : Int) % 2 = 1 ∧ (-3 : Int) % 2 = 1 := by decide

theorem witness_DecoderRange : (0xFFFF0550#32).extractLsb' 0 16 = (0x00000550#32).extractLsb' 0 16 := by
  decide

theorem witness_CommandWordsAreWritten :
    (ready Ctx.reset []).IdleAt Ctx.reset ∧ (ready Ctx.reset []).initialized = true ∧
      Config.default.Valid ∧ (ready Ctx.reset []).FixedAdmitted :=
  ⟨ready_idle _ _ rfl, rfl, default_valid, ready_fixed _ _⟩

/-- A request that goes on, one refused before BUS_INIT and one that ends at issue; one refused with
`F_BAD_OPERAND` and one that has no operand. -/
theorem witness_IssueLatchesTheOperands :
    (ready Ctx.reset []).IdleAt Ctx.reset ∧ State.reset.IdleAt Ctx.reset ∧
    (∃ t, exec (.busRd 0xFFFC) (ready Ctx.reset []) = .next t) ∧
    (∃ t, exec (.busRd 0xFFFC) State.reset = .next t) ∧
    (∃ t, exec (.tsGetRes 0) (withSensorA Ctx.reset []) = .next t) ∧
    (∃ t, exec (.tsGetRes 1) (withSensorA Ctx.reset []) = .next t ∧
      t.outbox = [(0, ⟨false, 0xF3, .none, some .badOperand⟩)]) ∧
    ∃ t, exec .devClose (ready Ctx.reset []) = .next t :=
  ⟨⟨rfl, rfl⟩, ⟨rfl, rfl⟩, ⟨_, rfl⟩, ⟨_, rfl⟩, ⟨_, rfl⟩, ⟨_, rfl, rfl⟩, ⟨_, rfl⟩⟩

end Sys2Proof.Tests
end

/-! # Scope: results and reset (00_scope.md)

Every result a step delivers is well formed because every shared operation an instruction is made of
delivers only well-formed ones (`Kept.results`). Reset meets the invariants because its contexts are all
`Ctx.reset`, idle with an empty stack, and its table, sensor file and trace are empty. -/

namespace Sys2Proof.Machine

/-! ## What a step delivers (rules R10, R265) -/

/-- The results a step delivers are put before those delivered already, and are well formed. -/
theorem step_results {s t : State} (h : step s = .next t) :
    ∃ new, t.outbox = new ++ s.outbox ∧ ∀ r ∈ new, r.2.WellFormed := by
  rcases step_does h with rfl | ⟨u, evs, hd, -, e, hu, -⟩
  · exact ⟨[], by simp⟩
  · have hout : u.outbox = s.outbox := by rw [hu]
    obtain ⟨new, hnew, hwf⟩ := hd.kept.results
    exact ⟨new, hout ▸ hnew, fun r hr => (hwf r hr).2⟩

/-- Settles O25: each result is well formed by `step_results`, the reserved code being 7. -/
theorem resultsAreWellFormed : Obligations.ResultsAreWellFormed :=
  fun _ _ h => step_results h

/-! ## Reset (rules R53, R300) -/

section
variable {k : Config} {x : Ctx}

theorem eq_reset_of_mem_resetWith (h : x ∈ (State.resetWith k).ctxs) : x = Ctx.reset :=
  List.eq_of_mem_replicate h

theorem eq_reset_of_getElem?_resetWith {c : Nat} (h : (State.resetWith k).ctxs[c]? = some x) :
    x = Ctx.reset :=
  eq_reset_of_mem_resetWith (List.mem_of_getElem? h)

@[simp] theorem holdsSearch_reset : Ctx.reset.holdsSearch = false := rfl

/-- A context at reset is in no phase. -/
theorem not_commandsDevice_reset : ¬ Ctx.reset.commandsDevice := by
  rintro ⟨p, -, hp⟩
  cases hp

theorem resetWith_sound (hk : k.Valid) : (State.resetWith k).Sound where
  cfg := hk
  count := List.length_replicate
  ctxs _ hx := eq_reset_of_mem_resetWith hx ▸ Nat.zero_le _
  window h := nomatch h
  res _ hy := nomatch hy
  access x hx p hp := by
    obtain rfl := eq_reset_of_mem_resetWith hx
    cases hp
  before _ := by
    refine ⟨rfl, rfl, fun x hx => ?_⟩
    obtain rfl := eq_reset_of_mem_resetWith hx
    exact ⟨rfl, .inl rfl⟩

theorem resetWith_tableOk (k : Config) : (State.resetWith k).TableOk where
  fits h := nomatch h
  distinct := List.nodup_nil
  doubled := ⟨0, (Nat.mul_one _).symm⟩
  empty _ := rfl

theorem resetWith_lockOk (k : Config) : (State.resetWith k).LockOk where
  one _ _ x _ hx _ h := by
    obtain rfl := eq_reset_of_getElem?_resetWith hx
    simp at h
  held x hx h := by
    obtain rfl := eq_reset_of_mem_resetWith hx
    simp at h
  only _ h := nomatch h

/-- There is no sensor at reset. -/
theorem resetWith_fsmOk (k : Config) : (State.resetWith k).FsmOk :=
  fun _ _ hy => nomatch hy

/-- The ordering invariant speaks of contexts in a phase, and at reset no context is in one. -/
theorem resetWith_orderOk (k : Config) : (State.resetWith k).OrderOk where
  pulsed _ x _ hx hpc := by
    obtain rfl := eq_reset_of_getElem?_resetWith hx
    rcases hpc with hpc | hpc <;> cases hpc
  resetSeen _ x _ hx hpc := by
    obtain rfl := eq_reset_of_getElem?_resetWith hx
    cases hpc
  matchSeen _ x _ hx hpc := by
    obtain rfl := eq_reset_of_getElem?_resetWith hx
    rcases hpc with hpc | hpc <;> cases hpc
  scope _ x _ hx hc := by
    obtain rfl := eq_reset_of_getElem?_resetWith hx
    exact absurd hc not_commandsDevice_reset

/-- The trace at reset has no sample. -/
theorem resetWith_clockOk (k : Config) : (State.resetWith k).ClockOk :=
  ⟨fun _ _ h => (nomatch h), List.Pairwise.nil⟩

end

/-- Settles O14: one lemma for each invariant, and `default_valid` for the default parameters. -/
theorem resetMeetsTheInvariants : Obligations.ResetMeetsTheInvariants :=
  ⟨fun k hk => ⟨resetWith_sound hk, resetWith_tableOk k, resetWith_lockOk k, resetWith_fsmOk k,
    resetWith_orderOk k, resetWith_clockOk k⟩, Tests.default_valid, rfl⟩

end Sys2Proof.Machine

/-! # The step and the state (10_state.md): who moves

A step finds who moves and runs one instruction in the context `cur`. What follows says what a choice of the
scheduler can bring about, and that the step of a choice is `exec` of the instruction found. -/

namespace Sys2Proof.Machine

/-! ## Choices of the scheduler (rules R50, R51, R84) -/

/-- Each of the moves that can be taken is brought about by some choice. -/
theorem exists_choice {s : State} {m : Turn} (h : m ∈ s.turns) :
    ∃ p t, State.turn { s with env := { s.env with picks := p :: s.env.picks } } = some (m, t) := by
  obtain ⟨p, hp, rfl⟩ := List.getElem_of_mem h
  have same : State.turns { s with env := { s.env with picks := p :: s.env.picks } } = s.turns := rfl
  refine ⟨p, ?_⟩
  match e : s.turns, hp with
  | [m], hp =>
    obtain rfl : p = 0 := by simpa using hp
    exact ⟨_, by simp [State.turn, same, e]; rfl⟩
  | m :: m' :: ms, hp =>
    have pick : Env.pick { s.env with picks := p :: s.env.picks } = p := rfl
    refine ⟨_, by simp only [State.turn, same, e, pick]; rw [Nat.mod_eq_of_lt hp, List.getD_eq_getElem _ _ hp]⟩

theorem turn_of_turns {s : State} {m : Turn} (h : s.turns = [m]) : s.turn = some (m, s) := by
  simp [State.turn, h]

theorem busyContexts_nil {s : State} (h : ∀ d, s.busy d = false) : s.busyContexts = [] := by
  simp [State.busyContexts, h]

theorem busyContexts_singleton {s : State} {c : Nat} (hc : s.busy c = true)
    (h : ∀ d, s.busy d = true → d = c) : s.busyContexts = [c] := by
  have nodup : s.busyContexts.Nodup := List.nodup_range.filter _
  refine List.perm_singleton.mp ((List.perm_ext_iff_of_nodup nodup (by simp)).mpr fun d => ?_)
  rw [mem_busyContexts, List.mem_singleton]
  exact ⟨h d, fun e => e ▸ hc⟩

theorem busy_of_inFlight {s : State} {c : Nat} {x : Ctx} {i : Instr} (hx : s.ctxs[c]? = some x)
    (hi : x.inFlight = some i) : s.busy c = true := by
  obtain ⟨o, ho, -⟩ := Option.map_eq_some_iff.mp hi
  simp [State.busy, hx, ho]

/-- Settles O9: each of them is among the turns that can be taken, and every turn can be chosen. -/
theorem whoeverCanMoveMayMoveNext : Obligations.WhoeverCanMoveMayMoveNext := fun _ =>
  ⟨fun _ hc => exists_choice (mem_turns_run.mpr hc),
    fun c q rest hin hc => exists_choice (mem_turns_issue.mpr ⟨c, q, rest, hin, hc⟩),
    fun _ _ h => mem_turns_run.mp (turn_some h).1, fun _ h => mem_turns_issue.mp (turn_some h).1⟩

/-! ## The step of a choice (rules R50, R51, R85, R102) -/

theorem step_issue {s t : State} {c : Nat} {q : Request} {rest : List (Nat × Request)} {i : Instr}
    (ht : s.turn = some (.issue, t)) (hin : s.inbox = (c, q) :: rest) (hq : decode q = .instr i) :
    step s = exec i { t with inbox := rest, cur := c } := by
  simp [step, State.fetch, ht, State.fetchRequest, turn_inbox ht, hin, hq]

theorem step_reject {s t : State} {c : Nat} {q : Request} {rest : List (Nat × Request)} {r : Reject}
    (ht : s.turn = some (.issue, t)) (hin : s.inbox = (c, q) :: rest) (hq : decode q = .reject r) :
    step s = rejectRequest r { t with inbox := rest, cur := c } := by
  simp [step, State.fetch, ht, State.fetchRequest, turn_inbox ht, hin, hq]

theorem step_run {s t : State} {c : Nat} {x : Ctx} {i : Instr} (ht : s.turn = some (.run c, t))
    (hx : s.ctxs[c]? = some x) (hi : x.inFlight = some i) : step s = exec i { t with cur := c } := by
  simp [step, State.fetch, ht, State.fetchInFlight, turn_ctxs ht, hx, hi]

/-- Settles O6: the step of an issue, which is the only turn when no context is busy. -/
theorem stepRunsTheHostsRequest : Obligations.StepRunsTheHostsRequest := by
  intro s c q rest i hin hq
  refine ⟨fun t ht => ⟨step_issue ht hin hq, (turn_some ht).2⟩, fun hidle => ?_⟩
  have only : s.turns = [.issue] := by simp [State.turns, hin, hidle, busyContexts_nil hidle]
  exact step_issue (turn_of_turns only) hin hq

/-- Settles O7: the step of a run, which is the only turn when no other context is busy and the host waits
with nothing. -/
theorem stepRunsTheOperationInFlight : Obligations.StepRunsTheOperationInFlight := by
  intro s c x i hx hi
  refine ⟨fun t ht => ⟨step_run ht hx hi, (turn_some ht).2⟩, fun honly hin => ?_⟩
  have only : s.turns = [.run c] := by
    simp [State.turns, hin, busyContexts_singleton (busy_of_inFlight hx hi) honly]
  exact step_run (turn_of_turns only) hx hi

/-! ## Construction (rules R21, R22, R323 (b)) -/

/-- Settles O18: a step is made of shared operations, and none of them changes the parameters or undoes the
construction (`Does.kept`). -/
theorem constructionIsForEver : Obligations.ConstructionIsForEver := by
  intro s t h
  rcases step_does h with rfl | ⟨u, evs, hd, -, e, hu, -⟩
  · exact ⟨rfl, fun hi => ⟨hi, rfl, rfl⟩⟩
  · rw [hu] at hd
    exact ⟨hd.kept.cfg, hd.kept.initialized⟩

end Sys2Proof.Machine

/-! ## One event, whatever the ghost (rules R28, R50, R85)

One traversal of the phases says two things of an event: that the ghost `bus_phase` decides nothing but itself
(`SameButGhost`), and that the operation in flight goes on with its latches or ends with one result (`Leads`). -/

namespace Sys2Proof.Machine

/-- The state with another ghost. -/
def State.withGhost (b : BusPhase) (s : State) : State := { s with busPhase := b }

section
variable (s : State) (b : BusPhase)
@[simp] theorem withGhost_cfg : (s.withGhost b).cfg = s.cfg := rfl
@[simp] theorem withGhost_initialized : (s.withGhost b).initialized = s.initialized := rfl
@[simp] theorem withGhost_lock : (s.withGhost b).lock = s.lock := rfl
@[simp] theorem withGhost_tab : (s.withGhost b).tab = s.tab := rfl
@[simp] theorem withGhost_sens : (s.withGhost b).sens = s.sens := rfl
@[simp] theorem withGhost_env : (s.withGhost b).env = s.env := rfl
@[simp] theorem withGhost_ctx? : (s.withGhost b).ctx? = s.ctx? := rfl
@[simp] theorem withGhost_admitted (off : Nat) : (s.withGhost b).admitted off = s.admitted off := rfl
@[simp] theorem withGhost_nowAnswer : (s.withGhost b).nowAnswer = s.nowAnswer := rfl
end

/-- Two outcomes that differ in the ghost of the next state at most. -/
inductive SameButGhost : Out → Out → Prop
  | next (t : State) (b : BusPhase) : SameButGhost (.next t) (.next (t.withGhost b))
  | fault (f : Fault) : SameButGhost (.fault f) (.fault f)
  | refused (r : Refusal) : SameButGhost (.refused r) (.refused r)

/-- The operation of a context and its operand latches (R46, R49). -/
def Ctx.latches (x : Ctx) : Option Op × BitVec 64 × BitVec 64 × BitVec 32 := (x.op, x.opa, x.opb, x.opc)

/-- From `s` to `u` no result has been delivered, the address table is as it was, and the current context
holds the same operation with the same latches. -/
structure Quiet (s u : State) : Prop where
  cur : u.cur = s.cur
  outbox : u.outbox = s.outbox
  tab : u.tab = s.tab
  cap : u.cap = s.cap
  latches : u.ctx?.map Ctx.latches = s.ctx?.map Ctx.latches

namespace Quiet

theorem refl (s : State) : Quiet s s := ⟨rfl, rfl, rfl, rfl, rfl⟩

theorem trans {s t u : State} (h : Quiet s t) (h' : Quiet t u) : Quiet s u :=
  ⟨h'.cur.trans h.cur, h'.outbox.trans h.outbox, h'.tab.trans h.tab, h'.cap.trans h.cap,
    h'.latches.trans h.latches⟩

theorem ctx (s : State) {f : Ctx → Ctx} (hf : ∀ y, (f y).latches = y.latches := by exact fun _ => rfl) :
    Quiet s (s.updCtx f) := by
  have : Ctx.latches ∘ f = Ctx.latches := funext hf
  exact ⟨rfl, rfl, rfl, rfl, by rw [ctx?_updCtx, Option.map_map, this]⟩

theorem goto (s : State) (pc : List Phase) : Quiet s (s.goto pc) := ctx s
theorem callOpen (s : State) (pc : List Phase) : Quiet s (s.callOpen pc) := ctx s
theorem closeScope (s : State) : Quiet s s.closeScope := ctx s
theorem read (s : State) (off : Nat) : Quiet s (s.didRead off) := ⟨rfl, rfl, rfl, rfl, rfl⟩
theorem write (s : State) (off : Nat) (v : Word) : Quiet s (s.didWrite off v) := ⟨rfl, rfl, rfl, rfl, rfl⟩
theorem delay (s : State) (d : Nat) : Quiet s (s.didDelay d) := ⟨rfl, rfl, rfl, rfl, rfl⟩
theorem now (s : State) : Quiet s s.didNow := ⟨rfl, rfl, rfl, rfl, rfl⟩
theorem clkGet (s : State) : Quiet s s.didClkGet := ⟨rfl, rfl, rfl, rfl, rfl⟩
theorem clkSet (s : State) (f : Nat) : Quiet s (s.didClkSet f) := ⟨rfl, rfl, rfl, rfl, rfl⟩
theorem lockTas (s : State) : Quiet s s.didLockTas := ⟨rfl, rfl, rfl, rfl, rfl⟩
theorem setLock (s : State) (b : Bool) : Quiet s { s with lock := b } := ⟨rfl, rfl, rfl, rfl, rfl⟩
theorem ghost (s : State) (b : BusPhase) : Quiet s { s with busPhase := b } := ⟨rfl, rfl, rfl, rfl, rfl⟩
theorem sensor (s : State) (i : Nat) (f : Sensor → Sensor) : Quiet s (s.updSensor i f) :=
  ⟨rfl, rfl, rfl, rfl, rfl⟩
theorem setFsm (s : State) (x : Ctx) (f : Fsm) : Quiet s (s.setFsm x f) := sensor s _ _
theorem exitTemp (s : State) (x : Ctx) : Quiet s (s.exitTemp x) := (closeScope s).trans (setFsm _ x _)
theorem polled (x : Ctx) (s : State) : Quiet s (polled x s) := (read s _).trans (ctx _)

theorem ghostWrite (s : State) (off : Nat) (b : Bool) : Quiet s (s.ghostWrite off b) :=
  ⟨by simp, by simp, by simp, by simp, by simp⟩

/-- The construction that ends a BUS_INIT, made before the event instead of after it. -/
theorem constructAfter {s u : State} (x : Ctx) (h : Quiet s u) (hi : u.initialized = s.initialized)
    (hc : u.cfg = s.cfg) : Quiet (s.construct x) (u.construct x) := by
  refine ⟨by simpa using h.cur, by simpa using h.outbox, ?_, ?_, by simpa using h.latches⟩ <;>
    simp only [State.construct, hi, hc] <;> split <;> simp [h.tab, h.cap]

/-- The insertion of a code, made before the event instead of after it. -/
theorem insertAfter {s u : State} (r : RomCode) (h : Quiet s u) :
    Quiet (s.insertIfNew r) (u.insertIfNew r) :=
  ⟨by simpa using h.cur, by simpa using h.outbox, by simp only [insertIfNew_tab, h.tab],
    by simp only [insertIfNew_cap, h.tab, h.cap], by simpa using h.latches⟩

end Quiet

/-- The operation has gone on from `s` to `t` with its latches, or ended there with one result. -/
def Leads (s t : State) : Prop := ∃ u, Quiet s u ∧ (t = u ∨ ∃ r, t = u.deliver r)

/-- What a piece of an event does, in `s` and in `s` with another ghost. -/
structure Continues (s : State) (o o' : Out) : Prop where
  ghost : SameButGhost o o'
  leads : ∀ t, o = .next t → Leads s t

theorem Continues.before {s u : State} {o o' : Out} (hq : Quiet s u) (h : Continues u o o') :
    Continues s o o' :=
  ⟨h.ghost, fun t e => by
    obtain ⟨v, hv, hl⟩ := h.leads t e
    exact ⟨v, hq.trans hv, hl⟩⟩

/-- The operation goes on after quiet writes. That the two next states differ in the ghost alone is a side
condition, here and below, that `rfl` proves. -/
theorem continues_next {s u u' : State} (hq : Quiet s u) (h : u' = u.withGhost u'.busPhase := by rfl) :
    Continues s (.next u) (.next u') :=
  ⟨h ▸ .next u _, fun _ e => ⟨u, hq, .inl (Host.Outcome.next.inj e).symm⟩⟩

theorem continues_deliver {s u u' : State} (r : Result) (hq : Quiet s u)
    (h : u' = u.withGhost u'.busPhase := by rfl) : Continues s (.next (u.deliver r)) (.next (u'.deliver r)) :=
  ⟨h ▸ .next (u.deliver r) _, fun _ e => ⟨u, hq, .inr ⟨r, (Host.Outcome.next.inj e).symm⟩⟩⟩

theorem continues_fault (s : State) (f : Fault) : Continues s (.fault f) (.fault f) :=
  ⟨.fault f, fun _ e => nomatch e⟩

/-! ### The shared operations -/

section
variable {s s' : State} {b : BusPhase}

theorem withCtx_continues {k k' : Ctx → Out} (hk : ∀ x, Continues s (k x) (k' x)) :
    Continues s (withCtx s k) (withCtx (s.withGhost b) k') := by
  unfold withCtx
  rw [withGhost_ctx?]
  split
  · exact hk _
  · exact continues_fault s _

theorem withSensor_continues {x : Ctx} {k k' : Sensor → Out} (hk : ∀ y, Continues s (k y) (k' y)) :
    Continues s (withSensor x s k) (withSensor x (s.withGhost b) k') := by
  unfold withSensor
  rw [withGhost_sens]
  split
  · exact hk _
  · exact continues_fault s _

theorem withRom_continues {x : Ctx} {k k' : RomCode → Out} (hk : ∀ r, Continues s (k r) (k' r)) :
    Continues s (withRom x s k) (withRom x (s.withGhost b) k') := by
  unfold withRom
  split
  · exact hk _
  · exact hk _
  · exact withSensor_continues fun y => hk y.addr
  · exact withSensor_continues fun y => hk y.addr
  · exact continues_fault s _

theorem readReg_continues {off : Nat} {k k' : Word → State → Out}
    (hk : ∀ v u, Continues u (k v u) (k' v (u.withGhost b))) :
    Continues s (readReg off s k) (readReg off (s.withGhost b) k') := by
  unfold readReg
  rw [withGhost_admitted]
  split
  · exact (hk _ _).before (.read s off)
  · exact continues_deliver _ (.refl s)

theorem writeReg_continues {off : Nat} {w : Word} {k k' : State → Out}
    (hk : ∀ u, Continues u (k u) (k' (u.withGhost b))) :
    Continues s (writeReg off w s k) (writeReg off w (s.withGhost b) k') := by
  unfold writeReg
  rw [withGhost_admitted]
  split
  · exact (hk _).before (.write s off w)
  · exact continues_deliver _ (.refl s)

theorem pollOnce_continues {mask : Word} {bound : Nat} {wait : List Phase} {x : Ctx} {d d' e e' : State → Out}
    (hd : ∀ u, Continues u (d u) (d' (u.withGhost b))) (he : ∀ u, Continues u (e u) (e' (u.withGhost b))) :
    Continues s (pollOnce mask bound wait x s d e) (pollOnce mask bound wait x (s.withGhost b) d' e') := by
  refine readReg_continues fun v u => ?_
  dsimp only
  split
  · exact (hd _).before (.ctx u)
  · split
    · exact (he _).before (.ctx u)
    · exact continues_next ((Quiet.ctx u).trans (.goto _ _))

theorem waitOnce_continues (d : Nat) (poll : List Phase) :
    Continues s (waitOnce d poll s) (waitOnce d poll (s.withGhost b)) :=
  continues_next ((Quiet.delay s d).trans (.goto _ poll))

theorem failAttempt_continues {cs : List Phase} {g g' : Result → State → Out}
    (hg : ∀ r u, Continues u (g r u) (g' r (u.withGhost b))) :
    Continues s (failAttempt cs s g) (failAttempt cs (s.withGhost b) g') := by
  refine withCtx_continues fun x => ?_
  rw [withGhost_cfg]
  split
  · exact (hg _ _).before (.exitTemp s x)
  · exact continues_next ((Quiet.ctx s).trans (.callOpen _ _))

theorem ret_continues (cs : List Phase) : ∀ (r : Result) (s : State),
    Continues s (ret cs r s) (ret cs r (s.withGhost b)) := by
  induction cs with
  | nil => exact fun r s => continues_deliver r (.refl s)
  | cons p cs ih =>
    intro r s
    cases p
    case oReset =>
      simp only [ret]
      split
      · exact continues_next (.goto s _)
      · exact ih _ s
    case oMatch =>
      simp only [ret]
      split
      · exact withCtx_continues fun x => withRom_continues fun rom => (ih _ _).before (.ctx s)
      · exact ih _ s
    case tOpen1 =>
      simp only [ret]
      split
      · exact continues_next (.goto s _)
      · exact withCtx_continues fun x => (ih _ _).before (.exitTemp s x)
    case tOpen2 =>
      simp only [ret]
      split
      · exact continues_next (.goto s _)
      · exact failAttempt_continues ih
    case fCall =>
      simp only [ret]
      split
      · exact ih _ s
      · exact continues_fault s _
    all_goals exact continues_fault s _

/-- A return after quiet writes, the ghost among them. -/
theorem ret_continues_after {cs : List Phase} {r : Result} {u u' : State} (hq : Quiet s u)
    (h : u' = u.withGhost u'.busPhase := by rfl) : Continues s (ret cs r u) (ret cs r u') :=
  .before hq (h ▸ ret_continues cs r u)

/-! ### The search -/

theorem Quiet.releaseOnAbort (s : State) : Quiet s s.releaseOnAbort := .setLock s _

theorem searchWindow_continues (off : Nat) {u u' : State} (hq : Quiet s u)
    (h : u' = u.withGhost u'.busPhase := by rfl) :
    Continues s (searchWindow off u) (searchWindow off u') := by
  rw [h]
  exact continues_deliver _ (hq.trans (.releaseOnAbort u))

theorem searchFail_continues {cs : List Phase} {e : Err} {u u' : State} (hq : Quiet s u)
    (h : u' = u.withGhost u'.busPhase := by rfl) :
    Continues s (searchFail cs e u) (searchFail cs e u') := by
  rw [h]
  exact ret_continues_after (hq.trans (.releaseOnAbort u))

theorem searchWrite_continues {off : Nat} {w : Word} {k k' : State → Out}
    (hk : ∀ u, Continues u (k u) (k' (u.withGhost b))) :
    Continues s (searchWrite off w s k) (searchWrite off w (s.withGhost b) k') := by
  unfold searchWrite
  rw [withGhost_admitted]
  split
  · exact (hk _).before (.write s off w)
  · exact searchWindow_continues off (.refl s)

theorem searchRead_continues {off : Nat} {k k' : Word → State → Out}
    (hk : ∀ v u, Continues u (k v u) (k' v (u.withGhost b))) :
    Continues s (searchRead off s k) (searchRead off (s.withGhost b) k') := by
  unfold searchRead
  rw [withGhost_admitted]
  split
  · exact (hk _ _).before (.read s off)
  · exact searchWindow_continues off (.refl s)

theorem harvest_continues {cs : List Phase} {i found : Nat} {u u' : State} (hq : Quiet s u)
    (h : u' = u.withGhost u'.busPhase := by rfl) :
    Continues s (harvest cs i found u) (harvest cs i found u') := by
  rw [h]
  unfold harvest
  rw [withGhost_cfg, withGhost_admitted]
  split
  · split
    · exact continues_next (hq.trans (.goto _ _))
    · exact searchWindow_continues _ hq
  · exact ret_continues_after (hq.trans (.setLock u false))

end

/-! ### The phases -/

section
variable {u u' : State} (h : u' = u.withGhost u'.busPhase := by rfl)
include h

theorem construct_ghost (x : Ctx) : u'.construct x = (u.construct x).withGhost (u'.construct x).busPhase := by
  rw [h]
  unfold State.construct
  rw [withGhost_initialized]
  split <;> rfl

theorem updCtx_insert_ghost (f : Ctx → Ctx) (r : RomCode) : (u'.insertIfNew r).updCtx f =
    ((u.insertIfNew r).updCtx f).withGhost ((u'.insertIfNew r).updCtx f).busPhase := by
  rw [h]
  unfold State.insertIfNew
  rw [withGhost_tab]
  split <;> rfl

theorem ghostWrite_ghost (off : Nat) (inScope : Bool) : u'.ghostWrite off inScope =
    (u.ghostWrite off inScope).withGhost (u'.ghostWrite off inScope).busPhase := by
  rw [h]
  unfold State.ghostWrite
  rw [withGhost_cfg]
  split <;> rfl

end

theorem admitted_updCtx (s : State) (f : Ctx → Ctx) (off : Nat) :
    (s.updCtx f).admitted off = s.admitted off := rfl

/-- What the event of a phase does to the address table: the last event of a BUS_INIT constructs, the high half
of a search entry inserts its code, every other event leaves it (R27, R150, R163). -/
inductive TableStep (p : Phase) (x : Ctx) (s : State) : State → Prop
  | same : TableStep p x s s
  | construct : p = .iClkget ∨ p = .iClkset → TableStep p x s (s.construct x)
  | insert (r : RomCode) : p = .sHi → TableStep p x s (s.insertIfNew r)

/-- The inversion lemma of an event: it leads on from its table step, and the ghost decides nothing but
itself. -/
theorem phaseEvent_continues (p : Phase) (cs : List Phase) (x : Ctx) (s : State) (b : BusPhase) :
    ∃ v, TableStep p x s v ∧
      Continues v (phaseEvent p cs x s) (phaseEvent p cs x (s.withGhost b)) := by
  cases p
  case iClkget =>
    dsimp only [phaseEvent, phIClkget]
    rw [withGhost_cfg, withGhost_env]
    split
    · exact ⟨_, .construct (.inl rfl), ret_continues_after ((Quiet.clkGet s).constructAfter x rfl rfl)
        (construct_ghost rfl x)⟩
    · exact ⟨s, .same, continues_next ((Quiet.clkGet s).trans (.goto _ _))⟩
  case iClkset =>
    exact ⟨_, .construct (.inr rfl), ret_continues_after ((Quiet.clkSet s _).constructAfter x rfl rfl)
      (construct_ghost rfl x)⟩
  case sHi =>
    dsimp only [phaseEvent, phSHi, searchRead]
    rw [withGhost_cfg, withGhost_admitted]
    split
    · exact ⟨s.insertIfNew (romOfHalves s.answer x.tLo), .insert _ rfl,
        harvest_continues (((Quiet.read s _).insertAfter _).trans (.ctx _))
          (updCtx_insert_ghost rfl _ _)⟩
    · exact ⟨s, .same, searchWindow_continues _ (.refl s)⟩
  all_goals refine ⟨s, .same, ?_⟩
  case rstCmd =>
    dsimp only [phaseEvent, phRstCmd]
    exact writeReg_continues fun u => continues_next ((Quiet.ghost u .unknown).trans (.ctx _))
  case rstPoll =>
    dsimp only [phaseEvent, phRstPoll]
    exact pollOnce_continues (fun u => ret_continues_after (.ghost u .resetDone)) fun u => ret_continues cs _ u
  case rstWait => exact waitOnce_continues _ _
  case sLock =>
    dsimp only [phaseEvent, phSLock]
    rw [withGhost_lock]
    split
    · exact continues_next ((Quiet.lockTas s).trans (.goto _ _))
    · exact continues_next ((Quiet.lockTas s).trans (.goto _ _))
  case sCmd =>
    dsimp only [phaseEvent, phSCmd]
    exact searchWrite_continues fun u => continues_next ((Quiet.ghost u .unknown).trans (.goto _ _))
  case sSer =>
    dsimp only [phaseEvent, phSSer]
    exact searchWrite_continues fun u => continues_next (.ctx u)
  case sPoll =>
    dsimp only [phaseEvent, phSPoll]
    refine searchRead_continues fun v u => ?_
    rw [withGhost_cfg]
    split
    · exact searchFail_continues (.ctx u)
    · exact searchFail_continues (.ctx u)
    · exact continues_next ((Quiet.ctx u).trans (.goto _ _))
    · split
      · exact searchFail_continues (.ctx u)
      · exact continues_next ((Quiet.ctx u).trans (.goto _ _))
  case sWait => exact waitOnce_continues _ _
  case sFound =>
    dsimp only [phaseEvent, phSFound]
    exact searchRead_continues fun v u => harvest_continues (.ctx u)
  case sLo =>
    dsimp only [phaseEvent, phSLo]
    refine searchRead_continues fun v u => ?_
    rw [withGhost_cfg, admitted_updCtx, admitted_updCtx, withGhost_admitted]
    split
    · exact continues_next ((Quiet.ctx u).trans (.goto _ _))
    · exact searchWindow_continues _ (.ctx u)
  case mCmd =>
    dsimp only [phaseEvent, phMCmd]
    exact writeReg_continues fun u => continues_next ((Quiet.ghost u _).trans (.goto _ _))
  case mD0 =>
    dsimp only [phaseEvent, phMD0]
    exact withRom_continues fun r => writeReg_continues fun u => continues_next (.goto u _)
  case mD1 =>
    dsimp only [phaseEvent, phMD1]
    exact withRom_continues fun r => writeReg_continues fun u => continues_next (.goto u _)
  case mSz =>
    dsimp only [phaseEvent, phMSz]
    exact writeReg_continues fun u => continues_next (.goto u _)
  case mExec =>
    dsimp only [phaseEvent, phMExec]
    exact writeReg_continues fun u => continues_next (.ctx u)
  case mPoll =>
    dsimp only [phaseEvent, phMPoll]
    exact withRom_continues fun r => pollOnce_continues
      (fun u => ret_continues_after (.ghost u (u.busPhase.afterMatch r)))
      fun u => ret_continues_after (.ghost u .unknown)
  case mWait => exact waitOnce_continues _ _
  case rdAcc =>
    dsimp only [phaseEvent, phRdAcc]
    exact readReg_continues fun v u => ret_continues cs _ u
  case wrAcc =>
    dsimp only [phaseEvent, phWrAcc]
    exact writeReg_continues fun u => ret_continues_after (.ghostWrite u _ _) (ghostWrite_ghost rfl _ _)
  case wcAcc =>
    dsimp only [phaseEvent, phWcAcc]
    exact writeReg_continues fun u => ret_continues cs _ u
  case wtAcc =>
    dsimp only [phaseEvent, phWtAcc]
    exact writeReg_continues fun u => ret_continues cs _ u
  case dwAcc =>
    dsimp only [phaseEvent, phDwAcc]
    exact writeReg_continues fun u => ret_continues cs _ u
  case drAcc =>
    dsimp only [phaseEvent, phDrAcc]
    exact readReg_continues fun v u => ret_continues cs _ u
  case tNow0 =>
    dsimp only [phaseEvent, phTNow0]
    refine withSensor_continues fun y => ?_
    rw [withGhost_nowAnswer]
    split
    · exact ret_continues_after ((Quiet.now s).trans (.ctx _))
    · exact continues_next (((Quiet.now s).trans (.ctx _)).trans (.callOpen _ _))
  case tConvCmd =>
    dsimp only [phaseEvent, phTConvCmd]
    exact writeReg_continues fun u => continues_next (.goto u _)
  case tConvExec =>
    dsimp only [phaseEvent, phTConvExec]
    exact withSensor_continues fun y => writeReg_continues fun u =>
      continues_next ((Quiet.setFsm u x _).trans (.goto _ _))
  case tConvWait =>
    dsimp only [phaseEvent, phTConvWait]
    refine withSensor_continues fun y => ?_
    rw [withGhost_cfg]
    split
    · exact continues_next ((Quiet.delay s _).trans (.goto _ _))
    · exact continues_fault s _
  case tConvChk =>
    dsimp only [phaseEvent, phTConvChk]
    refine withSensor_continues fun y => readReg_continues fun v u => ?_
    rw [withGhost_cfg]
    split
    · exact continues_next
        (((((Quiet.ctx u).trans (.closeScope _)).trans (.setFsm _ x _)).trans (.ctx _)).trans (.callOpen _ _))
    · exact ret_continues_after (((Quiet.ctx u).trans (.closeScope _)).trans (.exitTemp _ x))
  case tRdCmd =>
    dsimp only [phaseEvent, phTRdCmd]
    exact writeReg_continues fun u => continues_next (.goto u _)
  case tRdSz =>
    dsimp only [phaseEvent, phTRdSz]
    exact writeReg_continues fun u => continues_next (.goto u _)
  case tRdExec =>
    dsimp only [phaseEvent, phTRdExec]
    exact writeReg_continues fun u => continues_next (.ctx u)
  case tRdPoll =>
    dsimp only [phaseEvent, phTRdPoll]
    exact pollOnce_continues (fun u => continues_next (.goto u _)) fun u =>
      .before (.closeScope u) (failAttempt_continues (b := b) fun r v => ret_continues cs r v)
  case tRdWait => exact waitOnce_continues _ _
  case tRdData =>
    dsimp only [phaseEvent, phTRdData]
    exact readReg_continues fun v u => continues_next (((Quiet.ctx u).trans (.closeScope _)).trans (.goto _ _))
  case tNow1 =>
    dsimp only [phaseEvent, phTNow1]
    exact withSensor_continues fun y =>
      ret_continues_after (((Quiet.now s).trans (.ctx _)).trans (.sensor _ _ _))
  all_goals exact continues_fault s _

end Sys2Proof.Machine

/-! ## Issue (rules R51, R85, R100, R102)

`exec` in an idle context is the issue of its instruction. `Issued` says once what issue can do: the context
holds the operation with its operands latched, at its first frames, or it is idle again with one result. -/

namespace Sys2Proof.Machine

/-- The sixteen command words go one way, to a register that the parameters name (R109, R118). -/
theorem exec_cmdWord {i : Instr} (hi : opOf i = none) : ∃ (off : Config → Nat) (w : Word),
    (∀ s, exec i s = writeWord (off s.cfg) w s) ∧ encode i = .cmdWord w := by
  cases i
  case serialize | execPullup | execNopullup | readTimeSlots => exact ⟨Config.regTrigger, _, fun _ => rfl, rfl⟩
  case resetPulse | searchRom | readRom | matchRom | skipRom | alarmSearch | convertT | writeScratchpad
      | readScratchpad | copyScratchpad | recallE2 | readPowerSupply =>
    exact ⟨Config.offCommand, _, fun _ => rfl, rfl⟩
  all_goals cases hi

/-! ### The current context, set -/

/-- The state with `y` in the current context. -/
def State.setCtx (y : Ctx) (s : State) : State := { s with ctxs := s.ctxs.set s.cur y }

/-- The state after an issue that has ended with `r`, the context holding `z` but for its position: sensor
records and a draw may have come with it (R221, R244). -/
def State.settled (s : State) (z : Ctx) (r : Result) (l : List Sensor) (e : Env) : State :=
  { s.answered z r with sens := l, env := e }

section
variable {s : State} {x : Ctx} (hx : s.ctx? = some x)
include hx

theorem updCtx_eq_setCtx (f : Ctx → Ctx) : s.updCtx f = s.setCtx (f x) := by
  simp only [State.updCtx, State.setCtx, modify_eq_set_of_ctx? hx]

theorem ctx?_setCtx (y : Ctx) : (s.setCtx y).ctx? = some y :=
  ctx?_during hx y [] s.clock s.env

omit hx in
theorem setCtx_setCtx (y z : Ctx) : (s.setCtx y).setCtx z = s.setCtx z := by
  simp [State.setCtx]

theorem ctx?_settled (z : Ctx) (r : Result) (l : List Sensor) (e : Env) :
    (s.settled z r l e).ctx? = some { z with op := none, pc := [], lastErr := r.err } :=
  ctx?_setCtx hx _

theorem deliver_eq_settled (r : Result) : s.deliver r = s.settled x r s.sens s.env :=
  deliver_eq_answered hx r

theorem updCtx_deliver_eq_settled (f : Ctx → Ctx) (r : Result) :
    (s.updCtx f).deliver r = s.settled (f x) r s.sens s.env := by
  have hf : (s.updCtx f).ctx? = some (f x) := by simp [hx]
  rw [deliver_eq_settled hf, updCtx_eq_setCtx hx]
  simp [State.settled, State.answered, State.setCtx]

end

/-! ### What issue can do -/

/-- The frames that issue pushes (R47, R51); none for an operation that has no event. -/
def firstFrames : Op → List Phase
  | .busInit => [.iClkget]
  | .busReset => [.rstCmd]
  | .busSearch => [.sLock]
  | .busMatch => [.mCmd]
  | .busRd => [.rdAcc]
  | .busWr => [.wrAcc]
  | .devOpen => [.rstCmd, .oReset]
  | .devWcmd => [.wcAcc]
  | .devWctl => [.wtAcc]
  | .devWr => [.dwAcc]
  | .devRd => [.drAcc]
  | .tsTemp => [.tNow0]
  | .tsTempF => [.tNow0, .fCall]
  | .addrRom | .addrFamily | .addrSerial | .addrCrc | .addrEq | .devClose | .tsCreate | .tsGetRes
  | .tsSetRes => []

/-- The context after the issue of an operation that has an event to make; DEV_OPEN gives up a scope (R202). -/
def Ctx.issued (x : Ctx) (o : Op) (a b : BitVec 64) (c : BitVec 32) : Ctx :=
  { x with
    op := some o, pc := firstFrames o, opa := a, opb := b, opc := c
    devOpen := if o = .devOpen then false else x.devOpen }

/-- The tests an operation with events has passed at issue (R104, R151, R267 to R271). -/
structure State.Admits (s : State) (x : Ctx) (o : Op) (c : BitVec 32) : Prop where
  frames : firstFrames o ≠ []
  sensor : o = .tsTemp ∨ o = .tsTempF → c.toNat < s.sens.length
  window : o = .busInit → validWindow s.cfg c.toNat = true
  access : o = .busRd ∨ o = .busWr ∨ o = .devWr ∨ o = .devRd → s.admitted c.toNat = true
  ready : o = .busInit ∨ s.initialized = true ∨ x.devOpen = true ∨ s.sens ≠ []

/-- The tests of an operation whose operands are not tested. -/
theorem admits_plain {s : State} {x : Ctx} {o : Op} {c : BitVec 32}
    (ho : o ∈ [Op.busReset, .busSearch, .busMatch, .devOpen, .devWcmd, .devWctl])
    (hr : s.initialized = true ∨ x.devOpen = true) : s.Admits x o c := by
  have ready := Or.inr (a := o = .busInit) (hr.imp_right (Or.inl (b := s.sens ≠ [])))
  simp only [List.mem_cons, List.not_mem_nil, or_false] at ho
  rcases ho with rfl | rfl | rfl | rfl | rfl | rfl <;>
    exact ⟨by decide, by simp, by simp, by simp, ready⟩

/-- The tests of an operation that makes one access at the offset of the request. -/
theorem admits_access {s : State} {x : Ctx} {o : Op} {c : BitVec 32}
    (ho : o ∈ [Op.busRd, .busWr, .devWr, .devRd]) (hr : s.initialized = true ∨ x.devOpen = true)
    (hc : s.admitted c.toNat = true) : s.Admits x o c := by
  have ready := Or.inr (a := o = .busInit) (hr.imp_right (Or.inl (b := s.sens ≠ [])))
  simp only [List.mem_cons, List.not_mem_nil, or_false] at ho
  rcases ho with rfl | rfl | rfl | rfl <;> exact ⟨by decide, by simp, by simp, fun _ => hc, ready⟩

/-- The tests of a temperature read. -/
theorem admits_temp {s : State} {x : Ctx} {o : Op} {c : BitVec 32} (ho : o = .tsTemp ∨ o = .tsTempF)
    (hc : c.toNat < s.sens.length) : s.Admits x o c := by
  have ready : s.sens ≠ [] := List.length_pos_iff.mp (Nat.zero_lt_of_lt hc)
  rcases ho with rfl | rfl <;>
    exact ⟨by decide, fun _ => hc, by simp, by simp, .inr (.inr (.inr ready))⟩

/-- A number of a well-formed instruction comes back from its 32-bit field (R100). -/
theorem toNat_ofNat_of_fits32 {n : Nat} (h : fits32 n = true) : (BitVec.ofNat 32 n).toNat = n := by
  simpa [fits32] using h

/-- A number of a well-formed instruction comes back from its 64-bit field (R100). -/
theorem toNat_ofNat_of_fits64 {n : Nat} (h : fits64 n = true) : (BitVec.ofNat 64 n).toNat = n := by
  simpa [fits64] using h

/-- Issue of the instruction writes the operand latches, unless it is refused with `F_BAD_OPERAND`: not that of
an ADDR operation, of DEV_CLOSE, of BUS_INIT once constructed or of a command word. -/
def writesLatches (s : State) : Instr → Bool
  | .busInit _ _ => !s.initialized
  | .busReset | .busSearch _ | .busMatch _ | .busRd _ | .busWr _ _ | .devOpen _ | .devWcmd _ | .devWctl _
  | .devWr _ _ | .devRd _ | .tsCreate _ _ _ | .tsTemp _ | .tsTempF _ | .tsGetRes _ | .tsSetRes _ _ => true
  | .addrRom _ | .addrFamily _ | .addrSerial _ | .addrCrc _ | .addrEq _ _ | .devClose => false
  | .serialize | .resetPulse | .execPullup | .execNopullup | .readTimeSlots | .searchRom | .readRom
  | .matchRom | .skipRom | .alarmSearch | .convertT | .writeScratchpad | .readScratchpad
  | .copyScratchpad | .recallE2 | .readPowerSupply => false

/-- What the issue of `i` in the idle context `x` leaves in the latches when it ends with `r`. -/
def LatchesAtEnd (i : Instr) (s : State) (x z : Ctx) (r : Result) : Prop :=
  (writesLatches s i = true ∧ r ≠ .ofFault .badOperand ∧ z.Latched i) ∨
    ((writesLatches s i = false ∨ r = .ofFault .badOperand) ∧
      z.opa = x.opa ∧ z.opb = x.opb ∧ z.opc = x.opc)

/-- What the issue of `i` in the idle context `x` of `s` can do. -/
inductive Issued (i : Instr) (s : State) (x : Ctx) : State → Prop
  | starts {o : Op} {a b : BitVec 64} {c : BitVec 32} : writesLatches s i = true →
      encode i = hostRecord o a b c → (i.WellFormed → o.withFields a b c = i ∧ s.Admits x o c) →
      Issued i s x (s.setCtx (x.issued o a b c))
  | ends {z : Ctx} {r : Result} {l : List Sensor} {e : Env} : LatchesAtEnd i s x z r →
      z.retryCnt = x.retryCnt → (z.devOpen = true → x.devOpen = true) →
      (s.initialized = false → s.sens = [] → l = []) → Issued i s x (s.settled z r l e)

section
variable {i : Instr} {s : State} {x : Ctx} (hx : s.ctx? = some x)
include hx

theorem issued_start {o : Op} {a b : BitVec 64} {c : BitVec 32} (hi : writesLatches s i = true)
    (he : encode i = hostRecord o a b c) (hd : o ≠ .devOpen)
    (hw : i.WellFormed → o.withFields a b c = i ∧ s.Admits x o c) :
    Issued i s x ((s.latch a b c).start o (firstFrames o)) := by
  have : (s.latch a b c).start o (firstFrames o) = s.setCtx (x.issued o a b c) := by
    simp only [State.latch, State.start, updCtx_eq_setCtx hx, updCtx_eq_setCtx (ctx?_setCtx hx _),
      setCtx_setCtx, Ctx.issued, if_neg hd]
  exact this ▸ .starts hi he hw

theorem issued_deliver (r : Result) (hi : writesLatches s i = false ∨ r = .ofFault .badOperand) :
    Issued i s x (s.deliver r) := by
  rw [deliver_eq_settled hx]
  exact .ends (.inr ⟨hi, rfl, rfl, rfl⟩) rfl id fun _ => id

theorem issued_badOperand : Issued i s x (s.raise .badOperand) :=
  issued_deliver hx _ (.inr rfl)

theorem issued_latch_deliver {o : Op} {a b : BitVec 64} {c : BitVec 32} {r : Result}
    (hi : writesLatches s i = true) (he : encode i = hostRecord o a b c) (hr : r ≠ .ofFault .badOperand) :
    Issued i s x ((s.latch a b c).deliver r) := by
  rw [State.latch, updCtx_deliver_eq_settled hx]
  exact .ends (.inl ⟨hi, hr, Ctx.latched_of_record he rfl rfl rfl⟩) rfl id fun _ => id

/-- An issue that ends with a success and writes the sensor file (R221, R244). -/
theorem issued_latch_sensors {o : Op} {a b : BitVec 64} {c : BitVec 32} {v : Val} {l : List Sensor} {e : Env}
    (hi : writesLatches s i = true) (he : encode i = hostRecord o a b c)
    (hl : s.initialized = false → s.sens = [] → l = []) :
    Issued i s x (State.deliver (.success v) { s.latch a b c with sens := l, env := e }) := by
  have : State.deliver (.success v) { s.latch a b c with sens := l, env := e } =
      { (s.latch a b c).deliver (.success v) with sens := l, env := e } := rfl
  rw [this, State.latch, updCtx_deliver_eq_settled hx]
  exact .ends (.inl ⟨hi, nofun, Ctx.latched_of_record he rfl rfl rfl⟩) rfl id hl

theorem issued_latch_raise {o : Op} {a b : BitVec 64} {c : BitVec 32} {f : HostFault}
    (hi : writesLatches s i = true) (he : encode i = hostRecord o a b c)
    (hf : f ≠ .badOperand := by exact nofun) : Issued i s x ((s.latch a b c).raise f) :=
  issued_latch_deliver hx hi he fun e => hf (Option.some.inj (congrArg Result.fault e))

theorem operate_issued {o : Op} {issue : Ctx → State → State} {t : State} (ho : x.op = none)
    (h : operate o issue s = .next t) (hi : Issued i s x (issue x s)) : Issued i s x t := by
  rw [operate_idle hx ho] at h
  exact Host.Outcome.next.inj h ▸ hi

/-- The inversion lemma of issue. -/
theorem exec_issued {t : State} (ho : x.op = none) (hi : opOf i ≠ none) (h : exec i s = .next t) :
    Issued i s x t := by
  cases i
  case busInit base range =>
    refine operate_issued hx ho h ?_
    unfold issueBusInit
    split
    · rename_i hc
      exact issued_deliver hx _ (.inl (congrArg not hc))
    · rename_i hn
      have hl : writesLatches s (.busInit base range) = true := congrArg not (Bool.eq_false_iff.mpr hn)
      split
      · rename_i hv
        refine issued_start hx hl rfl (by decide) fun hw => ?_
        obtain ⟨hb, hr⟩ : fits64 base = true ∧ fits32 range = true := Bool.and_eq_true_iff.mp hw
        have hc := toNat_ofNat_of_fits32 hr
        exact ⟨congrArg₂ Instr.busInit (toNat_ofNat_of_fits64 hb) hc,
          by decide, by simp, fun _ => hc.symm ▸ hv, by simp, .inl rfl⟩
      · exact issued_latch_raise hx hl rfl
  case busReset =>
    refine operate_issued hx ho h ?_
    unfold issueBusReset
    split
    · exact issued_start hx rfl rfl (by decide) fun _ => ⟨rfl, admits_plain (by simp) (.inl ‹_›)⟩
    · exact issued_latch_raise hx rfl rfl
  case busSearch alarm =>
    refine operate_issued hx ho h ?_
    dsimp only [issueBusSearch]
    split
    · exact issued_start hx rfl rfl (by decide) fun _ =>
        ⟨by cases alarm <;> rfl, admits_plain (by simp) (.inl ‹_›)⟩
    · exact issued_latch_raise hx rfl rfl
  case busMatch rom =>
    refine operate_issued hx ho h ?_
    unfold issueBusMatch
    split
    · exact issued_start hx rfl rfl (by decide) fun _ => ⟨rfl, admits_plain (by simp) (.inl ‹_›)⟩
    · exact issued_latch_raise hx rfl rfl
  case busRd off =>
    refine operate_issued hx ho h ?_
    unfold issueBusRd
    split
    · split
      · rename_i ha
        refine issued_start hx rfl rfl (by decide) fun hw => ?_
        have hc := toNat_ofNat_of_fits32 hw
        exact ⟨congrArg Instr.busRd hc, admits_access (by simp) (.inl ‹_›) (hc.symm ▸ ha)⟩
      · exact issued_latch_raise hx rfl rfl
    · exact issued_latch_raise hx rfl rfl
  case busWr off v =>
    refine operate_issued hx ho h ?_
    unfold issueBusWr
    split
    · split
      · rename_i ha
        refine issued_start hx rfl rfl (by decide) fun hw => ?_
        have hc := toNat_ofNat_of_fits32 hw
        exact ⟨congrArg₂ Instr.busWr hc (inLowHalf_low v),
          admits_access (by simp) (.inl ‹_›) (hc.symm ▸ ha)⟩
      · exact issued_latch_raise hx rfl rfl
    · exact issued_latch_raise hx rfl rfl
  case addrRom | addrFamily | addrSerial | addrCrc | addrEq =>
    exact operate_issued hx ho h (issued_deliver hx _ (.inl rfl))
  case devOpen rom =>
    refine operate_issued hx ho h ?_
    unfold issueDevOpen
    split
    · have : ((s.latch rom 0 0).start .devOpen []).callOpen [] = s.setCtx (x.issued .devOpen rom 0 0) := by
        simp only [State.latch, State.start, State.callOpen, updCtx_eq_setCtx hx,
          updCtx_eq_setCtx (ctx?_setCtx hx _), setCtx_setCtx]
        rfl
      exact this ▸ .starts rfl rfl fun _ => ⟨rfl, admits_plain (by simp) (.inl ‹_›)⟩
    · exact issued_latch_raise hx rfl rfl
  case devClose =>
    refine operate_issued (issue := fun _ t => t.closeScope.deliver (.success .none)) hx ho h ?_
    rw [State.closeScope, updCtx_deliver_eq_settled hx]
    exact .ends (.inr ⟨.inl rfl, rfl, rfl, rfl⟩) rfl nofun fun _ => id
  case devWcmd v =>
    refine operate_issued hx ho h ?_
    unfold issueDevWcmd
    split
    · exact issued_start hx rfl rfl (by decide) fun _ =>
        ⟨congrArg Instr.devWcmd (inLowHalf_low v), admits_plain (by simp) (.inr ‹_›)⟩
    · exact issued_latch_raise hx rfl rfl
  case devWctl v =>
    refine operate_issued hx ho h ?_
    unfold issueDevWctl
    split
    · exact issued_start hx rfl rfl (by decide) fun _ =>
        ⟨congrArg Instr.devWctl (inLowHalf_low v), admits_plain (by simp) (.inr ‹_›)⟩
    · exact issued_latch_raise hx rfl rfl
  case devWr off v =>
    refine operate_issued hx ho h ?_
    unfold issueDevWr
    split
    · split
      · rename_i ha
        refine issued_start hx rfl rfl (by decide) fun hw => ?_
        have hc := toNat_ofNat_of_fits32 hw
        exact ⟨congrArg₂ Instr.devWr hc (inLowHalf_low v),
          admits_access (by simp) (.inr ‹_›) (hc.symm ▸ ha)⟩
      · exact issued_latch_raise hx rfl rfl
    · exact issued_latch_raise hx rfl rfl
  case devRd off =>
    refine operate_issued hx ho h ?_
    unfold issueDevRd
    split
    · split
      · rename_i ha
        refine issued_start hx rfl rfl (by decide) fun hw => ?_
        have hc := toNat_ofNat_of_fits32 hw
        exact ⟨congrArg Instr.devRd hc, admits_access (by simp) (.inr ‹_›) (hc.symm ▸ ha)⟩
      · exact issued_latch_raise hx rfl rfl
    · exact issued_latch_raise hx rfl rfl
  case tsCreate rom refresh res =>
    refine operate_issued hx ho h ?_
    unfold issueTsCreate
    split
    · split
      · split
        · rename_i hc _ _
          exact issued_latch_sensors hx rfl rfl fun hn => absurd hc (Bool.eq_false_iff.mp hn)
        · exact issued_badOperand hx
      · exact issued_badOperand hx
    · exact issued_latch_raise hx rfl rfl
  case tsTemp idx =>
    refine operate_issued hx ho h ?_
    unfold issueTsTemp
    split
    · rename_i hn
      refine issued_start hx rfl rfl (by decide) fun hw => ?_
      have hc := toNat_ofNat_of_fits32 hw
      exact ⟨congrArg Instr.tsTemp hc, admits_temp (.inl rfl) (hc.symm ▸ hn)⟩
    · exact issued_badOperand hx
  case tsTempF idx =>
    refine operate_issued hx ho h ?_
    unfold issueTsTempF
    split
    · rename_i hn
      refine issued_start hx rfl rfl (by decide) fun hw => ?_
      have hc := toNat_ofNat_of_fits32 hw
      exact ⟨congrArg Instr.tsTempF hc, admits_temp (.inr rfl) (hc.symm ▸ hn)⟩
    · exact issued_badOperand hx
  case tsGetRes idx =>
    refine operate_issued hx ho h ?_
    unfold issueTsGetRes
    split
    · exact issued_latch_deliver hx rfl rfl nofun
    · exact issued_badOperand hx
  case tsSetRes idx res =>
    refine operate_issued hx ho h ?_
    unfold issueTsSetRes
    split
    · split
      · exact issued_latch_sensors hx rfl rfl fun _ hs => by simp [hs]
      · exact issued_badOperand hx
    · exact issued_badOperand hx
  all_goals exact absurd rfl hi

end

end Sys2Proof.Machine

/-! ## What `exec` can do (rules R49 to R51, R85)

`exec` that answers next has issued an operation, written a command word or made the next event of the operation
in flight (`Executed`). -/

namespace Sys2Proof.Machine

/-- What `exec i s` has done when it answers `t`, the current context of `s` holding `x`. -/
inductive Executed (i : Instr) (s : State) (x : Ctx) (t : State) : Prop
  | issued : x.op = none → Issued i s x t → Executed i s x t
  | word {off : Nat} {w : Word} : x.op = none → encode i = .cmdWord w → writeWord off w s = .next t →
      Executed i s x t
  | event {o : Op} {p : Phase} {cs : List Phase} : x.op = some o → opOf i = some o → x.pc = p :: cs →
      phaseEvent p cs x s = .next t → Executed i s x t

theorem exec_cases {i : Instr} {s t : State} (h : exec i s = .next t) :
    ∃ x, s.ctx? = some x ∧ Executed i s x t := by
  match hx : s.ctx? with
  | none => rw [exec_noContext hx] at h; cases h
  | some x =>
    refine ⟨x, rfl, ?_⟩
    match ho : x.op with
    | none =>
      by_cases hi : opOf i = none
      · obtain ⟨off, w, hw, he⟩ := exec_cmdWord hi
        exact .word ho he (hw s ▸ h)
      · exact .issued ho (exec_issued hx ho hi h)
    | some o =>
      by_cases hi : opOf i = some o
      · rw [exec_inFlight hx ho hi] at h
        match hp : x.pc with
        | [] => rw [advance, hp] at h; cases h
        | p :: cs => rw [advance, hp] at h; exact .event ho hi hp h
      · rw [exec_busy hx ho hi] at h; cases h

/-! ### The event of an operation in flight -/

/-- An event leads on from its table step. -/
theorem phaseEvent_leads {p : Phase} {cs : List Phase} {x : Ctx} {s t : State}
    (h : phaseEvent p cs x s = .next t) : ∃ v, TableStep p x s v ∧ Leads v t := by
  obtain ⟨v, hv, hc⟩ := phaseEvent_continues p cs x s s.busPhase
  exact ⟨v, hv, hc.leads t h⟩

section
variable {p : Phase} {x : Ctx} {s v : State} (h : TableStep p x s v)
include h

theorem TableStep.ctx? : v.ctx? = s.ctx? := by cases h <;> simp
theorem TableStep.cur : v.cur = s.cur := by cases h <;> simp
theorem TableStep.outbox : v.outbox = s.outbox := by cases h <;> simp

end

theorem Leads.outbox {s t : State} (h : Leads s t) :
    t.outbox = s.outbox ∨ ∃ r, t.outbox = (s.cur, r) :: s.outbox := by
  obtain ⟨u, hq, rfl | ⟨r, rfl⟩⟩ := h
  · exact .inl hq.outbox
  · exact .inr ⟨r, by rw [State.deliver_outbox, hq.outbox, hq.cur]⟩

theorem Leads.latches {s t : State} {x : Ctx} (h : Leads s t) (hx : s.ctx? = some x) :
    ∃ y, t.ctx? = some y ∧ (y.op = none ∨ y.latches = x.latches) := by
  obtain ⟨u, hq, ht⟩ := h
  obtain ⟨y, hy, hl⟩ : ∃ y, u.ctx? = some y ∧ y.latches = x.latches :=
    Option.map_eq_some_iff.mp (hq.latches.trans (congrArg (Option.map Ctx.latches) hx))
  rcases ht with rfl | ⟨r, rfl⟩
  · exact ⟨y, hy, .inr hl⟩
  · exact ⟨_, by rw [ctx?_deliver, hy]; rfl, .inl rfl⟩

/-! ### A command word -/

/-- A command word leaves the context idle and all else in it but `last_err`. -/
theorem writeWord_ctx? {off : Nat} {w : Word} {s t : State} {x : Ctx} (hx : s.ctx? = some x)
    (h : writeWord off w s = .next t) :
    ∃ e, t.ctx? = some { x with op := none, pc := [], lastErr := e } := by
  obtain ⟨x', hx', -, ⟨-, rfl⟩ | ⟨-, -, rfl⟩ | ⟨-, -, rfl⟩⟩ := writeWord_next h <;>
    exact ⟨_, by simp [hx]; rfl⟩

theorem writeWord_outbox {off : Nat} {w : Word} {s t : State} (h : writeWord off w s = .next t) :
    ∃ r, t.outbox = (s.cur, r) :: s.outbox := by
  obtain ⟨x', hx', -, ⟨-, rfl⟩ | ⟨-, -, rfl⟩ | ⟨-, -, rfl⟩⟩ := writeWord_next h <;>
    exact ⟨_, by simp; rfl⟩

/-! ### The latches (rules R49, R51, R85) -/

/-- Settles O8: issue leaves the context idle or holding the record of `i`, and an event keeps the latches
(`Quiet.latches`) until the operation ends. -/
theorem latchedInstructionStays : Obligations.LatchedInstructionStays := by
  intro s t x i hx h
  obtain ⟨x', hx', hc⟩ := exec_cases h
  obtain rfl : x = x' := Option.some.inj (hx.symm.trans hx')
  cases hc with
  | issued ho hi =>
    cases hi with
    | starts _ _ hw =>
      exact ⟨_, ctx?_setCtx hx _, fun _ hwf => .inr (congrArg some (hw hwf).1), fun hn => absurd ho hn⟩
    | ends => exact ⟨_, ctx?_settled hx _ _ _ _, fun _ _ => .inl rfl, fun _ => .inl rfl⟩
  | word ho _ hw =>
    obtain ⟨e, he⟩ := writeWord_ctx? hx hw
    exact ⟨_, he, fun _ _ => .inl rfl, fun _ => .inl rfl⟩
  | event ho _ _ hp =>
    obtain ⟨v, hv, hl⟩ := phaseEvent_leads hp
    obtain ⟨y, hy, hl⟩ := hl.latches (hv.ctx?.trans hx)
    refine ⟨y, hy, fun hn => ?_, fun _ => hl.imp_right fun e => ?_⟩
    · rw [ho] at hn; cases hn
    · simpa [Ctx.latches] using e

theorem writesLatches_eq_false_iff (s : State) (i : Instr) : writesLatches s i = false ↔
    (∃ rom, i = .addrRom rom ∨ i = .addrFamily rom ∨ i = .addrSerial rom ∨ i = .addrCrc rom) ∨
      (∃ p q, i = .addrEq p q) ∨ i = .devClose ∨
      ((∃ base range, i = .busInit base range) ∧ s.initialized = true) ∨ ∃ w, encode i = .cmdWord w := by
  cases i <;> simp [writesLatches, encode, hostRecord]

/-- The latches after an issue in an idle context. -/
theorem exec_idle_latches {s t : State} {x : Ctx} {i : Instr} (hx : s.IdleAt x) (h : exec i s = .next t) :
    ∃ y, t.ctx? = some y ∧
      (((writesLatches s i = false ∨ t.outbox = (s.cur, .ofFault .badOperand) :: s.outbox) ∧
          y.opa = x.opa ∧ y.opb = x.opb ∧ y.opc = x.opc) ∨
        (writesLatches s i = true ∧ t.outbox ≠ (s.cur, .ofFault .badOperand) :: s.outbox ∧ y.Latched i)) := by
  obtain ⟨hx, ho⟩ := hx
  obtain ⟨x', hx', hc⟩ := exec_cases h
  obtain rfl : x = x' := Option.some.inj (hx.symm.trans hx')
  cases hc with
  | issued _ hi =>
    cases hi with
    | starts hl he _ =>
      refine ⟨_, ctx?_setCtx hx _, .inr ⟨hl, ?_, Ctx.latched_of_record he rfl rfl rfl⟩⟩
      exact fun e => List.cons_ne_self _ _ e.symm
    | @ends z r l e hl =>
      refine ⟨_, ctx?_settled hx _ _ _ _, ?_⟩
      have hout : (s.settled z r l e).outbox = (s.cur, .ofFault .badOperand) :: s.outbox ↔
          r = .ofFault .badOperand := by simp [State.settled, State.answered]
      rw [ne_eq, hout]
      exact Or.symm hl
  | word _ he hw =>
    obtain ⟨e, hy⟩ := writeWord_ctx? hx hw
    have hi := (writesLatches_eq_false_iff s i).mpr (.inr (.inr (.inr (.inr ⟨_, he⟩))))
    exact ⟨_, hy, .inl ⟨.inl hi, rfl, rfl, rfl⟩⟩
  | event hn => rw [ho] at hn; cases hn

/-- Settles O60: `exec_idle_latches`, with `writesLatches` written out. -/
theorem issueLatchesTheOperands : Obligations.IssueLatchesTheOperands := by
  intro s t x i hx h latchesNothing
  have hn : latchesNothing ↔
      writesLatches s i = false ∨ t.outbox = (s.cur, .ofFault .badOperand) :: s.outbox := by
    rw [writesLatches_eq_false_iff]
    simp only [latchesNothing, Result.ofFault, HostFault.code, or_assoc]
    exact or_congr_right (or_congr_right (or_congr_right (or_congr_right or_comm)))
  obtain ⟨y, hy, ⟨hl, hs⟩ | ⟨hl, hout, hr⟩⟩ := exec_idle_latches hx h
  · exact ⟨y, hy, fun _ => hs, fun e => absurd (hn.mpr hl) e⟩
  · refine ⟨y, hy, fun e => ?_, fun _ => hr⟩
    rcases hn.mp e with e | e
    · exact nomatch hl.symm.trans e
    · exact absurd e hout

/-! ### The other contexts (rules R49, R50, R285) -/

theorem exec_outbox {i : Instr} {s t : State} (h : exec i s = .next t) :
    t.outbox = s.outbox ∨ ∃ r, t.outbox = (s.cur, r) :: s.outbox := by
  obtain ⟨x, -, hc⟩ := exec_cases h
  cases hc with
  | issued _ hi =>
    cases hi with
    | starts => exact .inl rfl
    | ends => exact .inr ⟨_, rfl⟩
  | word _ _ hw => exact .inr (writeWord_outbox hw)
  | event _ _ _ hp =>
    obtain ⟨v, hv, hl⟩ := phaseEvent_leads hp
    exact hv.outbox ▸ hv.cur ▸ hl.outbox

/-- What a step has done to the state it answers: nothing, or something to `u`, which is the state before with
the choice made, the request taken and the context set that moves. -/
theorem step_moves {s t : State} (h : step s = .next t) : t = s ∨
    ∃ u, (∃ e c q, u = { s with env := e, cur := c, inbox := q }) ∧
      ((∃ i, exec i u = .next t) ∨ ∃ f, t = u.raise f) := by
  have chosen : ∀ {m u} (c : Nat) (q : List (Nat × Request)), s.turn = some (m, u) →
      ∃ e, { u with inbox := q, cur := c } = ({ s with env := e, cur := c, inbox := q } : State) := by
    intro m u c q hu
    rcases (turn_some hu).2 with rfl | rfl <;> exact ⟨_, rfl⟩
  cases step_next h with
  | quiet => exact .inl rfl
  | issue hu _ _ hx =>
    obtain ⟨e, he⟩ := chosen _ _ hu
    exact .inr ⟨_, ⟨e, _, _, he⟩, .inl ⟨_, hx⟩⟩
  | @run u c x i _ hu _ _ hx =>
    obtain ⟨e, he⟩ := chosen c u.inbox hu
    exact .inr ⟨_, ⟨e, _, _, he⟩, .inl ⟨_, hx⟩⟩
  | reject hu _ _ _ ht =>
    obtain ⟨e, he⟩ := chosen _ _ hu
    exact .inr ⟨_, ⟨e, _, _, he⟩, .inr ⟨_, ht⟩⟩

/-- Settles O24: the instruction that moves keeps the other contexts (`Does.kept`) and delivers at most one
result (`exec_outbox`), in the context that moves. -/
theorem otherContextsAreLeftAlone : Obligations.OtherContextsAreLeftAlone := by
  intro s t h
  refine (step_moves h).imp_right ?_
  rintro ⟨u, ⟨e, c, q, hu⟩, hm⟩
  obtain ⟨hk, hout⟩ : Kept u t ∧ (t.outbox = u.outbox ∨ ∃ r, t.outbox = (u.cur, r) :: u.outbox) := by
    rcases hm with ⟨i, hx⟩ | ⟨f, rfl⟩
    · exact ⟨exec_kept hx, exec_outbox hx⟩
    · exact ⟨(Does.raise u f).kept, .inr ⟨_, rfl⟩⟩
  rw [hk.cur]
  subst hu
  exact ⟨hk.count, hk.others, hout⟩

/-! ### The ghost (rule R28) -/

section
variable (s : State) (b : BusPhase)

theorem operate_ghost {o : Op} {issue : Ctx → State → State}
    (hi : ∀ x, issue x (s.withGhost b) = (issue x s).withGhost b) :
    SameButGhost (operate o issue s) (operate o issue (s.withGhost b)) := by
  unfold operate
  rw [withGhost_ctx?]
  split
  · exact .refused _
  · rename_i x _
    split
    · rw [hi]
      exact .next _ b
    · split
      · unfold advance
        split
        · obtain ⟨v, -, hc⟩ := phaseEvent_continues _ _ x s b
          exact hc.ghost
        · exact .fault _
      · exact .refused _

theorem writeWord_ghost (off : Nat) (w : Word) :
    SameButGhost (writeWord off w s) (writeWord off w (s.withGhost b)) := by
  unfold writeWord
  rw [withGhost_ctx?, withGhost_initialized, withGhost_admitted]
  split
  · exact .refused _
  · split
    · exact .refused _
    · split
      · split
        · rw [ghostWrite_ghost (u' := (s.withGhost b).didWrite off w) (u := s.didWrite off w)]
          exact .next _ _
        · exact .next _ b
      · exact .next _ b

variable {s b}

theorem ite_ghost {c : Prop} [Decidable c] {t t' e e' : State} (ht : t' = t.withGhost b)
    (he : e' = e.withGhost b) : (if c then t' else e') = (if c then t else e).withGhost b := by
  rw [ht, he, apply_ite (State.withGhost b)]

theorem issueTsGetRes_ghost (idx : Nat) (x : Ctx) :
    issueTsGetRes idx x (s.withGhost b) = (issueTsGetRes idx x s).withGhost b := by
  unfold issueTsGetRes
  rw [withGhost_sens]
  split <;> rfl

variable (s b)

/-- The ghost decides nothing in an instruction but itself: the tests of issue do not read it. -/
theorem exec_ghost (i : Instr) : SameButGhost (exec i s) (exec i (s.withGhost b)) := by
  cases i
  case busInit => exact operate_ghost s b fun _ => ite_ghost rfl (ite_ghost rfl rfl)
  case busReset | busSearch | busMatch | devOpen | devWcmd | devWctl | tsTemp | tsTempF =>
    exact operate_ghost s b fun _ => ite_ghost rfl rfl
  case busRd | busWr | devWr | devRd | tsSetRes =>
    exact operate_ghost s b fun _ => ite_ghost (ite_ghost rfl rfl) rfl
  case addrRom | addrFamily | addrSerial | addrCrc | addrEq => exact operate_ghost s b fun _ => rfl
  case devClose =>
    exact operate_ghost s b (issue := fun _ t => t.closeScope.deliver (.success .none)) fun _ => rfl
  case tsCreate => exact operate_ghost s b fun _ => ite_ghost (ite_ghost (ite_ghost rfl rfl) rfl) rfl
  case tsGetRes => exact operate_ghost s b (issueTsGetRes_ghost _)
  all_goals exact writeWord_ghost s b _ _

end

theorem rejectRequest_ghost (r : Reject) (s : State) (b : BusPhase) :
    SameButGhost (rejectRequest r s) (rejectRequest r (s.withGhost b)) := by
  unfold rejectRequest
  rw [withGhost_ctx?]
  split
  · exact .refused _
  · exact .next _ b
  · exact .refused _

theorem turn_withGhost (s : State) (b : BusPhase) :
    (s.withGhost b).turn = s.turn.map fun m => (m.1, m.2.withGhost b) := by
  have hturns : (s.withGhost b).turns = s.turns := rfl
  unfold State.turn
  rw [hturns]
  split <;> rfl

/-- What a step finds to do, in a state with another ghost. -/
def Fetched.withGhost (b : BusPhase) : Fetched → Fetched
  | .quiet => .quiet
  | .run i t => .run i (t.withGhost b)
  | .reject r t => .reject r (t.withGhost b)
  | .stuck => .stuck

theorem fetchRequest_withGhost (s : State) (b : BusPhase) :
    (s.withGhost b).fetchRequest = s.fetchRequest.withGhost b := by
  unfold State.fetchRequest
  rw [show (s.withGhost b).inbox = s.inbox from rfl]
  split
  · rfl
  · split <;> rfl

theorem fetchInFlight_withGhost (c : Nat) (s : State) (b : BusPhase) :
    (s.withGhost b).fetchInFlight c = (s.fetchInFlight c).withGhost b := by
  unfold State.fetchInFlight
  rw [show (s.withGhost b).ctxs = s.ctxs from rfl]
  split <;> rfl

theorem fetch_withGhost (s : State) (b : BusPhase) : (s.withGhost b).fetch = s.fetch.withGhost b := by
  unfold State.fetch
  rw [turn_withGhost]
  match s.turn with
  | none => rfl
  | some (.issue, u) => exact fetchRequest_withGhost u b
  | some (.run c, u) => exact fetchInFlight_withGhost c u b

theorem step_ghost (s : State) (b : BusPhase) : SameButGhost (step s) (step (s.withGhost b)) := by
  unfold step
  rw [fetch_withGhost]
  match s.fetch with
  | .quiet => exact .next s b
  | .run i t => exact exec_ghost t b i
  | .reject r t => exact rejectRequest_ghost r t b
  | .stuck => exact .fault _

/-- Settles O28: what is fetched does not depend on the ghost, and what `exec` does with it only in the ghost
(`exec_ghost`). -/
theorem ghostChangesNothing : Obligations.GhostChangesNothing := by
  intro s b
  have h : SameButGhost (step s) (step { s with busPhase := b }) := step_ghost s b
  generalize step s = o at h
  generalize step { s with busPhase := b } = o' at h
  cases h with
  | next t c => exact ⟨fun u e => ⟨c, by rw [← Host.Outcome.next.inj e]; rfl⟩, nofun, nofun⟩
  | fault f => exact ⟨nofun, fun _ e => e, nofun⟩
  | refused r => exact ⟨nofun, nofun, fun _ e => e⟩

end Sys2Proof.Machine

/-! ## One event of a sound state (rules R47, R50, R74)

In a sound state the phase on top of the stack finds all it needs: its register is inside the window, its sensor
record and its resolution are there, and its result is one its callers can take. So it answers a next state, after
exactly one event, and the access its context makes next is inside the window as well. -/

namespace Sys2Proof.Machine

/-- The access that the current context makes next is inside the window. -/
def State.CurAdmitted (t : State) : Prop :=
  ∀ y, t.ctx? = some y → ∀ p ∈ y.pc.head?, ∀ off ∈ chosenOffset t.cfg y p, t.admitted off = true

/-- The outcome is a next state, with no event since `s`. -/
def Goes (s : State) (o : Out) : Prop := ∃ t, o = .next t ∧ t.trace = s.trace ∧ t.CurAdmitted

/-- The outcome is a next state, after one event of the current context of `s`. -/
def OneEvent (s : State) (o : Out) : Prop :=
  ∃ t e, o = .next t ∧ t.trace = (s.cur, e) :: s.trace ∧ t.CurAdmitted

theorem Goes.oneEvent {s u : State} {o : Out} (e : Event) (h : Goes u o)
    (ht : u.trace = (s.cur, e) :: s.trace := by rfl) : OneEvent s o := by
  obtain ⟨t, ho, htr, hc⟩ := h
  exact ⟨t, e, ho, htr.trans ht, hc⟩

theorem Goes.of_trace {s u : State} {o : Out} (h : Goes u o) (ht : u.trace = s.trace := by rfl) :
    Goes s o := by
  obtain ⟨t, ho, htr, hc⟩ := h
  exact ⟨t, ho, htr.trans ht, hc⟩

/-! ### The shared operations -/

section
variable {s w : State}

/-- The context goes on at a phase whose access is that of a fixed register. -/
theorem goes_updCtx {f : Ctx → Ctx} (p : Phase) (hf : ∀ y, (f y).pc.head? = some p := by exact fun _ => rfl)
    (hp : ∀ k y, chosenOffset k y p = none := by exact fun _ _ => rfl) (ht : w.trace = s.trace := by rfl) :
    Goes s (.next (w.updCtx f)) := by
  refine ⟨_, rfl, ht, fun y hy q hq off hoff => ?_⟩
  rw [ctx?_updCtx] at hy
  obtain ⟨z, -, rfl⟩ := Option.map_eq_some_iff.mp hy
  obtain rfl : p = q := Option.some.inj ((hf z).symm.trans hq)
  rw [hp] at hoff
  cases hoff

theorem goes_goto (p : Phase) {cs : List Phase} (hp : ∀ k y, chosenOffset k y p = none := by exact fun _ _ => rfl)
    (ht : w.trace = s.trace := by rfl) : Goes s (.next (w.goto (p :: cs))) :=
  goes_updCtx p (fun _ => rfl) hp ht

theorem goes_callOpen (cs : List Phase) (ht : w.trace = s.trace := by rfl) : Goes s (.next (w.callOpen cs)) :=
  goes_updCtx .rstCmd (fun _ => rfl) (fun _ _ => rfl) ht

/-- The operation has ended, and the context makes no access. -/
theorem goes_deliver (r : Result) (ht : w.trace = s.trace := by rfl) : Goes s (.next (w.deliver r)) := by
  refine ⟨_, rfl, ht, fun y hy q hq => ?_⟩
  rw [ctx?_deliver] at hy
  obtain ⟨z, -, rfl⟩ := Option.map_eq_some_iff.mp hy
  cases hq

theorem goes_searchWindow (off : Nat) : Goes s (searchWindow off s) :=
  goes_deliver (w := s.releaseOnAbort) _

theorem readReg_one {off : Nat} {k : Word → State → Out} (ha : s.admitted off = true)
    (hk : Goes (s.didRead off) (k s.answer (s.didRead off))) : OneEvent s (readReg off s k) := by
  rw [readReg_of_admitted k ha]
  exact hk.oneEvent _

theorem writeReg_one {off : Nat} {v : Word} {k : State → Out} (ha : s.admitted off = true)
    (hk : Goes (s.didWrite off v) (k (s.didWrite off v))) : OneEvent s (writeReg off v s k) := by
  rw [writeReg_of_admitted k ha]
  exact hk.oneEvent _

theorem searchRead_one {off : Nat} {k : Word → State → Out} (ha : s.admitted off = true)
    (hk : Goes (s.didRead off) (k s.answer (s.didRead off))) : OneEvent s (searchRead off s k) := by
  rw [searchRead, if_pos ha]
  exact hk.oneEvent _

theorem searchWrite_one {off : Nat} {v : Word} {k : State → Out} (ha : s.admitted off = true)
    (hk : Goes (s.didWrite off v) (k (s.didWrite off v))) : OneEvent s (searchWrite off v s k) := by
  rw [searchWrite, if_pos ha]
  exact hk.oneEvent _

theorem pollOnce_one {mask : Word} {bound : Nat} {wait : Phase} {cs : List Phase} {x : Ctx} {d e : State → Out}
    (ha : s.admitted s.cfg.offStatus = true)
    (hd : Goes (polled x s) (d (polled x s))) (he : Goes (polled x s) (e (polled x s)))
    (hw : ∀ k y, chosenOffset k y wait = none := by exact fun _ _ => rfl) :
    OneEvent s (pollOnce mask bound (wait :: cs) x s d e) := by
  rw [pollOnce_of_admitted ha]
  refine Goes.oneEvent (u := polled x s) (.read s.cfg.offStatus s.answer) ?_
  split
  · exact hd
  · split
    · exact he
    · exact goes_goto wait hw

theorem waitOnce_one (d : Nat) (poll : Phase) {cs : List Phase}
    (hp : ∀ k y, chosenOffset k y poll = none := by exact fun _ _ => rfl) :
    OneEvent s (waitOnce d (poll :: cs) s) :=
  (goes_goto (s := s.didDelay d) poll hp).oneEvent (.delay d)

theorem failAttempt_goes {x : Ctx} {cs : List Phase} {g : Result → State → Out} (hx : s.ctx? = some x)
    (hg : ∀ r, r.ok = false → Goes (s.exitTemp x) (g r (s.exitTemp x))) : Goes s (failAttempt cs s g) := by
  rw [failAttempt, withCtx, hx]
  dsimp only
  split
  · exact (hg _ rfl).of_trace
  · exact goes_callOpen _

end

/-! ### Returns -/

section
variable {o : Op}

theorem allCallers_head : ∀ l ∈ allCallers o, ∀ p ∈ l.head?, p.isEvent = false := by cases o <;> decide

theorem allCallers_oMatch : ∀ l ∈ allCallers o, l.head? = some .oMatch →
    l.tail.head? ≠ some .fCall ∧ (o = .devOpen ∨ o = .tsTemp ∨ o = .tsTempF) := by cases o <;> decide

theorem allCallers_fCall : ∀ l ∈ allCallers o, l.head? = some .fCall → l.tail = [] := by cases o <;> decide

/-- Only BUS_RESET, BUS_MATCH and TS_TEMP are called. -/
theorem callerStacks_eq_nil {q : Op} {cs : List Phase} (h : cs ∈ callerStacks o q)
    (hq : q ∉ [Op.busReset, .busMatch, .tsTemp] := by decide) : cs = [] := by
  revert h hq; cases o <;> cases q <;> simp [callerStacks]

/-- TS_TEMP_F calls TS_TEMP alone. -/
theorem callerStacks_fCall {q : Op} : ∀ l ∈ callerStacks o q, l.head? = some .fCall → q = .tsTemp := by
  cases o <;> cases q <;> decide

theorem matchCallers {cs : List Phase} (h : cs ∈ callerStacks o .busMatch) :
    o = .busMatch ∨ o = .devOpen ∨ o = .tsTemp ∨ o = .tsTempF := by
  revert h; cases o <;> simp [callerStacks]

/-- A match in flight has its ROM code (R201, R225, R231). -/
theorem withRom_eq {x : Ctx} {s : State} (ho : x.op = some o)
    (hm : o = .busMatch ∨ o = .devOpen ∨ o = .tsTemp ∨ o = .tsTempF)
    (hn : o = .tsTemp ∨ o = .tsTempF → x.opc.toNat < s.sens.length) :
    ∃ rom, ∀ k, withRom x s k = k rom := by
  unfold withRom withSensor
  rcases hm with rfl | rfl | rfl | rfl <;> rw [ho]
  · exact ⟨_, fun _ => rfl⟩
  · exact ⟨_, fun _ => rfl⟩
  · rw [List.getElem?_eq_getElem (hn (.inl rfl))]
    exact ⟨_, fun _ => rfl⟩
  · rw [List.getElem?_eq_getElem (hn (.inr rfl))]
    exact ⟨_, fun _ => rfl⟩

/-- The callers take any result, TS_TEMP_F that of a reading if it is a success. -/
theorem ret_goes : ∀ (cs : List Phase) {r : Result} {s : State} {x : Ctx}, cs ∈ allCallers o →
    s.ctx? = some x → x.op = some o → (o = .tsTemp ∨ o = .tsTempF → x.opc.toNat < s.sens.length) →
    (cs.head? = some .fCall → r.ok = true → ∃ m, r.val = .int m) → Goes s (ret cs r s) := by
  intro cs
  induction cs with
  | nil => exact fun {r} _ _ _ _ _ _ _ => goes_deliver r
  | cons p cs ih =>
    intro r s x hcs hx ho hn hr
    have tail : cs ∈ allCallers o := allCallers_tail _ hcs
    cases p
    case oReset =>
      simp only [ret]
      split
      · exact goes_goto .mCmd
      · exact ih tail hx ho hn nofun
    case oMatch =>
      obtain ⟨hf, hm⟩ := allCallers_oMatch _ hcs rfl
      simp only [ret]
      split
      · obtain ⟨rom, hrom⟩ := withRom_eq ho (.inr hm) hn
        simp only [withCtx, hx, hrom]
        exact (ih tail (map_ctx? hx) ho hn fun h => absurd h hf).of_trace
      · exact ih tail hx ho hn nofun
    case tOpen1 =>
      simp only [ret]
      split
      · exact goes_goto .tConvCmd
      · simp only [withCtx, hx]
        exact (ih (x := { x with devOpen := false }) tail (by simp [hx]) ho (by simpa using hn)
          fun _ h => absurd h Bool.false_ne_true).of_trace
    case tOpen2 =>
      simp only [ret]
      split
      · exact goes_goto .tRdCmd
      · exact failAttempt_goes hx fun e he =>
          ih (x := { x with devOpen := false }) tail (by simp [hx]) ho (by simpa using hn)
            fun _ h => by simp [he] at h
    case fCall =>
      obtain rfl : cs = [] := allCallers_fCall _ hcs rfl
      have : ∃ e, fahrenheitResult r = some e := by
        unfold fahrenheitResult
        split
        · obtain ⟨m, hm⟩ := hr rfl ‹_›
          exact ⟨_, by rw [hm]⟩
        · exact ⟨_, rfl⟩
      obtain ⟨e, he⟩ := this
      simp only [ret, he]
      exact goes_deliver e
    all_goals exact absurd (allCallers_head _ hcs _ rfl) (by decide)

end

/-! ### The phases -/

/-- A resolution that a record may hold has a conversion delay (R104, R228). -/
theorem convDelay_of_validRes (k : Config) {r : Nat} (h : validRes r = true) : ∃ d, convDelay k r = some d := by
  obtain ⟨h9, h12⟩ : 9 ≤ r ∧ r ≤ 12 := by simpa [validRes] using h
  unfold convDelay
  interval_cases r <;> exact ⟨_, rfl⟩

/-- Going on with the harvest checks the access of the next read (R162). -/
theorem harvest_goes {s u : State} {z : Ctx} {f : Ctx → Ctx} {i found : Nat} (hz : s.ctx? = some z)
    (hi : (f z).tIdx = i := by rfl) (ht : s.trace = u.trace := by rfl) :
    Goes u (harvest [] i found (s.updCtx f)) := by
  have hf : (s.updCtx f).ctx? = some (f z) := map_ctx? hz
  unfold harvest
  split
  · split
    · rename_i ha
      refine ⟨_, rfl, ht, fun y hy p hp off hoff => ?_⟩
      obtain rfl : { f z with pc := [.sLo] } = y := by
        simpa only [ctx?_goto, hf, Option.map_some, Option.some.injEq] using hy
      obtain rfl : Phase.sLo = p := by simpa using hp
      obtain rfl : romIdLo s.cfg (f z).tIdx = off := by simpa [chosenOffset] using hoff
      exact hi ▸ ha
    · exact (goes_searchWindow _).of_trace ht
  · exact goes_deliver _ ht

section
variable {s : State} {x : Ctx} {o : Op} {p : Phase} {cs : List Phase} (hx : s.ctx? = some x)
  (hi : x.InFlight s.cfg s.sens.length o p cs)
include hx hi

/-- A return of a called operation, after writes that are quiet and keep the sensor records. -/
theorem ret_goes_after {r : Result} {u : State} (hq : Quiet s u) (hu : u.sens.length = s.sens.length)
    (hr : p.op = .tsTemp → r.ok = true → ∃ m, r.val = .int m) : Goes u (ret cs r u) := by
  obtain ⟨z, hz, hl⟩ : ∃ z, u.ctx? = some z ∧ z.latches = x.latches :=
    Option.map_eq_some_iff.mp (hq.latches.trans (congrArg (Option.map Ctx.latches) hx))
  obtain ⟨hop, -, -, hopc⟩ : z.op = x.op ∧ z.opa = x.opa ∧ z.opb = x.opb ∧ z.opc = x.opc := by
    simpa [Ctx.latches] using hl
  exact ret_goes cs (callerStacks_subset _ hi.callers) hz (hop.trans hi.op)
    (by rw [hu, hopc]; exact hi.sensor) fun h => hr (callerStacks_fCall _ hi.callers h)

/-- The event of a phase: its access is inside the window, and the resolution of its sensor is valid. -/
theorem phaseEvent_one (hp : p.isEvent = true)
    (hw : p.op ≠ .busInit → ∀ off ∈ s.cfg.fixedOffsets, s.admitted off = true)
    (ha : ∀ off ∈ chosenOffset s.cfg x p, s.admitted off = true)
    (hres : ∀ y ∈ s.sens, validRes y.res = true) (htrig : s.cfg.regTrigger ∈ s.cfg.fixedOffsets) :
    OneEvent s (phaseEvent p cs x s) := by
  have sensor : p.op = .tsTemp → ∃ y ∈ s.sens, ∀ k, withSensor x s k = k y := fun h => by
    have hn := hi.sensor ((tempCallers (h ▸ hi.callers)).imp And.left And.left)
    exact ⟨_, List.getElem_mem hn, fun k => by rw [withSensor, List.getElem?_eq_getElem hn]⟩
  have rom : p.op = .busMatch → ∃ r, ∀ k, withRom x s k = k r := fun h =>
    withRom_eq hi.op (matchCallers (h ▸ hi.callers)) hi.sensor
  have hc := hi.callers
  cases p
  case iClkget =>
    obtain rfl := callerStacks_eq_nil hc
    dsimp only [phaseEvent, phIClkget]
    split
    · exact Goes.oneEvent (.clkGet s.env.clk) (goes_deliver (s := s.didClkGet) _ (by simp))
    · exact Goes.oneEvent (.clkGet s.env.clk) (goes_goto (s := s.didClkGet) .iClkset)
  case iClkset =>
    obtain rfl := callerStacks_eq_nil hc
    exact Goes.oneEvent (.clkSet _) (goes_deliver (s := s.didClkSet s.cfg.plClkTarget) _ (by simp))
  case oReset | oMatch | tOpen1 | tOpen2 | fCall => cases hp
  all_goals replace hw := hw (by decide)
  case rstCmd =>
    dsimp only [phaseEvent, phRstCmd]
    exact writeReg_one (hw _ (by simp [Config.fixedOffsets])) (goes_updCtx .rstPoll)
  case rstPoll =>
    dsimp only [phaseEvent, phRstPoll]
    refine pollOnce_one (hw _ (by simp [Config.fixedOffsets])) ?_ ?_
    · exact Goes.of_trace (ret_goes_after hx hi ((Quiet.polled x s).trans (.ghost _ .resetDone)) rfl nofun)
    · exact ret_goes_after hx hi (.polled x s) rfl nofun
  case rstWait => exact waitOnce_one _ .rstPoll
  case sLock =>
    dsimp only [phaseEvent, phSLock]
    split
    · exact Goes.oneEvent (.lockTas _) (goes_goto (s := s.didLockTas) .sLock)
    · exact Goes.oneEvent (.lockTas _) (goes_goto (s := s.didLockTas) .sCmd)
  case sCmd =>
    dsimp only [phaseEvent, phSCmd]
    exact searchWrite_one (hw _ (by simp [Config.fixedOffsets])) (goes_goto .sSer)
  case sSer =>
    dsimp only [phaseEvent, phSSer]
    exact searchWrite_one (hw _ htrig) (goes_updCtx .sPoll)
  case sPoll =>
    obtain rfl := callerStacks_eq_nil hc
    dsimp only [phaseEvent, phSPoll]
    refine searchRead_one (hw _ (by simp [Config.fixedOffsets])) ?_
    split
    · exact goes_deliver _
    · exact goes_deliver _
    · exact goes_goto .sFound
    · split
      · exact goes_deliver _
      · exact goes_goto .sWait
  case sWait => exact waitOnce_one _ .sPoll
  case sFound =>
    obtain rfl := callerStacks_eq_nil hc
    dsimp only [phaseEvent, phSFound]
    refine searchRead_one (hw _ (by simp [Config.fixedOffsets])) ?_
    exact harvest_goes (s := s.didRead _) hx
  case sLo =>
    dsimp only [phaseEvent, phSLo]
    refine searchRead_one (ha _ rfl) ?_
    split
    · rename_i ha'
      refine ⟨_, rfl, rfl, fun y hy p hp off hoff => ?_⟩
      obtain rfl : { x with tLo := s.answer, pc := .sHi :: cs } = y := by simpa [hx] using hy
      obtain rfl : Phase.sHi = p := by simpa using hp
      obtain rfl : romIdHi s.cfg x.tIdx = off := by simpa [chosenOffset] using hoff
      exact ha'
    · exact (goes_searchWindow _).of_trace
  case sHi =>
    obtain rfl := callerStacks_eq_nil hc
    dsimp only [phaseEvent, phSHi]
    refine searchRead_one (ha _ rfl) ?_
    exact harvest_goes (by simpa using hx) rfl (by simp)
  case mCmd =>
    dsimp only [phaseEvent, phMCmd]
    exact writeReg_one (hw _ (by simp [Config.fixedOffsets])) (goes_goto .mD0)
  case mD0 =>
    obtain ⟨r, hr⟩ := rom rfl
    dsimp only [phaseEvent, phMD0]
    rw [hr]
    exact writeReg_one (hw _ (by simp [Config.fixedOffsets])) (goes_goto .mD1)
  case mD1 =>
    obtain ⟨r, hr⟩ := rom rfl
    dsimp only [phaseEvent, phMD1]
    rw [hr]
    exact writeReg_one (hw _ (by simp [Config.fixedOffsets])) (goes_goto .mSz)
  case mSz =>
    dsimp only [phaseEvent, phMSz]
    exact writeReg_one (hw _ (by simp [Config.fixedOffsets])) (goes_goto .mExec)
  case mExec =>
    dsimp only [phaseEvent, phMExec]
    exact writeReg_one (hw _ htrig) (goes_updCtx .mPoll)
  case mPoll =>
    obtain ⟨r, hr⟩ := rom rfl
    dsimp only [phaseEvent, phMPoll]
    rw [hr]
    refine pollOnce_one (hw _ (by simp [Config.fixedOffsets])) ?_ ?_
    · exact Goes.of_trace (ret_goes_after hx hi
        ((Quiet.polled x s).trans (.ghost _ ((polled x s).busPhase.afterMatch r))) rfl nofun)
    · exact Goes.of_trace (ret_goes_after hx hi ((Quiet.polled x s).trans (.ghost _ .unknown)) rfl nofun)
  case mWait => exact waitOnce_one _ .mPoll
  case rdAcc | drAcc =>
    obtain rfl := callerStacks_eq_nil hc
    dsimp only [phaseEvent, phRdAcc, phDrAcc]
    exact readReg_one (ha _ rfl) (goes_deliver _)
  case wrAcc =>
    obtain rfl := callerStacks_eq_nil hc
    dsimp only [phaseEvent, phWrAcc]
    exact writeReg_one (ha _ rfl) (goes_deliver _ (by simp))
  case wcAcc | wtAcc =>
    obtain rfl := callerStacks_eq_nil hc
    dsimp only [phaseEvent, phWcAcc, phWtAcc]
    exact writeReg_one (hw _ (by simp [Config.fixedOffsets])) (goes_deliver _)
  case dwAcc =>
    obtain rfl := callerStacks_eq_nil hc
    dsimp only [phaseEvent, phDwAcc]
    exact writeReg_one (ha _ rfl) (goes_deliver _)
  case tNow0 =>
    obtain ⟨y, -, hy⟩ := sensor rfl
    dsimp only [phaseEvent, phTNow0]
    rw [hy]
    split
    · exact Goes.oneEvent (.now s.nowAnswer)
        (ret_goes_after hx hi ((Quiet.now s).trans (.ctx _)) rfl fun _ _ => ⟨_, rfl⟩)
    · exact Goes.oneEvent (.now s.nowAnswer) (goes_callOpen (s := s.didNow) _)
  case tConvCmd =>
    dsimp only [phaseEvent, phTConvCmd]
    exact writeReg_one (hw _ (by simp [Config.fixedOffsets])) (goes_goto .tConvExec)
  case tConvExec =>
    obtain ⟨y, -, hy⟩ := sensor rfl
    dsimp only [phaseEvent, phTConvExec]
    rw [hy]
    exact writeReg_one (hw _ htrig) (goes_goto .tConvWait)
  case tConvWait =>
    obtain ⟨y, hmem, hy⟩ := sensor rfl
    obtain ⟨d, hd⟩ := convDelay_of_validRes s.cfg (hres y hmem)
    simp only [phaseEvent, phTConvWait, hy, hd]
    exact Goes.oneEvent (.delay d) (goes_goto (s := s.didDelay d) .tConvChk)
  case tConvChk =>
    obtain ⟨y, -, hy⟩ := sensor rfl
    dsimp only [phaseEvent, phTConvChk]
    rw [hy]
    refine readReg_one (hw _ (by simp [Config.fixedOffsets])) ?_
    split
    · exact goes_callOpen _
    · exact Goes.of_trace (ret_goes_after hx hi
        ((((Quiet.read s _).trans (.ctx _)).trans (.closeScope _)).trans (.exitTemp _ x)) (by simp) nofun)
  case tRdCmd =>
    dsimp only [phaseEvent, phTRdCmd]
    exact writeReg_one (hw _ (by simp [Config.fixedOffsets])) (goes_goto .tRdSz)
  case tRdSz =>
    dsimp only [phaseEvent, phTRdSz]
    exact writeReg_one (hw _ (by simp [Config.fixedOffsets])) (goes_goto .tRdExec)
  case tRdExec =>
    dsimp only [phaseEvent, phTRdExec]
    exact writeReg_one (hw _ htrig) (goes_updCtx .tRdPoll)
  case tRdPoll =>
    dsimp only [phaseEvent, phTRdPoll]
    refine pollOnce_one (hw _ (by simp [Config.fixedOffsets])) (goes_goto .tRdData) ?_
    refine Goes.of_trace (failAttempt_goes (s := (polled x s).closeScope)
      (map_ctx? (s := polled x s) (map_ctx? (s := s.didRead _) hx)) fun r hr => ?_)
    exact ret_goes_after hx hi (((Quiet.polled x s).trans (.closeScope _)).trans (.exitTemp _ _))
      (by simp [polled]) fun _ h => by simp [hr] at h
  case tRdWait => exact waitOnce_one _ .tRdPoll
  case tRdData =>
    dsimp only [phaseEvent, phTRdData]
    exact readReg_one (hw _ (by simp [Config.fixedOffsets])) (goes_goto .tNow1)
  case tNow1 =>
    obtain ⟨y, -, hy⟩ := sensor rfl
    dsimp only [phaseEvent, phTNow1]
    rw [hy]
    exact Goes.oneEvent (.now s.nowAnswer) (ret_goes_after hx hi
      (((Quiet.now s).trans (.ctx _)).trans (.sensor _ _ _)) (by simp) fun _ _ => ⟨_, rfl⟩)

end

end Sys2Proof.Machine

/-! ## Sound states (rules R47, R48, R74, R151, R267, R323) -/

namespace Sys2Proof.Machine

/-! ### What soundness says of the context that moves -/

/-- The choice of who moves, the queue and the script are not part of soundness. -/
theorem State.Sound.choose {s : State} (hs : s.Sound) (e : Env) (c : Nat) (q : List (Nat × Request)) :
    State.Sound { s with env := e, cur := c, inbox := q } :=
  ⟨hs.cfg, hs.count, hs.ctxs, hs.window, hs.res, hs.access, hs.before⟩

theorem Ctx.Sound.idle {k : Config} {n : Nat} {x : Ctx} (h : x.Sound k n) (ho : x.op = none) :
    x.pc = [] ∧ x.retryCnt ≤ k.scratchRetryMax := by
  unfold Ctx.Sound at h
  rw [ho] at h
  split at h
  · exact ⟨‹_›, h⟩
  · cases ‹none = some _›
  · exact h.elim

theorem Ctx.Sound.event {k : Config} {n : Nat} {x : Ctx} {o : Op} (h : x.Sound k n) (ho : x.op = some o) :
    ∃ p cs, x.pc = p :: cs ∧ p.isEvent = true ∧ x.InFlight k n o p cs := by
  match hp : x.pc with
  | [] => rw [Ctx.Sound, ho, hp] at h; exact h.elim
  | p :: cs =>
    refine ⟨p, cs, rfl, ?_, h.inFlight ho hp⟩
    rw [Ctx.Sound, ho, hp] at h
    exact h.1

theorem mem_of_ctx? {s : State} {x : Ctx} (hx : s.ctx? = some x) : x ∈ s.ctxs := List.mem_of_getElem? hx

section
variable {s : State} {x : Ctx} {o : Op} (hs : s.Sound) (hx : s.ctx? = some x)
include hs hx

theorem State.Sound.ctx : x.Sound s.cfg s.sens.length := hs.ctxs x (mem_of_ctx? hx)

/-- Before construction nothing but a BUS_INIT is in flight (R267). -/
theorem State.Sound.initialized (ho : x.op = some o) (hi : o ≠ .busInit) : s.initialized = true := by
  by_contra hn
  obtain ⟨-, -, hc⟩ := hs.before (Bool.eq_false_iff.mpr hn)
  rcases (hc x (mem_of_ctx? hx)).2 with h | h <;> rw [ho] at h
  · cases h
  · exact hi (Option.some.inj h)

end

/-- Under BUS_INIT no other operation is called (R47). -/
theorem busInit_callers {q : Op} {cs : List Phase} (h : cs ∈ callerStacks .busInit q) :
    q = .busInit ∧ cs = [] := by
  revert h; cases q <;> simp [callerStacks]

/-- The event of the context that moves in a sound state. -/
theorem State.Sound.oneEvent {s : State} {x : Ctx} {o : Op} (hs : s.Sound) (hx : s.ctx? = some x)
    (ho : x.op = some o) : OneEvent s (advance x s) := by
  obtain ⟨p, cs, hp, hev, hi⟩ := (hs.ctx hx).event ho
  rw [advance, hp]
  refine phaseEvent_one hx hi hev (fun hq off hoff => ?_) (fun off hoff => ?_) hs.res (regTrigger_mem hs.cfg)
  · have hinit := hs.initialized hx ho fun e => hq (busInit_callers (e ▸ hi.callers)).1
    exact inWindow_of_validWindow hs.cfg (hs.window hinit) hoff
  · exact hs.access x (mem_of_ctx? hx) p (by rw [hp]; rfl) off hoff

/-! ### No stop (rules R47, R103, R272) -/

theorem exec_idle {i : Instr} {s : State} {x : Ctx} (hx : s.ctx? = some x) (ho : x.op = none) :
    ∃ t, exec i s = .next t := by
  by_cases hi : opOf i = none
  · obtain ⟨off, w, hw, -⟩ := exec_cmdWord hi
    rw [hw]
    simp only [writeWord, hx, ho]
    split
    · split <;> exact ⟨_, rfl⟩
    · exact ⟨_, rfl⟩
  · cases i
    case devClose => exact ⟨_, operate_idle (issue := fun _ t => t.closeScope.deliver (.success .none)) hx ho⟩
    case busInit | busReset | busSearch | busMatch | busRd | busWr | addrRom | addrFamily | addrSerial
        | addrCrc | addrEq | devOpen | devWcmd | devWctl | devWr | devRd | tsCreate | tsTemp | tsTempF
        | tsGetRes | tsSetRes =>
      exact ⟨_, operate_idle hx ho⟩
    all_goals exact absurd rfl hi

/-- The table has a row for each of the sixteen words (R108). -/
theorem commandWords_listed : (commandWords.all fun w => (lookupWord w cmdTable).isSome) = true := by decide

/-- A request that is rejected and not for a reserved opcode is a word outside the sixteen (R108). -/
theorem decode_reject_unlisted {q : Request} {w : Word} (h : decode q = .reject (.unlistedWord w)) :
    q = .cmdWord w ∧ w ∉ commandWords := by
  match q with
  | .hostOp r =>
    simp only [decode, decodeHostOp] at h
    split at h <;> cases h
  | .cmdWord v =>
    simp only [decode, decodeCmdWord] at h
    split at h
    · cases h
    · rename_i hl
      cases h
      exact ⟨rfl, fun hm => by simpa [hl] using List.all_eq_true.mp commandWords_listed _ hm⟩

/-- The context that moves is there, with its operation, when a context runs. -/
theorem turn_run {s u : State} {c : Nat} (h : s.turn = some (.run c, u)) :
    ∃ x o i, s.ctxs[c]? = some x ∧ x.op = some o ∧ x.inFlight = some i ∧ opOf i = some o := by
  have hb := mem_turns_run.mp (turn_some h).1
  unfold State.busy at hb
  split at hb
  · rename_i x hx
    obtain ⟨o, ho⟩ := Option.isSome_iff_exists.mp hb
    exact ⟨x, o, o.withFields x.opa x.opb x.opc, hx, ho, by simp [Ctx.inFlight, ho], opOf_withFields ..⟩
  · cases hb

/-- The context of a request that is issued is idle, if it is there. -/
theorem turn_issue {s u : State} (h : s.turn = some (.issue, u)) : ∃ c q rest, s.inbox = (c, q) :: rest ∧
    ∀ x, s.ctxs[c]? = some x → x.op = none := by
  obtain ⟨c, q, rest, hin, hb⟩ := mem_turns_issue.mp (turn_some h).1
  refine ⟨c, q, rest, hin, fun x hx => ?_⟩
  simpa [State.busy, hx] using hb

theorem State.Sound.turn {s u : State} {m : Turn} (hs : s.Sound) (h : s.turn = some (m, u)) : u.Sound := by
  rcases (turn_some h).2 with rfl | rfl
  · exact hs
  · exact hs.choose _ s.cur s.inbox

/-- The step of a busy context in a sound state. -/
theorem State.Sound.step_run {s u : State} {c : Nat} (hs : s.Sound) (h : s.turn = some (.run c, u)) :
    ∃ t e, step s = .next t ∧ t.trace = (c, e) :: s.trace := by
  obtain ⟨x, o, i, hx, ho, hi, hio⟩ := turn_run h
  have hu : State.ctx? { u with cur := c } = some x := by simp [State.ctx?, turn_ctxs h, hx]
  have hsu : State.Sound { u with cur := c } := (hs.turn h).choose u.env c u.inbox
  obtain ⟨t, e, ht, htr, -⟩ := hsu.oneEvent hu ho
  refine ⟨t, e, ?_, ?_⟩
  · rw [Machine.step_run h hx hi, exec_inFlight hu ho hio, ht]
  · rcases (turn_some h).2 with rfl | rfl <;> exact htr

/-- Settles O16: a context that runs answers next (`State.Sound.step_run`), and an issue in an idle context
does (`exec_idle`), unless the request is none. -/
theorem soundStatesNeverStop : Obligations.SoundStatesNeverStop := by
  intro s hs
  match ht : s.turn with
  | none =>
    have : step s = .next s := by simp [step, State.fetch, ht]
    rw [this]
    exact ⟨nofun, nofun⟩
  | some (.run c, u) =>
    obtain ⟨t, e, hstep, -⟩ := hs.step_run ht
    rw [hstep]
    exact ⟨nofun, nofun⟩
  | some (.issue, u) =>
    obtain ⟨c, q, rest, hin, hidle⟩ := turn_issue ht
    have hctx : State.ctx? { u with inbox := rest, cur := c } = s.ctxs[c]? := by
      simp [State.ctx?, turn_ctxs ht]
    have beyond : s.ctxs[c]? = none → s.cfg.nCtx ≤ c := fun h => hs.count ▸ List.getElem?_eq_none_iff.mp h
    match hq : decode q with
    | .instr i =>
      rw [step_issue ht hin hq]
      match hx : s.ctxs[c]? with
      | none =>
        rw [exec_noContext (hctx.trans hx)]
        exact ⟨nofun, fun _ _ => ⟨c, q, rest, hin, .inl (beyond hx)⟩⟩
      | some x =>
        obtain ⟨t, hnext⟩ := exec_idle (i := i) (hctx.trans hx) (hidle x hx)
        rw [hnext]
        exact ⟨nofun, nofun⟩
    | .reject r =>
      rw [step_reject ht hin hq]
      unfold rejectRequest
      rw [hctx]
      match hx : s.ctxs[c]?, r with
      | none, _ => exact ⟨nofun, fun _ _ => ⟨c, q, rest, hin, .inl (beyond hx)⟩⟩
      | some x, .reservedOpcode op => exact ⟨nofun, nofun⟩
      | some x, .unlistedWord w =>
        exact ⟨nofun, fun _ _ => ⟨c, q, rest, hin, .inr ⟨w, decode_reject_unlisted hq⟩⟩⟩

/-! ### One event a step (rules R50, R51) -/

theorem Issued.trace {i : Instr} {s t : State} {x : Ctx} (h : Issued i s x t) : t.trace = s.trace := by
  cases h <;> rfl

/-- The instruction of a record is a host operation (R101). -/
theorem opOf_of_decode {r : BitVec 168} {i : Instr} (h : decode (.hostOp r) = .instr i) : opOf i ≠ none := by
  simp only [decode, decodeHostOp] at h
  split at h
  · cases h
    simp
  · cases h

/-- Settles O23: the event of a run is one (`State.Sound.step_run`), and an issue only writes the context and
delivers (`Issued`). -/
theorem everyRunStepIsOneEvent : Obligations.EveryRunStepIsOneEvent := by
  intro s t hs h
  refine ⟨fun c u hu => ?_, fun u c r rest hu hin => ?_⟩
  · obtain ⟨t', e, hstep, htr⟩ := hs.step_run hu
    rw [h] at hstep
    cases hstep
    exact ⟨e, htr⟩
  · have htr : u.trace = s.trace := by rcases (turn_some hu).2 with rfl | rfl <;> rfl
    cases step_next h with
    | quiet => rfl
    | run hu' => exact nomatch hu.symm.trans hu'
    | @issue u' c' q' rest' i t hu' hin' hq hx =>
      obtain rfl : u = u' := by simpa using hu.symm.trans hu'
      obtain ⟨⟨rfl, rfl⟩, rfl⟩ : (c = c' ∧ .hostOp r = q') ∧ rest = rest' := by
        simpa using hin.symm.trans hin'
      obtain ⟨x, hx', hc⟩ := exec_cases hx
      have hidle : x.op = none := by
        obtain ⟨c', q', rest', hin', hidle⟩ := turn_issue hu
        obtain ⟨⟨rfl, rfl⟩, rfl⟩ : (c = c' ∧ .hostOp r = q') ∧ rest = rest' := by
          simpa using hin.symm.trans hin'
        exact hidle x (by simpa [State.ctx?, turn_ctxs hu] using hx')
      exact (exec_issued hx' hidle (opOf_of_decode hq) hx).trace.trans htr
    | reject hu' _ _ _ ht =>
      obtain rfl : u = _ := by simpa using hu.symm.trans hu'
      exact ht ▸ htr

end Sys2Proof.Machine

/-! ## Soundness is kept (rules R47, R48, R74, R151, R267, R276) -/

namespace Sys2Proof.Machine

/-! ### What every step keeps of the sensor records -/

theorem Ctx.Sound.mono {k : Config} {n m : Nat} {x : Ctx} (h : x.Sound k n) (hnm : n ≤ m) : x.Sound k m := by
  unfold Ctx.Sound at h ⊢
  split at h
  · exact h
  · obtain ⟨h1, h2, h3, h4, h5, h6⟩ := h
    exact ⟨h1, h2, h3, h4, fun e => (h5 e).trans_le hnm, h6⟩
  · exact h.elim

theorem Kept.sens_length {s t : State} (h : Kept s t) : s.sens.length ≤ t.sens.length := by
  by_contra hlt
  obtain ⟨z, hz, -⟩ := h.sensors _ _ (List.getElem?_eq_getElem (not_le.mp hlt))
  simp at hz

/-- Every resolution stays in 9 to 12 (R323 (g)). -/
theorem Does.res {evs : List Event} {s t : State} (h : Does evs s t)
    (hs : ∀ y ∈ s.sens, validRes y.res = true) : ∀ y ∈ t.sens, validRes y.res = true := by
  induction h with
  | seq _ _ ih ih' => exact ih' (ih hs)
  | construct s x => simpa using hs
  | insert s r => simpa using hs
  | sensor s i f hf =>
    intro z hz
    obtain ⟨j, hj⟩ := List.mem_iff_getElem?.mp hz
    rw [State.updSensor_sens, List.getElem?_modify] at hj
    obtain ⟨y, hy, rfl⟩ := Option.map_eq_some_iff.mp hj
    have hres := hs y (List.mem_of_getElem? hy)
    split
    · exact (hf y).2.2 hres
    · exact hres
  | addSensor s rom a b hb =>
    intro z hz
    rcases List.mem_append.mp hz with hz | hz
    · exact hs z hz
    · obtain rfl := List.mem_singleton.mp hz
      exact hb
  | _ => exact hs

/-! ### A context after issue -/

theorem firstFrames_legal {o : Op} {p : Phase} {cs : List Phase} (h : firstFrames o = p :: cs) :
    p.isEvent = true ∧ cs ∈ callerStacks o p.op ∧ ∀ k, pollBound k p = none := by
  cases o <;> cases h <;> exact ⟨rfl, by decide, fun _ => rfl⟩

/-- The first phase accesses a fixed register, or the offset of the request. -/
theorem firstFrames_access {o : Op} {p : Phase} (h : (firstFrames o).head? = some p) (k : Config) (y : Ctx) :
    chosenOffset k y p = none ∨
      ((o = .busRd ∨ o = .busWr ∨ o = .devWr ∨ o = .devRd) ∧ chosenOffset k y p = some y.opc.toNat) := by
  cases o <;> cases h <;> simp [chosenOffset]

theorem Ctx.issued_sound {s : State} {x : Ctx} {o : Op} {a b : BitVec 64} {c : BitVec 32} (h : s.Admits x o c)
    (hr : x.retryCnt ≤ s.cfg.scratchRetryMax) : (x.issued o a b c).Sound s.cfg s.sens.length := by
  match hf : firstFrames o with
  | [] => exact absurd hf h.frames
  | p :: cs =>
    obtain ⟨h1, h2, h3⟩ := firstFrames_legal hf
    simp only [Ctx.Sound, Ctx.issued, hf]
    exact ⟨h1, h2, fun b hb => (nomatch (h3 s.cfg).symm.trans hb), hr, by simpa using h.sensor,
      by simpa using h.window⟩

/-- What issue leaves an idle context as is sound. -/
theorem Issued.ctx_sound {i : Instr} {s t : State} {x : Ctx} (h : Issued i s x t) (hx : s.ctx? = some x)
    (hwf : i.WellFormed) (hr : x.retryCnt ≤ s.cfg.scratchRetryMax) :
    ∃ y, t.ctx? = some y ∧ y.Sound s.cfg s.sens.length := by
  cases h with
  | starts _ _ hw => exact ⟨_, ctx?_setCtx hx _, Ctx.issued_sound (hw hwf).2 hr⟩
  | ends _ hz => exact ⟨_, ctx?_settled hx _ _ _ _, Ctx.sound_idle rfl rfl (hz ▸ hr)⟩

/-- A context with no frame makes no access. -/
theorem curAdmitted_of_idle {t : State} {y : Ctx} (hy : t.ctx? = some y) (hp : y.pc = []) : t.CurAdmitted := by
  intro z hz p h
  obtain rfl : y = z := Option.some.inj (hy.symm.trans hz)
  rw [hp] at h
  cases h

theorem Issued.curAdmitted {i : Instr} {s t : State} {x : Ctx} (h : Issued i s x t) (hx : s.ctx? = some x)
    (hwf : i.WellFormed) : t.CurAdmitted := by
  cases h with
  | @starts o a b c _ _ hw =>
    intro y hy p hp off hoff
    obtain rfl : x.issued o a b c = y := Option.some.inj ((ctx?_setCtx hx _).symm.trans hy)
    rcases firstFrames_access hp s.cfg (x.issued o a b c) with h | ⟨ho, h⟩
    · exact nomatch h.symm.trans hoff
    · obtain rfl : c.toNat = off := Option.some.inj (h.symm.trans hoff)
      exact (hw hwf).2.access ho
  | ends => exact curAdmitted_of_idle (ctx?_settled hx _ _ _ _) rfl

/-! ### Before construction (rule R267) -/

/-- What is left of a state in which nothing was constructed: no sensor, the lock free, and in the current
context no scope and no operation but BUS_INIT; and if the window has been constructed it is valid. -/
structure State.Early (t : State) : Prop where
  sens : t.sens = []
  lock : t.lock = false
  ctx : ∀ y, t.ctx? = some y → y.devOpen = false ∧ (y.op = none ∨ y.op = some .busInit)
  window : t.initialized = true → validWindow t.cfg t.addrRange = true

theorem early_of_deliver {s : State} {x : Ctx} {r : Result} (hx : s.ctx? = some x) (hd : x.devOpen = false)
    (hs : s.sens = []) (hl : s.lock = false)
    (hw : s.initialized = true → validWindow s.cfg s.addrRange = true) : (s.deliver r).Early := by
  refine ⟨hs, hl, fun y hy => ?_, hw⟩
  rw [ctx?_deliver, hx] at hy
  cases hy
  exact ⟨hd, .inl rfl⟩

/-- Before construction no context is at a phase that makes an access. -/
theorem State.Sound.no_access_before {s : State} (hs : s.Sound) (hn : s.initialized = false) {x : Ctx}
    (hx : x ∈ s.ctxs) : ∀ p ∈ x.pc.head?, chosenOffset s.cfg x p = none := by
  intro p hp
  have h := hs.ctxs x hx
  rcases ((hs.before hn).2.2 x hx).2 with ho | ho
  · rw [(h.idle ho).1] at hp
    cases hp
  · obtain ⟨q, cs, hpc, -, hi⟩ := h.event ho
    rw [hpc] at hp
    obtain rfl : q = p := Option.some.inj hp
    have hq := (busInit_callers hi.callers).1
    cases q <;> cases hq <;> rfl

section
variable {s t : State} {x : Ctx} (hs : s.Sound) (hx : s.ctx? = some x) (hn : s.initialized = false)
include hs hx hn

/-- Issue before construction: BUS_INIT alone is started. -/
theorem Issued.early {i : Instr} (h : Issued i s x t) (hwf : i.WellFormed) : t.Early := by
  obtain ⟨hsens, hlock, hctx⟩ := hs.before hn
  have hd := (hctx x (mem_of_ctx? hx)).1
  have hw : s.initialized = true → validWindow s.cfg s.addrRange = true := hs.window
  cases h with
  | @starts o a b c _ _ hi =>
    refine ⟨hsens, hlock, fun y hy => ?_, hw⟩
    obtain rfl : x.issued o a b c = y := Option.some.inj ((ctx?_setCtx hx _).symm.trans hy)
    have ho : o = .busInit := by simpa [hn, hd, hsens] using (hi hwf).2.ready
    subst ho
    exact ⟨hd, .inr rfl⟩
  | @ends z r l e _ _ hz hl =>
    refine ⟨hl hn hsens, hlock, fun y hy => ?_, hw⟩
    rw [ctx?_settled hx] at hy
    cases hy
    exact ⟨by simpa [hd] using hz, .inl rfl⟩

/-- The events before construction are those of BUS_INIT, the last of which constructs the window that issue has
tested (R150, R151). -/
theorem phaseEvent_early {p : Phase} {cs : List Phase} {o : Op} (ho : x.op = some o)
    (hi : x.InFlight s.cfg s.sens.length o p cs) (h : phaseEvent p cs x s = .next t) : t.Early := by
  obtain ⟨hsens, hlock, hctx⟩ := hs.before hn
  obtain ⟨hd, hop⟩ := hctx x (mem_of_ctx? hx)
  obtain rfl : o = .busInit := by simpa [ho] using hop
  obtain ⟨hpop, rfl⟩ := busInit_callers hi.callers
  have last : ∀ u : State, u.ctx? = some x → u.sens = [] → u.lock = false → u.cfg = s.cfg →
      u.initialized = false → ((u.construct x).deliver (.success .none)).Early := by
    intro u hux hus hul huc hun
    rw [construct_of_not_initialized x hun]
    exact early_of_deliver (x := x) hux hd hus rfl fun _ => huc ▸ hi.window rfl
  cases p
  case iClkget =>
    dsimp only [phaseEvent, phIClkget] at h
    split at h
    · exact Host.Outcome.next.inj h ▸ last _ hx hsens hlock rfl hn
    · refine Host.Outcome.next.inj h ▸ ⟨hsens, hlock, fun y hy => ?_, hs.window⟩
      obtain rfl : { x with pc := [.iClkset] } = y := by simpa [hx] using hy
      exact ⟨hd, .inr ho⟩
  case iClkset => exact Host.Outcome.next.inj h ▸ last _ hx hsens hlock rfl hn
  all_goals cases hpop

end

/-! ### The step -/

section
variable {s t : State} (hs : s.Sound)
include hs

/-- Soundness follows for the whole state from what is said of the current context and of the time before
construction. -/
theorem State.Sound.of_kept (hk : Kept s t) (hres : ∀ y ∈ t.sens, validRes y.res = true)
    (hctx : ∀ y, t.ctx? = some y → y.Sound s.cfg t.sens.length) (hcur : t.CurAdmitted)
    (hearly : s.initialized = false → t.Early) : t.Sound := by
  have mem : ∀ y ∈ t.ctxs, t.ctx? = some y ∨ y ∈ s.ctxs := by
    intro y hy
    obtain ⟨d, hd⟩ := List.mem_iff_getElem?.mp hy
    by_cases hc : d = s.cur
    · exact .inl (by rw [State.ctx?, hk.cur, ← hc, hd])
    · exact .inr (List.mem_of_getElem? (hk.others d hc ▸ hd))
  have early : t.initialized = false → s.initialized = false := by
    intro h
    by_contra hi
    rw [(hk.initialized (by simpa using hi)).1] at h
    cases h
  refine ⟨hk.cfg ▸ hs.cfg, by rw [hk.count, hk.cfg, hs.count], fun y hy => ?_, fun hi => ?_, hres,
    fun y hy p hp off hoff => ?_, fun hi => ?_⟩
  · rw [hk.cfg]
    exact (mem y hy).elim (hctx y) fun h => (hs.ctxs y h).mono hk.sens_length
  · match hn : s.initialized with
    | true => rw [hk.cfg, (hk.initialized hn).2.2]; exact hs.window hn
    | false => exact (hearly hn).window hi
  · rcases mem y hy with h | h
    · exact hcur y h p hp off hoff
    · rw [hk.cfg] at hoff
      match hn : s.initialized with
      | true => rw [(hk.initialized hn).2.2]; exact hs.access y h p hp off hoff
      | false => rw [hs.no_access_before hn h p hp] at hoff; cases hoff
  · have he := hearly (early hi)
    refine ⟨he.sens, he.lock, fun y hy => (mem y hy).elim (he.ctx y) ?_⟩
    exact (hs.before (early hi)).2.2 y

/-- An instruction keeps soundness. -/
theorem State.Sound.exec {i : Instr} (hwf : ∀ x, s.ctx? = some x → x.op = none → i.WellFormed)
    (h : exec i s = .next t) : t.Sound := by
  obtain ⟨evs, hd, -⟩ := exec_does h
  have hk := hd.kept
  obtain ⟨x, hx, hc⟩ := exec_cases h
  cases hc with
  | issued ho hi =>
    have hr := ((hs.ctx hx).idle ho).2
    obtain ⟨y, hy, hsound⟩ := hi.ctx_sound hx (hwf x hx ho) hr
    refine hs.of_kept hk (hd.res hs.res) (fun z hz => ?_) (hi.curAdmitted hx (hwf x hx ho))
      fun hn => hi.early hs hx hn (hwf x hx ho)
    obtain rfl : y = z := Option.some.inj (hy.symm.trans hz)
    exact hsound.mono hk.sens_length
  | word ho _ hw =>
    obtain ⟨e, hy⟩ := writeWord_ctx? hx hw
    refine hs.of_kept hk (hd.res hs.res) (fun z hz => ?_) (curAdmitted_of_idle hy rfl) fun hn => ?_
    · rw [hy] at hz
      cases hz
      exact Ctx.sound_idle rfl rfl ((hs.ctx hx).idle ho).2
    · obtain ⟨hsens, hlock, hctx⟩ := hs.before hn
      obtain ⟨x', hx', -, ⟨-, rfl⟩ | ⟨hi, -⟩ | ⟨hi, -⟩⟩ := writeWord_next hw
      · exact early_of_deliver hx (hctx x (mem_of_ctx? hx)).1 hsens hlock hs.window
      · exact nomatch hn.symm.trans hi
      · exact nomatch hn.symm.trans hi
  | event ho _ hp hpe =>
    obtain ⟨p, cs, hp', -, hi⟩ := (hs.ctx hx).event ho
    rw [hp] at hp'
    cases hp'
    obtain ⟨t', e, ht', -, hcur⟩ := hs.oneEvent hx ho
    obtain rfl : t = t' := by simpa [advance, hp, hpe] using ht'
    obtain ⟨y, hy, hg⟩ := phaseEvent_goesOn hs.cfg hx hpe hi
    refine hs.of_kept hk (hd.res hs.res) (fun z hz => ?_) hcur fun hn => phaseEvent_early hs hx hn ho hi hpe
    obtain rfl : y = z := Option.some.inj (hy.symm.trans hz)
    have : y.Sound s.cfg s.sens.length := hg.elim And.right fun h => h.2.2.2.2.1
    exact this.mono hk.sens_length

/-- A fault result in an idle context keeps soundness. -/
theorem State.Sound.raise (f : HostFault) {x : Ctx} (hx : s.ctx? = some x) (ho : x.op = none) :
    (s.raise f).Sound := by
  have hd := Does.raise s f
  have hy : (s.raise f).ctx? = some { x with op := none, pc := [], lastErr := f.code } := by
    rw [ctx?_raise, hx]; rfl
  refine hs.of_kept hd.kept (hd.res hs.res) (fun z hz => ?_) (curAdmitted_of_idle hy rfl) fun hn => ?_
  · rw [hy] at hz
    cases hz
    exact Ctx.sound_idle rfl rfl ((hs.ctx hx).idle ho).2
  · obtain ⟨hsens, hlock, hctx⟩ := hs.before hn
    exact early_of_deliver hx (hctx x (mem_of_ctx? hx)).1 hsens hlock hs.window

end

/-- What decodes is well formed: its numbers come from fields of the record (R100). -/
theorem wellFormed_of_decode {q : Request} {i : Instr} (h : decode q = .instr i) : i.WellFormed := by
  have words : ∀ p ∈ cmdTable, p.2.wf = true := by decide
  match q with
  | .hostOp r =>
    simp only [decode, decodeHostOp] at h
    split at h
    · rename_i o _
      cases h
      cases o <;> simp only [Op.withFields, Instr.WellFormed, Instr.wf, fits32, fits64, BitVec.isLt, decide_true,
        Bool.and_self]
    · cases h
  | .cmdWord w =>
    simp only [decode, decodeCmdWord] at h
    split at h
    · cases h
      exact words _ (mem_of_lookupWord ‹_›)
    · cases h

/-- Settles O15: an instruction keeps soundness (`State.Sound.exec`), and so does a fault result. -/
theorem everyStepKeepsSoundness : Obligations.EveryStepKeepsSoundness := by
  intro s t hs h
  cases step_next h with
  | quiet => exact hs
  | issue hu _ hq hx =>
    exact ((hs.turn hu).choose _ _ _).exec (fun _ _ _ => wellFormed_of_decode hq) hx
  | @run u c x i _ hu hc hi hx =>
    have hux : State.ctx? { u with cur := c } = some x := by simp [State.ctx?, turn_ctxs hu, hc]
    refine ((hs.turn hu).choose u.env c u.inbox).exec (fun y hy hidle => ?_) hx
    obtain rfl : x = y := Option.some.inj (hux.symm.trans hy)
    simp [Ctx.inFlight, hidle] at hi
  | @reject u c q rest op _ hu hin _ hc ht =>
    obtain ⟨x, hx⟩ := Option.isSome_iff_exists.mp hc
    obtain ⟨c', q', rest', hin', hidle⟩ := turn_issue hu
    obtain ⟨⟨rfl, rfl⟩, rfl⟩ : (c = c' ∧ q = q') ∧ rest = rest' := by simpa using hin.symm.trans hin'
    have ho := hidle x (by simpa [State.ctx?, turn_ctxs hu] using hx)
    exact ht ▸ ((hs.turn hu).choose u.env c rest).raise _ hx ho

/-! ## The address table (rule R27) -/

theorem Leads.table {s t : State} (h : Leads s t) : t.tab = s.tab ∧ t.cap = s.cap := by
  obtain ⟨u, hq, rfl | ⟨r, rfl⟩⟩ := h
  · exact ⟨hq.tab, hq.cap⟩
  · exact ⟨hq.tab, hq.cap⟩

/-- What an instruction does to the address table: nothing, the construction, or once constructed the insertion
of one code. -/
inductive TableChange (s t : State) : Prop
  | same : t.tab = s.tab → t.cap = s.cap → TableChange s t
  | construct (x : Ctx) : t.tab = (s.construct x).tab → t.cap = (s.construct x).cap → TableChange s t
  | insert (r : RomCode) : s.initialized = true → t.tab = (s.insertIfNew r).tab →
      t.cap = (s.insertIfNew r).cap → TableChange s t

theorem State.Sound.exec_table {i : Instr} {s t : State} (hs : s.Sound) (h : Machine.exec i s = .next t) :
    TableChange s t := by
  obtain ⟨x, hx, hc⟩ := exec_cases h
  cases hc with
  | issued _ hi => cases hi <;> exact .same rfl rfl
  | word _ _ hw =>
    obtain ⟨x', hx', -, ⟨-, rfl⟩ | ⟨-, -, rfl⟩ | ⟨-, -, rfl⟩⟩ := writeWord_next hw <;>
      exact .same (by simp) (by simp)
  | @event o p cs ho _ hp hpe =>
    obtain ⟨v, hv, hl⟩ := phaseEvent_leads hpe
    obtain ⟨htab, hcap⟩ := hl.table
    cases hv with
    | same => exact .same htab hcap
    | construct => exact .construct x htab hcap
    | insert r hsHi =>
      subst hsHi
      refine .insert r (hs.initialized hx ho fun e => ?_) htab hcap
      have hi := (hs.ctx hx).inFlight ho hp
      subst e
      exact absurd (busInit_callers hi.callers).1 (by decide)

/-- The table fits its capacity before construction as well, being empty. -/
theorem State.TableOk.room {s : State} (h : s.TableOk) : s.tab.length ≤ s.cap := by
  match hn : s.initialized with
  | true => exact h.fits hn
  | false => simp [h.empty hn]

theorem tableOk_of_same {s t : State} (hs : s.TableOk) (hk : Kept s t) (htab : t.tab = s.tab)
    (hcap : t.cap = s.cap) : t.TableOk where
  fits _ := htab ▸ hcap ▸ hs.room
  distinct := htab ▸ hs.distinct
  doubled := by rw [hcap, hk.cfg]; exact hs.doubled
  empty hi := by
    rw [htab]
    refine hs.empty (Bool.eq_false_iff.mpr fun h => ?_)
    exact nomatch hi.symm.trans (hk.initialized h).1

/-- The insertion of a code that the table does not hold: the capacity is doubled where it is needed (R163). -/
theorem tableOk_of_append {s t : State} {r : RomCode} (hv : s.cfg.Valid) (hs : s.TableOk) (hk : Kept s t)
    (hi : s.initialized = true) (hr : r ∉ s.tab) (htab : t.tab = s.tab ++ [r])
    (hcap : t.cap = if s.tab.length = s.cap then 2 * s.cap else s.cap) : t.TableOk where
  fits _ := by
    obtain ⟨n, hn⟩ := hs.doubled
    have hpos : 0 < s.cap := hn ▸ Nat.mul_pos hv.capPos (Nat.two_pow_pos n)
    have hroom := hs.room
    rw [htab, hcap, List.length_append, List.length_singleton]
    split <;> omega
  distinct := by
    rw [htab]
    exact hs.distinct.append (List.nodup_singleton r) (by simpa using hr)
  doubled := by
    obtain ⟨n, hn⟩ := hs.doubled
    rw [hcap, hk.cfg]
    split
    · exact ⟨n + 1, by rw [hn, Nat.pow_succ]; ring⟩
    · exact ⟨n, hn⟩
  empty h := nomatch h.symm.trans (hk.initialized hi).1

theorem TableChange.tableOk {s t : State} (h : TableChange s t) (hv : s.cfg.Valid) (hs : s.TableOk)
    (hk : Kept s t) :
    t.TableOk ∧ (s.initialized = true → ∃ new, t.tab = s.tab ++ new ∧ new.length ≤ 1) := by
  have same : t.tab = s.tab → t.cap = s.cap →
      t.TableOk ∧ (s.initialized = true → ∃ new, t.tab = s.tab ++ new ∧ new.length ≤ 1) :=
    fun htab hcap => ⟨tableOk_of_same hs hk htab hcap, fun _ => ⟨[], by simpa using htab, by simp⟩⟩
  cases h with
  | same htab hcap => exact same htab hcap
  | construct x htab hcap =>
    cases hn : s.initialized
    case true =>
      rw [construct_of_initialized x hn] at htab hcap
      simpa only [hn] using same htab hcap
    case false =>
      rw [construct_of_not_initialized x hn] at htab hcap
      exact ⟨⟨fun _ => by simp [htab], by simp [htab], ⟨0, by simp [hcap, hk.cfg]⟩, fun _ => htab⟩, nofun⟩
  | insert r hi htab hcap =>
    by_cases hr : r ∈ s.tab
    · rw [insertIfNew_of_mem hr] at htab hcap
      exact same htab hcap
    · rw [insertIfNew_of_new hr] at htab hcap
      exact ⟨tableOk_of_append hv hs hk hi hr htab hcap, fun _ => ⟨[r], htab, by simp⟩⟩

/-- Settles O17: what an instruction does to the table (`State.Sound.exec_table`) keeps rule R27. -/
theorem everyStepKeepsTheAddressTable : Obligations.EveryStepKeepsTheAddressTable := by
  intro s t hs htab h
  rcases step_moves h with rfl | ⟨u, ⟨e, c, q, rfl⟩, hm⟩
  · exact ⟨htab, fun _ => ⟨[], by simp, by simp⟩⟩
  · have hu := hs.choose e c q
    have hut : State.TableOk { s with env := e, cur := c, inbox := q } :=
      ⟨htab.fits, htab.distinct, htab.doubled, htab.empty⟩
    rcases hm with ⟨i, hx⟩ | ⟨f, rfl⟩
    · exact (hu.exec_table hx).tableOk hu.cfg hut (exec_kept hx)
    · exact TableChange.tableOk (s := { s with env := e, cur := c, inbox := q }) (.same rfl rfl) hu.cfg hut
        (Does.raise _ f).kept

end Sys2Proof.Machine

/-! # Memory (20_memory.md): accesses outside the window, the lock's test-and-set

An access outside the window ends at issue with `F_WINDOW`; a visit of S_LOCK is one `LockTAS`. -/

namespace Sys2Proof.Machine

/-! ## Accesses outside the window (rules R74, R268) -/

/-- An operation that latches its operands at issue and is refused there. -/
theorem answersAtIssue_of_latch_raise {i : Instr} {o : Op} {issue : Ctx → State → State} {s : State} {x : Ctx}
    {a b : BitVec 64} {c : BitVec 32} {f : HostFault} (hs : s.IdleAt x) (he : exec i s = operate o issue s)
    (h : issue x s = (s.latch a b c).raise f) : AnswersAtIssue i s x (.ofFault f) :=
  ⟨a, b, c, by rw [he, operate_idle hs.1 hs.2, h]; exact congrArg _ (updCtx_deliver_eq_settled hs.1 _ _)⟩

/-- Settles O39: the admission test of each of the four fails, and what it has latched is left open. -/
theorem accessesOutsideTheWindowAreRefused : Obligations.AccessesOutsideTheWindowAreRefused := by
  intro s x off v hs hoff
  have hn : ¬ s.admitted off = true := by simpa [State.admitted, inWindow] using hoff
  refine ⟨fun hi => ⟨?_, ?_⟩, fun hd => ⟨?_, ?_⟩⟩
  · exact answersAtIssue_of_latch_raise (issue := issueBusRd off) hs rfl ((if_pos hi).trans (if_neg hn))
  · exact answersAtIssue_of_latch_raise (issue := issueBusWr off v) hs rfl ((if_pos hi).trans (if_neg hn))
  · exact answersAtIssue_of_latch_raise (issue := issueDevRd off) hs rfl ((if_pos hd).trans (if_neg hn))
  · exact answersAtIssue_of_latch_raise (issue := issueDevWr off v) hs rfl ((if_pos hd).trans (if_neg hn))

/-! ## The lock (rules R86, R157) -/

/-- The next event of the operation in flight in a context. -/
theorem exec_event {i : Instr} {o : Op} {s : State} {x : Ctx} {p : Phase} {cs : List Phase}
    (hx : s.ctx? = some x) (ho : x.op = some o) (hi : opOf i = some o) (hp : x.pc = p :: cs) :
    exec i s = phaseEvent p cs x s := by
  rw [exec_inFlight hx ho hi, advance, hp]

/-- Both branches of S_LOCK make the same event, and differ in the phase that is next. -/
theorem sLock_event (cs : List Phase) (x : Ctx) (s : State) : phaseEvent .sLock cs x s =
    .next (s.didLockTas.goto (if s.lock then .sLock :: cs else .sCmd :: cs)) := by
  dsimp only [phaseEvent, phSLock]
  split <;> rfl

/-- Settles O43: the event of S_LOCK (`sLock_event`), and the context at the phase that is next. -/
theorem lockIsTestAndSet : Obligations.LockIsTestAndSet := by
  intro s x alarm hx ho hp
  refine ⟨_, (exec_event hx ho rfl hp).trans (sLock_event [] x s), ?_⟩
  simp only [State.goto, updCtx_eq_setCtx (s := s.didLockTas) hx]
  rfl

end Sys2Proof.Machine

/-! ## A whole search (rules R156 to R165)

A run of BUS_SEARCH is cut where its phases change: the poll loop is one on the three flags that end it, and the
harvest is an induction over the entries that are left. -/

namespace Sys2Proof.Machine

/-! ### The harvest (rules R162, R163) -/

theorem insertAll_eq (roms : List RomCode) (s : State) :
    s.insertAll roms = { s with tab := mergeRoms s.tab roms, cap := mergeCap s.cap s.tab roms } := by
  induction roms generalizing s with
  | nil => rfl
  | cons r rs ih =>
    rw [insertAll_cons, ih]
    by_cases h : r ∈ s.tab
    · simp [insertIfNew_of_mem h, mergeRoms, mergeCap, h]
    · simp [insertIfNew_of_new h, mergeRoms, mergeCap, h]

theorem romIdLo_eq {k : Config} (hk : k.Valid) (i : Nat) : romIdLo k i = k.offRomId0 + 8 * i := by
  rw [romIdLo, hk.shift, Nat.shiftLeft_eq, Nat.mul_comm]

theorem romIdHi_eq {k : Config} (hk : k.Valid) (i : Nat) : romIdHi k i = k.offRomId1 + 8 * i := by
  rw [romIdHi, hk.shift, Nat.shiftLeft_eq, Nat.mul_comm]

/-- The two halves of entry `i` of the ROM-ID table are inside the window. -/
def State.EntryAdmitted (s : State) (i : Nat) : Prop :=
  s.admitted (romIdLo s.cfg i) = true ∧ s.admitted (romIdHi s.cfg i) = true

theorem entryAdmitted_of_le {s : State} {i : Nat} (hk : s.cfg.Valid)
    (h : s.cfg.offRomId0 + 8 * i + 4 ≤ s.addrRange ∧ s.cfg.offRomId1 + 8 * i + 4 ≤ s.addrRange) :
    s.EntryAdmitted i := by
  have h0 := hk.aligned s.cfg.offRomId0 (by simp [Config.allOffsets])
  have h1 := hk.aligned s.cfg.offRomId1 (by simp [Config.allOffsets])
  simp only [State.EntryAdmitted, State.admitted, inWindow, romIdLo_eq hk, romIdHi_eq hk, Bool.and_eq_true,
    decide_eq_true_eq]
  omega

theorem romOfHalves_eq (r : RomCode) : romOfHalves (r.extractLsb' 32 32) (r.extractLsb' 0 32) = r := by
  unfold romOfHalves
  ext j hj
  simp only [BitVec.getElem_append, BitVec.getElem_extractLsb']
  split
  · simp [BitVec.getLsbD_eq_getElem hj]
  · simp [Nat.add_sub_cancel' (not_lt.mp ‹_›), BitVec.getLsbD_eq_getElem hj]

/-- The context after the harvest of the entries `roms`, which begin at its index. -/
def Ctx.harvested (y : Ctx) (roms : List RomCode) : Ctx :=
  { y with tIdx := y.tIdx + roms.length, tLo := (roms.getLast?.map fun r => r.extractLsb' 0 32).getD y.tLo }

theorem Ctx.harvested_cons (y : Ctx) (r : RomCode) (rs : List RomCode) : y.harvested (r :: rs) =
    { y with tIdx := y.tIdx + 1, tLo := r.extractLsb' 0 32 }.harvested rs := by
  have hlast : ((r :: rs).getLast?.map fun r => r.extractLsb' 0 32).getD y.tLo =
      (rs.getLast?.map fun r => r.extractLsb' 0 32).getD (r.extractLsb' 0 32) := by
    cases rs <;> simp [List.getLast?_cons]
  simp only [Ctx.harvested, hlast, List.length_cons, Nat.add_assoc, Nat.add_comm 1]

/-- The state after a search that has merged its codes and released the lock, the context holding `y` but for
its position (R164, R165). -/
def State.searched (s : State) (y : Ctx) (evs : List Event) (c : Nat) (e : Env) : State :=
  { s.during { y with op := none, pc := [], lastErr := 0 } evs c e with
    lock := false
    outbox := (s.cur, .success (.roms s.tab)) :: s.outbox }

theorem searchDone_during {s : State} {x : Ctx} (hx : s.ctx? = some x) (y : Ctx) (evs : List Event) (c : Nat)
    (e : Env) : searchDone [] (s.during y evs c e) = .next (s.searched y evs c e) :=
  congrArg _ (deliver_during (s := { s with lock := false }) hx y evs c e _)

theorem insertIfNew_during (r : RomCode) (s : State) (y : Ctx) (evs : List Event) (c : Nat) (e : Env) :
    (s.during y evs c e).insertIfNew r = (s.insertIfNew r).during y evs c e := by
  by_cases h : r ∈ s.tab
  · rw [insertIfNew_of_mem h, insertIfNew_of_mem (by exact h)]
  · rw [insertIfNew_of_new h, insertIfNew_of_new (by exact h)]
    rfl

section
variable {i : Instr} {x : Ctx} (hi : opOf i = some .busSearch)
include hi

/-- The two events of one entry, which is inserted; the harvest goes on at the next one. -/
theorem finish_entry {s : State} {y : Ctx} {r : RomCode} {ws : List Word} (evs : List Event) (c : Nat) (e : Env)
    (n : Nat) (hx : s.ctx? = some x) (hk : s.cfg.Valid) (ho : y.op = some .busSearch) (ha : s.EntryAdmitted y.tIdx)
    (he : e.regs = harvestAnswers [r] ++ ws) :
    ∃ c' e', e'.regs = ws ∧ ∀ t, harvest [] (y.tIdx + 1) y.tFound.toNat ((s.insertIfNew r).during
          { y with tIdx := y.tIdx + 1, tLo := r.extractLsb' 0 32, pc := [.sHi] }
          (evs ++ harvestEvents s.cfg y.tIdx [r]) c' e') = .next t →
      finish i (n + 1 + 1) (s.during { y with pc := [.sLo] } evs c e) = finish i n t := by
  obtain ⟨hlo, hhi⟩ := ha
  have e1 : e.word = r.extractLsb' 0 32 := Env.word_of_regs he
  have r1 : e.afterWord.afterDt.regs = r.extractLsb' 32 32 :: ws := by
    rw [Env.afterDt_regs, Env.afterWord_regs he]; rfl
  have e2 : e.afterWord.afterDt.word = r.extractLsb' 32 32 := Env.word_of_regs r1
  refine ⟨c + e.afterWord.dt + e.afterWord.afterDt.afterWord.dt, e.afterWord.afterDt.afterWord.afterDt,
    by rw [Env.afterDt_regs, Env.afterWord_regs r1], fun t ht => ?_⟩
  refine (finish_during (t := s.during { y with tLo := r.extractLsb' 0 32, pc := [.sHi] }
    (evs ++ [.read (romIdLo s.cfg y.tIdx) (r.extractLsb' 0 32)]) (c + e.afterWord.dt) e.afterWord.afterDt)
    _ hx hi (by exact ho) rfl ?_).trans (finish_during _ hx hi (by exact ho) rfl ?_)
  · simp only [phaseEvent, phSLo, searchRead, State.during_cfg, State.during_admitted, hlo, if_true,
      State.didRead_during, State.during_answer, e1, updCtx_during hx, hhi, goto_during hx]
  · have hx' : (s.insertIfNew r).ctx? = some x := by simpa using hx
    simp only [phaseEvent, phSHi, searchRead, State.during_cfg, State.during_admitted, hhi, if_true,
      State.didRead_during, State.during_answer, e2, romOfHalves_eq, insertIfNew_during, updCtx_during hx']
    rw [← ht, romIdLo_eq hk, romIdHi_eq hk]
    simp [harvestEvents]

theorem harvest_finish (rest : List Word) (roms : List RomCode) : ∀ {s : State} {y : Ctx} (evs : List Event)
    (c : Nat) (e : Env), s.ctx? = some x → s.cfg.Valid → y.op = some .busSearch →
    y.tFound.toNat = y.tIdx + roms.length → (∀ j, j < y.tFound.toNat → s.EntryAdmitted j) →
    e.regs = harvestAnswers roms ++ rest →
    ∃ t c' e', harvest [] y.tIdx y.tFound.toNat (s.during y evs c e) = .next t ∧ e'.regs = rest ∧
      finish i (harvestEvents s.cfg y.tIdx roms).length t =
        .next ((s.insertAll roms).searched (y.harvested roms) (evs ++ harvestEvents s.cfg y.tIdx roms) c' e') := by
  induction roms with
  | nil =>
    intro s y evs c e hx hk ho hn hw he
    refine ⟨_, c, e, (if_neg (by simp [hn])).trans (searchDone_during hx ..), he, ?_⟩
    simp [harvestEvents, Ctx.harvested]
  | cons r rs ih =>
    intro s y evs c e hx hk ho hn hw he
    have hlt : y.tIdx < y.tFound.toNat := by simp [hn]
    obtain ⟨c1, e1, he1, h1⟩ := finish_entry hi evs c e (harvestEvents s.cfg (y.tIdx + 1) rs).length hx hk ho
      (hw _ hlt) (ws := harvestAnswers rs ++ rest) (by simpa [harvestAnswers] using he)
    obtain ⟨t, c', e', ht, he', h2⟩ := ih (s := s.insertIfNew r)
      (y := { y with tIdx := y.tIdx + 1, tLo := r.extractLsb' 0 32, pc := [.sHi] })
      (evs ++ harvestEvents s.cfg y.tIdx [r]) c1 e1 (by simpa using hx) (by simpa using hk) ho
      (by simp [hn]; omega) (by simpa [State.EntryAdmitted, State.admitted] using hw) he1
    refine ⟨s.during { y with pc := [.sLo] } evs c e, c', e', ?_, he', ?_⟩
    · simp only [harvest, State.during_cfg, State.during_admitted, if_pos hlt, (hw _ hlt).1, if_true, goto_during hx]
    · rw [insertAll_cons, Ctx.harvested_cons]
      rw [State.insertIfNew_cfg, List.append_assoc] at h2
      exact (h1 t ht).trans h2
end

/-! ### The poll loop (rules R159, R160) -/

theorem flagSet_or (v a b : Word) : flagSet v (a ||| b) = (flagSet v a || flagSet v b) := by
  simp [flagSet, BitVec.and_or_distrib_left, BitVec.or_eq_zero_iff, imp_iff_not_or]

/-- The three flags that end the poll loop of a search. -/
def searchMask (k : Config) : Word := k.stSer ||| k.stSme ||| k.stSrd

theorem flagSet_searchMask (k : Config) (v : Word) :
    flagSet v (searchMask k) = decide (searchPoll k v ≠ .pending) := by
  simp only [searchMask, flagSet_or, searchPoll]
  split_ifs <;> simp [*]

/-- What a search does at the end of its poll loop, the answer being in `t_status`. -/
def searchPolled (cs : List Phase) (s : State) : Out :=
  withCtx s fun y =>
    match searchPoll s.cfg y.tStatus with
    | .protocolError => searchFail cs .searchProtocol s
    | .memoryError => searchFail cs .searchMemory s
    | .done => .next (s.goto (.sFound :: cs))
    | .pending => .fault .badSequencer

/-- A visit of S_POLL is one of a poll loop for the three flags. -/
theorem sPoll_event {s : State} {y : Ctx} (cs : List Phase) (hy : s.ctx? = some y)
    (ha : s.admitted s.cfg.offStatus = true) : phaseEvent .sPoll cs y s =
      pollOnce (searchMask s.cfg) s.cfg.searchPollMax (.sWait :: cs) y s (searchPolled cs)
        (searchFail cs .searchTimeout) := by
  have hp : (polled y s).cfg = s.cfg := rfl
  rw [pollOnce_of_admitted ha, flagSet_searchMask]
  simp only [phaseEvent, phSPoll, searchRead, if_pos ha, searchPolled, withCtx, ctx?_polled, hy, Option.map_some, hp]
  cases searchPoll s.cfg s.answer <;> rfl

theorem SearchAnswers.pollAnswers {k : Config} {vs : List Word} (h : SearchAnswers k vs) :
    PollAnswers (searchMask k) k.searchPollMax vs true := by
  obtain ⟨hb, hp, v, hl, -, -, hd⟩ := h
  refine ⟨fun hn => by simp [hn] at hl, hb, fun u hu => ?_, fun u hu => ?_, nofun⟩
  · simp [searchMask, flagSet_or, hp u hu]
  · obtain rfl : v = u := Option.some.inj (hl.symm.trans hu)
    simp [searchMask, flagSet_or, hd]

theorem SearchAnswers.searchPoll_getLastD {k : Config} {vs : List Word} (h : SearchAnswers k vs) :
    searchPoll k (vs.getLastD 0) = .done := by
  obtain ⟨-, -, v, hl, h1, h2, h3⟩ := h
  simp [List.getLastD_eq_getLast?, hl, searchPoll, h1, h2, h3]

/-! ### From issue to result -/

theorem didLockTas_during (s : State) (y : Ctx) (evs : List Event) (c : Nat) (e : Env) :
    (s.during y evs c e).didLockTas =
      State.during { s with lock := true } y (evs ++ [.lockTas (!s.lock)]) (c + e.dt) e.afterDt := by
  simp [State.during, State.didLockTas, State.log, State.tick]

theorem searchWrite_of_admitted {off : Nat} {v : Word} {s : State} (k : State → Out)
    (h : s.admitted off = true) : searchWrite off v s k = k (s.didWrite off v) := if_pos h

theorem searchRead_of_admitted {off : Nat} {s : State} (k : Word → State → Out)
    (h : s.admitted off = true) : searchRead off s k = k s.answer (s.didRead off) := if_pos h

section
variable {i : Instr} {s : State} {x y : Ctx} (hx : s.ctx? = some x) (hi : opOf i = some .busSearch)
  (ho : y.op = some .busSearch)
include hx hi ho

theorem finish_sLock (hl : s.lock = false) (n : Nat) (evs : List Event) (c : Nat) (e : Env) :
    finish i (n + 1) (s.during { y with pc := [.sLock] } evs c e) =
      finish i n (State.during { s with lock := true } { y with pc := [.sCmd] } (evs ++ [.lockTas true])
        (c + e.dt) e.afterDt) := by
  refine finish_during _ hx hi (by exact ho) rfl ?_
  rw [sLock_event, State.during_lock, hl, didLockTas_during, hl, if_neg Bool.false_ne_true,
    goto_during (s := { s with lock := true }) hx]
  rfl

theorem finish_sCmd (ha : s.admitted s.cfg.offCommand = true) (n : Nat) (evs : List Event) (c : Nat) (e : Env) :
    finish i (n + 1) (s.during { y with pc := [.sCmd] } evs c e) =
      finish i n (State.during { s with busPhase := .unknown } { y with pc := [.sSer] }
        (evs ++ [.write s.cfg.offCommand (searchWord (selector y.opc))]) (c + e.dt) e.afterDt) := by
  refine finish_during _ hx hi (by exact ho) rfl ?_
  rw [phaseEvent, phSCmd, searchWrite_of_admitted _ (by exact ha)]
  rw [State.didWrite_during]
  exact congrArg _ (goto_during (s := { s with busPhase := .unknown }) hx ..)

theorem finish_sSer (ha : s.admitted s.cfg.regTrigger = true) (n : Nat) (evs : List Event) (c : Nat) (e : Env) :
    finish i (n + 1) (s.during { y with pc := [.sSer] } evs c e) =
      finish i n (s.during { y with pollCnt := 0, pc := [.sPoll] }
        (evs ++ [.write s.cfg.regTrigger Cmd.serialize]) (c + e.dt) e.afterDt) := by
  refine finish_during _ hx hi (by exact ho) rfl ?_
  rw [phaseEvent, phSSer, searchWrite_of_admitted _ (by exact ha)]
  simp only [State.didWrite_during, State.during_cfg, updCtx_during hx]

/-- A poll loop that ends with search-done and no error. -/
theorem finish_search_polls (hf : s.FixedAdmitted) {vs rest : List Word} (hv : SearchAnswers s.cfg vs)
    (n : Nat) (evs : List Event) (c : Nat) (e : Env) (he : e.regs = vs ++ rest) :
    ∃ c' e', e'.regs = rest ∧ finish i ((pollEvents s.cfg.offStatus s.cfg.tPollSearch vs).length + n)
        (s.during { y with pollCnt := 0, pc := [.sPoll] } evs c e) =
      finish i n (s.during { y with tStatus := vs.getLastD 0, pollCnt := vs.length, pc := [.sFound] }
        (evs ++ pollEvents s.cfg.offStatus s.cfg.tPollSearch vs) c' e') := by
  have ha : s.admitted s.cfg.offStatus = true := admitted_of_fixed hf (by simp [Config.fixedOffsets])
  obtain ⟨c', e', he', h⟩ := finish_polled (mask := searchMask s.cfg) (bound := s.cfg.searchPollMax)
    (d := s.cfg.tPollSearch) (p := .sPoll) (w := .sWait) (callers := []) (D := searchPolled [])
    (E := searchFail [] .searchTimeout) hx hi ho hf
    (fun _ _ _ _ _ => sPoll_event [] (ctx?_during hx ..) ha) (fun _ _ _ _ => rfl)
    hv.pollAnswers y.tStatus evs c e he
  refine ⟨c', e', he', h n _ ?_⟩
  simp only [if_true, searchPolled, withCtx, ctx?_during hx, State.during_cfg, hv.searchPoll_getLastD, goto_during hx]

/-- The read of FOUND, and the harvest of the entries it counts. -/
theorem finish_sFound (hk : s.cfg.Valid) (hf : s.FixedAdmitted) {rest : List Word} {roms : List RomCode}
    (hn : roms.length < 2 ^ 32) (hw : ∀ j, j < roms.length → s.EntryAdmitted j) (evs : List Event) (c : Nat)
    (e : Env) (he : e.regs = BitVec.ofNat 32 roms.length :: (harvestAnswers roms ++ rest)) :
    ∃ c' e', e'.regs = rest ∧ finish i ((harvestEvents s.cfg 0 roms).length + 1)
        (s.during { y with pc := [.sFound] } evs c e) =
      .next ((s.insertAll roms).searched
        (Ctx.harvested { y with tFound := BitVec.ofNat 32 roms.length, tIdx := 0 } roms)
        (evs ++ .read s.cfg.offFound (BitVec.ofNat 32 roms.length) :: harvestEvents s.cfg 0 roms) c' e') := by
  have ha : s.admitted s.cfg.offFound = true := admitted_of_fixed hf (by simp [Config.fixedOffsets])
  have hcount : (BitVec.ofNat 32 roms.length).toNat = roms.length := by simpa using hn
  have hword : e.word = BitVec.ofNat 32 roms.length := Env.word_of_regs he
  obtain ⟨t, c', e', ht, he', h⟩ := harvest_finish hi rest roms
    (y := { y with tFound := BitVec.ofNat 32 roms.length, tIdx := 0, pc := [.sFound] })
    (evs ++ [.read s.cfg.offFound (BitVec.ofNat 32 roms.length)]) (c + e.afterWord.dt) e.afterWord.afterDt hx hk ho
    (by simpa using hn) (by simpa [hcount] using hw) (by rw [Env.afterDt_regs, Env.afterWord_regs he])
  refine ⟨c', e', he', (finish_during (t := t) _ hx hi (by exact ho) rfl ?_).trans ?_⟩
  · rw [phaseEvent, phSFound, searchRead_of_admitted _ (by exact ha)]
    simpa only [State.didRead_during, State.during_answer, State.during_cfg, updCtx_during hx, hword] using ht
  · rw [List.append_assoc] at h
    exact h

/-- A search that finds the lock clear, run from its first event to its end. -/
theorem finish_search (hl : s.lock = false) (hk : s.cfg.Valid) (hf : s.FixedAdmitted) {vs rest : List Word}
    {roms : List RomCode} (hv : SearchAnswers s.cfg vs) (hn : roms.length < 2 ^ 32)
    (hw : ∀ j, j < roms.length → s.EntryAdmitted j) (c : Nat) (e : Env)
    (he : e.regs = vs ++ BitVec.ofNat 32 roms.length :: (harvestAnswers roms ++ rest)) :
    ∃ c' e', e'.regs = rest ∧ finish i ((pollEvents s.cfg.offStatus s.cfg.tPollSearch vs).length +
        ((harvestEvents s.cfg 0 roms).length + 1) + 1 + 1 + 1) (s.during { y with pc := [.sLock] } [] c e) =
      .next (State.searched (State.insertAll roms { s with lock := true, busPhase := .unknown })
        (Ctx.harvested { y with
          pollCnt := vs.length, tStatus := vs.getLastD 0, tFound := BitVec.ofNat 32 roms.length, tIdx := 0 } roms)
        ([.lockTas true, .write s.cfg.offCommand (searchWord (selector y.opc)),
            .write s.cfg.regTrigger Cmd.serialize] ++ pollEvents s.cfg.offStatus s.cfg.tPollSearch vs ++
          .read s.cfg.offFound (BitVec.ofNat 32 roms.length) :: harvestEvents s.cfg 0 roms) c' e') := by
  have a1 : s.admitted s.cfg.offCommand = true := admitted_of_fixed hf (by simp [Config.fixedOffsets])
  have a2 : s.admitted s.cfg.regTrigger = true := admitted_of_fixed hf (regTrigger_mem hk)
  obtain ⟨s', hs'⟩ : ∃ s' : State, s' = { s with lock := true, busPhase := .unknown } := ⟨_, rfl⟩
  have hx' : s'.ctx? = some x := hs' ▸ hx
  obtain ⟨c1, e1, he1, h1⟩ := finish_search_polls hx' hi ho (hs' ▸ hf) (by rw [hs']; exact hv)
    ((harvestEvents s.cfg 0 roms).length + 1)
    [.lockTas true, .write s.cfg.offCommand (searchWord (selector y.opc)), .write s.cfg.regTrigger Cmd.serialize]
    (c + e.dt + e.afterDt.dt + e.afterDt.afterDt.dt) e.afterDt.afterDt.afterDt
    (by simpa only [Env.afterDt_regs] using he)
  obtain ⟨c2, e2, he2, h2⟩ := finish_sFound (y := { y with tStatus := vs.getLastD 0, pollCnt := vs.length })
    hx' hi ho (hs' ▸ hk) (hs' ▸ hf) hn (hs' ▸ hw)
    ([.lockTas true, .write s.cfg.offCommand (searchWord (selector y.opc)), .write s.cfg.regTrigger Cmd.serialize] ++
      pollEvents s'.cfg.offStatus s'.cfg.tPollSearch vs) c1 e1 he1
  refine ⟨c2, e2, he2, ?_⟩
  rw [finish_sLock hx hi ho hl, finish_sCmd (s := { s with lock := true }) hx hi ho a1,
    finish_sSer (s := { s with lock := true, busPhase := .unknown }) hx hi ho a2]
  subst hs'
  exact h1.trans h2

end

/-- The command word of a search, by the selector that issue latches (R105, R158). -/
theorem searchWord_selector (alarm : Bool) :
    searchWord (selector (if alarm then 1 else 0)) = if alarm then 0x000000EC else 0x000000F0 := by
  cases alarm <;> decide

/-- Settles O40: the events of a search one phase after the other, the poll loop by `finish_search_polls`, the
harvest by `harvest_finish`, and the codes merged by `insertAll_eq`. -/
theorem searchHarvests : Obligations.SearchHarvests := by
  intro s x alarm vs rest roms hs hinit hk hf hl hv hn hw he events
  obtain ⟨hx, ho⟩ := hs
  have adm : ∀ j, j < roms.length → s.EntryAdmitted j := fun j hj => entryAdmitted_of_le hk (hw j hj)
  obtain ⟨y, hy⟩ : ∃ y, y = x.issued .busSearch 0 0 (if alarm then 1 else 0) := ⟨_, rfl⟩
  have hyo : y.op = some .busSearch := hy ▸ rfl
  have issue : exec (.busSearch alarm) s = .next (s.during { y with pc := [.sLock] } [] s.clock s.env) := by
    refine (operate_idle hx ho).trans (congrArg _ ?_)
    rw [issueBusSearch, if_pos hinit, hy, State.latch, State.start, updCtx_eq_during hx, updCtx_during hx]
    rfl
  obtain ⟨c, e, hrest, h⟩ := finish_search (i := .busSearch alarm) hx rfl hyo hl hk hf hv hn adm s.clock s.env
    (by simpa using he)
  refine ⟨_, ?t, issue, ?run, ?regs, ?eq⟩
  case run =>
    have hlen : events.length = (pollEvents s.cfg.offStatus s.cfg.tPollSearch vs).length +
        ((harvestEvents s.cfg 0 roms).length + 1) + 1 + 1 + 1 := by
      simp [events]
    rw [hlen]
    exact h
  case regs => exact hrest
  case eq =>
    have hword : searchWord (selector y.opc) = if alarm then 0x000000EC else 0x000000F0 :=
      hy ▸ searchWord_selector alarm
    rw [insertAll_eq, hword, hy]
    simp only [State.searched, Ctx.harvested, Nat.zero_add]
    rfl

end Sys2Proof.Machine

/-! ## The search lock (rules R86, R165, R323 (c))

What an instruction does to the lock (`LockStep`): nothing, the taking of a free lock by a search that goes past
S_LOCK, or the release of it by the search that held it. -/

namespace Sys2Proof.Machine

/-- Context `c` is past S_LOCK. -/
def State.HoldsAt (s : State) (c : Nat) : Prop := ∃ x, s.ctxs[c]? = some x ∧ x.holdsSearch = true

theorem lockOk_iff (s : State) : s.LockOk ↔ (∀ c d, s.HoldsAt c → s.HoldsAt d → c = d) ∧
    (∀ c, s.HoldsAt c → s.lock = true) ∧
    (s.cfg.lockReleaseOnAbort = true → s.lock = true → ∃ c, s.HoldsAt c) := by
  constructor
  · rintro ⟨one, held, only⟩
    refine ⟨fun c d ⟨x, hx, hxs⟩ ⟨y, hy, hys⟩ => one c d x y hx hy hxs hys,
      fun c ⟨x, hx, hxs⟩ => held x (List.mem_of_getElem? hx) hxs, fun hr hl => ?_⟩
    obtain ⟨x, hx, hxs⟩ := only hr hl
    obtain ⟨c, hc⟩ := List.mem_iff_getElem?.mp hx
    exact ⟨c, x, hc, hxs⟩
  · rintro ⟨one, held, only⟩
    refine ⟨fun c d x y hx hy hxs hys => one c d ⟨x, hx, hxs⟩ ⟨y, hy, hys⟩, fun x hx hxs => ?_,
      fun hr hl => ?_⟩
    · obtain ⟨c, hc⟩ := List.mem_iff_getElem?.mp hx
      exact held c ⟨x, hc, hxs⟩
    · obtain ⟨c, x, hx, hxs⟩ := only hr hl
      exact ⟨x, List.mem_of_getElem? hx, hxs⟩

/-- What an instruction does to the lock and to the current context's being past S_LOCK. -/
inductive LockStep (s t : State) : Prop
  | same : (t.HoldsAt s.cur ↔ s.HoldsAt s.cur) → t.lock = s.lock → LockStep s t
  | taken : s.lock = false → t.lock = true → t.HoldsAt s.cur → LockStep s t
  | released : s.HoldsAt s.cur → ¬ t.HoldsAt s.cur → (s.cfg.lockReleaseOnAbort = true → t.lock = false) →
      LockStep s t

theorem Kept.holdsAt {s t : State} (h : Kept s t) {c : Nat} (hc : c ≠ s.cur) : t.HoldsAt c ↔ s.HoldsAt c := by
  rw [State.HoldsAt, h.others c hc, State.HoldsAt]

theorem LockStep.lockOk {s t : State} (h : LockStep s t) (hs : s.LockOk) (hk : Kept s t) : t.LockOk := by
  obtain ⟨one, held, only⟩ := (lockOk_iff s).mp hs
  rw [lockOk_iff, hk.cfg]
  cases h with
  | same hcur hl =>
    have same : ∀ c, t.HoldsAt c ↔ s.HoldsAt c := fun c => by
      by_cases hc : c = s.cur
      · exact hc ▸ hcur
      · exact hk.holdsAt hc
    simpa only [same, hl] using ⟨one, held, only⟩
  | taken hfree hl hcur =>
    have first : ∀ c, t.HoldsAt c → c = s.cur := fun c h => by
      by_contra hc
      exact nomatch hfree.symm.trans (held c ((hk.holdsAt hc).mp h))
    exact ⟨fun c d hc hd => (first c hc).trans (first d hd).symm, fun _ _ => hl, fun _ _ => ⟨_, hcur⟩⟩
  | released hcur hn hl =>
    have none : ∀ c, ¬ t.HoldsAt c := fun c h => by
      by_cases hc : c = s.cur
      · exact hn (hc ▸ h)
      · exact hc (one c s.cur ((hk.holdsAt hc).mp h) hcur)
    exact ⟨fun c _ h => absurd h (none c), fun c h => absurd h (none c),
      fun hr ht => nomatch (hl hr).symm.trans ht⟩

/-! ### A search in flight -/

theorem holdsSearch_of_op {x : Ctx} (h : x.op ≠ some .busSearch) : x.holdsSearch = false := by
  unfold Ctx.holdsSearch
  split
  · exact absurd ‹_› h
  · rfl

theorem holdsSearch_eq {x : Ctx} {p : Phase} {cs : List Phase} (ho : x.op = some .busSearch) (hp : x.pc = p :: cs) :
    x.holdsSearch = decide (p ≠ .sLock) := by
  simp only [Ctx.holdsSearch, ho, hp]

theorem holdsAt_cur {s t : State} {y : Ctx} (hk : t.cur = s.cur) (hy : t.ctx? = some y) :
    t.HoldsAt s.cur ↔ y.holdsSearch = true := by
  have hy' : t.ctxs[s.cur]? = some y := hk ▸ hy
  simp [State.HoldsAt, hy']

/-- The outcome of an event of a search past S_LOCK: the search goes on with the lock as it was, or it has ended
and, if aborts release the lock, the lock is clear. -/
def SearchGoes (s : State) (o : Out) : Prop := ∀ t, o = .next t →
  (t.lock = s.lock ∧ ∃ y, t.ctx? = some y ∧ y.holdsSearch = true) ∨
    ((∃ y, t.ctx? = some y ∧ y.op = none) ∧ (s.cfg.lockReleaseOnAbort = true → t.lock = false))

section
variable {s u : State} {x : Ctx}

theorem searchGoes_updCtx {f : Ctx → Ctx} (hu : u.ctx? = some x) (ho : x.op = some .busSearch) (p : Phase)
    {cs : List Phase} (hp : (f x).pc = p :: cs := by rfl) (hf : (f x).op = x.op := by rfl)
    (hl : u.lock = s.lock := by rfl) (hne : p ≠ .sLock := by decide) : SearchGoes s (.next (u.updCtx f)) := by
  rintro _ ⟨⟩
  exact .inl ⟨hl, f x, map_ctx? hu, by simp [holdsSearch_eq (hf.trans ho) hp, hne]⟩

theorem searchGoes_deliver (r : Result) (hu : u.ctx? = some x)
    (hl : s.cfg.lockReleaseOnAbort = true → u.lock = false) : SearchGoes s (.next (u.deliver r)) := by
  rintro _ ⟨⟩
  exact .inr ⟨⟨_, by rw [ctx?_deliver, hu]; rfl, rfl⟩, hl⟩

theorem releaseOnAbort_lock_of (hc : s.cfg.lockReleaseOnAbort = true) : s.releaseOnAbort.lock = false := by
  simp [hc]

theorem searchGoes_window (off : Nat) (hu : u.ctx? = some x) (hc : u.cfg = s.cfg := by rfl) :
    SearchGoes s (searchWindow off u) :=
  searchGoes_deliver (u := u.releaseOnAbort) _ hu fun h => releaseOnAbort_lock_of (hc ▸ h)

theorem searchGoes_fail (e : Err) (hu : u.ctx? = some x) (hc : u.cfg = s.cfg := by rfl) :
    SearchGoes s (searchFail [] e u) :=
  searchGoes_deliver (u := u.releaseOnAbort) _ hu fun h => releaseOnAbort_lock_of (hc ▸ h)

theorem searchGoes_harvest (i found : Nat) (hu : u.ctx? = some x) (ho : x.op = some .busSearch)
    (hc : u.cfg = s.cfg := by rfl) (hl : u.lock = s.lock := by rfl) : SearchGoes s (harvest [] i found u) := by
  unfold harvest
  split
  · split
    · exact searchGoes_updCtx hu ho .sLo (hl := hl)
    · exact searchGoes_window _ hu hc
  · exact searchGoes_deliver (u := { u with lock := false }) _ hu fun _ => rfl

theorem searchGoes_read {off : Nat} {k : Word → State → Out} (hx : s.ctx? = some x)
    (hk : SearchGoes s (k s.answer (s.didRead off))) : SearchGoes s (searchRead off s k) := by
  unfold searchRead
  split
  · exact hk
  · exact searchGoes_window off hx

theorem searchGoes_write {off : Nat} {v : Word} {k : State → Out} (hx : s.ctx? = some x)
    (hk : SearchGoes s (k (s.didWrite off v))) : SearchGoes s (searchWrite off v s k) := by
  unfold searchWrite
  split
  · exact hk
  · exact searchGoes_window off hx

/-- The events of a search past S_LOCK. -/
theorem phaseEvent_searchGoes {p : Phase} (hx : s.ctx? = some x) (ho : x.op = some .busSearch)
    (hp : p.op = .busSearch) (hne : p ≠ .sLock) : SearchGoes s (phaseEvent p [] x s) := by
  cases p
  case sLock => exact absurd rfl hne
  case sCmd =>
    dsimp only [phaseEvent, phSCmd]
    exact searchGoes_write hx (searchGoes_updCtx (x := x) hx ho .sSer)
  case sSer =>
    dsimp only [phaseEvent, phSSer]
    exact searchGoes_write hx (searchGoes_updCtx (x := x) hx ho .sPoll)
  case sPoll =>
    dsimp only [phaseEvent, phSPoll]
    refine searchGoes_read hx ?_
    have hu {f : Ctx → Ctx} := map_ctx? (f := f) (s := s.didRead s.cfg.offStatus) hx
    split
    · exact searchGoes_fail _ hu
    · exact searchGoes_fail _ hu
    · exact searchGoes_updCtx hu ho .sFound
    · split
      · exact searchGoes_fail _ hu
      · exact searchGoes_updCtx hu ho .sWait
  case sWait =>
    dsimp only [phaseEvent, phSWait, waitOnce]
    exact searchGoes_updCtx (u := s.didDelay _) hx ho .sPoll
  case sFound =>
    dsimp only [phaseEvent, phSFound]
    exact searchGoes_read hx (searchGoes_harvest _ _ (map_ctx? (s := s.didRead _) hx) ho)
  case sLo =>
    dsimp only [phaseEvent, phSLo]
    refine searchGoes_read hx ?_
    split
    · exact searchGoes_updCtx (map_ctx? (s := s.didRead _) hx) ho .sHi
    · exact searchGoes_window _ (map_ctx? (s := s.didRead _) hx)
  case sHi =>
    dsimp only [phaseEvent, phSHi]
    refine searchGoes_read hx (searchGoes_harvest _ _ (map_ctx? (s := (s.didRead _).insertIfNew _) ?_) ho ?_ ?_)
    · simpa using hx
    · simp
    · simp
  all_goals cases hp

end

/-! ### The other operations -/

/-- The outcome leaves the lock `l`. -/
def Locked (l : Bool) (o : Out) : Prop := ∀ t, o = .next t → t.lock = l

section
variable {s : State}

theorem locked_next {l : Bool} {u : State} (h : u.lock = l := by rfl) : Locked l (.next u) := by
  rintro _ ⟨⟩
  exact h

theorem locked_fault {l : Bool} (f : Fault) : Locked l (.fault f) := nofun

theorem withCtx_locked {k : Ctx → Out} (hk : ∀ x, Locked s.lock (k x)) : Locked s.lock (withCtx s k) := by
  intro t h
  obtain ⟨x, -, h⟩ := withCtx_next h
  exact hk x t h

theorem withSensor_locked {x : Ctx} {k : Sensor → Out} (hk : ∀ y, Locked s.lock (k y)) :
    Locked s.lock (withSensor x s k) := by
  intro t h
  obtain ⟨y, -, h⟩ := withSensor_next h
  exact hk y t h

theorem withRom_locked {x : Ctx} {k : RomCode → Out} (hk : ∀ r, Locked s.lock (k r)) :
    Locked s.lock (withRom x s k) := by
  intro t h
  obtain ⟨r, -, h⟩ := withRom_next h
  exact hk r t h

theorem readReg_locked {off : Nat} {k : Word → State → Out} (hk : ∀ v u, Locked u.lock (k v u)) :
    Locked s.lock (readReg off s k) := by
  intro t h
  rcases readReg_next h with ⟨-, h⟩ | ⟨-, rfl⟩
  · exact hk _ (s.didRead off) t h
  · rfl

theorem writeReg_locked {off : Nat} {v : Word} {k : State → Out} (hk : ∀ u, Locked u.lock (k u)) :
    Locked s.lock (writeReg off v s k) := by
  intro t h
  rcases writeReg_next h with ⟨-, h⟩ | ⟨-, rfl⟩
  · exact hk (s.didWrite off v) t h
  · rfl

theorem pollOnce_locked {mask : Word} {bound : Nat} {wait : List Phase} {x : Ctx} {d e : State → Out}
    (hd : ∀ u, Locked u.lock (d u)) (he : ∀ u, Locked u.lock (e u)) :
    Locked s.lock (pollOnce mask bound wait x s d e) := by
  intro t h
  rcases pollOnce_next h with ⟨-, rfl⟩ | ⟨-, ⟨-, h⟩ | ⟨-, -, h⟩ | ⟨-, -, rfl⟩⟩
  · rfl
  · exact hd (polled x s) t h
  · exact he (polled x s) t h
  · rfl

theorem failAttempt_locked {cs : List Phase} {g : Result → State → Out} (hg : ∀ r u, Locked u.lock (g r u)) :
    Locked s.lock (failAttempt cs s g) := by
  refine withCtx_locked fun x => ?_
  split
  · exact hg _ (s.exitTemp x)
  · exact locked_next

theorem ret_locked : ∀ (cs : List Phase) (r : Result) (s : State), Locked s.lock (ret cs r s) := by
  intro cs
  induction cs with
  | nil => exact fun _ _ => locked_next
  | cons p cs ih =>
    intro r s
    cases p
    case oReset =>
      simp only [ret]
      split
      · exact locked_next
      · exact ih _ s
    case oMatch =>
      simp only [ret]
      split
      · exact withCtx_locked fun x => withRom_locked fun rom => ih _ (s.updCtx _)
      · exact ih _ s
    case tOpen1 =>
      simp only [ret]
      split
      · exact locked_next
      · exact withCtx_locked fun x => ih _ (s.exitTemp x)
    case tOpen2 =>
      simp only [ret]
      split
      · exact locked_next
      · exact failAttempt_locked ih
    case fCall =>
      simp only [ret]
      split
      · exact ih _ s
      · exact locked_fault _
    all_goals exact locked_fault _

/-- The events of the other operations leave the lock: the construction clears it where it is clear. -/
theorem phaseEvent_locked {p : Phase} (cs : List Phase) (x : Ctx) (hp : p.op ≠ .busSearch)
    (hl : s.initialized = false → s.lock = false) : Locked s.lock (phaseEvent p cs x s) := by
  have construct : ∀ u : State, u.initialized = s.initialized → u.lock = s.lock →
      (u.construct x).lock = s.lock := fun u hui hul => by
    unfold State.construct
    split
    · exact hul
    · exact (hl (hui ▸ by simpa using ‹¬ u.initialized = true›)).symm
  cases p
  case iClkget =>
    dsimp only [phaseEvent, phIClkget]
    split
    · rw [← construct s.didClkGet rfl rfl]
      exact ret_locked _ _ _
    · exact locked_next
  case iClkset =>
    dsimp only [phaseEvent, phIClkset]
    rw [← construct (s.didClkSet _) rfl rfl]
    exact ret_locked _ _ _
  case rstCmd | mCmd | mSz | mExec | tConvCmd | tRdCmd | tRdSz | tRdExec =>
    dsimp only [phaseEvent, phRstCmd, phMCmd, phMSz, phMExec, phTConvCmd, phTRdCmd, phTRdSz, phTRdExec]
    exact writeReg_locked fun u => locked_next
  case mD0 | mD1 =>
    dsimp only [phaseEvent, phMD0, phMD1]
    exact withRom_locked fun r => writeReg_locked fun u => locked_next
  case tConvExec =>
    dsimp only [phaseEvent, phTConvExec]
    exact withSensor_locked fun y => writeReg_locked fun u => locked_next
  case rstWait | mWait | tRdWait => exact locked_next
  case rstPoll =>
    dsimp only [phaseEvent, phRstPoll]
    exact pollOnce_locked (fun u => ret_locked cs _ { u with busPhase := .resetDone }) fun u => ret_locked cs _ u
  case mPoll =>
    dsimp only [phaseEvent, phMPoll]
    exact withRom_locked fun r => pollOnce_locked
      (fun u => ret_locked cs _ { u with busPhase := u.busPhase.afterMatch r })
      fun u => ret_locked cs _ { u with busPhase := .unknown }
  case rdAcc | drAcc =>
    dsimp only [phaseEvent, phRdAcc, phDrAcc]
    exact readReg_locked fun v u => ret_locked cs _ u
  case wcAcc | wtAcc | dwAcc =>
    dsimp only [phaseEvent, phWcAcc, phWtAcc, phDwAcc]
    exact writeReg_locked fun u => ret_locked cs _ u
  case wrAcc =>
    dsimp only [phaseEvent, phWrAcc]
    refine writeReg_locked fun u => ?_
    rw [← State.ghostWrite_lock u]
    exact ret_locked cs _ _
  case tNow0 =>
    dsimp only [phaseEvent, phTNow0]
    refine withSensor_locked fun y => ?_
    split
    · exact ret_locked cs _ (s.didNow.updCtx _)
    · exact locked_next
  case tConvWait =>
    dsimp only [phaseEvent, phTConvWait]
    refine withSensor_locked fun y => ?_
    split
    · exact locked_next
    · exact locked_fault _
  case tConvChk =>
    dsimp only [phaseEvent, phTConvChk]
    refine withSensor_locked fun y => readReg_locked fun v u => ?_
    split
    · exact locked_next
    · exact ret_locked cs _ (State.exitTemp x _)
  case tRdPoll =>
    dsimp only [phaseEvent, phTRdPoll]
    exact pollOnce_locked (fun u => locked_next)
      fun u => failAttempt_locked (s := u.closeScope) fun e w => ret_locked cs e w
  case tRdData =>
    dsimp only [phaseEvent, phTRdData]
    exact readReg_locked fun v u => locked_next
  case tNow1 =>
    dsimp only [phaseEvent, phTNow1]
    exact withSensor_locked fun y => ret_locked cs _ (State.updSensor _ _ _)
  case oReset | oMatch | tOpen1 | tOpen2 | fCall => exact locked_fault _
  all_goals exact absurd rfl hp

end

/-! ### The step -/

/-- What a step keeps of a sound state: it is enough that a choice of who moves, an instruction, and a fault result
in an idle context keep it. -/
theorem State.Sound.step_keeps {P : State → Prop} {s t : State} (hs : s.Sound) (hP : P s)
    (h : Machine.step s = .next t)
    (choose : ∀ e c q, P { s with env := e, cur := c, inbox := q })
    (exec : ∀ {u i}, u.Sound → P u → Machine.exec i u = .next t → P t)
    (raise : ∀ {u x} f, u.Sound → P u → u.ctx? = some x → x.op = none → P (u.raise f)) : P t := by
  have chosen : ∀ {m u} c q, s.turn = some (m, u) → P { u with cur := c, inbox := q } := fun c q hu => by
    rcases (turn_some hu).2 with rfl | rfl
    · exact choose _ c q
    · exact choose _ c q
  cases step_next h with
  | quiet => exact hP
  | issue hu _ _ hx => exact exec ((hs.turn hu).choose _ _ _) (chosen _ _ hu) hx
  | run hu _ _ hx => exact exec ((hs.turn hu).choose _ _ _) (chosen _ _ hu) hx
  | @reject u c q rest op _ hu hin _ hc ht =>
    obtain ⟨x, hx⟩ := Option.isSome_iff_exists.mp hc
    obtain ⟨c', q', rest', hin', hidle⟩ := turn_issue hu
    obtain ⟨⟨rfl, rfl⟩, rfl⟩ : (c = c' ∧ q = q') ∧ rest = rest' := by simpa using hin.symm.trans hin'
    have ho : x.op = none := hidle x (by simpa [State.ctx?, turn_ctxs hu] using hx)
    exact ht ▸ raise _ ((hs.turn hu).choose _ _ _) (chosen c rest hu) hx ho

theorem issued_holdsSearch (x : Ctx) (o : Op) (a b : BitVec 64) (c : BitVec 32) :
    (x.issued o a b c).holdsSearch = false := by
  cases o <;> rfl

/-- BUS_SEARCH calls no operation and none calls it (R47). -/
theorem search_callers {o q : Op} {cs : List Phase} (h : cs ∈ callerStacks o q) :
    (o = .busSearch ∧ q = .busSearch ∧ cs = []) ∨ (o ≠ .busSearch ∧ q ≠ .busSearch) := by
  revert h; cases o <;> cases q <;> simp [callerStacks]

/-- A step between two states whose current context is not past S_LOCK. -/
theorem lockStep_of_notSearch {s t : State} {x y : Ctx} (hk : Kept s t) (hx : s.ctx? = some x)
    (hy : t.ctx? = some y) (hxn : x.holdsSearch = false) (hyn : y.holdsSearch = false) (hl : t.lock = s.lock) :
    LockStep s t :=
  .same (by rw [holdsAt_cur hk.cur hy, holdsAt_cur rfl hx, hxn, hyn]) hl

/-- The event of a search: the test-and-set, or one past S_LOCK. -/
theorem search_lockStep {s t : State} {x : Ctx} {p : Phase} (hk : Kept s t) (hx : s.ctx? = some x)
    (ho : x.op = some .busSearch) (hpc : x.pc = [p]) (hp : p.op = .busSearch)
    (h : phaseEvent p [] x s = .next t) : LockStep s t := by
  have hcur : s.HoldsAt s.cur ↔ p ≠ .sLock := by
    rw [holdsAt_cur rfl hx, holdsSearch_eq ho hpc, decide_eq_true_iff]
  by_cases hlock : p = .sLock
  · subst hlock
    have next (pc : List Phase) : (s.didLockTas.goto pc).ctx? = some { x with pc := pc } :=
      map_ctx? (s := s.didLockTas) hx
    rw [sLock_event] at h
    split at h
    · obtain rfl := Host.Outcome.next.inj h
      exact lockStep_of_notSearch hk hx (next _) (holdsSearch_eq ho hpc) (by simp [Ctx.holdsSearch, ho])
        (Eq.symm ‹_›)
    · obtain rfl := Host.Outcome.next.inj h
      refine .taken (Bool.eq_false_iff.mpr ‹_›) rfl ?_
      exact (holdsAt_cur hk.cur (next _)).mpr (by simp [Ctx.holdsSearch, ho])
  · rcases phaseEvent_searchGoes hx ho hp hlock t h with ⟨hl, y, hy, hys⟩ | ⟨⟨y, hy, hyo⟩, hl⟩
    · exact .same (by simp [holdsAt_cur hk.cur hy, hcur, hys, hlock]) hl
    · refine .released (hcur.mpr hlock) ?_ hl
      rw [holdsAt_cur hk.cur hy, holdsSearch_of_op (by simp [hyo])]
      exact Bool.false_ne_true

theorem State.Sound.exec_lockStep {i : Instr} {s t : State} (hs : s.Sound) (h : Machine.exec i s = .next t) :
    LockStep s t := by
  have hk := exec_kept h
  obtain ⟨x, hx, hc⟩ := exec_cases h
  have idle {z : Ctx} (hz : z.op = none) : z.holdsSearch = false := holdsSearch_of_op (by simp [hz])
  cases hc with
  | issued ho hi =>
    cases hi with
    | starts => exact lockStep_of_notSearch hk hx (ctx?_setCtx hx _) (idle ho) (issued_holdsSearch ..) rfl
    | ends => exact lockStep_of_notSearch hk hx (ctx?_settled hx _ _ _ _) (idle ho) (idle rfl) rfl
  | word ho _ hw =>
    obtain ⟨e, hy⟩ := writeWord_ctx? hx hw
    refine lockStep_of_notSearch hk hx hy (idle ho) (idle rfl) ?_
    obtain ⟨x', -, -, ⟨-, rfl⟩ | ⟨-, -, rfl⟩ | ⟨-, -, rfl⟩⟩ := writeWord_next hw <;> simp
  | @event o p cs ho _ hp hpe =>
    have hi := (hs.ctx hx).inFlight ho hp
    rcases search_callers hi.callers with ⟨rfl, hpo, rfl⟩ | ⟨hne, hpo⟩
    · exact search_lockStep hk hx ho hp hpo hpe
    · obtain ⟨v, hv, hl⟩ := phaseEvent_leads hpe
      obtain ⟨y, hy, hyo⟩ := hl.latches (hv.ctx?.trans hx)
      have hxn : x.op ≠ some .busSearch := by simpa [ho] using hne
      have hyn : y.op ≠ some .busSearch := by
        rcases hyo with h | h
        · simp [h]
        · rw [show y.op = x.op from congrArg Prod.fst h]
          exact hxn
      exact lockStep_of_notSearch hk hx hy (holdsSearch_of_op hxn) (holdsSearch_of_op hyn)
        (phaseEvent_locked cs x hpo (fun hn => (hs.before hn).2.1) t hpe)

/-- Settles O19: what an instruction does to the lock (`State.Sound.exec_lockStep`) keeps rule R323 (c). -/
theorem everyStepKeepsTheSearchLock : Obligations.EveryStepKeepsTheSearchLock := by
  intro s t hs hl h
  refine hs.step_keeps (P := State.LockOk) hl h (fun e c q => ⟨hl.one, hl.held, hl.only⟩)
    (fun hu hul hx => (hu.exec_lockStep hx).lockOk hul (exec_kept hx)) fun {u x} f _ hul hx ho => ?_
  have hk := (Does.raise u f).kept
  have hy := (ctx?_raise u f).trans (congrArg _ hx)
  exact (lockStep_of_notSearch hk hx hy (holdsSearch_of_op (by simp [ho])) rfl rfl).lockOk hul hk

end Sys2Proof.Machine

/-! ## The order of events (rules R83, R201, R222, R323 (d) and (e))

The ordering invariant, context by context (`Ctx.Ordered`). It asks something only of a context at a watched
phase. Most events leave their context at none (`Rests`); what is left are the events of a reset, the last poll of
a match, and those that TS_TEMP makes in a scope. -/

namespace Sys2Proof.Machine

/-- The phases that the ordering invariant speaks of. -/
def Phase.watched : Phase → Bool
  | .rstPoll | .rstWait | .mCmd | .tConvCmd | .tConvExec | .tConvWait | .tConvChk | .tRdCmd | .tRdSz | .tRdExec
  | .tRdPoll | .tRdWait | .tRdData => true
  | _ => false

/-- The phases inside a scope of TS_TEMP are its own, and watched. -/
theorem Ctx.commandsDevice.phase {x : Ctx} (h : x.commandsDevice) :
    ∃ p, x.pc.head? = some p ∧ p.watched = true ∧ p.op = .tsTemp := by
  have all : ∀ p ∈ [Phase.tConvCmd, .tConvExec, .tConvWait, .tConvChk, .tRdCmd, .tRdSz, .tRdExec, .tRdPoll,
      .tRdWait, .tRdData], p.watched = true ∧ p.op = .tsTemp := by decide
  obtain ⟨p, hp, hx⟩ := h
  exact ⟨p, hx, all p hp⟩

/-- The ordering invariant of one context, whose events are `evs`. -/
structure Ctx.Ordered (k : Config) (sens : List Sensor) (evs : List Event) (x : Ctx) : Prop where
  pulsed : ∀ cs, (x.pc = .rstPoll :: cs ∨ x.pc = .rstWait :: cs) → Event.write k.offCommand 0x00010000 ∈ evs
  resetSeen : ∀ cs, x.pc = .mCmd :: .oMatch :: cs →
    ∃ v before, evs = .read k.offStatus v :: before ∧ v &&& k.stRstd ≠ 0 ∧
      Event.write k.offCommand 0x00010000 ∈ before
  matchSeen : ∀ cs, (x.pc = .tConvCmd :: cs ∨ x.pc = .tRdCmd :: cs) →
    ∃ v before, evs = .read k.offStatus v :: before ∧ v &&& k.stWrd ≠ 0
  scope : x.commandsDevice → ∀ y, sens[x.opc.toNat]? = some y → x.devOpen = true ∧ x.devAddr = y.addr

theorem orderOk_iff (s : State) : s.OrderOk ↔
    ∀ (c : Nat) (x : Ctx), s.ctxs[c]? = some x → x.Ordered s.cfg s.sens (s.eventsOf c) :=
  ⟨fun ⟨h1, h2, h3, h4⟩ c x hx => ⟨fun cs => h1 c x cs hx, fun cs => h2 c x cs hx, fun cs => h3 c x cs hx,
      fun hc y => h4 c x y hx hc⟩,
    fun h => ⟨fun c x cs hx => (h c x hx).pulsed cs, fun c x cs hx => (h c x hx).resetSeen cs,
      fun c x cs hx => (h c x hx).matchSeen cs, fun c x y hx hc => (h c x hx).scope hc y⟩⟩

/-- The context is at no watched phase. -/
def Ctx.Unwatched (x : Ctx) : Prop := ∀ p ∈ x.pc.head?, p.watched = false

theorem Ctx.unwatched_of_idle {x : Ctx} (h : x.pc = []) : x.Unwatched := fun p hp => by
  rw [h] at hp
  cases hp

theorem Ctx.Unwatched.ordered {x : Ctx} (h : x.Unwatched) (k : Config) (sens : List Sensor) (evs : List Event) :
    x.Ordered k sens evs := by
  have no : ∀ {p cs}, p.watched = true → x.pc ≠ p :: cs := fun hp e => by
    rw [h _ (by rw [e]; rfl)] at hp
    cases hp
  refine ⟨fun cs e => ?_, fun cs e => absurd e (no rfl), fun cs e => ?_, fun hc => ?_⟩
  · exact e.elim (fun e => absurd e (no rfl)) fun e => absurd e (no rfl)
  · exact e.elim (fun e => absurd e (no rfl)) fun e => absurd e (no rfl)
  · obtain ⟨p, hp, hw, -⟩ := hc.phase
    exact nomatch hw.symm.trans (h p hp)

/-- A context at a poll or a wait of a reset. -/
theorem Ctx.ordered_of_pulsed {k : Config} {sens : List Sensor} {evs : List Event} {x : Ctx} (p : Phase)
    {cs : List Phase} (hpc : x.pc = p :: cs) (h : Event.write k.offCommand 0x00010000 ∈ evs)
    (hp : p ∈ [.rstPoll, .rstWait] := by decide) : x.Ordered k sens evs := by
  refine ⟨fun _ _ => h, fun cs e => ?_, fun cs e => ?_, fun hc => ?_⟩
  · rw [(List.cons.inj (hpc.symm.trans e)).1] at hp
    exact absurd hp (by decide)
  · rcases e with e | e <;> rw [(List.cons.inj (hpc.symm.trans e)).1] at hp <;> exact absurd hp (by decide)
  · obtain ⟨q, hq, -, hop⟩ := hc.phase
    obtain rfl : p = q := by simpa [hpc] using hq
    simp only [List.mem_cons, List.not_mem_nil, or_false] at hp
    rcases hp with rfl | rfl <;> cases hop

/-- A context at a phase of a scope but the first. -/
theorem Ctx.ordered_of_scope {k : Config} {sens : List Sensor} {evs : List Event} {x : Ctx} {p : Phase}
    {cs : List Phase} (hp : x.pc = p :: cs) (hm : p ∉ [.rstPoll, .rstWait, .mCmd, .tConvCmd, .tRdCmd])
    (h : ∀ y, sens[x.opc.toNat]? = some y → x.devOpen = true ∧ x.devAddr = y.addr) : x.Ordered k sens evs := by
  simp only [List.mem_cons, List.not_mem_nil, or_false, not_or] at hm
  refine ⟨fun cs e => ?_, fun cs e => ?_, fun cs e => ?_, fun _ => h⟩ <;> simp_all

/-! ### Events after which the context is at no watched phase -/

/-- The outcome leaves the current context at no watched phase. -/
def Rests (o : Out) : Prop := ∀ t y, o = .next t → t.ctx? = some y → y.Unwatched

section
variable {s : State}

theorem rests_updCtx {f : Ctx → Ctx} (p : Phase) (hf : ∀ y, (f y).pc.head? = some p := by exact fun _ => rfl)
    (hp : p.watched = false := by rfl) : Rests (.next (s.updCtx f)) := by
  rintro _ y ⟨⟩ hy q hq
  rw [ctx?_updCtx] at hy
  obtain ⟨z, -, rfl⟩ := Option.map_eq_some_iff.mp hy
  obtain rfl : p = q := Option.some.inj ((hf z).symm.trans hq)
  exact hp

theorem rests_deliver (r : Result) : Rests (.next (s.deliver r)) := by
  rintro _ y ⟨⟩ hy q hq
  rw [ctx?_deliver] at hy
  obtain ⟨z, -, rfl⟩ := Option.map_eq_some_iff.mp hy
  cases hq

theorem rests_fault (f : Fault) : Rests (.fault f) := fun _ _ h => nomatch h

theorem withCtx_rests {k : Ctx → Out} (hk : ∀ x, Rests (k x)) : Rests (withCtx s k) := fun t y h => by
  obtain ⟨x, -, h⟩ := withCtx_next h
  exact hk x t y h

theorem withSensor_rests {x : Ctx} {k : Sensor → Out} (hk : ∀ y, Rests (k y)) : Rests (withSensor x s k) :=
  fun t y h => by
    obtain ⟨z, -, h⟩ := withSensor_next h
    exact hk z t y h

theorem withRom_rests {x : Ctx} {k : RomCode → Out} (hk : ∀ r, Rests (k r)) : Rests (withRom x s k) :=
  fun t y h => by
    obtain ⟨r, -, h⟩ := withRom_next h
    exact hk r t y h

theorem readReg_rests {off : Nat} {k : Word → State → Out} (hk : ∀ v u, Rests (k v u)) :
    Rests (readReg off s k) := fun t y h => by
  rcases readReg_next h with ⟨-, h⟩ | ⟨-, rfl⟩
  · exact hk _ _ t y h
  · exact rests_deliver _ _ y rfl

theorem writeReg_rests {off : Nat} {v : Word} {k : State → Out} (hk : ∀ u, Rests (k u)) :
    Rests (writeReg off v s k) := fun t y h => by
  rcases writeReg_next h with ⟨-, h⟩ | ⟨-, rfl⟩
  · exact hk _ t y h
  · exact rests_deliver _ _ y rfl

theorem failAttempt_rests {cs : List Phase} {g : Result → State → Out}
    (hg : ∀ r u, r.ok = false → Rests (g r u)) :
    Rests (failAttempt cs s g) := by
  refine withCtx_rests fun x => ?_
  split
  · exact hg _ _ rfl
  · exact rests_updCtx .rstCmd

/-- A failure goes back to no watched phase: it ends the operation, or a new attempt begins. -/
theorem ret_failure_rests : ∀ (cs : List Phase) {r : Result} {s : State}, r.ok = false → Rests (ret cs r s) := by
  intro cs
  induction cs with
  | nil => exact fun _ => rests_deliver _
  | cons p cs ih =>
    intro r s hr
    have hn : ¬ r.ok = true := by simp [hr]
    cases p
    case oReset | oMatch => simp only [ret, if_neg hn]; exact ih rfl
    case tOpen1 => simp only [ret, if_neg hn]; exact withCtx_rests fun x => ih rfl
    case tOpen2 => simp only [ret, if_neg hn]; exact failAttempt_rests fun e u he => ih he
    case fCall => simp only [ret, fahrenheitResult, if_neg hn]; exact ih rfl
    all_goals exact rests_fault _

/-- The callers of TS_TEMP end with it. -/
theorem ret_temp_rests {o : Op} {cs : List Phase} (h : cs ∈ callerStacks o .tsTemp) (r : Result) :
    Rests (ret cs r s) := by
  rcases tempCallers h with ⟨-, rfl⟩ | ⟨-, rfl⟩
  · exact rests_deliver r
  · simp only [ret]
    split
    · exact rests_deliver _
    · exact rests_fault _

end

/-! ### The events of a sound state -/

/-- The outcome leaves the current context of `s` in order. -/
def Orders (s : State) (o : Out) : Prop :=
  ∀ t y, o = .next t → t.ctx? = some y → y.Ordered s.cfg s.sens (t.eventsOf s.cur)

theorem Rests.orders {o : Out} (h : Rests o) (s : State) : Orders s o :=
  fun t y ht hy => (h t y ht hy).ordered ..

/-- An event of the current context is the newest of its events. -/
theorem eventsOf_cons {s t : State} {e : Event} (h : t.trace = (s.cur, e) :: s.trace) :
    t.eventsOf s.cur = e :: s.eventsOf s.cur := by
  simp [State.eventsOf, h]

theorem resetCallers {o : Op} {cs : List Phase} (h : cs ∈ callerStacks o .busReset) :
    cs = [] ∨ ∃ cs', cs = .oReset :: cs' := by
  revert h; cases o <;> simp +contextual [callerStacks, or_imp]

theorem matchCallers_cases {o : Op} {cs : List Phase} (h : cs ∈ callerStacks o .busMatch) :
    cs = [] ∨ cs = [.oMatch] ∨ ((o = .tsTemp ∨ o = .tsTempF) ∧
      ∃ cs', cs = .oMatch :: .tOpen1 :: cs' ∨ cs = .oMatch :: .tOpen2 :: cs') := by
  revert h; cases o <;> simp +contextual [callerStacks, or_imp]

section
variable {s u : State} {x z : Ctx}

theorem orders_updCtx {f : Ctx → Ctx} (hu : u.ctx? = some z)
    (hf : (f z).Ordered s.cfg s.sens (u.eventsOf s.cur)) : Orders s (.next (u.updCtx f)) := by
  rintro _ y ⟨⟩ hy
  obtain rfl : f z = y := Option.some.inj ((map_ctx? hu).symm.trans hy)
  exact hf

theorem writeReg_orders {off : Nat} {v : Word} {k : State → Out} (hk : Orders s (k (s.didWrite off v))) :
    Orders s (writeReg off v s k) := fun t y h => by
  rcases writeReg_next h with ⟨-, h⟩ | ⟨-, rfl⟩
  · exact hk t y h
  · exact (rests_deliver _).orders s _ y rfl

theorem withSensor_orders {k : Sensor → Out} (hk : ∀ y, Orders s (k y)) : Orders s (withSensor x s k) :=
  fun t y h => by
    obtain ⟨w, -, h⟩ := withSensor_next h
    exact hk w t y h

theorem withRom_orders {k : RomCode → Out} (hk : ∀ r, Orders s (k r)) : Orders s (withRom x s k) :=
  fun t y h => by
    obtain ⟨r, -, h⟩ := withRom_next h
    exact hk r t y h

theorem pollOnce_orders {mask : Word} {bound : Nat} {wait : List Phase} {d e : State → Out}
    (hd : flagSet s.answer mask = true → Orders s (d (polled x s))) (he : Orders s (e (polled x s)))
    (hw : Orders s (.next ((polled x s).goto wait))) : Orders s (pollOnce mask bound wait x s d e) := fun t y h => by
  rcases pollOnce_next h with ⟨-, rfl⟩ | ⟨-, ⟨hf, h⟩ | ⟨-, -, h⟩ | ⟨-, -, rfl⟩⟩
  · exact (rests_deliver _).orders s _ y rfl
  · exact hd hf t y h
  · exact he t y h
  · exact hw _ y rfl

/-- An event inside a scope that leaves it open. -/
theorem orders_inScope {f : Ctx → Ctx} (q : Phase) {qs : List Phase}
    (h : ∀ y, s.sens[x.opc.toNat]? = some y → x.devOpen = true ∧ x.devAddr = y.addr) (hu : u.ctx? = some z)
    (hf : (f z).pc = q :: qs ∧ (f z).opc = x.opc ∧ (f z).devOpen = x.devOpen ∧ (f z).devAddr = x.devAddr :=
      by exact ⟨rfl, rfl, rfl, rfl⟩)
    (hq : q ∉ [.rstPoll, .rstWait, .mCmd, .tConvCmd, .tRdCmd] := by decide) : Orders s (.next (u.updCtx f)) := by
  obtain ⟨hpc, hopc, hopen, haddr⟩ := hf
  refine orders_updCtx hu (Ctx.ordered_of_scope hpc hq ?_)
  rw [hopc, hopen, haddr]
  exact h

/-- Where DEV_OPEN is called by TS_TEMP, the answer with write-done opens the scope on the sensor's device. -/
theorem opened_orders {q : Phase} {cs : List Phase} (hu : u.ctx? = some z) (hsens : u.sens = s.sens)
    (ho : z.op = some .tsTemp ∨ z.op = some .tsTempF) (hq : q ∈ [.tConvCmd, .tRdCmd])
    (hev : ∃ v before, u.eventsOf s.cur = .read s.cfg.offStatus v :: before ∧ v &&& s.cfg.stWrd ≠ 0) :
    Orders s (withCtx u fun y => withRom y u fun rom =>
      .next ((u.updCtx fun w => { w with devOpen := true, devAddr := rom }).goto (q :: cs))) := by
  intro t y h hy
  obtain ⟨z', hz', h⟩ := withCtx_next h
  obtain rfl : z = z' := Option.some.inj (hu.symm.trans hz')
  obtain ⟨rom, hrom, h⟩ := withRom_next h
  obtain rfl := Host.Outcome.next.inj h
  obtain rfl : { z with devOpen := true, devAddr := rom, pc := q :: cs } = y := by simpa [hu] using hy
  have hne : q ≠ .rstPoll ∧ q ≠ .rstWait ∧ q ≠ .mCmd := by
    simp only [List.mem_cons, List.not_mem_nil, or_false] at hq
    rcases hq with rfl | rfl <;> decide
  refine ⟨fun _ e => ?_, fun _ e => absurd (List.cons.inj e).1 hne.2.2, fun _ _ => hev,
    fun _ w hw => ⟨rfl, ?_⟩⟩
  · exact e.elim (fun e => absurd (List.cons.inj e).1 hne.1) fun e => absurd (List.cons.inj e).1 hne.2.1
  · rcases hrom with ⟨hop, -⟩ | ⟨-, w', hw', rfl⟩
    · rcases ho with ho | ho <;> simp [ho] at hop
    · rw [hsens] at hw'
      exact congrArg Sensor.addr (Option.some.inj (hw'.symm.trans hw))

/-- The event of a phase of BUS_RESET, BUS_MATCH or TS_TEMP, by whatever it is called. -/
theorem phaseEvent_orders {o : Op} {p : Phase} {cs : List Phase} (hx : s.ctx? = some x)
    (hi : x.InFlight s.cfg s.sens.length o p cs) (hpc : x.pc = p :: cs)
    (hord : x.Ordered s.cfg s.sens (s.eventsOf s.cur)) (hp : p.op ∈ [Op.busReset, .busMatch, .tsTemp]) :
    Orders s (phaseEvent p cs x s) := by
  have hcs := hi.callers
  have hpoll : (polled x s).ctx? = some { x with tStatus := s.answer, pollCnt := x.pollCnt + 1 } := by simp [hx]
  have polledEvents : (polled x s).eventsOf s.cur = .read s.cfg.offStatus s.answer :: s.eventsOf s.cur :=
    eventsOf_cons rfl
  have scope (hdev : p ∈ [Phase.tConvCmd, .tConvExec, .tConvWait, .tConvChk, .tRdCmd, .tRdSz, .tRdExec, .tRdPoll,
      .tRdWait, .tRdData]) := hord.scope ⟨p, hdev, by rw [hpc]; rfl⟩
  cases p
  case rstCmd =>
    dsimp only [phaseEvent, phRstCmd]
    refine writeReg_orders (orders_updCtx (u := { s.didWrite _ _ with busPhase := _ }) hx
      (Ctx.ordered_of_pulsed .rstPoll rfl ?_))
    rw [eventsOf_cons (s := s) rfl]
    exact List.mem_cons_self
  case rstPoll =>
    dsimp only [phaseEvent, phRstPoll]
    have pulsed := hord.pulsed cs (.inl hpc)
    refine pollOnce_orders (fun hf => ?_) ((ret_failure_rests cs rfl).orders s)
      (orders_updCtx hpoll (Ctx.ordered_of_pulsed .rstWait rfl ?_))
    · rcases resetCallers hcs with rfl | ⟨cs', rfl⟩
      · exact (rests_deliver _).orders s
      · refine orders_updCtx (u := { polled x s with busPhase := .resetDone }) hpoll
          ⟨nofun, fun _ _ => ⟨s.answer, _, polledEvents, of_decide_eq_true hf, pulsed⟩, nofun, fun h => ?_⟩
        obtain ⟨_, ⟨⟩, -, hop⟩ := h.phase
        cases hop
    · rw [polledEvents]
      exact List.mem_cons_of_mem _ pulsed
  case rstWait =>
    dsimp only [phaseEvent, phRstWait, waitOnce]
    refine orders_updCtx (u := s.didDelay _) hx (Ctx.ordered_of_pulsed .rstPoll rfl ?_)
    rw [eventsOf_cons (s := s) rfl]
    exact List.mem_cons_of_mem _ (hord.pulsed cs (.inr hpc))
  case mCmd =>
    dsimp only [phaseEvent, phMCmd]
    exact (writeReg_rests fun u => rests_updCtx .mD0).orders s
  case mD0 =>
    dsimp only [phaseEvent, phMD0]
    exact (withRom_rests fun r => writeReg_rests fun u => rests_updCtx .mD1).orders s
  case mD1 =>
    dsimp only [phaseEvent, phMD1]
    exact (withRom_rests fun r => writeReg_rests fun u => rests_updCtx .mSz).orders s
  case mSz =>
    dsimp only [phaseEvent, phMSz]
    exact (writeReg_rests fun u => rests_updCtx .mExec).orders s
  case mExec =>
    dsimp only [phaseEvent, phMExec]
    exact (writeReg_rests fun u => rests_updCtx .mPoll).orders s
  case mPoll =>
    dsimp only [phaseEvent, phMPoll]
    refine withRom_orders fun rom => pollOnce_orders (fun hf => ?_) ((ret_failure_rests cs rfl).orders s)
      ((rests_updCtx .mWait).orders s)
    have opened {q : Phase} {cs' : List Phase} (ho : o = .tsTemp ∨ o = .tsTempF)
        (hq : q ∈ [.tConvCmd, .tRdCmd]) :=
      opened_orders (s := s) (u := { polled x s with busPhase := (polled x s).busPhase.afterMatch rom }) (cs := cs')
        hpoll rfl (by simpa [hi.op] using ho) hq ⟨s.answer, _, polledEvents, of_decide_eq_true hf⟩
    rcases matchCallers_cases hcs with rfl | rfl | ⟨ho, cs', rfl | rfl⟩
    · exact (rests_deliver _).orders s
    · exact Rests.orders (withCtx_rests fun _ => withRom_rests fun _ => rests_deliver _) s
    · exact opened ho (by decide)
    · exact opened ho (by decide)
  case mWait => exact (rests_updCtx .mPoll).orders s
  case tNow0 =>
    dsimp only [phaseEvent, phTNow0]
    refine (withSensor_rests fun y => ?_).orders s
    split
    · exact ret_temp_rests hcs _
    · exact rests_updCtx .rstCmd
  case tConvCmd =>
    dsimp only [phaseEvent, phTConvCmd]
    exact writeReg_orders (orders_inScope .tConvExec (scope (by decide)) hx)
  case tConvExec =>
    dsimp only [phaseEvent, phTConvExec]
    exact withSensor_orders fun y => writeReg_orders
      (orders_inScope (u := (s.didWrite _ _).setFsm x _) .tConvWait (scope (by decide)) hx)
  case tConvWait =>
    dsimp only [phaseEvent, phTConvWait]
    refine withSensor_orders fun y => ?_
    split
    · exact orders_inScope (u := s.didDelay _) .tConvChk (scope (by decide)) hx
    · exact (rests_fault _).orders s
  case tConvChk =>
    dsimp only [phaseEvent, phTConvChk]
    refine (withSensor_rests fun y => readReg_rests fun v u => ?_).orders s
    split
    · exact rests_updCtx .rstCmd
    · exact ret_failure_rests cs rfl
  case tRdCmd =>
    dsimp only [phaseEvent, phTRdCmd]
    exact writeReg_orders (orders_inScope .tRdSz (scope (by decide)) hx)
  case tRdSz =>
    dsimp only [phaseEvent, phTRdSz]
    exact writeReg_orders (orders_inScope .tRdExec (scope (by decide)) hx)
  case tRdExec =>
    dsimp only [phaseEvent, phTRdExec]
    exact writeReg_orders (orders_inScope .tRdPoll (scope (by decide)) hx)
  case tRdPoll =>
    dsimp only [phaseEvent, phTRdPoll]
    exact pollOnce_orders (fun _ => orders_inScope .tRdData (scope (by decide)) hpoll)
      ((failAttempt_rests fun e u he => ret_failure_rests cs he).orders s)
      (orders_inScope .tRdWait (scope (by decide)) hpoll)
  case tRdWait =>
    exact orders_inScope (u := s.didDelay _) .tRdPoll (scope (by decide)) hx
  case tRdData =>
    dsimp only [phaseEvent, phTRdData]
    exact (readReg_rests fun v u => rests_updCtx .tNow1).orders s
  case tNow1 =>
    dsimp only [phaseEvent, phTNow1]
    exact (withSensor_rests fun y => ret_temp_rests hcs _).orders s
  case tOpen1 | tOpen2 => exact (rests_fault _).orders s
  all_goals exact absurd hp (by decide)

end

/-! ### The step -/

/-- An operation that calls another. -/
theorem callerStacks_caller {o q : Op} {cs : List Phase} (h : cs ∈ callerStacks o q) (hne : o ≠ q) :
    o ∈ [Op.devOpen, .tsTemp, .tsTempF] ∧ q ∈ [Op.busReset, .busMatch, .tsTemp] := by
  revert h hne; cases o <;> cases q <;> simp [callerStacks]

/-- An operation that makes an event of another than BUS_RESET, BUS_MATCH and TS_TEMP comes to no watched phase. -/
theorem unwatched_of_callers {o : Op} {p q : Phase} {cs cs' : List Phase} (hp : p.isEvent = true)
    (hpo : p.op ∉ [Op.busReset, .busMatch, .tsTemp]) (h : cs ∈ callerStacks o p.op)
    (h' : cs' ∈ callerStacks o q.op) : q.watched = false := by
  have watchedOp : q.watched = true → q.op ∈ [Op.busReset, .busMatch, .tsTemp] := by cases q <;> decide
  have own : p.isEvent = true → p.op ∉ [Op.devOpen, .tsTempF] := by cases p <;> decide
  obtain rfl : o = p.op := by
    by_contra hne
    exact hpo (callerStacks_caller h hne).2
  by_contra hq
  have hqo := watchedOp (by simpa using hq)
  have hcalls := (callerStacks_caller h' fun e => hpo (e ▸ hqo)).1
  have := own hp
  simp_all

/-- The operation that starts is at no watched phase, or BUS_MATCH on its own. -/
theorem issued_ordered (x : Ctx) (o : Op) (a b : BitVec 64) (c : BitVec 32) (k : Config) (sens : List Sensor)
    (evs : List Event) : (x.issued o a b c).Ordered k sens evs := by
  by_cases ho : o = .busMatch
  · subst ho
    refine ⟨nofun, nofun, nofun, fun h => ?_⟩
    obtain ⟨_, ⟨⟩, -, hop⟩ := h.phase
    cases hop
  · refine Ctx.Unwatched.ordered (fun p hp => ?_) ..
    have first : ∀ q ∈ (firstFrames o).head?, q.watched = false := by
      cases o
      case busMatch => exact absurd rfl ho
      all_goals decide
    exact first p hp

/-- A context that knows its sensor record is in order with the records that come after. -/
theorem Ctx.Ordered.mono {k : Config} {sens sens' : List Sensor} {evs : List Event} {x : Ctx}
    (h : x.Ordered k sens evs) (hx : x.Sound k sens.length)
    (hsens : ∀ (i : Nat) y, sens[i]? = some y →
      ∃ z, sens'[i]? = some z ∧ z.addr = y.addr ∧ z.refresh = y.refresh) :
    x.Ordered k sens' evs := by
  refine ⟨h.pulsed, h.resetSeen, h.matchSeen, fun hc y' hy' => ?_⟩
  obtain ⟨p, hp, -, hop⟩ := hc.phase
  match ho : x.op with
  | none => rw [(hx.idle ho).1] at hp; cases hp
  | some o =>
    obtain ⟨q, cs, hq, -, hi⟩ := hx.event ho
    obtain rfl : q = p := by simpa [hq] using hp
    have hlt := hi.sensor ((tempCallers (hop ▸ hi.callers)).imp And.left And.left)
    obtain ⟨z, hz, ha, -⟩ := hsens _ _ (List.getElem?_eq_getElem hlt)
    obtain rfl : z = y' := Option.some.inj (hz.symm.trans hy')
    exact ha ▸ h.scope hc _ (List.getElem?_eq_getElem hlt)

/-- The events of the other contexts are as before. -/
theorem Made.eventsOf {s t : State} {evs : List Event} (h : Made s t evs) {c : Nat} (hc : c ≠ s.cur) :
    t.eventsOf c = s.eventsOf c := by
  have none : (evs.map fun e => (s.cur, e)).reverse.filter (fun e => e.1 == c) = [] := by
    simp [List.filter_eq_nil_iff, hc.symm]
  rw [State.eventsOf, h, List.filter_append, none]
  rfl

/-- An event leaves its context in order. -/
theorem State.Sound.event_orders {s t : State} {x : Ctx} {o : Op} {p : Phase} {cs : List Phase} (hs : s.Sound)
    (hord : s.OrderOk) (hx : s.ctx? = some x) (ho : x.op = some o) (hpc : x.pc = p :: cs)
    (h : phaseEvent p cs x s = .next t) :
    ∃ y, t.ctx? = some y ∧ y.Sound s.cfg s.sens.length ∧ y.Ordered s.cfg s.sens (t.eventsOf s.cur) := by
  have hi := (hs.ctx hx).inFlight ho hpc
  obtain ⟨y, hy, hg⟩ := phaseEvent_goesOn hs.cfg hx h hi
  have hsound : y.Sound s.cfg s.sens.length := hg.elim And.right fun h => h.2.2.2.2.1
  refine ⟨y, hy, hsound, ?_⟩
  by_cases hpo : p.op ∈ [Op.busReset, .busMatch, .tsTemp]
  · exact phaseEvent_orders hx hi hpc ((orderOk_iff s).mp hord _ _ hx) hpo t y h hy
  · refine Ctx.Unwatched.ordered (fun q hq => ?_) ..
    rcases hg with ⟨hn, -⟩ | ⟨ho', -⟩
    · rw [(hsound.idle hn).1] at hq
      cases hq
    · obtain ⟨p', cs', hp', hev, -⟩ := (hs.ctx hx).event ho
      obtain ⟨q', cs'', hq', -, hiy⟩ := hsound.event ho'
      obtain rfl : p = p' := (List.cons.inj (hpc.symm.trans hp')).1
      obtain rfl : q' = q := by simpa [hq'] using hq
      exact unwatched_of_callers hev hpo hi.callers hiy.callers

theorem State.Sound.exec_orders {i : Instr} {s t : State} (hs : s.Sound) (hord : s.OrderOk)
    (h : Machine.exec i s = .next t) : ∃ y, t.ctx? = some y ∧ y.Ordered s.cfg t.sens (t.eventsOf s.cur) := by
  obtain ⟨x, hx, hc⟩ := exec_cases h
  cases hc with
  | issued _ hi =>
    cases hi with
    | starts => exact ⟨_, ctx?_setCtx hx _, issued_ordered ..⟩
    | ends => exact ⟨_, ctx?_settled hx _ _ _ _, (Ctx.unwatched_of_idle rfl).ordered ..⟩
  | word _ _ hw =>
    obtain ⟨e, hy⟩ := writeWord_ctx? hx hw
    exact ⟨_, hy, (Ctx.unwatched_of_idle rfl).ordered ..⟩
  | event ho _ hp hpe =>
    obtain ⟨y, hy, hsound, hyo⟩ := hs.event_orders hord hx ho hp hpe
    exact ⟨y, hy, hyo.mono hsound (exec_kept h).sensors⟩

/-- What changes the current context alone, and leaves it in order, keeps the order of all. -/
theorem State.OrderOk.of_current {s t : State} {evs : List Event} (hs : s.Sound) (hord : s.OrderOk)
    (hd : Does evs s t) (hcur : ∃ y, t.ctx? = some y ∧ y.Ordered s.cfg t.sens (t.eventsOf s.cur)) :
    t.OrderOk := by
  have hk := hd.kept
  rw [orderOk_iff, hk.cfg]
  intro c z hz
  by_cases hc : c = s.cur
  · obtain ⟨y, hy, hyo⟩ := hcur
    subst hc
    obtain rfl : y = z := Option.some.inj (hy.symm.trans ((congrArg (t.ctxs[·]?) hk.cur).trans hz))
    exact hyo
  · rw [hk.others c hc] at hz
    rw [hd.trace.eventsOf hc]
    exact ((orderOk_iff s).mp hord c z hz).mono (hs.ctxs z (List.mem_of_getElem? hz)) hk.sensors

/-- Settles O21: the events of an operation leave its context in order (`phaseEvent_orders`), and what the other
contexts are asked speaks of their own events alone. -/
theorem everyStepKeepsTheOrder : Obligations.EveryStepKeepsTheOrder := by
  intro s t hs hord h
  refine hs.step_keeps (P := State.OrderOk) hord h
    (fun e c q => ⟨hord.pulsed, hord.resetSeen, hord.matchSeen, hord.scope⟩) (fun hu huo hx => ?_)
    fun {u x} f hu huo hx ho => ?_
  · obtain ⟨evs, hd, -⟩ := exec_does hx
    exact huo.of_current hu hd (hu.exec_orders huo hx)
  · have hy := (ctx?_raise u f).trans (congrArg _ hx)
    exact huo.of_current hu (Does.raise u f) ⟨_, hy, (Ctx.unwatched_of_idle rfl).ordered ..⟩

end Sys2Proof.Machine

/-! # Encoding (30_encoding.md): the decoder and the encoder, one access, a command word

A record decodes by its opcode: by the operation of the opcode map, or, if there is none, to the reserved
opcode. A word decodes by its row of the table of the sixteen. The encoder writes what these two read. -/

namespace Sys2Proof

/-! ## Records (rules R100 to R103) -/

theorem reservedOpcode_iff (op : Byte) : reservedOpcode op = true ↔ (6 ≤ op.toNat ∧ op.toNat ≤ 15) ∨
    (21 ≤ op.toNat ∧ op.toNat ≤ 31) ∨ (38 ≤ op.toNat ∧ op.toNat ≤ 47) ∨ 53 ≤ op.toNat := by
  simp [reservedOpcode, or_assoc]

/-- The reserved opcodes are those without an operation (R101, R103). -/
theorem reservedOpcode_eq_isNone : ∀ op : Byte, reservedOpcode op = (Op.ofCode op).isNone := by decide

section
variable {r : BitVec 168}

theorem decode_of_ofCode {o : Op} (h : Op.ofCode (r.extractLsb' 160 8) = some o) : decode (.hostOp r) =
    .instr (o.withFields (r.extractLsb' 96 64) (r.extractLsb' 32 64) (r.extractLsb' 0 32)) := by
  simp [decode, decodeHostOp, Fields.ofRecord, h]

theorem decode_of_reserved (h : reservedOpcode (r.extractLsb' 160 8) = true) :
    decode (.hostOp r) = .reject (.reservedOpcode (r.extractLsb' 160 8)) := by
  have ho : Op.ofCode (r.extractLsb' 160 8) = none :=
    Option.isNone_iff_eq_none.mp (reservedOpcode_eq_isNone _ ▸ h)
  simp [decode, decodeHostOp, Fields.ofRecord, ho]

theorem decode_of_not_reserved (h : reservedOpcode (r.extractLsb' 160 8) = false) :
    ∃ i, decode (.hostOp r) = .instr i := by
  match ho : Op.ofCode (r.extractLsb' 160 8) with
  | some o => exact ⟨_, decode_of_ofCode ho⟩
  | none => simp [reservedOpcode_eq_isNone, ho] at h

/-- A record whose opcode is that of an operation decodes to it, with the operands it takes from the fields. -/
theorem decode_of_code (o : Op) {i : Instr} (hi : o.withFields (r.extractLsb' 96 64) (r.extractLsb' 32 64)
    (r.extractLsb' 0 32) = i) (h : r.extractLsb' 160 8 = o.code) : decode (.hostOp r) = .instr i :=
  hi ▸ decode_of_ofCode (h ▸ Op.ofCode_code o)

/-- The 32-bit value in `b` is its low half (R100). -/
theorem low_half_of_b : (r.extractLsb' 32 64).extractLsb' 0 32 = r.extractLsb' 32 32 := by
  ext i hi
  simp [show i < 64 by omega]

end

/-! ## Command words (rule R108) -/

/-- Each row of the table of command words is one of the sixteen words, decodes to the row's instruction and is
its encoding. -/
theorem cmdTable_rows : ∀ p ∈ cmdTable,
    p.1 ∈ commandWords ∧ decode (.cmdWord p.1) = .instr p.2 ∧ encode p.2 = .cmdWord p.1 := by decide

/-- A word that decodes has a row in the table. -/
theorem mem_cmdTable_of_decode {w : Word} {i : Instr} (h : decode (.cmdWord w) = .instr i) :
    (w, i) ∈ cmdTable := by
  simp only [decode, decodeCmdWord] at h
  split at h
  · cases h
    exact mem_of_lookupWord ‹_›
  · cases h

theorem decode_of_unlisted {w : Word} (h : w ∉ commandWords) :
    decode (.cmdWord w) = .reject (.unlistedWord w) := by
  simp only [decode, decodeCmdWord]
  split
  · exact absurd (cmdTable_rows _ (mem_of_lookupWord ‹_›)).1 h
  · rfl

theorem decode_of_listed {w : Word} (h : w ∈ commandWords) : ∃ i, decode (.cmdWord w) = .instr i := by
  obtain ⟨i, hi⟩ := Option.isSome_iff_exists.mp (List.all_eq_true.mp Machine.commandWords_listed w h)
  exact ⟨i, by simp [decode, decodeCmdWord, hi]⟩

/-! ## What the encoder writes (rules R100, R105, R108) -/

/-- The encoding of a well-formed host operation is the record of an operation and fields, and the operation takes
its operands back from these fields: a number fits the field that carries it, and a 32-bit value is the low half
of `b`. -/
theorem encode_hostOp {i : Instr} (hi : Machine.opOf i ≠ none) (hwf : i.WellFormed) :
    ∃ o a b c, encode i = hostRecord o a b c ∧ o.withFields a b c = i := by
  cases i
  case busReset | busMatch | addrRom | addrFamily | addrSerial | addrCrc | addrEq | devOpen | devClose =>
    exact ⟨_, _, _, _, rfl, rfl⟩
  case busSearch alarm => exact ⟨_, _, _, _, rfl, by cases alarm <;> rfl⟩
  case busRd | devRd | tsTemp | tsTempF | tsGetRes =>
    exact ⟨_, _, _, _, rfl, congrArg _ (Machine.toNat_ofNat_of_fits32 hwf)⟩
  case busWr off v | devWr off v =>
    exact ⟨_, _, _, _, rfl, congrArg₂ _ (Machine.toNat_ofNat_of_fits32 hwf) (inLowHalf_low v)⟩
  case devWcmd v | devWctl v => exact ⟨_, _, _, _, rfl, congrArg _ (inLowHalf_low v)⟩
  case busInit base range =>
    obtain ⟨hb, hr⟩ : fits64 base = true ∧ fits32 range = true := Bool.and_eq_true_iff.mp hwf
    exact ⟨_, _, _, _, rfl,
      congrArg₂ _ (Machine.toNat_ofNat_of_fits64 hb) (Machine.toNat_ofNat_of_fits32 hr)⟩
  case tsCreate rom refresh res =>
    obtain ⟨hf, hr⟩ : fits64 refresh = true ∧ fits32 res = true := Bool.and_eq_true_iff.mp hwf
    exact ⟨_, _, _, _, rfl,
      congrArg₂ (Instr.tsCreate rom) (Machine.toNat_ofNat_of_fits64 hf) (Machine.toNat_ofNat_of_fits32 hr)⟩
  case tsSetRes idx res =>
    obtain ⟨hidx, hr⟩ : fits32 idx = true ∧ fits32 res = true := Bool.and_eq_true_iff.mp hwf
    have hlow : ((inLowHalf (BitVec.ofNat 32 res)).extractLsb' 0 32).toNat = res := by
      rw [inLowHalf_low, Machine.toNat_ofNat_of_fits32 hr]
    exact ⟨_, _, _, _, rfl, congrArg₂ _ (Machine.toNat_ofNat_of_fits32 hidx) hlow⟩
  all_goals exact absurd rfl hi

/-- An instruction that is no host operation is encoded as the word of its row. -/
theorem encode_cmdWord {i : Instr} (hi : Machine.opOf i = none) :
    ∃ w, encode i = .cmdWord w ∧ (w, i) ∈ cmdTable := by
  cases i
  case serialize | resetPulse | execPullup | execNopullup | readTimeSlots | searchRom | readRom | matchRom | skipRom
      | alarmSearch | convertT | writeScratchpad | readScratchpad | copyScratchpad | recallE2 | readPowerSupply =>
    exact ⟨_, rfl, by decide⟩
  all_goals cases hi

/-! ## The obligations of the decoder -/

/-- Settles O1: a record is put together from the operation and the fields the decoder takes it from
(`encode_hostOp`), and a command word is its row's (`cmdTable_rows`). -/
theorem decodeOfEncodeIsTheInstruction : Obligations.DecodeOfEncodeIsTheInstruction := by
  intro i hwf
  by_cases hi : Machine.opOf i = none
  · obtain ⟨w, henc, hw⟩ := encode_cmdWord hi
    obtain ⟨-, hdec, -⟩ := cmdTable_rows _ hw
    rw [henc, hdec]
  · obtain ⟨o, a, b, c, henc, hfields⟩ := encode_hostOp hi hwf
    rw [henc, decode_hostRecord, hfields]

/-- Settles O2: the instruction by `wellFormed_of_decode`; the request because a reserved opcode is rejected, and
because a word that decodes has a row. -/
theorem decodedIsWellFormed : Obligations.DecodedIsWellFormed := by
  intro r i h
  refine ⟨Machine.wellFormed_of_decode h, ?_⟩
  match r with
  | .hostOp r =>
    have hn : ¬ reservedOpcode (r.extractLsb' 160 8) = true := fun hr =>
      nomatch h.symm.trans (decode_of_reserved hr)
    exact ⟨congrArg not (Bool.eq_false_iff.mpr hn), nofun⟩
  | .cmdWord w =>
    obtain ⟨hlisted, -, henc⟩ := cmdTable_rows _ (mem_cmdTable_of_decode h)
    refine ⟨List.contains_iff_mem.mpr hlisted, fun v hv => ?_⟩
    cases hv
    exact henc

/-- Settles O3: the two lists of opcode ranges exclude each other, so the defined ones are not reserved. -/
theorem undefinedRequestsAreRejectedByName : Obligations.UndefinedRequestsAreRejectedByName := by
  refine ⟨fun r => ⟨fun h => decode_of_reserved ((reservedOpcode_iff _).mpr h), fun h => ?_⟩,
    fun w => decode_of_unlisted, fun w => decode_of_listed⟩
  have hn : ¬ reservedOpcode (r.extractLsb' 160 8) = true := by
    rw [reservedOpcode_iff]
    omega
  exact decode_of_not_reserved (Bool.eq_false_iff.mpr hn)

/-- Settles O4: `decode_of_code` for each opcode; the operands are the fields, but for the selector and a 32-bit
value in `b`, which are parts of one. -/
theorem opcodeMap : Obligations.OpcodeMap := by
  intro r op a b v c gives
  have hv : b.extractLsb' 0 32 = v := low_half_of_b
  have hsel : (r.extractLsb' 0 32).getLsbD 0 = r.getLsbD 0 := by simp
  exact ⟨decode_of_code .busInit rfl, decode_of_code .busReset rfl,
    decode_of_code .busSearch (congrArg Instr.busSearch hsel), decode_of_code .busMatch rfl,
    decode_of_code .busRd rfl, decode_of_code .busWr (congrArg (Instr.busWr c) hv),
    decode_of_code .addrRom rfl, decode_of_code .addrFamily rfl, decode_of_code .addrSerial rfl,
    decode_of_code .addrCrc rfl, decode_of_code .addrEq rfl, decode_of_code .devOpen rfl,
    decode_of_code .devClose rfl, decode_of_code .devWcmd (congrArg Instr.devWcmd hv),
    decode_of_code .devWctl (congrArg Instr.devWctl hv), decode_of_code .devWr (congrArg (Instr.devWr c) hv),
    decode_of_code .devRd rfl, decode_of_code .tsCreate rfl, decode_of_code .tsTemp rfl,
    decode_of_code .tsTempF rfl, decode_of_code .tsGetRes rfl,
    decode_of_code .tsSetRes (congrArg (fun u : Word => Instr.tsSetRes c u.toNat) hv)⟩

/-- Settles O5: the decoder, run on the eight literals. -/
theorem writtenOutWordsDecode : Obligations.WrittenOutWordsDecode := by
  unfold Obligations.WrittenOutWordsDecode
  decide

end Sys2Proof

namespace Sys2Proof.Machine

/-! ## One access (rules R119, R170, R171) -/

theorem ghostWrite_eq (s : State) (off : Nat) (inScope : Bool) : s.ghostWrite off inScope = { s with
    busPhase :=
      if (off = s.cfg.offCommand ∨ off = s.cfg.offControl ∨ off = s.cfg.regTrigger) ∧ inScope = false
      then .unknown else s.busPhase } := by
  unfold State.ghostWrite
  split <;> rfl

theorem admitted_iff {s : State} {off : Nat} :
    s.admitted off = true ↔ off % 4 = 0 ∧ off + 4 ≤ s.addrRange := by
  simp [State.admitted, inWindow]

/-- The context after an issue that goes on (`Ctx.issued`), as the beginning of a run. -/
theorem start_eq_during {s : State} {x : Ctx} {o : Op} (hx : s.ctx? = some x) (hd : o ≠ .devOpen) (a b : BitVec 64)
    (c : BitVec 32) : (s.latch a b c).start o (firstFrames o) = s.during (x.issued o a b c) [] s.clock s.env := by
  rw [State.latch, State.start, updCtx_eq_during hx, updCtx_during hx, Ctx.issued, if_neg hd]

/-- An operation whose one event ends it: issue goes on to one frame, whose event may write the ghost and delivers
the result. -/
theorem exec_one_event {i : Instr} {o : Op} {issue : Ctx → State → State} {s : State} {x : Ctx} {a b : BitVec 64}
    {c : BitVec 32} {p : Phase} {ev : Event} {k : Nat} {e : Env} {g : BusPhase} {r : Result} (hs : s.IdleAt x)
    (he : exec i s = operate o issue s) (hi : opOf i = some o) (hd : o ≠ .devOpen) (hf : firstFrames o = [p])
    (hissue : issue x s = (s.latch a b c).start o (firstFrames o))
    (hp : phaseEvent p [] (x.issued o a b c) (s.during (x.issued o a b c) [] s.clock s.env) =
      .next ((State.during { s with busPhase := g } (x.issued o a b c) [ev] k e).deliver r)) :
    ∃ u t, exec i s = .next u ∧ finish i 1 u = .next t ∧
      t = { s.ended t { x with opa := a, opb := b, opc := c } [ev] r with busPhase := g } := by
  obtain ⟨hx, ho⟩ := hs
  have run := (finish_during 0 hx hi rfl hf hp).trans (finish_zero i _)
  rw [← start_eq_during hx hd, ← hissue] at run
  refine ⟨_, _, he.trans (operate_idle hx ho), run, ?_⟩
  rw [deliver_during (s := { s with busPhase := g }) hx, Ctx.issued, if_neg hd]
  rfl

/-- Settles O38: the access of RD_ACC and of WR_ACC, at the offset and with the value that issue has latched. -/
theorem busReadAndWriteRun : Obligations.BusReadAndWriteRun := by
  intro s x off v hs hinit hfits halign hle
  have ha : s.admitted off = true := admitted_iff.mpr ⟨halign, hle⟩
  have hoff : (BitVec.ofNat 32 off).toNat = off := toNat_ofNat_of_fits32 (decide_eq_true hfits)
  refine ⟨exec_one_event (issue := issueBusRd off) (k := s.clock + s.env.afterWord.dt) (e := s.env.afterWord.afterDt)
      (g := s.busPhase) hs rfl rfl (by decide) rfl ((if_pos hinit).trans (if_pos ha)) ?read,
    exec_one_event (issue := issueBusWr off v) (b := inLowHalf v) (k := s.clock + s.env.dt) (e := s.env.afterDt)
      hs rfl rfl (by decide) rfl ((if_pos hinit).trans (if_pos ha)) ?write⟩
  case read =>
    have hc : (x.issued .busRd 0 0 (BitVec.ofNat 32 off)).opc.toNat = off := hoff
    rw [phaseEvent, phRdAcc, hc, readReg_of_admitted _ (by exact ha), State.didRead_during]
    rfl
  case write =>
    have hc : (x.issued .busWr 0 (inLowHalf v) (BitVec.ofNat 32 off)).opc.toNat = off := hoff
    have hv : valueOf (x.issued .busWr 0 (inLowHalf v) (BitVec.ofNat 32 off)).opb = v := inLowHalf_low v
    rw [phaseEvent, phWrAcc, hc, hv, writeReg_of_admitted _ (by exact ha), State.didWrite_during, ghostWrite_eq]
    rfl

/-! ## A command word (rules R108, R109) -/

/-- The one write of a command word, to the trigger register or to COMMAND. -/
theorem writeWord_ended {s : State} {x : Ctx} {off : Nat} (hs : s.IdleAt x) (hinit : s.initialized = true)
    (ha : s.admitted off = true) (hoff : off = s.cfg.offCommand ∨ off = s.cfg.regTrigger) (w : Word) :
    ∃ t, writeWord off w s = .next t ∧
      t = { s.ended t x [.write off w] ⟨true, 0, .none, none⟩ with
        busPhase := if x.devOpen then s.busPhase else .unknown } := by
  obtain ⟨hx, ho⟩ := hs
  refine ⟨((s.didWrite off w).ghostWrite off x.devOpen).deliver (.success .none), ?_, ?_⟩
  · simp [writeWord, hx, ho, hinit, ha]
  · have hg : (if (off = s.cfg.offCommand ∨ off = s.cfg.offControl ∨ off = s.cfg.regTrigger) ∧ x.devOpen = false
        then BusPhase.unknown else s.busPhase) = if x.devOpen then s.busPhase else .unknown := by
      have : off = s.cfg.offCommand ∨ off = s.cfg.offControl ∨ off = s.cfg.regTrigger := hoff.imp_right .inr
      cases x.devOpen <;> simp [this]
    rw [deliver_eq_answered (by simpa using hx), ghostWrite_eq, ← hg]
    rfl

/-- Settles O59: each of the sixteen is `writeWord` at a register of the fixed map. -/
theorem commandWordsAreWritten : Obligations.CommandWordsAreWritten := by
  intro s x hs hinit hk hf writes
  have trigger := writeWord_ended hs hinit (admitted_of_fixed hf (regTrigger_mem hk)) (.inr rfl)
  have command := writeWord_ended hs hinit (admitted_of_fixed hf (by simp [Config.fixedOffsets])) (.inl rfl)
  exact ⟨⟨trigger _, trigger _, trigger _, trigger _⟩,
    ⟨command _, command _, command _, command _, command _, command _⟩,
    ⟨command _, command _, command _, command _, command _, command _⟩⟩

end Sys2Proof.Machine

/-! # The Bus Protocol Engine (40_bus_engine.md)

A state is its own beginning of a run (`eq_during`), so that one event of an operation in flight is stated as a run
is: in states `during` it. -/

namespace Sys2Proof.Machine

/-! ## One event of an operation in flight -/

theorem eq_during {s : State} {x : Ctx} (hx : s.ctx? = some x) : s = s.during x [] s.clock s.env :=
  updCtx_eq_during hx id ▸ by simp [State.updCtx]

/-- An issue that goes on, as the beginning of a run (R51). -/
theorem exec_starts {i : Instr} {o : Op} {issue : Ctx → State → State} {s : State} {x : Ctx} {a b : BitVec 64}
    {c : BitVec 32} (hs : s.IdleAt x) (he : exec i s = operate o issue s) (hd : o ≠ .devOpen)
    (h : issue x s = (s.latch a b c).start o (firstFrames o)) :
    exec i s = .next (s.during (x.issued o a b c) [] s.clock s.env) := by
  rw [he, operate_idle hs.1 hs.2, h, start_eq_during hs.1 hd]

theorem polled_eq_during {s : State} {x : Ctx} (hx : s.ctx? = some x) : polled x s =
    s.during { x with tStatus := s.env.word, pollCnt := x.pollCnt + 1 } [.read s.cfg.offStatus s.env.word]
      (s.clock + s.env.afterWord.dt) s.env.afterWord.afterDt :=
  updCtx_eq_during (s := s.didRead s.cfg.offStatus) hx _

/-- The end of an operation that was not called (R51). -/
theorem ret_nil_during {s : State} {x : Ctx} (hx : s.ctx? = some x) (y : Ctx) (evs : List Event) (c : Nat) (e : Env)
    (r : Result) : ret [] r (s.during y evs c e) =
      .next { s.during { y with op := none, pc := [], lastErr := r.err } evs c e with
        outbox := (s.cur, r) :: s.outbox } :=
  congrArg _ (deliver_during hx y evs c e r)

theorem flagSet_of_ne {v m : Word} (h : v &&& m ≠ 0) : flagSet v m = true := decide_eq_true h

theorem not_flagSet_of_eq {v m : Word} (h : v &&& m = 0) : ¬ flagSet v m = true :=
  fun hf => of_decide_eq_true hf h

/-! ## BUS_INIT (rules R150 to R152) -/

theorem foldl_max_le_iff {l : List Nat} {a b : Nat} : l.foldl max a ≤ b ↔ a ≤ b ∧ ∀ o ∈ l, o ≤ b := by
  induction l generalizing a with
  | nil => simp
  | cons c l ih => simp [ih, and_assoc]

/-- A window is valid when it is a multiple of 4 and holds every fixed register (R151). -/
theorem validWindow_iff {k : Config} {range : Nat} : validWindow k range = true ↔
    range % 4 = 0 ∧ ∀ o ∈ k.fixedOffsets, o + 4 ≤ range := by
  have fits : k.maxFixedOffset + 4 ≤ range ↔ ∀ o ∈ k.fixedOffsets, o + 4 ≤ range := by
    constructor
    · intro h o ho
      have := (foldl_max_le_iff.mp (le_refl k.maxFixedOffset)).2 o ho
      omega
    · intro h
      have h4 := h k.offControl (by simp [Config.fixedOffsets])
      have : k.maxFixedOffset ≤ range - 4 :=
        foldl_max_le_iff.mpr ⟨Nat.zero_le _, fun o ho => Nat.le_sub_of_add_le (h o ho)⟩
      omega
  rw [validWindow, Bool.and_eq_true, decide_eq_true_eq, decide_eq_true_eq, fits]

theorem clkInTolerance_iff {k : Config} {f : Nat} : clkInTolerance k f = true ↔
    k.plClkTarget ≤ f + k.plClkTol ∧ f ≤ k.plClkTarget + k.plClkTol := by
  rw [clkInTolerance, decide_eq_true_eq]
  omega

theorem didClkGet_during (s : State) (y : Ctx) (evs : List Event) (c : Nat) (e : Env) :
    (s.during y evs c e).didClkGet =
      State.during { s with plClk := e.clk } y (evs ++ [.clkGet e.clk]) (c + e.afterClk.dt) e.afterClk.afterDt := by
  simp [State.during, State.didClkGet, State.log, State.tick]

theorem didClkSet_during (f : Nat) (s : State) (y : Ctx) (evs : List Event) (c : Nat) (e : Env) :
    (s.during y evs c e).didClkSet f =
      State.during { s with plClk := f } y (evs ++ [.clkSet f]) (c + e.dt) e.afterDt := by
  simp [State.during, State.didClkSet, State.log, State.tick]

theorem construct_during {s : State} (hn : s.initialized = false) (z y : Ctx) (evs : List Event) (c : Nat) (e : Env) :
    (s.during y evs c e).construct z = (s.construct z).during y evs c e := by
  rw [construct_of_not_initialized z hn, construct_of_not_initialized z (by exact hn)]
  rfl

/-- Settles O34: the window is tested at issue, after the operands have been latched. -/
theorem invalidWindowIsRefused : Obligations.InvalidWindowIsRefused := by
  intro s x base range hs hinit hbad
  have hw : ¬ validWindow s.cfg range = true := fun h => hbad (validWindow_iff.mp h)
  have hn : ¬ s.initialized = true := by simp [hinit]
  exact answersAtIssue_of_latch_raise (issue := issueBusInit base range) hs rfl ((if_neg hn).trans (if_neg hw))

section
variable {s : State} {x y z : Ctx} {cs : List Phase} {evs : List Event} {c : Nat} {e : Env} (hx : s.ctx? = some x)
include hx

omit hx in
theorem iClkget_inTolerance (h : clkInTolerance s.cfg e.clk = true) :
    phaseEvent .iClkget cs z (s.during y evs c e) = ret cs (.success .none) (State.construct z
      (State.during { s with plClk := e.clk } y (evs ++ [.clkGet e.clk]) (c + e.afterClk.dt) e.afterClk.afterDt)) :=
  didClkGet_during s y evs c e ▸ if_pos h

theorem iClkget_outside (h : ¬ clkInTolerance s.cfg e.clk = true) :
    phaseEvent .iClkget cs z (s.during y evs c e) = .next (State.during { s with plClk := e.clk }
      { y with pc := .iClkset :: cs } (evs ++ [.clkGet e.clk]) (c + e.afterClk.dt) e.afterClk.afterDt) := by
  rw [← goto_during (s := { s with plClk := e.clk }) hx, ← didClkGet_during]
  exact if_neg h

omit hx in
theorem iClkset_event :
    phaseEvent .iClkset cs z (s.during y evs c e) = ret cs (.success .none) (State.construct z
      (State.during { s with plClk := s.cfg.plClkTarget } y (evs ++ [.clkSet s.cfg.plClkTarget]) (c + e.dt)
        e.afterDt)) :=
  didClkSet_during s.cfg.plClkTarget s y evs c e ▸ rfl

/-- The last event of the BUS_INIT that constructs (R150). -/
theorem ret_construct_first (hn : s.initialized = false) :
    ret [] (.success .none) ((s.during y evs c e).construct z) =
      .next { (s.construct z).during { y with op := none, pc := [], lastErr := 0 } evs c e with
        outbox := (s.cur, .success .none) :: s.outbox } := by
  rw [construct_during hn, ret_nil_during (s := s.construct z) (by simpa using hx)]
  simp [Result.success, Err.code]

/-- The last event of a BUS_INIT that comes second (R150, corner case (b)). -/
theorem ret_construct_second (hi : s.initialized = true) :
    ret [] (.success .none) ((s.during y evs c e).construct z) =
      .next { s.during { y with op := none, pc := [], lastErr := 0 } evs c e with
        outbox := (s.cur, .success .none) :: s.outbox } := by
  rw [construct_of_initialized z (by exact hi), ret_nil_during hx]
  rfl

end

/-- Settles O32: issue goes on to I_CLKGET, which constructs within the tolerance and otherwise goes on to I_CLKSET,
which constructs. -/
theorem busInitConstructs : Obligations.BusInitConstructs := by
  intro s x base range hs hinit hbase hrange halign hfits f leftAlone events after
  have hx := hs.1
  have hw : validWindow s.cfg range = true := validWindow_iff.mpr ⟨halign, hfits⟩
  have hn : ¬ s.initialized = true := by simp [hinit]
  obtain ⟨y, hy⟩ : ∃ y, y = x.issued .busInit (BitVec.ofNat 64 base) 0 (BitVec.ofNat 32 range) := ⟨_, rfl⟩
  have hyo : y.op = some .busInit := hy ▸ rfl
  have hyp : y.pc = [.iClkget] := hy ▸ rfl
  have hbase : y.opa.toNat = base := hy ▸ toNat_ofNat_of_fits64 (decide_eq_true hbase)
  have hrange : y.opc.toNat = range := hy ▸ toNat_ofNat_of_fits32 (decide_eq_true hrange)
  have issue : exec (.busInit base range) s = .next (s.during y [] s.clock s.env) :=
    hy ▸ exec_starts (issue := issueBusInit base range) hs rfl (by decide) ((if_neg hn).trans (if_pos hw))
  refine ⟨fun hnear => ⟨_, ?t1, issue, ?run1, ?eq1⟩, fun hfar => ⟨_, ?t2, issue, ?run2, ?eq2⟩⟩
  case run1 =>
    refine finish_during 0 hx rfl hyo hyp ?_
    rw [iClkget_inTolerance (clkInTolerance_iff.mpr hnear)]
    exact ret_construct_first (s := { s with plClk := f }) hx hinit
  case eq1 =>
    rw [construct_of_not_initialized y (by exact hinit), hbase, hrange, hy]
    rfl
  case run2 =>
    refine (finish_during 1 hx rfl hyo hyp (iClkget_outside hx (mt clkInTolerance_iff.mp hfar))).trans ?_
    refine finish_during (s := { s with plClk := f }) 0 hx rfl hyo rfl ?_
    rw [iClkset_event]
    exact ret_construct_first (s := { s with plClk := s.cfg.plClkTarget }) hx hinit
  case eq2 =>
    rw [construct_of_not_initialized _ (by exact hinit), hbase, hrange, hy]
    rfl

/-- Settles O33: once constructed, issue ends a BUS_INIT, and `construct` changes nothing in the last event of one. -/
theorem busInitAgainChangesNothing : Obligations.BusInitAgainChangesNothing := by
  refine ⟨fun s x base range hs hinit => ⟨x.opa, x.opb, x.opc, ?issue⟩, fun s x base range hx ho hp hinit => ?set,
    fun s x base range hx ho hp hinit hlow hhigh => ?get⟩
  case issue =>
    obtain ⟨hx, ho⟩ := hs
    exact (operate_idle hx ho).trans (congrArg _ ((if_pos hinit).trans (deliver_eq_answered hx _)))
  case set =>
    have run := exec_event (i := .busInit base range) hx ho rfl hp
    rw [congrArg (phaseEvent .iClkset [] x) (eq_during hx), iClkset_event,
      ret_construct_second (s := { s with plClk := s.cfg.plClkTarget }) hx hinit] at run
    exact ⟨_, run, rfl⟩
  case get =>
    have run := exec_event (i := .busInit base range) hx ho rfl hp
    rw [congrArg (phaseEvent .iClkget [] x) (eq_during hx),
      iClkget_inTolerance (clkInTolerance_iff.mpr ⟨hlow, hhigh⟩),
      ret_construct_second (s := { s with plClk := s.env.clk }) hx hinit] at run
    exact ⟨_, run, rfl⟩

/-! ## BUS_RESET (rules R153 to R155) -/

/-- Settles O36: a reset (`finish_reset`) without callers, which returns to the host. -/
theorem busResetRuns : Obligations.BusResetRuns := by
  intro s x vs rest seen hs hinit hf he hv events
  have issue := exec_starts (issue := issueBusReset) (i := .busReset) hs rfl (by decide) (if_pos hinit)
  obtain ⟨c, e, hrest, run⟩ := finish_reset (i := .busReset) (y := x.issued .busReset 0 0 0) hs.1 rfl rfl hf []
    hv [] s.clock s.env he
  have done := run 0 _ (ret_nil_during (s := { s with busPhase := if seen then .resetDone else .unknown }) hs.1 ..)
  exact ⟨_, _, issue, done, hrest, by cases seen <;> rfl⟩

/-! ## BUS_MATCH (rules R166 to R169) -/

/-- The ghost after a match that has seen write-done: a match counts only after a reset (R168). -/
theorem afterMatch_atMatch (rom : RomCode) (g : BusPhase) :
    g.atMatch.afterMatch rom = if g = .resetDone then .matched rom else .unknown := by
  cases g <;> rfl

/-- Settles O37: a match (`finish_match`) without callers, which returns to the host. -/
theorem busMatchRuns : Obligations.BusMatchRuns := by
  intro s x rom ws rest done hs hinit hk hf he hw events
  have issue := exec_starts (issue := issueBusMatch rom) (i := .busMatch rom) hs rfl (by decide) (if_pos hinit)
  obtain ⟨c, e, hrest, run⟩ := finish_match (i := .busMatch rom) (rom := rom) (y := x.issued .busMatch rom 0 0) hs.1
    rfl rfl hf [] hk (.inl ⟨.inl rfl, rfl⟩) hw [] s.clock s.env he
  rw [afterMatch_atMatch] at run
  have ends := run 0 _ (ret_nil_during (s := { s with
    busPhase := if done then if s.busPhase = .resetDone then .matched rom else .unknown else .unknown }) hs.1 ..)
  refine ⟨_, _, issue, ends, hrest, ?_⟩
  cases done
  · rfl
  · simp only [true_and]
    rfl

/-! ## BUS_SEARCH (rules R156 to R165) -/

theorem searchFail_during {s : State} {x : Ctx} (hx : s.ctx? = some x) (y : Ctx) (evs : List Event) (c : Nat) (e : Env)
    (f : Err) : searchFail [] f (s.during y evs c e) =
      .next { s.during { y with op := none, pc := [], lastErr := f.code } evs c e with
        lock := if s.cfg.lockReleaseOnAbort then false else s.lock
        outbox := (s.cur, .failure f (.roms [])) :: s.outbox } :=
  ret_nil_during (s := s.releaseOnAbort) hx y evs c e _

theorem searchWindow_during {s : State} {x : Ctx} (hx : s.ctx? = some x) (y : Ctx) (evs : List Event) (c : Nat)
    (e : Env) (off : Nat) : searchWindow off (s.during y evs c e) =
      .next { s.during { y with op := none, pc := [], lastErr := 0xF2 } evs c e with
        lock := if s.cfg.lockReleaseOnAbort then false else s.lock
        outbox := (s.cur, .ofFault (.window off)) :: s.outbox } :=
  ret_nil_during (s := s.releaseOnAbort) hx y evs c e (.ofFault (.window off))

/-- An admitted read of a search in flight, as the beginning of a run. -/
theorem searchRead_during {off : Nat} {s : State} {x : Ctx} (hx : s.ctx? = some x) (k : Word → State → Out)
    (ha : s.admitted off = true) : searchRead off s k = k s.env.word (s.during x [.read off s.env.word]
      (s.clock + s.env.afterWord.dt) s.env.afterWord.afterDt) := by
  rw [searchRead_of_admitted k ha, congrArg (State.didRead off) (eq_during hx), State.didRead_during]
  rfl

/-- Settles O41: the read of S_POLL, and the branch that `searchPoll` picks by the answer. -/
theorem searchPollPriority : Obligations.SearchPollPriority := by
  intro s x alarm hx ho hp halign hle v y event fails goesTo
  have run := exec_event (i := .busSearch alarm) hx ho rfl hp
  rw [phaseEvent, phSPoll, searchRead_during hx _ (admitted_iff.mpr ⟨halign, hle⟩)] at run
  simp only [updCtx_during hx, goto_during hx, searchFail_during hx, State.during_cfg] at run
  refine ⟨fun ser => ?_, fun ser sme => ?_, fun ser sme srd => ?_, fun ser sme srd => ?_⟩
  · have hpoll : searchPoll s.cfg s.env.word = .protocolError := if_pos (flagSet_of_ne ser)
    simp only [hpoll] at run
    exact ⟨_, run, rfl⟩
  · have hpoll : searchPoll s.cfg s.env.word = .memoryError :=
      (if_neg (not_flagSet_of_eq ser)).trans (if_pos (flagSet_of_ne sme))
    simp only [hpoll] at run
    exact ⟨_, run, rfl⟩
  · have hpoll : searchPoll s.cfg s.env.word = .done :=
      (if_neg (not_flagSet_of_eq ser)).trans ((if_neg (not_flagSet_of_eq sme)).trans (if_pos (flagSet_of_ne srd)))
    simp only [hpoll] at run
    exact ⟨_, run, rfl⟩
  · have hpoll : searchPoll s.cfg s.env.word = .pending :=
      (if_neg (not_flagSet_of_eq ser)).trans
        ((if_neg (not_flagSet_of_eq sme)).trans (if_neg (not_flagSet_of_eq srd)))
    simp only [hpoll] at run
    exact ⟨fun bound => ⟨_, run.trans (if_pos bound), rfl⟩, fun bound => ⟨_, run.trans (if_neg bound), rfl⟩⟩

/-- A harvest that comes to an entry whose low half is outside the window (R162). -/
theorem harvest_outside_during {cs : List Phase} {i found : Nat} {s : State} (hi : i < found)
    (ha : s.admitted (romIdLo s.cfg i) = false) (y : Ctx) (evs : List Event) (c : Nat) (e : Env) :
    harvest cs i found (s.during y evs c e) = searchWindow (romIdLo s.cfg i) (s.during y evs c e) := by
  simp [harvest, hi, ha]

theorem insertIfNew_eq (s : State) (r : RomCode) : s.insertIfNew r = { s with
    tab := if r ∈ s.tab then s.tab else s.tab ++ [r]
    cap := if r ∉ s.tab ∧ s.tab.length = s.cap then 2 * s.cap else s.cap } := by
  by_cases h : r ∈ s.tab
  · simp [insertIfNew_of_mem, h]
  · simp [insertIfNew_of_new, h]

/-- Settles O42: each of the three phases comes to `searchWindow` after its read. -/
theorem harvestStopsAtTheWindow : Obligations.HarvestStopsAtTheWindow := by
  intro s x alarm hx ho v released
  refine ⟨fun rom hp hrom hhi hlt hlo => ?high, fun hp ha hv hlo => ?found, fun hp hlo hhi => ?low⟩
  case high =>
    have run := exec_event (i := .busSearch alarm) hx ho rfl hp
    rw [phaseEvent, phSHi, searchRead_during hx _ hhi] at run
    simp only [insertIfNew_during] at run
    rw [show romOfHalves s.env.word x.tLo = rom from hrom.symm, insertIfNew_eq, updCtx_during (by exact hx),
      harvest_outside_during hlt (by exact hlo), searchWindow_during (by exact hx)] at run
    exact ⟨_, run, rfl⟩
  case found =>
    have hpos : 0 < s.env.word.toNat := Nat.pos_of_ne_zero fun h => hv (BitVec.eq_of_toNat_eq h)
    have run := exec_event (i := .busSearch alarm) hx ho rfl hp
    rw [phaseEvent, phSFound, searchRead_during hx _ ha, updCtx_during hx, harvest_outside_during hpos hlo,
      searchWindow_during hx] at run
    exact ⟨_, run, rfl⟩
  case low =>
    have run := exec_event (i := .busSearch alarm) hx ho rfl hp
    rw [phaseEvent, phSLo, searchRead_during hx _ hlo] at run
    simp only [updCtx_during hx] at run
    rw [if_neg (by exact ne_true_of_eq_false hhi), searchWindow_during hx] at run
    exact ⟨_, run, rfl⟩

/-! ## Discovery (rules R163, R164) -/

theorem insertAll_of_subset {s : State} {roms : List RomCode} (h : roms ⊆ s.tab) : s.insertAll roms = s := by
  induction roms with
  | nil => rfl
  | cons r rs ih =>
    obtain ⟨hr, hrs⟩ := List.cons_subset.mp h
    rw [insertAll_cons, insertIfNew_of_mem hr, ih hrs]

theorem insertAll_extends (roms : List RomCode) (s : State) : ∃ new, (s.insertAll roms).tab = s.tab ++ new := by
  induction roms generalizing s with
  | nil => exact ⟨[], (List.append_nil _).symm⟩
  | cons r rs ih =>
    obtain ⟨new, hnew⟩ := ih (s.insertIfNew r)
    rw [insertAll_cons, hnew, insertIfNew_tab]
    split
    · exact ⟨new, rfl⟩
    · exact ⟨r :: new, List.append_cons .. |>.symm⟩

theorem nodup_insertAll (roms : List RomCode) {s : State} (h : s.tab.Nodup) : (s.insertAll roms).tab.Nodup := by
  induction roms generalizing s with
  | nil => exact h
  | cons r rs ih =>
    refine ih ?_
    rw [insertIfNew_tab]
    split
    · exact h
    · exact List.concat_eq_append ▸ h.concat ‹_›

theorem mem_insertAll {roms : List RomCode} {s : State} {rom : RomCode} :
    rom ∈ (s.insertAll roms).tab ↔ rom ∈ s.tab ∨ rom ∈ roms := by
  induction roms generalizing s with
  | nil => simp
  | cons r rs ih =>
    rw [insertAll_cons, ih, insertIfNew_tab, List.mem_cons, ← or_assoc]
    refine or_congr_left ?_
    split
    · exact (or_iff_left_of_imp fun h => h ▸ ‹_›).symm
    · rw [List.mem_append, List.mem_singleton]

/-- Settles O44: after a harvest every code of it is in the table (`mem_insertAll`), so that a second one finds
nothing new. -/
theorem discoveryIsIdempotent : Obligations.DiscoveryIsIdempotent := fun s roms =>
  ⟨insertAll_of_subset fun _ h => mem_insertAll.mpr (.inr h), insertAll_eq roms s,
    insertAll_extends roms s, nodup_insertAll roms, fun _ => mem_insertAll⟩

end Sys2Proof.Machine

/-! # The Temperature Sensor Driver (43_temp_sensor.md): a failed attempt -/

namespace Sys2Proof.Machine

/-- The operation of a temperature read and the callers of its own frame (R222, R242). -/
def TempFrame (o : Op) (callers : List Phase) : Prop :=
  (o = .tsTemp ∧ callers = []) ∨ (o = .tsTempF ∧ callers = [.fCall])

/-- A temperature read hands its failure on to the host, in Fahrenheit too (R242). -/
theorem TempFrame.ret_failure {o : Op} {callers : List Phase} (h : TempFrame o callers) (f : Err) (s : State) :
    ret callers (.failure f .none) s = .next (s.deliver (.failure f .none)) := by
  rcases h with ⟨-, rfl⟩ | ⟨-, rfl⟩ <;> rfl

theorem setFsm_eq {s : State} {x : Ctx} {w : Sensor} (hw : s.sens[x.opc.toNat]? = some w) (f : Fsm) :
    s.setFsm x f = { s with sens := s.sens.set x.opc.toNat { w with fsm := f } } := by
  simp [State.setFsm, State.updSensor, List.modify_eq_set_getElem?, hw]

section
variable {s : State} {x y : Ctx} {callers : List Phase} {evs : List Event} {c : Nat} {e : Env} (hx : s.ctx? = some x)
include hx

/-- An attempt that fails is followed by the next one (R231). -/
theorem failAttempt_retries (hr : y.retryCnt ≠ s.cfg.scratchRetryMax) (g : Result → State → Out) :
    failAttempt callers (s.during y evs c e) g = .next (s.during { y with
      devOpen := false, retryCnt := y.retryCnt + 1, pc := .rstCmd :: .oReset :: .tOpen2 :: callers } evs c e) := by
  simp only [failAttempt, withCtx, ctx?_during hx, State.during_cfg, if_neg hr, updCtx_during hx, callOpen_during hx]

/-- The last attempt that is allowed ends the read (R231, R241). -/
theorem failAttempt_ends {o : Op} {w : Sensor} (hc : TempFrame o callers) (hr : y.retryCnt = s.cfg.scratchRetryMax)
    (hw : s.sens[y.opc.toNat]? = some w) :
    failAttempt callers (s.during y evs c e) (fun r u => ret callers r u) =
      .next { s.during { y with devOpen := false, op := none, pc := [], lastErr := 6 } evs c e with
        sens := s.sens.set y.opc.toNat { w with fsm := .idle }
        outbox := (s.cur, .failure .scratchRead .none) :: s.outbox } := by
  have hexit : (s.during y evs c e).exitTemp y = State.during
      { s with sens := s.sens.set y.opc.toNat { w with fsm := .idle } } { y with devOpen := false } evs c e := by
    rw [State.exitTemp, closeScope_during hx, setFsm_eq (by exact hw)]
    rfl
  rw [failAttempt, withCtx, ctx?_during hx]
  simp only [State.during_cfg, if_pos hr, hexit]
  rw [hc.ret_failure, deliver_during (by exact hx)]
  rfl

end

/-- An open that fails in its reset or in its match fails the attempt it was called by (R231). -/
theorem ret_openFailure {p : Phase} (callers : List Phase) (hp : p = .oReset ∨ p = .oMatch) (f : Err) (s : State) :
    ret (p :: .tOpen2 :: callers) (.failure f .none) s = failAttempt callers s fun r u => ret callers r u := by
  rcases hp with rfl | rfl <;> rfl

/-- A visit of a poll phase that finds the flag clear and is the last the bound allows. -/
theorem pollOnce_exhausted {mask : Word} {bound : Nat} {wait : List Phase} {s : State} {x : Ctx} {d e : State → Out}
    (hx : s.ctx? = some x) (ha : s.admitted s.cfg.offStatus = true) (hflag : s.env.word &&& mask = 0)
    (hcnt : x.pollCnt + 1 = bound) : pollOnce mask bound wait x s d e =
      e (s.during { x with tStatus := s.env.word, pollCnt := x.pollCnt + 1 } [.read s.cfg.offStatus s.env.word]
        (s.clock + s.env.afterWord.dt) s.env.afterWord.afterDt) := by
  rw [pollOnce_of_admitted ha, polled_eq_during hx]
  exact (if_neg (not_flagSet_of_eq hflag)).trans (if_pos hcnt)

/-- Settles O56: each of the three failures is the last visit of a poll phase and comes to `failAttempt`, the one in
the match with the ghost unknown. -/
theorem failedAttemptIsRetried : Obligations.FailedAttemptIsRetried := by
  intro s x w i callers hx hop hw halign hle v inMatch hfail z event
  obtain ⟨o, ho, hi, hc⟩ : ∃ o, x.op = some o ∧ opOf i = some o ∧ TempFrame o callers := by
    rcases hop with ⟨rfl, ho, hc⟩ | ⟨rfl, ho, hc⟩
    · exact ⟨_, ho, rfl, .inl ⟨rfl, hc⟩⟩
    · exact ⟨_, ho, rfl, .inr ⟨rfl, hc⟩⟩
  have ha : s.admitted s.cfg.offStatus = true := admitted_iff.mpr ⟨halign, hle⟩
  have notInMatch {p : Phase} {cs : List Phase} (hp : x.pc = p :: cs) (hne : p ≠ .mPoll) : ¬ inMatch := fun hm =>
    hne (List.head_eq_of_cons_eq (hp.symm.trans hm))
  obtain ⟨ghost, d, hm, hn, fails⟩ : ∃ (ghost : BusPhase) (d : Bool), (inMatch → ghost = .unknown) ∧
      (¬ inMatch → ghost = s.busPhase) ∧ exec i s = failAttempt callers (State.during { s with busPhase := ghost }
        { x with tStatus := v, pollCnt := x.pollCnt + 1, devOpen := d } event (s.clock + s.env.afterWord.dt)
        s.env.afterWord.afterDt) fun r u => ret callers r u := by
    rcases hfail with ⟨hp, hflag, hcnt⟩ | ⟨hp, hflag, hcnt⟩ | ⟨hp, hflag, hcnt⟩
    · have run := exec_event hx ho hi hp
      rw [phaseEvent, phTRdPoll, pollOnce_exhausted hx ha hflag hcnt, closeScope_during hx] at run
      exact ⟨s.busPhase, false, fun hm => absurd hm (notInMatch hp (by decide)), fun _ => rfl, run⟩
    · have run := exec_event hx ho hi hp
      rw [phaseEvent, phRstPoll, pollOnce_exhausted hx ha hflag hcnt, ret_openFailure callers (.inl rfl)] at run
      exact ⟨s.busPhase, x.devOpen, fun hm => absurd hm (notInMatch hp (by decide)), fun _ => rfl, run⟩
    · have run := exec_event hx ho hi hp
      have hrom : romInFlight x s w.addr := .inr ⟨hc.imp (fun h => ho.trans (congrArg _ h.1))
        (fun h => ho.trans (congrArg _ h.1)), w, hw, rfl⟩
      rw [phaseEvent, phMPoll, congrArg (withRom x) (eq_during hx), withRom_during hrom,
        pollOnce_exhausted hx ha hflag hcnt, ret_openFailure callers (.inr rfl)] at run
      exact ⟨.unknown, x.devOpen, fun _ => rfl, fun hm => absurd hp hm, run⟩
  exact ⟨ghost, hm, hn,
    fun hr => ⟨_, fails.trans (failAttempt_retries (by exact hx) (by exact hr) _), rfl⟩,
    fun hr => ⟨_, fails.trans (failAttempt_ends (by exact hx) hc (by exact hr) (by exact hw)), rfl⟩⟩

end Sys2Proof.Machine


/-! # The Address Matcher (41_address.md)

Each operation is its issue, which delivers a result and does nothing else. -/

namespace Sys2Proof.Machine

/-- An operation whose issue only delivers a result. -/
theorem answersAtIssue_of_deliver {i : Instr} {o : Op} {s : State} {x : Ctx} {r : Result} (hs : s.IdleAt x)
    (he : exec i s = operate o (fun _ t => t.deliver r) s) : AnswersAtIssue i s x r :=
  ⟨x.opa, x.opb, x.opc, by rw [he, operate_idle hs.1 hs.2, deliver_eq_answered hs.1]⟩

/-- Inserting leaves the table as it is only if the code is in it: a new one makes it longer (R163). -/
theorem insertIfNew_eq_self_iff {s : State} {r : RomCode} : s.insertIfNew r = s ↔ r ∈ s.tab := by
  refine ⟨fun h => ?_, insertIfNew_of_mem⟩
  by_contra hr
  have longer : s.tab ++ [r] = s.tab := by simpa only [insertIfNew_tab, if_neg hr] using congrArg State.tab h
  exact List.cons_ne_nil r [] (List.append_right_eq_self.mp longer)

/-- Settles O29: each accessor's issue delivers its field, and its opcode is its own in the opcode map. -/
theorem addressAccessors : Obligations.AddressAccessors :=
  ⟨fun _ _ _ hs => ⟨answersAtIssue_of_deliver hs rfl, answersAtIssue_of_deliver hs rfl,
      answersAtIssue_of_deliver hs rfl, answersAtIssue_of_deliver hs rfl⟩,
    fun _ => ⟨decode_of_code .addrRom rfl, decode_of_code .addrFamily rfl, decode_of_code .addrSerial rfl,
      decode_of_code .addrCrc rfl⟩⟩

/-- Settles O30: issue delivers the comparison; a harvest deduplicates by membership (`insertIfNew_eq_self_iff`). -/
theorem addressEquality : Obligations.AddressEquality :=
  ⟨fun _ _ _ _ hs => answersAtIssue_of_deliver hs rfl,
    fun _ => decode_of_code .addrEq rfl, fun _ _ => insertIfNew_eq_self_iff⟩

/-- A field of a ROM code, zero-extended and moved back to its place: the bits of the code there, 0 elsewhere. -/
theorem getLsbD_field_inPlace (r : RomCode) (start len : Nat) {i : Nat} (hi : i < 64) :
    ((r.extractLsb' start len).zeroExtend 64 <<< start).getLsbD i =
      (decide (start ≤ i ∧ i < start + len) && r.getLsbD i) := by
  by_cases hs : start ≤ i
  · simp [hi, hs, show ¬ i < start by omega, show start + (i - start) = i by omega,
      show i - start < len ↔ i < start + len by omega]
  · simp [hs, show i < start by omega]

/-- Settles O31: each bit of the code is in the place of one field, the family's by no shift. -/
theorem romFieldsReassemble : Obligations.RomFieldsReassemble := by
  intro r
  refine BitVec.eq_of_getLsbD_eq fun i hi => ?_
  have crc := getLsbD_field_inPlace r 56 8 hi
  have serial := getLsbD_field_inPlace r 8 48 hi
  have family := getLsbD_field_inPlace r 0 8 hi
  have covered : (56 ≤ i ∧ i < 56 + 8 ∨ 8 ≤ i ∧ i < 8 + 48) ∨ 0 ≤ i ∧ i < 0 + 8 := by omega
  rw [BitVec.shiftLeft_zero] at family
  rw [romCrc, romSerial, romFamily, BitVec.getLsbD_or, BitVec.getLsbD_or, crc, serial, family,
    ← Bool.and_or_distrib_right, ← Bool.and_or_distrib_right, ← Bool.decide_or, ← Bool.decide_or,
    decide_eq_true covered, Bool.true_and]

end Sys2Proof.Machine

/-! # The Device Handle (42_device_handle.md)

DEV_OPEN is the run of a reset and, if that succeeds, of a match; a passthrough is one access in a scope. -/

namespace Sys2Proof.Machine

/-! ## The scope (rules R201 to R203) -/

/-- The issue of DEV_OPEN, as the beginning of a run: a scope already held is given up at once (R202). -/
theorem exec_devOpen_starts {s : State} {x : Ctx} (hs : s.IdleAt x) (hinit : s.initialized = true) (rom : RomCode) :
    exec (.devOpen rom) s = .next (s.during (x.issued .devOpen rom 0 0) [] s.clock s.env) := by
  obtain ⟨hx, ho⟩ := hs
  have issue : issueDevOpen rom x s = ((s.latch rom 0 0).start .devOpen []).callOpen [] := if_pos hinit
  refine (operate_idle hx ho).trans (congrArg _ (issue.trans ?_))
  rw [State.latch, State.start, updCtx_eq_during hx, updCtx_during hx, callOpen_during hx]
  rfl

/-- Settles O45: an open (`finish_open`) without callers, which returns to the host. -/
theorem devOpenRuns : Obligations.DevOpenRuns := by
  intro s x rom vs ws rest seen done hs hinit hk hf he hv hw hn events
  have issue := exec_devOpen_starts hs hinit rom
  obtain ⟨_, _, _, hrest, run⟩ := finish_open (i := .devOpen rom) (y := x.issued .devOpen rom 0 0) hs.1 rfl rfl hf
    [] hk (.inl ⟨.inr rfl, rfl⟩) hv hw hn [] s.clock s.env he
  have ends := run 0 _ (ret_nil_during (s := { s with busPhase := if done then .matched rom else .unknown }) hs.1 ..)
  exact ⟨_, _, issue, ends, hrest, by cases done <;> cases seen <;> rfl⟩

/-- Settles O46: issue clears `dev_open` and delivers the success, and 0x21 is its opcode in the opcode map. -/
theorem devCloseClosesTheScope : Obligations.DevCloseClosesTheScope := by
  refine ⟨fun s x hs => ⟨x.opa, x.opb, x.opc, ?_⟩, fun r => decode_of_code .devClose rfl⟩
  have issue : exec .devClose s = .next (s.closeScope.deliver (.success .none)) :=
    operate_idle (issue := fun _ t => t.closeScope.deliver (.success .none)) hs.1 hs.2
  exact issue.trans (congrArg _ (updCtx_deliver_eq_settled hs.1 _ _))

/-! ## The passthrough accesses (rules R206 to R210) -/

/-- An operation whose one event is an admitted write that leaves the ghost. -/
theorem exec_one_write {i : Instr} {o : Op} {issue : Ctx → State → State} {s : State} {x : Ctx} {a b : BitVec 64}
    {c : BitVec 32} {p : Phase} {off : Nat} {v : Word} (hs : s.IdleAt x) (he : exec i s = operate o issue s)
    (hi : opOf i = some o) (hd : o ≠ .devOpen) (hf : firstFrames o = [p])
    (hissue : issue x s = (s.latch a b c).start o (firstFrames o)) (ha : s.admitted off = true)
    (hp : ∀ u, u.cfg = s.cfg → phaseEvent p [] (x.issued o a b c) u =
      writeReg off v u fun t => ret [] (.success .none) t) :
    ∃ u t, exec i s = .next u ∧ finish i 1 u = .next t ∧
      t = s.ended t { x with opa := a, opb := b, opc := c } [.write off v] ⟨true, 0, .none, none⟩ := by
  refine exec_one_event (k := s.clock + s.env.dt) (e := s.env.afterDt) (g := s.busPhase) hs he hi hd hf hissue ?_
  rw [hp _ (State.during_cfg ..), writeReg_of_admitted _ (by exact ha), State.didWrite_during]
  rfl

/-- Settles O47: each is one access of its own phase, with the value and at the offset that issue has latched. -/
theorem passthroughAccessesRun : Obligations.PassthroughAccessesRun := by
  intro s x off v hs hopen hf hfits halign hle ok b
  have ha : s.admitted off = true := admitted_iff.mpr ⟨halign, hle⟩
  have hoff : (BitVec.ofNat 32 off).toNat = off := toNat_ofNat_of_fits32 (decide_eq_true hfits)
  have hv : valueOf b = v := inLowHalf_low v
  refine ⟨exec_one_write (issue := issueDevWcmd v) hs rfl rfl (by decide) rfl (if_pos hopen)
      (admitted_of_fixed hf (by simp [Config.fixedOffsets])) ?wcmd,
    exec_one_write (issue := issueDevWctl v) hs rfl rfl (by decide) rfl (if_pos hopen)
      (admitted_of_fixed hf (by simp [Config.fixedOffsets])) ?wctl,
    exec_one_write (issue := issueDevWr off v) hs rfl rfl (by decide) rfl ((if_pos hopen).trans (if_pos ha)) ha ?wr,
    exec_one_event (issue := issueDevRd off) (k := s.clock + s.env.afterWord.dt) (e := s.env.afterWord.afterDt)
      (g := s.busPhase) hs rfl rfl (by decide) rfl ((if_pos hopen).trans (if_pos ha)) ?rd⟩
  case wcmd =>
    intro u hu
    rw [phaseEvent, phWcAcc, hu, show valueOf (x.issued .devWcmd 0 b 0).opb = v from hv]
  case wctl =>
    intro u hu
    rw [phaseEvent, phWtAcc, hu, show valueOf (x.issued .devWctl 0 b 0).opb = v from hv]
  case wr =>
    intro u _
    rw [phaseEvent, phDwAcc, show valueOf (x.issued .devWr 0 b (BitVec.ofNat 32 off)).opb = v from hv,
      show (x.issued .devWr 0 b (BitVec.ofNat 32 off)).opc.toNat = off from hoff]
  case rd =>
    rw [phaseEvent, phDrAcc, show (x.issued .devRd 0 0 (BitVec.ofNat 32 off)).opc.toNat = off from hoff,
      readReg_of_admitted _ (by exact ha), State.didRead_during]
    rfl

end Sys2Proof.Machine


/-! # The Temperature Sensor Driver (43_temp_sensor.md): how many events an operation has left

What an event leaves in its context (`phaseEvent_goesOn`) has fewer events before it, for every phase but those of a
search; so a run of any other operation comes to its end. -/

namespace Sys2Proof.Machine

/-! ## The event counts (rules R246, R323 (f)) -/

theorem op_ne_search_of_callers {o q : Op} {cs : List Phase} (h : cs ∈ callerStacks o q) (ho : o ≠ .busSearch) :
    q ≠ .busSearch :=
  (search_callers h).elim (fun hs => absurd hs.1 ho) And.right

/-- At an event phase of an operation other than a search there is an event left. -/
theorem Ctx.InFlight.eventsLeft_pos {k : Config} {n : Nat} {o : Op} {p : Phase} {cs : List Phase} {x : Ctx}
    (hi : x.InFlight k n o p cs) (hk : k.Valid) (hev : p.isEvent = true) (ho : o ≠ .busSearch) :
    0 < phaseEvents k x.pollCnt x.retryCnt p := by
  obtain ⟨hreset, -, hmatch, hscratch, -⟩ := hk.pollsPos
  have hconv := six_le_convertEvents k
  have hpoll := hi.polls
  have hp : p.op ≠ .busSearch := op_ne_search_of_callers hi.callers ho
  cases p
  case sLock | sCmd | sSer | sPoll | sWait | sFound | sLo | sHi => exact absurd rfl hp
  case oReset | oMatch | tOpen1 | tOpen2 | fCall => cases hev
  case rstPoll | rstWait | mPoll | mWait | tRdPoll | tRdWait =>
    have := hpoll _ rfl
    simp only [phaseEvents]
    omega
  all_goals
    simp only [phaseEvents, resetEvents, matchEvents, afterAttempt]
    omega

theorem Ctx.eventsLeft_of_idle {k : Config} {x : Ctx} (h : x.pc = []) : x.eventsLeft k = 0 := by
  rw [Ctx.eventsLeft, h]

/-- An event of an operation other than a search leaves fewer before its end: none if it was the last. -/
theorem State.Sound.event_runsDown {s t : State} {x : Ctx} {o : Op} (hs : s.Sound) (hx : s.ctx? = some x)
    (ho : x.op = some o) (hn : o ≠ .busSearch) (h : advance x s = .next t) :
    ∃ y, t.ctx? = some y ∧ (y.op = none ∨ y.op = some o) ∧ y.eventsLeft s.cfg < x.eventsLeft s.cfg := by
  obtain ⟨p, cs, hp, hev, hi⟩ := (hs.ctx hx).event ho
  rw [advance, hp] at h
  have hpos := hi.eventsLeft_pos hs.cfg hev hn
  have hleft : x.eventsLeft s.cfg =
      phaseEvents s.cfg x.pollCnt x.retryCnt p + callerEvents s.cfg x.retryCnt cs := by rw [Ctx.eventsLeft, hp]
  obtain ⟨y, hy, ⟨hidle, hsound⟩ | ⟨hop, -, -, -, -, hle⟩⟩ := phaseEvent_goesOn hs.cfg hx h hi
  · refine ⟨y, hy, .inl hidle, ?_⟩
    rw [Ctx.eventsLeft_of_idle (hsound.idle hidle).1, hleft]
    omega
  · refine ⟨y, hy, .inr hop, ?_⟩
    rw [Ctx.before] at hle
    omega

/-- Settles O26: the event of the context that runs is one of a sound state (`State.Sound.event_runsDown`). -/
theorem operationsRunDown : Obligations.OperationsRunDown := by
  refine ⟨fun s t u c x hs hu hx hn h => ?_, fun x hx => ?_⟩
  · obtain ⟨x', o, i, hx', ho, hi, hio⟩ := turn_run hu
    obtain rfl : x = x' := Option.some.inj (hx.symm.trans hx')
    have hux : State.ctx? { u with cur := c } = some x := by simp [State.ctx?, turn_ctxs hu, hx]
    have hsu : State.Sound { u with cur := c } := (hs.turn hu).choose u.env c u.inbox
    rw [step_run hu hx hi] at h
    have hk := exec_kept h
    rw [exec_inFlight hux ho hio] at h
    obtain ⟨y, hy, -, hlt⟩ := hsu.event_runsDown hux ho (fun e => hn (e ▸ ho)) h
    have hcfg : u.cfg = s.cfg := by rcases (turn_some hu).2 with rfl | rfl <;> rfl
    exact ⟨y, by simpa [State.ctx?, hk.cur] using hy, hcfg ▸ hlt⟩
  · rw [Ctx.eventsLeft, hx]
    rfl

/-- A run of an operation other than a search ends within the events it has left. -/
theorem State.Sound.finish_ends {i : Instr} {o : Op} (hi : opOf i = some o) (hn : o ≠ .busSearch) :
    ∀ (n : Nat) {s : State} {x : Ctx}, s.Sound → s.ctx? = some x → x.op = none ∨ x.op = some o →
      x.eventsLeft s.cfg ≤ n → ∃ t y, finish i n s = .next t ∧ t.IdleAt y := by
  intro n
  induction n with
  | zero =>
    intro s x hs hx hop hle
    refine ⟨s, x, rfl, hx, hop.resolve_right fun ho => ?_⟩
    obtain ⟨t, _, ht, -⟩ := hs.oneEvent hx ho
    obtain ⟨_, -, -, hlt⟩ := hs.event_runsDown hx ho hn ht
    omega
  | succ n ih =>
    intro s x hs hx hop hle
    rcases hop with ho | ho
    · exact ⟨s, x, finish_idle hx ho, hx, ho⟩
    · obtain ⟨t, _, ht, -⟩ := hs.oneEvent hx ho
      obtain ⟨y, hy, hyo, hlt⟩ := hs.event_runsDown hx ho hn ht
      have hexec : Machine.exec i s = .next t := (exec_inFlight hx ho hi).trans ht
      have hst : t.Sound := hs.exec (fun z hz hzo => by
        obtain rfl : x = z := Option.some.inj (hx.symm.trans hz)
        exact nomatch ho.symm.trans hzo) hexec
      rw [finish_succ hx ho hi ht]
      exact ih hst hy hyo (by rw [(exec_kept hexec).cfg]; omega)

/-- The events an operation other than a search has before it when it starts. -/
theorem Ctx.issued_eventsLeft (k : Config) (x : Ctx) (o : Op) (a b : BitVec 64) (c : BitVec 32) :
    (x.issued o a b c).eventsLeft k ≤ 1 + openEvents k + convertEvents k := by
  have hconv := six_le_convertEvents k
  cases o <;>
    simp only [Ctx.eventsLeft, Ctx.issued, firstFrames, phaseEvents, callerEvents, openEvents] <;> omega

/-- Settles O27: what issue starts is sound and within the bound, and every event brings it nearer to its end
(`State.Sound.finish_ends`). -/
theorem everyOperationEnds : Obligations.EveryOperationEnds := by
  intro s x i hs hidle hwf hsearch
  obtain ⟨hx, ho⟩ := hidle
  obtain ⟨u, hu⟩ := exec_idle (i := i) hx ho
  have ends : ∀ {z : Ctx}, u.ctx? = some z → z.op = none → ∃ u t y, exec i s = .next u ∧
      finish i (1 + openEvents s.cfg + convertEvents s.cfg) u = .next t ∧ t.IdleAt y :=
    fun hz hzo => ⟨u, u, _, hu, finish_idle hz hzo, hz, hzo⟩
  obtain ⟨x', hx', hc⟩ := exec_cases hu
  obtain rfl : x = x' := Option.some.inj (hx.symm.trans hx')
  cases hc with
  | issued _ hi =>
    cases hi with
    | @starts o a b c _ _ hw =>
      have hop : opOf i = some o := (hw hwf).1 ▸ opOf_withFields o a b c
      have hn : o ≠ .busSearch := by
        rintro rfl
        exact hsearch _ (hw hwf).1.symm
      obtain ⟨t, y, ht, hy⟩ := State.Sound.finish_ends hop hn _ (hs.exec (fun _ _ _ => hwf) hu) (ctx?_setCtx hx _)
        (.inr rfl) (Ctx.issued_eventsLeft s.cfg x o a b c)
      exact ⟨_, t, y, hu, ht, hy⟩
    | ends => exact ends (ctx?_settled hx _ _ _ _) rfl
  | word _ _ hw =>
    obtain ⟨e, hy⟩ := writeWord_ctx? hx hw
    exact ends hy rfl
  | event hop => exact nomatch ho.symm.trans hop

end Sys2Proof.Machine


/-! # The Temperature Sensor Driver: the driver states (rules R223, R323 (g))

What an event does to the driver state of the sensor that its context names (`Drives`): it leaves it `Idle`, or its
context holds a read whose conversion has been triggered, or it changes no record and its context held none. A read
ends only where the exit writes of R241 have been made or a conversion had not been triggered. -/

namespace Sys2Proof.Machine

/-! ## Where a conversion has been triggered -/

/-- The event phases between the trigger of the conversion and the end of the read, its opens apart. -/
def convertingPhases : List Phase :=
  [.tConvWait, .tConvChk, .tRdCmd, .tRdSz, .tRdExec, .tRdPoll, .tRdWait, .tRdData, .tNow1]

section
variable {x : Ctx} {p : Phase} {cs : List Phase} (hpc : x.pc = p :: cs)
include hpc

theorem Ctx.converting_iff : x.converting ↔ p ∈ convertingPhases ∨ p = .tOpen2 ∨ .tOpen2 ∈ cs := by
  have head : (∃ q ∈ convertingPhases, x.pc.head? = some q) ↔ p ∈ convertingPhases := by simp [hpc]
  have stack : .tOpen2 ∈ x.pc ↔ p = .tOpen2 ∨ .tOpen2 ∈ cs := by rw [hpc, List.mem_cons, eq_comm]
  exact or_congr head stack

theorem Ctx.converting_of_phase (hp : p ∈ convertingPhases := by decide) : x.converting :=
  (Ctx.converting_iff hpc).mpr (.inl hp)

theorem Ctx.converting_of_caller (h : .tOpen2 ∈ cs) : x.converting := (Ctx.converting_iff hpc).mpr (.inr (.inr h))

/-- At the phases of an open the conversion has been triggered if it is a second one. -/
theorem Ctx.converting_caller (hp : p ∉ .tOpen2 :: convertingPhases := by decide) (h : x.converting) :
    .tOpen2 ∈ cs := by
  rw [List.mem_cons, not_or] at hp
  rcases (Ctx.converting_iff hpc).mp h with h | h | h
  · exact absurd h hp.2
  · exact absurd h hp.1
  · exact h

end

/-- A second open is called by a temperature read alone. -/
theorem allCallers_mem_tOpen2 {o : Op} : ∀ l ∈ allCallers o, .tOpen2 ∈ l → o = .tsTemp ∨ o = .tsTempF := by
  cases o <;> decide

/-- A conversion is triggered by a temperature read alone. -/
theorem Ctx.InFlight.op_of_converting {k : Config} {n : Nat} {o : Op} {p : Phase} {cs : List Phase} {x : Ctx}
    (hi : x.InFlight k n o p cs) (hpc : x.pc = p :: cs) (hev : p.isEvent = true) (h : x.converting) :
    o = .tsTemp ∨ o = .tsTempF := by
  have own : ∀ q ∈ convertingPhases, q.op = .tsTemp := by decide
  rcases (Ctx.converting_iff hpc).mp h with h | rfl | h
  · exact (tempCallers (own p h ▸ hi.callers)).imp And.left And.left
  · cases hev
  · exact allCallers_mem_tOpen2 cs (callerStacks_subset _ hi.callers) h

/-! ## What an event does to a driver state -/

/-- What an event of the context `x` from `s` to `t` does to the driver states. -/
structure Drives (x : Ctx) (s t : State) : Prop where
  others : ∀ j, j ≠ x.opc.toNat → t.sens[j]? = s.sens[j]?
  own : (∀ y, t.sens[x.opc.toNat]? = some y → y.fsm = .idle) ∨
    (∃ z, t.ctx? = some z ∧ z.drives x.opc.toNat ∧ z.converting) ∨ (t.sens = s.sens ∧ ¬ x.converting)

/-- The outcome is no next state, or one that the event may come to. -/
def KeepsDriver (x : Ctx) (s : State) (o : Out) : Prop := ∀ t, o = .next t → Drives x s t

/-- The record of the sensor that `x` names has been written, its driver state being `Idle`. -/
def Idled (x : Ctx) (s v : State) : Prop :=
  ∃ f : Sensor → Sensor, v.sens = s.sens.modify x.opc.toNat f ∧ ∀ y, (f y).fsm = .idle

section
variable {s u v : State} {x : Ctx} {o : Op}

theorem keepsDriver_fault (f : Fault) : KeepsDriver x s (.fault f) := nofun

theorem keepsDriver_same (hn : ¬ x.converting) (h : u.sens = s.sens := by rfl) : KeepsDriver x s (.next u) := by
  rintro _ ⟨⟩
  exact ⟨fun j _ => by rw [h], .inr (.inr ⟨h, hn⟩)⟩

theorem keepsDriver_idled (h : Idled x s v) : KeepsDriver x s (.next v) := by
  rintro _ ⟨⟩
  obtain ⟨f, hv, hf⟩ := h
  refine ⟨fun j hj => by rw [hv, getElem?_modify_other _ _ _ _ hj], .inl fun y hy => ?_⟩
  rw [hv, List.getElem?_modify_eq] at hy
  obtain ⟨w, -, rfl⟩ := Option.map_eq_some_iff.mp hy
  exact hf w

theorem Quiet.ctx_latches (hq : Quiet s u) (hx : s.ctx? = some x) :
    ∃ z, u.ctx? = some z ∧ z.op = x.op ∧ z.opc = x.opc := by
  obtain ⟨z, hz, hl⟩ : ∃ z, u.ctx? = some z ∧ z.latches = x.latches :=
    Option.map_eq_some_iff.mp (hq.latches.trans (congrArg (Option.map Ctx.latches) hx))
  obtain ⟨hop, -, -, hopc⟩ : z.op = x.op ∧ z.opa = x.opa ∧ z.opb = x.opb ∧ z.opc = x.opc := by
    simpa [Ctx.latches] using hl
  exact ⟨z, hz, hop, hopc⟩

variable (hx : s.ctx? = some x)
include hx

/-- The exit writes, made in the context that the event is of. -/
theorem idled_exitTemp {z : Ctx} (hq : Quiet s u) (hz : u.ctx? = some z) (hsens : u.sens = s.sens := by rfl) :
    Idled x s (u.exitTemp z) := by
  obtain ⟨w, hw, -, hopc⟩ := hq.ctx_latches hx
  obtain rfl : z = w := Option.some.inj (hz.symm.trans hw)
  refine ⟨fun y => { y with fsm := .idle }, ?_, fun _ => rfl⟩
  rw [← hopc, ← hsens]
  rfl

/-- The read goes on where its conversion has been triggered. -/
theorem keepsDriver_converts {f : Ctx → Ctx} (ho : x.op = some .tsTemp ∨ x.op = some .tsTempF) (hq : Quiet s u)
    (hconv : ∀ y, (f y).converting) (hf : ∀ y, (f y).latches = y.latches := by exact fun _ => rfl)
    (hothers : ∀ j, j ≠ x.opc.toNat → u.sens[j]? = s.sens[j]? := by exact fun _ _ => rfl) :
    KeepsDriver x s (.next (u.updCtx f)) := by
  rintro _ ⟨⟩
  obtain ⟨z, hz, hop, hopc⟩ := (hq.trans (.ctx u hf)).ctx_latches hx
  refine ⟨hothers, .inr (.inl ⟨z, hz, ⟨hop ▸ ho, congrArg BitVec.toNat hopc⟩, ?_⟩)⟩
  rw [ctx?_updCtx] at hz
  obtain ⟨w, -, rfl⟩ := Option.map_eq_some_iff.mp hz
  exact hconv w

variable (hts : x.converting → x.op = some .tsTemp ∨ x.op = some .tsTempF)
include hts

/-- The operation goes on, no record changed, and if its conversion had been triggered it still has. -/
theorem keepsDriver_goesOn {f : Ctx → Ctx} (hq : Quiet s u) (hconv : x.converting → ∀ y, (f y).converting)
    (hf : ∀ y, (f y).latches = y.latches := by exact fun _ => rfl) (hsens : u.sens = s.sens := by rfl) :
    KeepsDriver x s (.next (u.updCtx f)) := by
  by_cases hn : x.converting
  · exact keepsDriver_converts hx (hts hn) hq (hconv hn) hf fun j _ => by rw [hsens]
  · exact keepsDriver_same hn hsens

/-- The operation goes on under the same callers. -/
theorem keepsDriver_goto {q : Phase} {cs : List Phase} (hq : Quiet s u) (hcall : x.converting → .tOpen2 ∈ cs)
    (hsens : u.sens = s.sens := by rfl) : KeepsDriver x s (.next (u.goto (q :: cs))) :=
  keepsDriver_goesOn (f := fun y => { y with pc := q :: cs }) hx hts hq
    (fun h _ => Ctx.converting_of_caller rfl (hcall h)) (hsens := hsens)

/-- The read goes on with a second open. -/
theorem keepsDriver_secondOpen (hq : Quiet s u) (cs : List Phase) (hsens : u.sens = s.sens := by rfl) :
    KeepsDriver x s (.next (u.callOpen (.tOpen2 :: cs))) :=
  keepsDriver_goesOn (f := fun y => { y with devOpen := false, pc := .rstCmd :: .oReset :: .tOpen2 :: cs }) hx hts hq
    (fun _ _ => Ctx.converting_of_caller rfl (by simp)) (hsens := hsens)

omit hx hts in
/-- The callers of TS_TEMP end with it. -/
theorem ret_temp_idled {cs : List Phase} (h : cs ∈ callerStacks o .tsTemp) (hv : Idled x s v) (r : Result) :
    KeepsDriver x s (ret cs r v) := by
  rcases tempCallers h with ⟨-, rfl⟩ | ⟨-, rfl⟩
  · exact keepsDriver_idled hv
  · simp only [ret]
    split
    · exact keepsDriver_idled hv
    · exact keepsDriver_fault _

theorem failAttempt_keepsDriver {cs : List Phase} (hcs : cs ∈ callerStacks o .tsTemp) (hq : Quiet s u)
    (hsens : u.sens = s.sens := by rfl) : KeepsDriver x s (failAttempt cs u fun r w => ret cs r w) := by
  intro t h
  obtain ⟨z, hz, h⟩ := withCtx_next h
  split at h
  · exact ret_temp_idled hcs (idled_exitTemp hx hq hz hsens) _ t h
  · exact keepsDriver_secondOpen hx hts (hq.trans (.ctx u)) cs hsens t h

/-- A return from an open, or from a read that has not triggered a conversion. -/
theorem ret_keepsDriver : ∀ (cs : List Phase) (r : Result) {u : State}, cs ∈ allCallers o → Quiet s u →
    u.sens = s.sens → (x.converting → .tOpen2 ∈ cs) → KeepsDriver x s (ret cs r u) := by
  intro cs
  induction cs with
  | nil => exact fun r u _ _ hsens hcall => keepsDriver_same (fun h => nomatch hcall h) hsens
  | cons p cs ih =>
    intro r u hcs hq hsens hcall
    have tail : cs ∈ allCallers o := allCallers_tail _ hcs
    have called (hp : p ≠ .tOpen2) (h : x.converting) : .tOpen2 ∈ cs :=
      (List.mem_cons.mp (hcall h)).resolve_left hp.symm
    cases p
    case oReset =>
      simp only [ret]
      split
      · exact keepsDriver_goto hx hts hq (fun h => List.mem_cons_of_mem _ (called (by decide) h)) hsens
      · exact ih _ tail hq hsens (called (by decide))
    case oMatch =>
      simp only [ret]
      split
      · intro t h
        obtain ⟨z, -, h⟩ := withCtx_next h
        obtain ⟨rom, -, h⟩ := withRom_next h
        exact ih _ tail (hq.trans (.ctx u)) hsens (called (by decide)) t h
      · exact ih _ tail hq hsens (called (by decide))
    case tOpen1 =>
      simp only [ret]
      split
      · exact keepsDriver_goto hx hts hq (called (by decide)) hsens
      · intro t h
        obtain ⟨z, hz, h⟩ := withCtx_next h
        exact ret_temp_idled (allCallers_tOpen1 _ hcs rfl).1 (idled_exitTemp hx hq hz hsens) _ t h
    case tOpen2 =>
      simp only [ret]
      split
      · exact keepsDriver_goesOn hx hts hq (fun _ _ => Ctx.converting_of_phase (p := .tRdCmd) rfl)
          (hsens := hsens)
      · exact failAttempt_keepsDriver hx hts (allCallers_tOpen2 _ hcs rfl).1 hq hsens
    case fCall =>
      simp only [ret]
      split
      · exact ih _ tail hq hsens (called (by decide))
      · exact keepsDriver_fault _
    all_goals exact keepsDriver_fault _

end

/-! ## The phases -/

section
variable {s : State} {x : Ctx}

theorem withSensor_keepsDriver {k : Sensor → Out} (hk : ∀ y, KeepsDriver x s (k y)) :
    KeepsDriver x s (withSensor x s k) := fun t h => by
  obtain ⟨y, -, h⟩ := withSensor_next h
  exact hk y t h

theorem withRom_keepsDriver {k : RomCode → Out} (hk : ∀ r, KeepsDriver x s (k r)) :
    KeepsDriver x s (withRom x s k) := fun t h => by
  obtain ⟨r, -, h⟩ := withRom_next h
  exact hk r t h

theorem writeReg_keepsDriver {off : Nat} {v : Word} {k : State → Out} (ha : s.admitted off = true)
    (hk : KeepsDriver x s (k (s.didWrite off v))) : KeepsDriver x s (writeReg off v s k) := by
  rwa [writeReg_of_admitted k ha]

theorem readReg_keepsDriver {off : Nat} {k : Word → State → Out} (ha : s.admitted off = true)
    (hk : ∀ v u, Quiet s u → u.sens = s.sens → KeepsDriver x s (k v u)) : KeepsDriver x s (readReg off s k) := by
  rw [readReg_of_admitted k ha]
  exact hk _ _ (.read s off) rfl

theorem pollOnce_keepsDriver {mask : Word} {bound : Nat} {wait : List Phase} {d e : State → Out}
    (ha : s.admitted s.cfg.offStatus = true) (hd : KeepsDriver x s (d (polled x s)))
    (he : KeepsDriver x s (e (polled x s))) (hw : KeepsDriver x s (.next ((polled x s).goto wait))) :
    KeepsDriver x s (pollOnce mask bound wait x s d e) := by
  rw [pollOnce_of_admitted ha]
  split
  · exact hd
  · split
    · exact he
    · exact hw

theorem searchRead_keepsDriver {off : Nat} {k : Word → State → Out} (hn : ¬ x.converting)
    (hk : ∀ v u, u.sens = s.sens → KeepsDriver x s (k v u)) : KeepsDriver x s (searchRead off s k) := by
  unfold searchRead
  split
  · exact hk _ _ rfl
  · exact keepsDriver_same hn

theorem searchWrite_keepsDriver {off : Nat} {v : Word} {k : State → Out} (hn : ¬ x.converting)
    (hk : KeepsDriver x s (k (s.didWrite off v))) : KeepsDriver x s (searchWrite off v s k) := by
  unfold searchWrite
  split
  · exact hk
  · exact keepsDriver_same hn

theorem searchFail_keepsDriver {u : State} (hn : ¬ x.converting) (e : Err) (hsens : u.sens = s.sens) :
    KeepsDriver x s (searchFail [] e u) :=
  keepsDriver_same (u := u.releaseOnAbort.deliver _) hn hsens

theorem harvest_keepsDriver {i found : Nat} {u : State} (hn : ¬ x.converting) (hsens : u.sens = s.sens) :
    KeepsDriver x s (harvest [] i found u) := by
  unfold harvest
  split
  · split
    · exact keepsDriver_same hn hsens
    · exact keepsDriver_same hn hsens
  · exact keepsDriver_same hn hsens

/-- The event of an operation that is none of BUS_RESET, BUS_MATCH and TS_TEMP, and so was not called: it writes no
sensor record. -/
theorem phaseEvent_keepsSensors {p : Phase} (hn : ¬ x.converting) (hp : p.op ∉ [Op.busReset, .busMatch, .tsTemp])
    (ha : ∀ off ∈ chosenOffset s.cfg x p, s.admitted off = true)
    (hw : p.op ≠ .busInit → ∀ off ∈ s.cfg.fixedOffsets, s.admitted off = true) :
    KeepsDriver x s (phaseEvent p [] x s) := by
  cases p
  case iClkget =>
    dsimp only [phaseEvent, phIClkget]
    split
    · exact keepsDriver_same hn (by simp)
    · exact keepsDriver_same hn
  case iClkset => exact keepsDriver_same hn (by simp)
  case sLock =>
    dsimp only [phaseEvent, phSLock]
    split
    · exact keepsDriver_same hn
    · exact keepsDriver_same hn
  case sCmd | sSer =>
    dsimp only [phaseEvent, phSCmd, phSSer]
    exact searchWrite_keepsDriver hn (keepsDriver_same hn)
  case sPoll =>
    dsimp only [phaseEvent, phSPoll]
    refine searchRead_keepsDriver hn fun v u hu => ?_
    split
    · exact searchFail_keepsDriver hn _ hu
    · exact searchFail_keepsDriver hn _ hu
    · exact keepsDriver_same hn hu
    · split
      · exact searchFail_keepsDriver hn _ hu
      · exact keepsDriver_same hn hu
  case sWait => exact keepsDriver_same hn
  case sFound =>
    dsimp only [phaseEvent, phSFound]
    exact searchRead_keepsDriver hn fun v u hu => harvest_keepsDriver hn hu
  case sLo =>
    dsimp only [phaseEvent, phSLo]
    refine searchRead_keepsDriver hn fun v u hu => ?_
    split
    · exact keepsDriver_same hn hu
    · exact keepsDriver_same hn hu
  case sHi =>
    dsimp only [phaseEvent, phSHi]
    exact searchRead_keepsDriver hn fun v u hu => harvest_keepsDriver hn (by simpa using hu)
  case rdAcc | drAcc =>
    dsimp only [phaseEvent, phRdAcc, phDrAcc]
    exact readReg_keepsDriver (ha _ rfl) fun v u _ hu => keepsDriver_same hn hu
  case wrAcc | dwAcc =>
    dsimp only [phaseEvent, phWrAcc, phDwAcc]
    exact writeReg_keepsDriver (ha _ rfl) (keepsDriver_same hn (by simp))
  case wcAcc | wtAcc =>
    dsimp only [phaseEvent, phWcAcc, phWtAcc]
    exact writeReg_keepsDriver (hw (by decide) _ (by simp [Config.fixedOffsets])) (keepsDriver_same hn)
  case oReset | oMatch | tOpen1 | tOpen2 | fCall => exact keepsDriver_fault _
  all_goals exact absurd hp (by decide)

end

/-- The event of a phase in flight, its access inside the window. -/
theorem phaseEvent_keepsDriver {s : State} {x : Ctx} {o : Op} {p : Phase} {cs : List Phase} (hx : s.ctx? = some x)
    (hi : x.InFlight s.cfg s.sens.length o p cs) (hpc : x.pc = p :: cs) (hev : p.isEvent = true)
    (ha : ∀ off ∈ chosenOffset s.cfg x p, s.admitted off = true)
    (hw : p.op ≠ .busInit → ∀ off ∈ s.cfg.fixedOffsets, s.admitted off = true)
    (htrig : s.cfg.regTrigger ∈ s.cfg.fixedOffsets) : KeepsDriver x s (phaseEvent p cs x s) := by
  have hts (h : x.converting) : x.op = some .tsTemp ∨ x.op = some .tsTempF := by
    simpa [hi.op] using hi.op_of_converting hpc hev h
  have temp (h : p.op = .tsTemp) : x.op = some .tsTemp ∨ x.op = some .tsTempF := by
    simpa [hi.op] using (tempCallers (h ▸ hi.callers)).imp And.left And.left
  have hcs := callerStacks_subset _ hi.callers
  by_cases hpo : p.op ∉ [Op.busReset, .busMatch, .tsTemp]
  · obtain rfl := callerStacks_eq_nil hi.callers hpo
    refine phaseEvent_keepsSensors (fun h => ?_) hpo ha hw
    have own : p ∈ convertingPhases → p.op = .tsTemp := by cases p <;> decide
    rcases (Ctx.converting_iff hpc).mp h with h | rfl | h
    · exact hpo (by simp [own h])
    · cases hev
    · cases h
  have hfix := hw (fun e => hpo (by simp [e]))
  have command : s.admitted s.cfg.offCommand = true := hfix _ (by simp [Config.fixedOffsets])
  have status : s.admitted s.cfg.offStatus = true := hfix _ (by simp [Config.fixedOffsets])
  have trigger : s.admitted s.cfg.regTrigger = true := hfix _ htrig
  have polls {q : Phase} (h : x.converting → .tOpen2 ∈ cs) : KeepsDriver x s (.next ((polled x s).goto (q :: cs))) :=
    keepsDriver_goto hx hts (.polled x s) h
  cases p
  case rstCmd =>
    dsimp only [phaseEvent, phRstCmd]
    exact writeReg_keepsDriver command (keepsDriver_goesOn (u := { s.didWrite _ _ with busPhase := _ }) hx hts
      ((Quiet.write s _ _).trans (.ghost _ _))
      fun h _ => Ctx.converting_of_caller rfl (Ctx.converting_caller hpc (by decide) h))
  case rstPoll =>
    have call := Ctx.converting_caller hpc
    dsimp only [phaseEvent, phRstPoll]
    exact pollOnce_keepsDriver status
      (ret_keepsDriver hx hts cs _ hcs ((Quiet.polled x s).trans (.ghost _ .resetDone)) rfl call)
      (ret_keepsDriver hx hts cs _ hcs (.polled x s) rfl call) (polls call)
  case rstWait => exact keepsDriver_goto hx hts (.delay s _) (Ctx.converting_caller hpc)
  case mCmd =>
    dsimp only [phaseEvent, phMCmd]
    exact writeReg_keepsDriver command (keepsDriver_goto (u := { s.didWrite _ _ with busPhase := _ }) hx hts
      ((Quiet.write s _ _).trans (.ghost _ _)) (Ctx.converting_caller hpc))
  case mD0 | mD1 =>
    dsimp only [phaseEvent, phMD0, phMD1]
    exact withRom_keepsDriver fun r => writeReg_keepsDriver (hfix _ (by simp [Config.fixedOffsets]))
      (keepsDriver_goto hx hts (.write s _ _) (Ctx.converting_caller hpc))
  case mSz =>
    dsimp only [phaseEvent, phMSz]
    exact writeReg_keepsDriver (hfix _ (by simp [Config.fixedOffsets]))
      (keepsDriver_goto hx hts (.write s _ _) (Ctx.converting_caller hpc))
  case mExec =>
    dsimp only [phaseEvent, phMExec]
    exact writeReg_keepsDriver trigger (keepsDriver_goesOn hx hts (.write s _ _)
      fun h _ => Ctx.converting_of_caller rfl (Ctx.converting_caller hpc (by decide) h))
  case mPoll =>
    have call := Ctx.converting_caller hpc
    dsimp only [phaseEvent, phMPoll]
    exact withRom_keepsDriver fun r => pollOnce_keepsDriver status
      (ret_keepsDriver hx hts cs _ hcs
        ((Quiet.polled x s).trans (.ghost _ ((polled x s).busPhase.afterMatch r))) rfl call)
      (ret_keepsDriver hx hts cs _ hcs ((Quiet.polled x s).trans (.ghost _ .unknown)) rfl call) (polls call)
  case mWait => exact keepsDriver_goto hx hts (.delay s _) (Ctx.converting_caller hpc)
  case tNow0 =>
    have call := Ctx.converting_caller hpc
    dsimp only [phaseEvent, phTNow0]
    refine withSensor_keepsDriver fun y => ?_
    split
    · exact ret_keepsDriver hx hts cs _ hcs ((Quiet.now s).trans (.ctx _)) rfl call
    · exact keepsDriver_goesOn (u := s.didNow.updCtx _) hx hts ((Quiet.now s).trans (.ctx _))
        fun h _ => Ctx.converting_of_caller rfl (by simp [call h])
  case tConvCmd =>
    dsimp only [phaseEvent, phTConvCmd]
    exact writeReg_keepsDriver command
      (keepsDriver_goto hx hts (.write s _ _) (Ctx.converting_caller hpc))
  case tConvExec =>
    dsimp only [phaseEvent, phTConvExec]
    exact withSensor_keepsDriver fun y => writeReg_keepsDriver trigger
      (keepsDriver_converts (u := (s.didWrite _ _).setFsm x _) hx (temp rfl)
        ((Quiet.write s _ _).trans (.setFsm _ x _)) (fun _ => Ctx.converting_of_phase rfl)
        (hothers := fun j hj => getElem?_modify_other _ _ _ _ hj))
  case tConvWait =>
    dsimp only [phaseEvent, phTConvWait]
    refine withSensor_keepsDriver fun y => ?_
    split
    · exact keepsDriver_converts (u := s.didDelay _) hx (temp rfl) (.delay s _)
        fun _ => Ctx.converting_of_phase (p := .tConvChk) rfl
    · exact keepsDriver_fault _
  case tConvChk =>
    dsimp only [phaseEvent, phTConvChk]
    refine withSensor_keepsDriver fun y => readReg_keepsDriver status fun v u hq hu => ?_
    split
    · exact keepsDriver_converts (u := (State.setFsm x _ _).updCtx _) hx (temp rfl)
        ((((hq.trans (.ctx _)).trans (.closeScope _)).trans (.setFsm _ x _)).trans (.ctx _))
        (fun _ => Ctx.converting_of_caller rfl (by simp))
        (hothers := fun j hj => hu ▸ getElem?_modify_other _ _ _ _ hj)
    · exact ret_temp_idled hi.callers
        ⟨fun z => { z with fsm := .idle }, congrArg (List.modify · _ _) hu, fun _ => rfl⟩ _
  case tRdCmd =>
    dsimp only [phaseEvent, phTRdCmd]
    exact writeReg_keepsDriver command (keepsDriver_converts hx (temp rfl) (.write s _ _)
      fun _ => Ctx.converting_of_phase (p := .tRdSz) rfl)
  case tRdSz =>
    dsimp only [phaseEvent, phTRdSz]
    exact writeReg_keepsDriver (hfix _ (by simp [Config.fixedOffsets]))
      (keepsDriver_converts hx (temp rfl) (.write s _ _) fun _ => Ctx.converting_of_phase (p := .tRdExec) rfl)
  case tRdExec =>
    dsimp only [phaseEvent, phTRdExec]
    exact writeReg_keepsDriver trigger (keepsDriver_converts hx (temp rfl) (.write s _ _)
      fun _ => Ctx.converting_of_phase (p := .tRdPoll) rfl)
  case tRdPoll =>
    dsimp only [phaseEvent, phTRdPoll]
    exact pollOnce_keepsDriver status
      (keepsDriver_converts hx (temp rfl) (.polled x s) fun _ => Ctx.converting_of_phase (p := .tRdData) rfl)
      (failAttempt_keepsDriver (u := (polled x s).closeScope) hx hts hi.callers
        ((Quiet.polled x s).trans (.closeScope _)))
      (keepsDriver_converts hx (temp rfl) (.polled x s) fun _ => Ctx.converting_of_phase (p := .tRdWait) rfl)
  case tRdWait =>
    exact keepsDriver_converts (u := s.didDelay _) hx (temp rfl) (.delay s _)
      fun _ => Ctx.converting_of_phase (p := .tRdPoll) rfl
  case tRdData =>
    dsimp only [phaseEvent, phTRdData]
    exact readReg_keepsDriver (hfix _ (by simp [Config.fixedOffsets])) fun v u hq hu =>
      keepsDriver_converts (u := State.closeScope _) hx (temp rfl) ((hq.trans (.ctx u)).trans (.closeScope _))
        (fun _ => Ctx.converting_of_phase (p := .tNow1) rfl) (hothers := fun j _ => congrArg (·[j]?) hu)
  case tNow1 =>
    dsimp only [phaseEvent, phTNow1]
    exact withSensor_keepsDriver fun y => ret_temp_idled hi.callers ⟨_, rfl, fun _ => rfl⟩ _
  case tOpen1 | tOpen2 => cases hev
  all_goals exact absurd (by decide) hpo

/-! ## The step -/

/-- The event of the context that moves in a sound state. -/
theorem State.Sound.event_drives {s t : State} {x : Ctx} {o : Op} {p : Phase} {cs : List Phase} (hs : s.Sound)
    (hx : s.ctx? = some x) (ho : x.op = some o) (hpc : x.pc = p :: cs) (h : phaseEvent p cs x s = .next t) :
    Drives x s t := by
  obtain ⟨p', cs', hp', hev, hi⟩ := (hs.ctx hx).event ho
  obtain ⟨rfl, rfl⟩ := List.cons.inj (hpc.symm.trans hp')
  refine phaseEvent_keepsDriver hx hi hpc hev (fun off hoff => ?_) (fun hq off hoff => ?_) (regTrigger_mem hs.cfg) t h
  · exact hs.access x (mem_of_ctx? hx) p (by rw [hpc]; rfl) off hoff
  · have hinit := hs.initialized hx ho fun e => hq (busInit_callers (e ▸ hi.callers)).1
    exact inWindow_of_validWindow hs.cfg (hs.window hinit) hoff

theorem operate_idle_sens {o : Op} {issue : Ctx → State → State} {s t : State} {x : Ctx} (hx : s.ctx? = some x)
    (ho : x.op = none) (h : operate o issue s = .next t) (hi : (issue x s).sens = s.sens) : t.sens = s.sens := by
  rw [operate_idle hx ho] at h
  exact Host.Outcome.next.inj h ▸ hi

/-- What an issue does to the sensor file: nothing, or it appends a record whose driver is `Idle` (R221), or it
writes the resolution of a record (R244). -/
theorem exec_idle_sens {i : Instr} {s t : State} {x : Ctx} (hx : s.ctx? = some x) (ho : x.op = none)
    (h : exec i s = .next t) : t.sens = s.sens ∨ (∃ y : Sensor, t.sens = s.sens ++ [y] ∧ y.fsm = .idle) ∨
      ∃ idx res, t.sens = s.sens.modify idx fun y => { y with res := res } := by
  cases i
  case tsCreate rom refresh res =>
    obtain rfl := Host.Outcome.next.inj ((operate_idle hx ho).symm.trans h)
    dsimp only [issueTsCreate]
    split_ifs
    · exact .inr (.inl ⟨_, rfl, rfl⟩)
    all_goals exact .inl rfl
  case tsSetRes idx res =>
    obtain rfl := Host.Outcome.next.inj ((operate_idle hx ho).symm.trans h)
    dsimp only [issueTsSetRes]
    split_ifs
    · exact .inr (.inr ⟨_, _, rfl⟩)
    all_goals exact .inl rfl
  case tsGetRes idx =>
    refine .inl (operate_idle_sens hx ho h ?_)
    dsimp only [issueTsGetRes]
    split <;> rfl
  case addrRom | addrFamily | addrSerial | addrCrc | addrEq => exact .inl (operate_idle_sens hx ho h rfl)
  case devClose =>
    exact .inl (operate_idle_sens (issue := fun _ t => t.closeScope.deliver (.success .none)) hx ho h rfl)
  case busInit | busReset | busSearch | busMatch | busRd | busWr | devOpen | devWcmd | devWctl | devWr | devRd
      | tsTemp | tsTempF =>
    refine .inl (operate_idle_sens hx ho h ?_)
    simp only [issueBusInit, issueBusReset, issueBusSearch, issueBusMatch, issueBusRd, issueBusWr, issueDevOpen,
      issueDevWcmd, issueDevWctl, issueDevWr, issueDevRd, issueTsTemp, issueTsTempF]
    split_ifs <;> rfl
  all_goals
    left
    obtain ⟨_, -, -, ⟨-, rfl⟩ | ⟨-, -, rfl⟩ | ⟨-, -, rfl⟩⟩ := writeWord_next h <;> simp

/-- A record whose driver is not `Idle` after an issue was not `Idle` before it. -/
theorem exec_idle_fsm {i : Instr} {s t : State} {x : Ctx} (hx : s.ctx? = some x) (ho : x.op = none)
    (h : exec i s = .next t) {j : Nat} {y : Sensor} (hy : t.sens[j]? = some y) (hf : y.fsm ≠ .idle) :
    ∃ z, s.sens[j]? = some z ∧ z.fsm ≠ .idle := by
  rcases exec_idle_sens hx ho h with hs | ⟨w, hs, hw⟩ | ⟨idx, res, hs⟩ <;> rw [hs] at hy
  · exact ⟨y, hy, hf⟩
  · rw [List.getElem?_append] at hy
    split at hy
    · exact ⟨y, hy, hf⟩
    · obtain rfl : y = w := by simpa using List.mem_of_getElem? hy
      exact absurd hw hf
  · rw [List.getElem?_modify] at hy
    obtain ⟨z, hz, rfl⟩ := Option.map_eq_some_iff.mp hy
    refine ⟨z, hz, fun e => hf ?_⟩
    split <;> exact e

/-- The contexts but the one that moves still drive what they drove. -/
theorem Kept.driven {s t : State} {x w : Ctx} {i : Nat} (hk : Kept s t) (hx : s.ctx? = some x) (hw : w ∈ s.ctxs)
    (hd : w.drives i ∧ w.converting) (hne : w ≠ x) : ∃ w ∈ t.ctxs, w.drives i ∧ w.converting := by
  obtain ⟨c, hc⟩ := List.mem_iff_getElem?.mp hw
  have hcur : c ≠ s.cur := by
    rintro rfl
    exact hne (Option.some.inj (hc.symm.trans hx))
  exact ⟨w, List.mem_of_getElem? ((hk.others c hcur).trans hc), hd⟩

/-- An event keeps rule R323 (g). -/
theorem Drives.fsmOk {s t : State} {x : Ctx} (h : Drives x s t) (hk : Kept s t) (hx : s.ctx? = some x)
    (hs : s.FsmOk) : t.FsmOk := by
  intro i y hy hf
  by_cases hi : i = x.opc.toNat
  · subst hi
    rcases h.own with hidle | ⟨z, hz, hd, hc⟩ | ⟨hsens, hn⟩
    · exact absurd (hidle y hy) hf
    · exact ⟨z, mem_of_ctx? hz, hd, hc⟩
    · obtain ⟨w, hw, hd⟩ := hs _ y (hsens ▸ hy) hf
      exact hk.driven hx hw hd fun e => hn (e ▸ hd.2)
  · rw [h.others i hi] at hy
    obtain ⟨w, hw, hd⟩ := hs _ y hy hf
    exact hk.driven hx hw hd fun e => hi (e ▸ hd.1.2.symm)

/-- What an idle context does keeps rule R323 (g) if it makes no driver state other than `Idle`. -/
theorem State.FsmOk.of_idle {s t : State} {x : Ctx} (hs : s.FsmOk) (hk : Kept s t) (hx : s.ctx? = some x)
    (ho : x.op = none) (hsens : ∀ {j : Nat} {y : Sensor}, t.sens[j]? = some y → y.fsm ≠ .idle →
      ∃ z, s.sens[j]? = some z ∧ z.fsm ≠ .idle) : t.FsmOk := by
  intro i y hy hf
  obtain ⟨z, hz, hzf⟩ := hsens hy hf
  obtain ⟨w, hw, hd⟩ := hs i z hz hzf
  refine hk.driven hx hw hd fun e => ?_
  obtain ⟨⟨hop | hop, -⟩, -⟩ := hd <;> rw [e, ho] at hop <;> cases hop

/-- Settles O20: an event leaves the driver state of its sensor as `Drives` has it, and an issue makes none that is
not `Idle`. -/
theorem everyStepKeepsTheDriverStates : Obligations.EveryStepKeepsTheDriverStates := by
  intro s t hs hfsm h
  refine hs.step_keeps (P := State.FsmOk) hfsm h (fun e c q => hfsm) (fun {u i} hu huf hx => ?_)
    fun {u x} f _ huf hx ho => huf.of_idle (Does.raise u f).kept hx ho fun hy hf => ⟨_, hy, hf⟩
  obtain ⟨x, hctx, hc⟩ := exec_cases hx
  cases hc with
  | issued ho _ => exact huf.of_idle (exec_kept hx) hctx ho (exec_idle_fsm hctx ho hx)
  | word ho _ _ => exact huf.of_idle (exec_kept hx) hctx ho (exec_idle_fsm hctx ho hx)
  | event ho _ hp hpe => exact (hu.event_drives hctx ho hp hpe).fsmOk (exec_kept hx) hctx huf

end Sys2Proof.Machine


/-! # The Temperature Sensor Driver: the decode, the sensor file, the resolution (rules R221, R237 to R244) -/

namespace Sys2Proof.Machine

/-! ## The decode (rules R237 to R239) -/

/-- Half of an even number is exact. -/
theorem milliC_two_mul (k : Int) : milliC (2 * k) = 125 * k := by
  have half : 125 * (2 * k) / 2 = 125 * k := by omega
  have exact : 125 * (2 * k) % 2 = 0 := by omega
  simp only [milliC, half, if_pos exact]

/-- Half of an odd number lies between two neighbours, and the even one is taken. -/
theorem milliC_two_mul_add_one (k : Int) : milliC (2 * k + 1) = 125 * k + 62 + k % 2 := by
  have half : 125 * (2 * k + 1) / 2 = 125 * k + 62 := by omega
  have tie : 125 * (2 * k + 1) % 2 ≠ 0 := by omega
  simp only [milliC, half, if_neg tie]
  split <;> omega

/-- Settles O57: an even number has no error, and an odd one an error of one half. -/
theorem milliCRoundsToTheNearest : Obligations.MilliCRoundsToTheNearest := by
  intro q
  obtain ⟨k, rfl | rfl⟩ := Int.even_or_odd' q
  · rw [milliC_two_mul]
    omega
  · rw [milliC_two_mul_add_one]
    omega

theorem rawTemp_bounds (w : Word) : -32768 ≤ rawTemp w ∧ rawTemp w ≤ 32767 := by
  have hlow := BitVec.le_toInt (w.extractLsb' 0 16)
  have hhigh := BitVec.toInt_lt (x := w.extractLsb' 0 16)
  simp only [rawTemp]
  omega

/-- Settles O58: a 16-bit number is in range, and the negative of an odd number has the negative even neighbour. -/
theorem decoderRange : Obligations.DecoderRange := by
  refine ⟨fun w => ?range, fun q => ?odd, fun w w' h => congrArg BitVec.toInt h⟩
  case range =>
    have hb := rawTemp_bounds w
    generalize rawTemp w = q at hb
    obtain ⟨k, rfl | rfl⟩ := Int.even_or_odd' q
    · rw [milliC_two_mul]
      omega
    · rw [milliC_two_mul_add_one]
      omega
  case odd =>
    obtain ⟨k, rfl | rfl⟩ := Int.even_or_odd' q
    · rw [← mul_neg, milliC_two_mul, milliC_two_mul, mul_neg]
    · rw [show -(2 * k + 1) = 2 * (-k - 1) + 1 by ring, milliC_two_mul_add_one, milliC_two_mul_add_one]
      omega

/-! ## The sensor file (rules R221, R243, R244) -/

theorem validRes_iff {r : Nat} : validRes r = true ↔ 9 ≤ r ∧ r ≤ 12 := by simp [validRes]

/-- A file with no bound has room, and one with a bound that it is below (R104). -/
theorem fileHasRoom_iff {k : Config} {n : Nat} :
    fileHasRoom k n = true ↔ ∀ most, k.nSensors = some most → n < most := by
  unfold fileHasRoom
  split <;> simp [*]

/-- An issue that latches, writes the sensor file and ends with `r`. -/
theorem latch_deliver_sensors {s : State} {x : Ctx} (hx : s.ctx? = some x) (a b : BitVec 64) (c : BitVec 32)
    (r : Result) (l : List Sensor) (e : Env) : State.deliver r { s.latch a b c with sens := l, env := e } =
      s.settled { x with opa := a, opb := b, opc := c } r l e :=
  congrArg (fun t : State => { t with sens := l, env := e }) (updCtx_deliver_eq_settled hx _ r)

/-- Settles O49: issue passes its three tests; the two unspecified fields are the free values of the next draw. -/
theorem tsCreateAppendsASensor : Obligations.TsCreateAppendsASensor := by
  intro s x rom refresh res hs hinit hlow hhigh hroom
  have issue : issueTsCreate rom refresh res x s = ((s.latch rom (BitVec.ofNat 64 refresh)
      (BitVec.ofNat 32 res)).addSensor rom refresh res).deliver (.success (.nat s.nSens)) :=
    (if_pos hinit).trans ((if_pos (validRes_iff.mpr ⟨hlow, hhigh⟩)).trans (if_pos (fileHasRoom_iff.mpr hroom)))
  exact ⟨_, Config.freeInt s.env.draws, Config.freeNat s.env.draws,
    (operate_idle hs.1 hs.2).trans (congrArg _ (issue.trans (latch_deliver_sensors hs.1 ..))), rfl⟩

/-- A request refused with `F_BAD_OPERAND` (R269). -/
theorem answersAtIssue_badOperand {i : Instr} {o : Op} {issue : Ctx → State → State} {s : State} {x : Ctx}
    (hs : s.IdleAt x) (he : exec i s = operate o issue s) (h : issue x s = s.raise .badOperand) :
    AnswersAtIssue i s x (.ofFault .badOperand) :=
  ⟨x.opa, x.opb, x.opc, by rw [he, operate_idle hs.1 hs.2, h]; exact congrArg _ (deliver_eq_answered hs.1 _)⟩

/-- Settles O50: each test of issue decides as its rule says, and a set writes the record's resolution alone. -/
theorem resolutionIsAStoredValue : Obligations.ResolutionIsAStoredValue := by
  refine ⟨fun s x idx res hs => ⟨fun y hy => ⟨?get, fun hres => ?set, fun hres => ?badRes⟩, fun hidx => ⟨?_, ?_⟩⟩,
    fun r => ⟨decode_of_code .tsGetRes rfl,
      decode_of_code .tsSetRes (congrArg (fun v : Word => Instr.tsSetRes _ v.toNat) low_half_of_b)⟩⟩
  case get =>
    have issue : issueTsGetRes idx x s = (s.latch 0 0 (BitVec.ofNat 32 idx)).deliver (.success (.nat y.res)) := by
      rw [issueTsGetRes, hy]
    refine ⟨0, 0, BitVec.ofNat 32 idx, (operate_idle hs.1 hs.2).trans (congrArg _ (issue.trans ?_))⟩
    exact updCtx_deliver_eq_settled hs.1 _ _
  case set =>
    have hlt : idx < s.nSens := (List.getElem?_eq_some_iff.mp hy).1
    have issue : issueTsSetRes idx res x s = ((s.latch 0 (inLowHalf (BitVec.ofNat 32 res))
        (BitVec.ofNat 32 idx)).updSensor idx fun y => { y with res := res }).deliver (.success .none) :=
      (if_pos hlt).trans (if_pos (validRes_iff.mpr hres))
    have hset : (s.sens.modify idx fun y => { y with res := res }) = s.sens.set idx { y with res := res } := by
      simp [List.modify_eq_set_getElem?, hy]
    rw [← hset]
    exact ⟨0, inLowHalf (BitVec.ofNat 32 res), BitVec.ofNat 32 idx,
      (operate_idle hs.1 hs.2).trans (congrArg _ (issue.trans (latch_deliver_sensors hs.1 ..)))⟩
  case badRes =>
    have hlt : idx < s.nSens := (List.getElem?_eq_some_iff.mp hy).1
    exact answersAtIssue_badOperand (issue := issueTsSetRes idx res) hs rfl
      ((if_pos hlt).trans (if_neg (mt validRes_iff.mp hres)))
  · refine answersAtIssue_badOperand (issue := issueTsGetRes idx) hs rfl ?_
    rw [issueTsGetRes, List.getElem?_eq_none hidx]
  · exact answersAtIssue_badOperand (issue := issueTsSetRes idx res) hs rfl (if_neg (not_lt.mpr hidx))

end Sys2Proof.Machine


/-! # The Temperature Sensor Driver: a read, from issue to result (rules R222 to R242)

TS_TEMP, and TS_TEMP_F which calls it, run the same phases under callers of their own (`TempFrame`). Each part of a
read is run once, from a state `during` it to the next: the cache test, the opens (`finish_open`), the conversion, the
scratchpad. -/

namespace Sys2Proof.Machine

/-! ## Under the two callers -/

/-- What a temperature read with these callers makes of a reading in thousandths of a degree Celsius (R242). -/
def readingOf (callers : List Phase) (m : Int) : Int := if callers = [] then m else fahrenheit m

/-- The instruction of a temperature read of sensor `idx`, its operation and the callers of its own frame. -/
def TempInstr (i : Instr) (idx : Nat) (o : Op) (callers : List Phase) : Prop :=
  (i = .tsTemp idx ∧ o = .tsTemp ∧ callers = []) ∨ (i = .tsTempF idx ∧ o = .tsTempF ∧ callers = [.fCall])

section
variable {o : Op} {callers : List Phase}

/-- A temperature read hands its reading on to the host, in the scale of the operation. -/
theorem TempFrame.ret_reading (h : TempFrame o callers) (m : Int) (s : State) :
    ret callers (.success (.int m)) s = .next (s.deliver (.success (.int (readingOf callers m)))) := by
  rcases h with ⟨-, rfl⟩ | ⟨-, rfl⟩ <;> rfl

theorem TempFrame.ret_failureCode (h : TempFrame o callers) (c : Byte) (s : State) :
    ret callers (.failureCode c) s = .next (s.deliver (.failureCode c)) := by
  rcases h with ⟨-, rfl⟩ | ⟨-, rfl⟩ <;> rfl

theorem TempFrame.romInFlight (h : TempFrame o callers) {y : Ctx} {s : State} {w : Sensor} (ho : y.op = some o)
    (hw : s.sens[y.opc.toNat]? = some w) : romInFlight y s w.addr :=
  .inr ⟨h.imp (fun ⟨e, _⟩ => e ▸ ho) fun ⟨e, _⟩ => e ▸ ho, w, hw, rfl⟩

theorem TempInstr.frame {i : Instr} {idx : Nat} (h : TempInstr i idx o callers) : TempFrame o callers :=
  h.imp And.right And.right

theorem TempInstr.opOf {i : Instr} {idx : Nat} (h : TempInstr i idx o callers) : opOf i = some o := by
  rcases h with ⟨rfl, rfl, -⟩ | ⟨rfl, rfl, -⟩ <;> rfl

/-- The issue of a temperature read, as the beginning of a run. -/
theorem TempInstr.starts {i : Instr} {idx : Nat} (h : TempInstr i idx o callers) {s : State} {x : Ctx}
    (hs : s.IdleAt x) (hidx : idx < s.sens.length) : exec i s = .next (s.during
      { x with op := some o, pc := .tNow0 :: callers, opa := 0, opb := 0, opc := BitVec.ofNat 32 idx } []
      s.clock s.env) := by
  rcases h with ⟨rfl, rfl, rfl⟩ | ⟨rfl, rfl, rfl⟩
  · exact exec_starts (issue := issueTsTemp idx) hs rfl (by decide) (if_pos hidx)
  · exact exec_starts (issue := issueTsTempF idx) hs rfl (by decide) (if_pos hidx)

end

/-! ## The cache test (rule R224) -/

section
variable {s : State} {x y : Ctx} {w : Sensor} {callers : List Phase} {evs : List Event} {c : Nat} {e : Env}
  (hx : s.ctx? = some x) (hw : s.sens[y.opc.toNat]? = some w)
include hx hw

theorem tNow0_fresh (hf : w.fresh (c + e.dt) = true) : phaseEvent .tNow0 callers y (s.during y evs c e) =
    ret callers (.success (.int w.cacheVal))
      (s.during { y with tNow := c + e.dt } (evs ++ [.now (c + e.dt)]) (c + e.dt) e.afterDt) := by
  rw [phaseEvent, phTNow0, withSensor, State.during_sens, hw]
  dsimp only
  rw [State.during_nowAnswer, if_pos hf, State.didNow_during, updCtx_during hx]

theorem tNow0_stale (hf : ¬ w.fresh (c + e.dt) = true) : phaseEvent .tNow0 callers y (s.during y evs c e) =
    .next (s.during { y with tNow := c + e.dt, devOpen := false, pc := .rstCmd :: .oReset :: .tOpen1 :: callers }
      (evs ++ [.now (c + e.dt)]) (c + e.dt) e.afterDt) := by
  rw [phaseEvent, phTNow0, withSensor, State.during_sens, hw]
  dsimp only
  rw [State.during_nowAnswer, if_neg hf, State.didNow_during, updCtx_during hx, callOpen_during hx]

/-! ## The conversion (rules R226 to R230, R241) -/

omit hx in
theorem setFsm_during (f : Fsm) (z : Ctx) : (s.during z evs c e).setFsm y f =
    State.during { s with sens := s.sens.set y.opc.toNat { w with fsm := f } } z evs c e := by
  rw [setFsm_eq (by exact hw)]
  rfl

/-- The exit writes of a failure. -/
theorem exitTemp_during (z : Ctx) : (s.during z evs c e).exitTemp y =
    State.during { s with sens := s.sens.set y.opc.toNat { w with fsm := .idle } } { z with devOpen := false }
      evs c e := by
  rw [State.exitTemp, closeScope_during hx, setFsm_during hw]

theorem tConvChk_event (ha : s.admitted s.cfg.offStatus = true) : phaseEvent .tConvChk callers y (s.during y evs c e) =
    if flagSet e.word s.cfg.stCmdd then
      .next (State.during { s with sens := s.sens.set y.opc.toNat { w with fsm := .conversionComplete } }
        { y with
          tStatus := e.word, devOpen := false, retryCnt := 1, pc := .rstCmd :: .oReset :: .tOpen2 :: callers }
        (evs ++ [.read s.cfg.offStatus e.word]) (c + e.afterWord.dt) e.afterWord.afterDt)
    else ret callers (.failure .convertTimeout .none)
      (State.during { s with sens := s.sens.set y.opc.toNat { w with fsm := .idle } }
        { y with tStatus := e.word, devOpen := false }
        (evs ++ [.read s.cfg.offStatus e.word]) (c + e.afterWord.dt) e.afterWord.afterDt) := by
  rw [phaseEvent, phTConvChk, withSensor, State.during_sens, hw]
  dsimp only
  rw [readReg_of_admitted _ (by exact ha), State.during_cfg, State.didRead_during, State.during_answer,
    updCtx_during hx, closeScope_during hx, setFsm_during hw, exitTemp_during hx hw,
    updCtx_during (by exact hx), callOpen_during (by exact hx)]

end

/-! ## A reading still fresh (rules R224, R242) -/

theorem fresh_iff {w : Sensor} {now : Nat} :
    w.fresh now = true ↔ w.cacheValid = true ∧ now < w.cacheTs + w.refresh := by
  simp [Sensor.fresh]

/-- A read that finds the cache fresh ends with its first event. -/
theorem TempInstr.cached {i : Instr} {idx : Nat} {o : Op} {callers : List Phase} (h : TempInstr i idx o callers)
    {s : State} {x : Ctx} {y : Sensor} (hs : s.IdleAt x) (hidx : idx < 2 ^ 32) (hy : s.sens[idx]? = some y)
    (hf : y.fresh (s.clock + s.env.dt) = true) :
    ∃ u t, exec i s = .next u ∧ finish i 1 u = .next t ∧ t.clock = s.clock + s.env.dt ∧
      t = s.ended t { x with opa := 0, opb := 0, opc := BitVec.ofNat 32 idx, tNow := s.clock + s.env.dt }
        [.now (s.clock + s.env.dt)] (.success (.int (readingOf callers y.cacheVal))) := by
  have hc : (BitVec.ofNat 32 idx).toNat = idx := toNat_ofNat_of_fits32 (decide_eq_true hidx)
  have first := tNow0_fresh (callers := callers) (evs := []) (y := { x with
    op := some o, pc := .tNow0 :: callers, opa := 0, opb := 0, opc := BitVec.ofNat 32 idx }) hs.1 (by rwa [hc]) hf
  rw [h.frame.ret_reading, deliver_during hs.1] at first
  exact ⟨_, _, h.starts hs (List.getElem?_eq_some_iff.mp hy).1, finish_during 0 hs.1 h.opOf rfl rfl first, rfl, rfl⟩

/-- Settles O52: both reads end with the cache test (`TempInstr.cached`). -/
theorem freshCacheIsReturned : Obligations.FreshCacheIsReturned := by
  intro s x idx y hs hidx hy hvalid hage now z
  have hf : y.fresh (s.clock + s.env.dt) = true := fresh_iff.mpr ⟨hvalid, hage⟩
  exact ⟨TempInstr.cached (.inl ⟨rfl, rfl, rfl⟩) hs hidx hy hf, TempInstr.cached (.inr ⟨rfl, rfl, rfl⟩) hs hidx hy hf⟩

/-! ## The check of the conversion (rules R230, R241) -/

/-- Settles O55: the event of T_CONV_CHK (`tConvChk_event`), the failure being handed on to the host. -/
theorem conversionIsCheckedOnce : Obligations.ConversionIsCheckedOnce := by
  intro s x w i callers hx hop hp hw halign hle v z event
  obtain ⟨o, ho, h⟩ : ∃ o, x.op = some o ∧ TempInstr i x.opc.toNat o callers := by
    rcases hop with ⟨hi, ho, hc⟩ | ⟨hi, ho, hc⟩
    · exact ⟨_, ho, .inl ⟨hi, rfl, hc⟩⟩
    · exact ⟨_, ho, .inr ⟨hi, rfl, hc⟩⟩
  have run := exec_event hx ho h.opOf hp
  have check := tConvChk_event (callers := callers) (evs := []) (c := s.clock) (e := s.env) hx hw
    (admitted_iff.mpr ⟨halign, hle⟩)
  rw [← eq_during hx] at check
  rw [check] at run
  refine ⟨fun hclear => ?_, fun hset => ?_⟩
  · rw [if_neg (not_flagSet_of_eq hclear), h.frame.ret_failure, deliver_during (by exact hx)] at run
    exact ⟨_, run, rfl⟩
  · rw [if_pos (flagSet_of_ne hset)] at run
    exact ⟨_, run, rfl⟩

/-! ## A first open that fails (rules R225, R241, R275) -/

/-- A first open that fails ends the read with its code and the exit writes. -/
theorem TempFrame.ret_tOpen1_failure {o : Op} {callers : List Phase} (h : TempFrame o callers) {s : State} {x y : Ctx}
    {w : Sensor} (hx : s.ctx? = some x) (hw : s.sens[y.opc.toNat]? = some w) {r : Result} (hr : r.ok = false)
    (evs : List Event) (c : Nat) (e : Env) : ret (.tOpen1 :: callers) r (s.during y evs c e) =
      .next (State.deliver (.failureCode r.err) (State.during
        { s with sens := s.sens.set y.opc.toNat { w with fsm := .idle } } { y with devOpen := false } evs c e)) := by
  simp only [ret, hr, Bool.false_eq_true, if_false, withCtx, ctx?_during hx]
  rw [exitTemp_during hx hw, h.ret_failureCode]

/-- A read that finds the cache old and whose first open fails. -/
theorem TempInstr.firstOpenFails {i : Instr} {idx : Nat} {o : Op} {callers : List Phase}
    (h : TempInstr i idx o callers) {s : State} {x : Ctx} {y : Sensor} {vs ws rest : List Word} {seen : Bool}
    (hs : s.IdleAt x) (hk : s.cfg.Valid) (hf : s.FixedAdmitted) (hidx : idx < 2 ^ 32) (hy : s.sens[idx]? = some y)
    (hold : ¬ y.fresh (s.clock + s.env.dt) = true) (he : s.env.regs = vs ++ ws ++ rest)
    (hv : PollAnswers s.cfg.stRstd s.cfg.resetPollMax vs seen)
    (hw : seen = true → PollAnswers s.cfg.stWrd s.cfg.matchPollMax ws false) (hn : seen = false → ws = []) :
    let events : List Event := .now (s.clock + s.env.dt) :: devOpenEvents s.cfg y.addr vs seen ws
    ∃ u t, exec i s = .next u ∧ finish i events.length u = .next t ∧ t.env.regs = rest ∧
      t = { s.ended t
          { x with
            opa := 0, opb := 0, opc := BitVec.ofNat 32 idx
            pollCnt := if seen then ws.length else vs.length
            tStatus := if seen then ws.getLastD 0 else vs.getLastD 0
            tNow := s.clock + s.env.dt, devOpen := false }
          events (if seen then ⟨false, 4, .none, none⟩ else ⟨false, 1, .none, none⟩) with
        sens := s.sens.set idx { y with fsm := .idle }
        busPhase := .unknown } := by
  intro events
  have hc : (BitVec.ofNat 32 idx).toNat = idx := toNat_ofNat_of_fits32 (decide_eq_true hidx)
  let y0 : Ctx := { x with
    op := some o, pc := .tNow0 :: callers, opa := 0, opb := 0, opc := BitVec.ofNat 32 idx }
  let y1 : Ctx := { y0 with tNow := s.clock + s.env.dt, devOpen := false }
  have hsens : s.sens[y0.opc.toNat]? = some y := by rwa [hc]
  have first := tNow0_stale (callers := callers) (evs := []) hs.1 hsens hold
  obtain ⟨c', e', pc, hrest, run⟩ := finish_open (y := y1) (done := false) hs.1 h.opOf rfl hf (.tOpen1 :: callers) hk
    (h.frame.romInFlight rfl hsens) hv hw (fun hseen => ⟨hn hseen, rfl⟩) [.now (s.clock + s.env.dt)]
    (s.clock + s.env.dt) s.env.afterDt (by rwa [Env.afterDt_regs])
  have fails : Result.ok (if seen then .failure .addrTimeout .none else .failure .noPresence .none) = false := by
    cases seen <;> rfl
  have ends := run 0 _ (h.frame.ret_tOpen1_failure (s := { s with busPhase := .unknown }) hs.1 (by exact hsens)
    fails _ c' e')
  rw [deliver_during (by exact hs.1), hc] at ends
  refine ⟨_, _, h.starts hs (List.getElem?_eq_some_iff.mp hy).1,
    (finish_during _ hs.1 h.opOf rfl rfl first).trans ends, hrest, ?_⟩
  cases seen <;> rfl

/-- Settles O54: TS_TEMP and TS_TEMP_F alike (`TempInstr.firstOpenFails`). -/
theorem failedFirstOpenEndsTheRead : Obligations.FailedFirstOpenEndsTheRead := by
  intro s x idx y vs ws rest seen hs _ hk hf hidx hy hold he hv hw hn events i hi
  have old := mt fresh_iff.mp hold
  rcases hi with rfl | rfl
  · exact TempInstr.firstOpenFails (.inl ⟨rfl, rfl, rfl⟩) hs hk hf hidx hy old he hv hw hn
  · exact TempInstr.firstOpenFails (.inr ⟨rfl, rfl, rfl⟩) hs hk hf hidx hy old he hv hw hn

/-! ## A full read (rules R222 to R240) -/

theorem convDelay_eq {k : Config} {r : Nat} (hlow : 9 ≤ r) (hhigh : r ≤ 12) :
    convDelay k r = some (conversionTime k r) := by
  interval_cases r <;> rfl

section
variable {s : State} {x y : Ctx} {w : Sensor} {callers : List Phase} {evs : List Event} {c : Nat} {e : Env}
  (hx : s.ctx? = some x)
include hx

theorem tConvExec_event (hw : s.sens[y.opc.toNat]? = some w) (ha : s.admitted s.cfg.regTrigger = true) :
    phaseEvent .tConvExec callers y (s.during y evs c e) = .next
      (State.during { s with sens := s.sens.set y.opc.toNat { w with fsm := .conversionInProgress } }
        { y with pc := .tConvWait :: callers } (evs ++ [.write s.cfg.regTrigger Cmd.execPullup]) (c + e.dt)
        e.afterDt) := by
  rw [phaseEvent, phTConvExec, withSensor, State.during_sens, hw]
  dsimp only
  rw [writeReg_of_admitted _ (by exact ha), State.didWrite_during, setFsm_during hw, goto_during (by exact hx)]
  rfl

theorem tConvWait_event (hw : s.sens[y.opc.toNat]? = some w) (hlow : 9 ≤ w.res) (hhigh : w.res ≤ 12) :
    phaseEvent .tConvWait callers y (s.during y evs c e) = .next (s.during { y with pc := .tConvChk :: callers }
      (evs ++ [.delay (conversionTime s.cfg w.res)]) (c + conversionTime s.cfg w.res + e.dt) e.afterDt) := by
  rw [phaseEvent, phTConvWait, withSensor, State.during_sens, hw]
  dsimp only
  rw [State.during_cfg, convDelay_eq hlow hhigh]
  dsimp only
  rw [State.didDelay_during, goto_during hx]

theorem tRdExec_event (ha : s.admitted s.cfg.regTrigger = true) :
    phaseEvent .tRdExec callers y (s.during y evs c e) = .next (s.during { y with
      pollCnt := 0, pc := .tRdPoll :: callers } (evs ++ [.write s.cfg.regTrigger Cmd.readTimeSlots]) (c + e.dt)
      e.afterDt) := by
  rw [phaseEvent, phTRdExec, writeReg_of_admitted _ (by exact ha), State.didWrite_during, updCtx_during hx]
  rfl

theorem tRdData_event (ha : s.admitted s.cfg.offRdData0 = true) :
    phaseEvent .tRdData callers y (s.during y evs c e) = .next (s.during { y with
      tRaw := e.word, devOpen := false, pc := .tNow1 :: callers } (evs ++ [.read s.cfg.offRdData0 e.word])
      (c + e.afterWord.dt) e.afterWord.afterDt) := by
  rw [phaseEvent, phTRdData, readReg_of_admitted _ (by exact ha), State.during_cfg, State.didRead_during,
    State.during_answer, updCtx_during hx, closeScope_during hx, goto_during hx]

theorem tNow1_event (hw : s.sens[y.opc.toNat]? = some w) :
    phaseEvent .tNow1 callers y (s.during y evs c e) = ret callers (.success (.int (milliC (rawTemp y.tRaw))))
      (State.during { s with
          sens := s.sens.set y.opc.toNat { w with
            cacheVal := milliC (rawTemp y.tRaw), cacheTs := c + e.dt, cacheValid := true, fsm := .idle } }
        { y with tNow := c + e.dt } (evs ++ [.now (c + e.dt)]) (c + e.dt) e.afterDt) := by
  rw [phaseEvent, phTNow1, withSensor, State.during_sens, hw]
  dsimp only
  rw [State.didNow_during, State.during_nowAnswer, updCtx_during hx, State.updSensor, State.during_sens,
    List.modify_eq_set_getElem?, hw]
  rfl

end

section
variable {i : Instr} {o : Op} {s : State} {x y : Ctx} {w : Sensor} {callers : List Phase} (hx : s.ctx? = some x)
  (hi : opOf i = some o) (ho : y.op = some o) (hk : s.cfg.Valid) (hf : s.FixedAdmitted)
include hx hi ho hk hf

/-- An open that succeeds, run to the phase its caller goes on with. -/
theorem finish_open_found {q p : Phase}
    (hq : ∀ t, ret (q :: callers) (.success .none) t = .next (t.goto (p :: callers))) {rom : RomCode} (hr : romInFlight y s rom) {vs ws rest : List Word}
    (hvs : PollAnswers s.cfg.stRstd s.cfg.resetPollMax vs true)
    (hws : PollAnswers s.cfg.stWrd s.cfg.matchPollMax ws true) (evs : List Event) (c : Nat) (e : Env)
    (he : e.regs = vs ++ ws ++ rest) :
    ∃ c' e', e'.regs = rest ∧ ∀ m,
      finish i ((devOpenEvents s.cfg rom vs true ws).length + m)
        (s.during { y with pc := .rstCmd :: .oReset :: q :: callers } evs c e) =
      finish i m (State.during { s with busPhase := .matched rom }
        { y with
          tStatus := ws.getLastD 0, pollCnt := ws.length, devOpen := true, devAddr := rom, pc := p :: callers }
        (evs ++ devOpenEvents s.cfg rom vs true ws) c' e') := by
  obtain ⟨c', e', pc, hrest, run⟩ := finish_open (done := true) hx hi ho hf (q :: callers) hk hr hvs (fun _ => hws)
    nofun evs c e he
  refine ⟨c', e', hrest, fun m => run m _ ((hq _).trans ?_)⟩
  rw [goto_during (by exact hx)]
  rfl

variable (hw : s.sens[y.opc.toNat]? = some w)
include hw

/-- A conversion whose check finds command-done, run to the open of the first scratchpad attempt (R226 to R230). -/
theorem finish_conversion (hlow : 9 ≤ w.res) (hhigh : w.res ≤ 12) {status : Word} {rest : List Word}
    (hst : status &&& s.cfg.stCmdd ≠ 0) (evs : List Event) (c : Nat) (e : Env) (he : e.regs = status :: rest) :
    ∃ c' e', e'.regs = rest ∧ ∀ m,
      finish i ((convertSequence s.cfg w.res status).length + m)
        (s.during { y with pc := .tConvCmd :: callers } evs c e) =
      finish i m (State.during { s with sens := s.sens.set y.opc.toNat { w with fsm := .conversionComplete } }
        { y with
          tStatus := status, devOpen := false, retryCnt := 1, pc := .rstCmd :: .oReset :: .tOpen2 :: callers }
        (evs ++ convertSequence s.cfg w.res status) c' e') := by
  let s1 : State := { s with sens := s.sens.set y.opc.toNat { w with fsm := .conversionInProgress } }
  have hw1 : s1.sens[y.opc.toNat]? = some { w with fsm := .conversionInProgress } := by
    simp [s1, (List.getElem?_eq_some_iff.mp hw).1]
  have adm : ∀ o ∈ s.cfg.fixedOffsets, s.admitted o = true := fun o ho => admitted_of_fixed hf ho
  have he3 : e.afterDt.afterDt.afterDt.regs = status :: rest := by simpa only [Env.afterDt_regs] using he
  let c3 : Nat := c + e.dt + e.afterDt.dt + conversionTime s.cfg w.res + e.afterDt.afterDt.dt
  refine ⟨c3 + e.afterDt.afterDt.afterDt.afterWord.dt, e.afterDt.afterDt.afterDt.afterWord.afterDt,
    (Env.afterDt_regs _).trans (Env.afterWord_regs he3), fun m => ?_⟩
  let ev : List Event := evs ++ [.write s.cfg.offCommand Cmd.convertT] ++ [.write s.cfg.regTrigger Cmd.execPullup] ++
    [.delay (conversionTime s.cfg w.res)]
  have check := tConvChk_event (s := s1) (callers := callers) (y := { y with pc := .tConvChk :: callers }) (evs := ev)
    (c := c3) (e := e.afterDt.afterDt.afterDt) hx hw1 (adm s.cfg.offStatus (by simp [Config.fixedOffsets]))
  rw [Env.word_of_regs he3, if_pos (flagSet_of_ne hst)] at check
  have hlen : (convertSequence s.cfg w.res status).length + m = m + 1 + 1 + 1 + 1 := Nat.add_comm 4 m
  have hevs : evs ++ convertSequence s.cfg w.res status = ev ++ [.read s.cfg.offStatus status] := by
    simp [ev, convertSequence, Cmd.convertT, Cmd.execPullup]
  rw [hlen, hevs]
  calc finish i (m + 1 + 1 + 1 + 1) (s.during { y with pc := .tConvCmd :: callers } evs c e)
    _ = finish i (m + 1 + 1 + 1) _ := finish_write (pc := .tConvExec :: callers) hx hi ho
          (adm s.cfg.offCommand (by simp [Config.fixedOffsets])) (fun _ _ _ => rfl) _ evs c e
    _ = finish i (m + 1 + 1) _ := finish_during _ hx hi (by exact ho) rfl
          (tConvExec_event hx hw (adm _ (regTrigger_mem hk)))
    _ = finish i (m + 1) _ := finish_during (s := s1) _ hx hi (by exact ho) rfl (tConvWait_event hx hw1 hlow hhigh)
    _ = finish i m _ := finish_during (s := s1) _ hx hi (by exact ho) rfl check
    _ = _ := by simp only [s1, List.set_set]

/-- A scratchpad read whose poll finds read-done, run to the return of its reading (R232 to R240). -/
theorem finish_scratch {ps rest : List Word} {raw : Word}
    (hps : PollAnswers s.cfg.stRdd s.cfg.scratchPollMax ps true) (evs : List Event) (c : Nat) (e : Env)
    (he : e.regs = ps ++ raw :: rest) :
    ∃ c' e', e'.regs = rest ∧ ∀ m t,
      ret callers (.success (.int (milliC (rawTemp raw)))) (State.during
          { s with sens := s.sens.set y.opc.toNat { w with
              cacheVal := milliC (rawTemp raw), cacheTs := c', cacheValid := true, fsm := .idle } }
          { y with
            tStatus := ps.getLastD 0, pollCnt := ps.length, tRaw := raw, devOpen := false, tNow := c'
            pc := .tNow1 :: callers }
          (evs ++ scratchSequence s.cfg ps ++ [.read s.cfg.offRdData0 raw, .now c']) c' e') = .next t →
      finish i ((scratchSequence s.cfg ps).length + 2 + m)
        (s.during { y with pc := .tRdCmd :: callers } evs c e) = finish i m t := by
  have adm : ∀ o ∈ s.cfg.fixedOffsets, s.admitted o = true := fun o ho => admitted_of_fixed hf ho
  let ev : List Event := evs ++ [.write s.cfg.offCommand Cmd.readScratchpad] ++
    [.write s.cfg.offRdSize s.cfg.rdSizeScratch] ++ [.write s.cfg.regTrigger Cmd.readTimeSlots]
  obtain ⟨c4, e4, he4, polled⟩ := finish_polled (y := y) (p := .tRdPoll) (w := .tRdWait) (callers := callers)
    (d := s.cfg.tPollScratch) (D := fun t => .next (t.goto (.tRdData :: callers)))
    (E := fun t => failAttempt callers t.closeScope fun e u => ret callers e u) hx hi ho hf
    (fun _ _ _ _ _ => rfl) (fun _ _ _ _ => rfl) hps y.tStatus ev (c + e.dt + e.afterDt.dt + e.afterDt.afterDt.dt)
    e.afterDt.afterDt.afterDt (by simpa only [Env.afterDt_regs] using he)
  have he5 : e4.afterWord.afterDt.regs = rest := (Env.afterDt_regs _).trans (Env.afterWord_regs he4)
  refine ⟨c4 + e4.afterWord.dt + e4.afterWord.afterDt.dt, e4.afterWord.afterDt.afterDt,
    (Env.afterDt_regs _).trans he5, fun m t ht => ?_⟩
  have data := tRdData_event (evs := ev ++ pollEvents s.cfg.offStatus s.cfg.tPollScratch ps) (c := c4) (e := e4)
    (callers := callers) (y := { y with
      tStatus := ps.getLastD 0, pollCnt := ps.length, pc := .tRdData :: callers }) hx
    (adm s.cfg.offRdData0 (by simp [Config.fixedOffsets]))
  rw [Env.word_of_regs he4] at data
  have hlen : (scratchSequence s.cfg ps).length + 2 + m =
      (pollEvents s.cfg.offStatus s.cfg.tPollScratch ps).length + (m + 1 + 1) + 1 + 1 + 1 := by
    simp only [scratchSequence, List.length_append, List.length_cons, List.length_nil]
    omega
  have hevs : evs ++ scratchSequence s.cfg ps = ev ++ pollEvents s.cfg.offStatus s.cfg.tPollScratch ps := by
    simp [ev, scratchSequence, Cmd.readScratchpad, Cmd.readTimeSlots]
  have now := tNow1_event (evs := ev ++ pollEvents s.cfg.offStatus s.cfg.tPollScratch ps ++
      [.read s.cfg.offRdData0 raw]) (c := c4 + e4.afterWord.dt) (e := e4.afterWord.afterDt) (callers := callers)
    (y := { y with
      tStatus := ps.getLastD 0, pollCnt := ps.length, tRaw := raw, devOpen := false, pc := .tNow1 :: callers }) hx hw
  rw [List.append_assoc _ [_] [_]] at now
  rw [hevs] at ht
  rw [hlen]
  calc finish i (_ + 1 + 1 + 1) (s.during { y with pc := .tRdCmd :: callers } evs c e)
    _ = finish i (_ + 1 + 1) _ := finish_write (pc := .tRdSz :: callers) hx hi ho
          (adm s.cfg.offCommand (by simp [Config.fixedOffsets])) (fun _ _ _ => rfl) _ evs c e
    _ = finish i (_ + 1) _ := finish_write (pc := .tRdExec :: callers) hx hi ho
          (adm s.cfg.offRdSize (by simp [Config.fixedOffsets])) (fun _ _ _ => rfl) _ _ _ _
    _ = finish i _ _ := finish_during _ hx hi (by exact ho) rfl (tRdExec_event hx (adm _ (regTrigger_mem hk)))
    _ = finish i (m + 1 + 1) _ := polled _ _ (congrArg Host.Outcome.next (goto_during hx _ _ _ _ _))
    _ = finish i (m + 1) _ := finish_during _ hx hi (by exact ho) rfl data
    _ = finish i m t := finish_during _ hx hi (by exact ho) rfl (now.trans ht)

end

/-- A read that finds the cache old and in which both opens, the conversion and the first scratchpad attempt
succeed. -/
theorem TempInstr.read {i : Instr} {idx : Nat} {o : Op} {callers : List Phase} (h : TempInstr i idx o callers)
    {s : State} {x : Ctx} {y : Sensor} {vs ws vs' ws' ps rest : List Word} {status raw : Word} (hs : s.IdleAt x)
    (hk : s.cfg.Valid) (hf : s.FixedAdmitted) (hidx : idx < 2 ^ 32) (hy : s.sens[idx]? = some y) (hlow : 9 ≤ y.res)
    (hhigh : y.res ≤ 12) (hold : ¬ y.fresh (s.clock + s.env.dt) = true)
    (he : s.env.regs = vs ++ ws ++ status :: vs' ++ ws' ++ ps ++ raw :: rest)
    (hvs : PollAnswers s.cfg.stRstd s.cfg.resetPollMax vs true)
    (hws : PollAnswers s.cfg.stWrd s.cfg.matchPollMax ws true) (hst : status &&& s.cfg.stCmdd ≠ 0)
    (hvs' : PollAnswers s.cfg.stRstd s.cfg.resetPollMax vs' true)
    (hws' : PollAnswers s.cfg.stWrd s.cfg.matchPollMax ws' true)
    (hps : PollAnswers s.cfg.stRdd s.cfg.scratchPollMax ps true) :
    let m := milliC (rawTemp raw)
    let events (now : Nat) : List Event :=
      .now (s.clock + s.env.dt) :: devOpenEvents s.cfg y.addr vs true ws ++
      convertSequence s.cfg y.res status ++ devOpenEvents s.cfg y.addr vs' true ws' ++
      scratchSequence s.cfg ps ++ [.read s.cfg.offRdData0 raw, .now now]
    ∃ u t, exec i s = .next u ∧ finish i (events t.clock).length u = .next t ∧ t.env.regs = rest ∧
      t = { s.ended t
          { x with
            opa := 0, opb := 0, opc := BitVec.ofNat 32 idx, pollCnt := ps.length, retryCnt := 1
            tStatus := ps.getLastD 0, tNow := t.clock, tRaw := raw, devOpen := false
            devAddr := y.addr }
          (events t.clock) ⟨true, 0, .int (readingOf callers m), none⟩ with
        sens := s.sens.set idx { y with cacheVal := m, cacheTs := t.clock, cacheValid := true, fsm := .idle }
        busPhase := .matched y.addr } := by
  intro m events
  let y0 : Ctx := { x with
    op := some o, pc := .tNow0 :: callers, opa := 0, opb := 0, opc := BitVec.ofNat 32 idx }
  have hc : y0.opc.toNat = idx := toNat_ofNat_of_fits32 (decide_eq_true hidx)
  have hsens : s.sens[y0.opc.toNat]? = some y := by rwa [hc]
  have stale := tNow0_stale (callers := callers) (evs := []) hs.1 hsens hold
  obtain ⟨c1, e1, he1, open1⟩ := finish_open_found (callers := callers) (q := .tOpen1) (p := .tConvCmd)
    (rest := status :: (vs' ++ ws' ++ (ps ++ raw :: rest)))
    (y := { y0 with tNow := s.clock + s.env.dt, devOpen := false }) hs.1 h.opOf rfl hk hf (fun _ => rfl)
    (h.frame.romInFlight rfl hsens) hvs hws [.now (s.clock + s.env.dt)] (s.clock + s.env.dt) s.env.afterDt
    (by rw [Env.afterDt_regs, he]; simp only [List.append_assoc, List.cons_append])
  let s1 : State := { s with busPhase := .matched y.addr }
  obtain ⟨c2, e2, he2, convert⟩ := finish_conversion (s := s1) (callers := callers)
    (y := { y0 with
      tNow := s.clock + s.env.dt, tStatus := ws.getLastD 0, pollCnt := ws.length, devOpen := true, devAddr := y.addr })
    hs.1 h.opOf rfl hk hf hsens hlow hhigh hst _ c1 e1 he1
  let s2 : State := { s1 with sens := s.sens.set y0.opc.toNat { y with fsm := .conversionComplete } }
  have hsens2 : s2.sens[y0.opc.toNat]? = some { y with fsm := .conversionComplete } := by
    simp [s2, (List.getElem?_eq_some_iff.mp hsens).1]
  obtain ⟨c3, e3, he3, open2⟩ := finish_open_found (s := s2) (callers := callers) (q := .tOpen2) (p := .tRdCmd)
    (y := { y0 with
      tNow := s.clock + s.env.dt, tStatus := status, pollCnt := ws.length, retryCnt := 1, devOpen := false
      devAddr := y.addr })
    hs.1 h.opOf rfl hk hf (fun _ => rfl) (h.frame.romInFlight rfl hsens2) hvs' hws' _ c2 e2 he2
  obtain ⟨c4, e4, he4, scratch⟩ := finish_scratch (s := s2) (callers := callers)
    (y := { y0 with
      tNow := s.clock + s.env.dt, tStatus := ws'.getLastD 0, pollCnt := ws'.length, retryCnt := 1, devOpen := true
      devAddr := y.addr })
    hs.1 h.opOf rfl hk hf hsens2 hps _ c3 e3 he3
  have ends := scratch 0 _ (h.frame.ret_reading m _)
  rw [deliver_during (by exact hs.1)] at ends
  have hlen : ∀ now, (events now).length = (devOpenEvents s.cfg y.addr vs true ws).length +
      ((convertSequence s.cfg y.res status).length + ((devOpenEvents s.cfg y.addr vs' true ws').length +
        ((scratchSequence s.cfg ps).length + 2 + 0))) + 1 := fun now => by
    simp only [events, List.length_append, List.length_cons, List.length_nil]
    omega
  have run := (finish_during _ hs.1 h.opOf rfl rfl stale).trans
    ((open1 _).trans ((convert _).trans ((open2 _).trans ends)))
  refine ⟨_, _, h.starts hs (List.getElem?_eq_some_iff.mp hy).1, (congrArg (finish i · _) (hlen _)).trans run, he4, ?_⟩
  simp only [s2, s1, List.set_set, hc]
  rfl

/-- Settles O53: TS_TEMP and TS_TEMP_F alike (`TempInstr.read`). -/
theorem temperatureIsRead : Obligations.TemperatureIsRead := by
  intro s x idx y vs ws vs' ws' ps rest status raw hs _ hk hf hidx hy hlow hhigh hold he hvs hws hst hvs' hws' hps
  have old := mt fresh_iff.mp hold
  exact ⟨TempInstr.read (.inl ⟨rfl, rfl, rfl⟩) hs hk hf hidx hy hlow hhigh old he hvs hws hst hvs' hws' hps,
    TempInstr.read (.inr ⟨rfl, rfl, rfl⟩) hs hk hf hidx hy hlow hhigh old he hvs hws hst hvs' hws' hps⟩

end Sys2Proof.Machine

/-! # Time (rules R280 to R282) and the results that stand for exceptions (60_exceptions.md) -/

namespace Sys2Proof.Machine

/-! ## Time (rules R280 to R282)

The clock moves only with an event, and each event says by how much at least. -/

/-- An event may take the clock from `a` to `b`: not back, a delay for what it asks for, a sample to what it
answers (R280 to R282). -/
structure Event.Takes (e : Event) (a b : Nat) : Prop where
  forward : a ≤ b
  delay : ∀ d, e = .delay d → a + d ≤ b
  sample : ∀ n, e = .now n → n = b

/-- Events may, one after the other, take the clock from `a` to `b`; no event leaves it. -/
def TakeTime : List Event → Nat → Nat → Prop
  | [], a, b => b = a
  | e :: evs, a, b => ∃ m, e.Takes a m ∧ TakeTime evs m b

theorem TakeTime.append {evs' : List Event} {b c : Nat} (h' : TakeTime evs' b c) :
    ∀ {evs : List Event} {a : Nat}, TakeTime evs a b → TakeTime (evs ++ evs') a c
  | [], _, h => by
    obtain rfl : b = _ := h
    exact h'
  | _ :: _, _, ⟨m, he, h⟩ => ⟨m, he, h'.append h⟩

/-- An event that is no delay and no sample. -/
theorem takeTime_other {e : Event} (a d : Nat) (hd : ∀ d, e ≠ .delay d := by exact nofun)
    (hn : ∀ n, e ≠ .now n := by exact nofun) : TakeTime [e] a (a + 0 + d) :=
  ⟨_, ⟨Nat.le_add_right a d, fun d h => absurd h (hd d), fun n h => absurd h (hn n)⟩, rfl⟩

/-- Whatever is made of shared operations takes the time of its events. -/
theorem Does.takeTime {evs : List Event} {s t : State} (h : Does evs s t) : TakeTime evs s.clock t.clock := by
  induction h with
  | seq _ _ ih ih' => exact ih'.append ih
  | read | write | clkGet | clkSet | lockTas => exact takeTime_other _ _
  | delay s d =>
    refine ⟨_, ⟨(Nat.le_add_right _ d).trans (Nat.le_add_right _ _), fun d' h => ?_, nofun⟩, rfl⟩
    obtain rfl : d = d' := Event.delay.inj h
    exact Nat.le_add_right _ _
  | now s => exact ⟨_, ⟨Nat.le_add_right _ _, nofun, fun n h => (Event.now.inj h).symm⟩, rfl⟩
  | construct s x => exact State.construct_clock s x
  | insert s r => exact State.insertIfNew_clock s r
  | none | ctx | unlock | bus | sensor | addSensor | deliver => rfl

/-- The inversion lemma of the step, for the clock and the trace: no event and no time, or one event and what it
takes. -/
theorem step_takes {s t : State} (h : step s = .next t) : (t.clock = s.clock ∧ t.trace = s.trace) ∨
    ∃ c e, t.trace = (c, e) :: s.trace ∧ e.Takes s.clock t.clock := by
  rcases step_does h with rfl | ⟨u, evs, hd, hlen, e, hu, -⟩
  · exact .inl ⟨rfl, rfl⟩
  · have hclock : u.clock = s.clock := by rw [hu]
    have htrace : u.trace = s.trace := by rw [hu]
    have time := hclock ▸ hd.takeTime
    have made := hd.trace
    rw [Made, htrace] at made
    match evs, hlen with
    | [], _ => exact .inl ⟨time, made⟩
    | [e], _ =>
      obtain ⟨_, he, rfl⟩ := time
      exact .inr ⟨_, e, made, he⟩

theorem State.ClockOk.of_same {s t : State} (h : s.ClockOk) (hc : t.clock = s.clock) (ht : t.trace = s.trace) :
    t.ClockOk := by
  unfold State.ClockOk
  rw [hc, ht]
  exact h

/-- A sample is the clock, which no earlier sample is above. -/
theorem State.ClockOk.cons {s t : State} {c : Nat} {e : Event} (h : s.ClockOk)
    (ht : t.trace = (c, e) :: s.trace) (he : e.Takes s.clock t.clock) : t.ClockOk := by
  obtain ⟨hle, hsorted⟩ := h
  have earlier : ∀ c n, (c, Event.now n) ∈ s.trace → n ≤ t.clock := fun c n hm => (hle c n hm).trans he.forward
  unfold State.ClockOk
  rw [ht]
  refine ⟨fun c' n hm => ?_, ?_⟩
  · rcases List.mem_cons.mp hm with hm | hm
    · exact (he.sample n (Prod.mk.inj hm).2.symm).le
    · exact earlier c' n hm
  · cases e
    case now n =>
      refine List.pairwise_cons.mpr ⟨fun m hm => ?_, hsorted⟩
      obtain ⟨⟨c', e'⟩, hmem, hsample⟩ := List.mem_filterMap.mp hm
      obtain rfl : e' = .now m := by
        cases e' <;> cases hsample
        rfl
      exact he.sample n rfl ▸ earlier c' m hmem
    all_goals exact hsorted

/-- Settles O22: a step makes no event, or one that takes its time (`step_takes`). -/
theorem timeOnlyPasses : Obligations.TimeOnlyPasses := by
  intro s t h
  rcases step_takes h with ⟨hclock, htrace⟩ | ⟨c, e, htrace, he⟩
  · have noEvent : ∀ v, t.trace ≠ v :: s.trace := fun v hv => List.cons_ne_self v _ (hv.symm.trans htrace)
    exact ⟨hclock.ge, fun _ _ hv => absurd hv (noEvent _), fun _ _ hv => absurd hv (noEvent _),
      fun ok => ok.of_same hclock htrace⟩
  · have event : ∀ {c' e'}, t.trace = (c', e') :: s.trace → e = e' := fun hv =>
      (Prod.mk.inj (List.cons.inj (htrace.symm.trans hv)).1).2
    exact ⟨he.forward, fun _ d hv => he.delay d (event hv), fun _ n hv => he.sample n (event hv),
      fun ok => ok.cons htrace he⟩

/-! ## Requests that end at issue (rules R266, R267, R269, R271, R272) -/

theorem rejectRequest_reserved {s : State} {x : Ctx} {op : Byte} (hx : s.ctx? = some x) :
    rejectRequest (.reservedOpcode op) s = .next (s.raise (.badOp op)) := by
  simp [rejectRequest, hx]

/-- Settles O12: a record with a reserved opcode is rejected, which delivers `F_BAD_OP`. -/
theorem reservedOpcodeEndsAtIssue : Obligations.ReservedOpcodeEndsAtIssue := by
  intro s u c x r rest hu hin hop hx
  have hctx : State.ctx? { u with inbox := rest, cur := c } = some x :=
    (congrArg (·[c]?) (turn_ctxs hu)).trans hx
  rw [step_reject hu hin (decode_of_reserved hop), rejectRequest_reserved hctx]
  exact congrArg _ (deliver_eq_answered hctx _)

/-- Settles O35: each of the seven tests `initialized` at issue; an ADDR operation and DEV_CLOSE have no test; and
soundness says what there is before construction. -/
theorem busOperationsNeedBusInit : Obligations.BusOperationsNeedBusInit := by
  intro s x hs hinit
  have hn : ¬ s.initialized = true := Bool.eq_false_iff.mp hinit
  refine ⟨fun i hi => ?_, fun i hi => ?_, fun sound => ?_⟩
  · rcases hi with rfl | ⟨alarm, rfl⟩ | ⟨rom, rfl⟩ | ⟨off, rfl⟩ | ⟨off, v, rfl⟩ | ⟨rom, rfl⟩ |
      ⟨rom, refresh, res, rfl⟩
    · exact answersAtIssue_of_latch_raise (issue := issueBusReset) hs rfl (if_neg hn)
    · exact answersAtIssue_of_latch_raise (issue := issueBusSearch alarm) hs rfl (if_neg hn)
    · exact answersAtIssue_of_latch_raise (issue := issueBusMatch rom) hs rfl (if_neg hn)
    · exact answersAtIssue_of_latch_raise (issue := issueBusRd off) hs rfl (if_neg hn)
    · exact answersAtIssue_of_latch_raise (issue := issueBusWr off v) hs rfl (if_neg hn)
    · exact answersAtIssue_of_latch_raise (issue := issueDevOpen rom) hs rfl (if_neg hn)
    · exact answersAtIssue_of_latch_raise (issue := issueTsCreate rom refresh res) hs rfl (if_neg hn)
  · rcases hi with ⟨rom, rfl⟩ | ⟨rom, rfl⟩ | ⟨rom, rfl⟩ | ⟨rom, rfl⟩ | ⟨p, q, rfl⟩ | rfl
    iterate 5 · exact ⟨_, x.devOpen, answersAtIssue_of_deliver hs rfl⟩
    · exact ⟨.none, false, devCloseClosesTheScope.1 s x hs⟩
  · obtain ⟨hsens, -, hctxs⟩ := sound.before hinit
    exact ⟨(hctxs x (mem_of_ctx? hs.1)).1, hsens⟩

/-- Settles O48: each of the four tests the scope at issue before its offset (R274). -/
theorem passthroughsNeedAScope : Obligations.PassthroughsNeedAScope := by
  intro s x i hs hclosed hi
  have hn : ¬ x.devOpen = true := Bool.eq_false_iff.mp hclosed
  rcases hi with ⟨v, rfl⟩ | ⟨v, rfl⟩ | ⟨off, v, rfl⟩ | ⟨off, rfl⟩
  · exact answersAtIssue_of_latch_raise (issue := issueDevWcmd v) hs rfl (if_neg hn)
  · exact answersAtIssue_of_latch_raise (issue := issueDevWctl v) hs rfl (if_neg hn)
  · exact answersAtIssue_of_latch_raise (issue := issueDevWr off v) hs rfl (if_neg hn)
  · exact answersAtIssue_of_latch_raise (issue := issueDevRd off) hs rfl (if_neg hn)

/-- A request refused with `F_BAD_OPERAND` keeps the latches too (R269). -/
theorem exec_badOperand {i : Instr} {o : Op} {issue : Ctx → State → State} {s : State} {x : Ctx}
    (hs : s.IdleAt x) (he : exec i s = operate o issue s) (h : issue x s = s.raise .badOperand) :
    exec i s = .next (s.answered x (.ofFault .badOperand)) :=
  he.trans ((operate_idle hs.1 hs.2).trans (congrArg _ (h.trans (deliver_eq_answered hs.1 _))))

/-- Settles O51: each test of issue that fails raises `F_BAD_OPERAND` with nothing latched. -/
theorem badOperandsAreRefused : Obligations.BadOperandsAreRefused := by
  intro s x i hs hi
  rcases hi with ⟨idx, hidx, hi⟩ | ⟨idx, res, hres, rfl⟩ | ⟨rom, refresh, res, hinit, hres, rfl⟩ |
    ⟨rom, refresh, res, most, hinit, hmost, hfull, rfl⟩
  · have hn : ¬ idx < s.nSens := not_lt.mpr hidx
    rcases hi with rfl | rfl | rfl | ⟨res, rfl⟩
    · exact exec_badOperand (issue := issueTsTemp idx) hs rfl (if_neg hn)
    · exact exec_badOperand (issue := issueTsTempF idx) hs rfl (if_neg hn)
    · refine exec_badOperand (issue := issueTsGetRes idx) hs rfl ?_
      rw [issueTsGetRes, List.getElem?_eq_none hidx]
    · exact exec_badOperand (issue := issueTsSetRes idx res) hs rfl (if_neg hn)
  · have hn : ¬ validRes res = true := mt validRes_iff.mp hres
    refine exec_badOperand (issue := issueTsSetRes idx res) hs rfl ?_
    rw [issueTsSetRes, if_neg hn, ite_self]
  · have hn : ¬ validRes res = true := mt validRes_iff.mp hres
    exact exec_badOperand (issue := issueTsCreate rom refresh res) hs rfl ((if_pos hinit).trans (if_neg hn))
  · have hn : ¬ fileHasRoom s.cfg s.nSens = true := fun h =>
      not_lt.mpr hfull (fileHasRoom_iff.mp h most hmost)
    refine exec_badOperand (issue := issueTsCreate rom refresh res) hs rfl ((if_pos hinit).trans ?_)
    rw [if_neg hn, ite_self]

end Sys2Proof.Machine

/-! # Reset and the quiet machine (70_reset_and_hazards.md): R301, R322 -/

namespace Sys2Proof.Machine

/-- Settles O13: the table and the sensor file start empty, and every context is `Ctx.reset`. -/
theorem resetState : Obligations.ResetState := fun k => by
  refine ⟨rfl, rfl, rfl, rfl, rfl, rfl, List.length_replicate, rfl, fun x hx => ?_⟩
  obtain rfl := eq_reset_of_mem_resetWith hx
  exact ⟨rfl, rfl, rfl, rfl, rfl, rfl⟩

/-- Nobody can move: there is no request to issue and no context to run. -/
theorem turns_nil {s : State} (hb : ∀ c, s.busy c = false) (hin : s.inbox = []) : s.turns = [] := by
  simp [State.turns, hin, busyContexts_nil hb]

/-- The converse of `turn_none`. -/
theorem turn_of_turns_nil {s : State} (h : s.turns = []) : s.turn = none := by
  simp [State.turn, h]

theorem step_quiet {s : State} (h : s.turn = none) : step s = .next s := by
  simp [step, State.fetch, h]

/-- Settles O10: nobody can move, so no turn is chosen and the step is the quiet one. -/
theorem quietMachineStaysAsItIs : Obligations.QuietMachineStaysAsItIs :=
  fun _ hb hin => step_quiet (turn_of_turns_nil (turns_nil hb hin))

end Sys2Proof.Machine

/-! # The presented word (the model's own interface, log entry 9) -/

namespace Sys2Proof.Machine

/-- With the context of the host's next request idle, its issue is the first of the turns. -/
theorem turns_of_idle {s : State} {c : Nat} {q : Request} {rest : List (Nat × Request)}
    (hin : s.inbox = (c, q) :: rest) (hc : s.busy c = false) :
    s.turns = .issue :: s.busyContexts.map .run := by
  simp [State.turns, hin, hc]

/-- A 0 at the head of the scheduler's script chooses the first of several turns, and is used up by it. -/
theorem turn_of_zero_pick {s : State} {m : Turn} {ms : List Turn} (h : s.turns = m :: ms) (hms : ms ≠ []) :
    State.turn { s with env := { s.env with picks := 0 :: s.env.picks } } = some (m, s) := by
  have same : State.turns { s with env := { s.env with picks := 0 :: s.env.picks } } = m :: ms := h
  obtain ⟨m', ms', rfl⟩ := List.exists_cons_of_ne_nil hms
  simp [State.turn, same, Env.pick, Env.afterPick]

/-- The state `present` makes, but for the pick it may add (`present_eq`). -/
def State.presenting (q : Request) (s : State) : State :=
  { s with
    inbox := (0, q) :: s.inbox
    ctxs := s.ctxs.modify 0 fun x => { x with op := none, pc := [] } }

theorem present_eq (q : Request) (s : State) :
    s.present q = if (s.presenting q).busyContexts.isEmpty then s.presenting q
      else { s.presenting q with env := { s.env with picks := 0 :: s.env.picks } } := rfl

/-- Also where there is no context 0: one that is not there is not busy. -/
theorem busy_presenting (q : Request) (s : State) : (s.presenting q).busy 0 = false := by
  cases h : s.ctxs[0]? <;> simp [State.busy, State.presenting, h]

/-- The presented request is issued next: it is the only turn, or the pick `present` adds chooses it. -/
theorem turn_present (q : Request) (s : State) : (s.present q).turn = some (.issue, s.presenting q) := by
  have turns : (s.presenting q).turns = .issue :: (s.presenting q).busyContexts.map .run :=
    turns_of_idle rfl (busy_presenting q s)
  rw [present_eq]
  split
  next alone => exact turn_of_turns (by rw [turns, List.isEmpty_iff.mp alone, List.map_nil])
  next others => exact turn_of_zero_pick turns (by simpa using others)

theorem instr?_eq_some {d : Decoded} {i : Instr} : d.instr? = some i ↔ d = .instr i := by
  cases d <;> simp [Decoded.instr?]

/-- Settles O11: the step issues the presented request (`turn_present`), which leaves the host's queue as it
was before. -/
theorem presentedWordRunsFirst : Obligations.PresentedWordRunsFirst := fun s nbits w _ hw =>
  have ht := turn_present (.ofTableWord nbits w) s
  step_issue ht (turn_inbox ht).symm (instr?_eq_some.mp hw)

end Sys2Proof.Machine
